-- ==== Sys2Proof/Syntax.lean ====
section
/-! DEFINITION. The instructions and events of the AC400: one constructor of `Instr` per row of spec/opcode_table.json. -/

namespace Sys2Proof

/-- Vector register field (R32). -/
abbrev VReg := BitVec 7
/-- Uniform register field (R25, R110). -/
abbrev SReg := BitVec 6
/-- Thread predicate, uniform predicate, token, tile or bound index field. -/
abbrev Ix3 := BitVec 3

/-- The special operands of R35. -/
inductive Special where
  | ord | rank | rbase | pos | lane | sheaf | team | core | die
  deriving DecidableEq, Repr

/-- Signed or unsigned reading of 32 bits: `.i32` or `.n32`. -/
inductive Sgn where
  | i32 | n32
  deriving DecidableEq, Repr

/-- The six conditions of R30. -/
inductive Cond where
  | eq | ne | lt | le | gt | ge
  deriving DecidableEq, Repr

/-- The rounding modes of R59. -/
inductive Rm where
  | ne | zero | up | down
  deriving DecidableEq, Repr

/-- The float formats of R34. -/
inductive FFmt where
  | f32 | bf16 | e4m3 | e5m2 | e2m1
  deriving DecidableEq, Repr

/-- The integer formats of R34 without the 64-bit ones. -/
inductive IFmt where
  | i32 | n32 | i16 | n16 | i8 | n8
  deriving DecidableEq, Repr

/-- A source or destination format of `fcvt` (R142) and of `mx.drain` (R243). -/
inductive Fmt where
  | flt (f : FFmt)
  | int (i : IFmt)
  deriving DecidableEq, Repr

/-- The lane and uniform memory spaces (R26, R33). -/
inductive Space where
  | sh | sp | stk
  deriving DecidableEq, Repr

/-- The ordering annotations of R33. -/
inductive Order where
  | rlx | acq | rel | ar
  deriving DecidableEq, Repr

/-- The scopes of R33. -/
inductive Scope where
  | sheaf | swath | team | die | device | domain
  deriving DecidableEq, Repr

/-- The atomic operations of R26. -/
inductive AOp where
  | add | min | max | and | or | xor | exch | cas
  deriving DecidableEq, Repr

/-- The types of uniform memory accesses (R26). -/
inductive UTy where
  | b32 | i8 | n8 | i16 | n16 | w64
  deriving DecidableEq, Repr

/-- The types of lane loads and stores (R194). -/
inductive LTy where
  | b32 | i16 | n16 | i8 | n8
  deriving DecidableEq, Repr

/-- How many registers a load or store moves (R194). -/
inductive Cnt where
  | one | two | four
  deriving DecidableEq, Repr

/-- The operations of `s.qop` (R28). -/
inductive QOp where
  | and | or | xor | andn | not
  deriving DecidableEq, Repr

/-- The modes of `shfl` (R146). -/
inductive ShMode where
  | idx | up | down | xor
  deriving DecidableEq, Repr

/-- The combining operations and types of `scan` and `red` that R146 admits. -/
inductive ScanOp where
  | addi | addn | addf
  | mini | minn | minf | maxi | maxn | maxf
  | and | or | xor
  deriving DecidableEq, Repr

/-- The type of `cx` (R146). -/
inductive CxTy where
  | i32 | n32 | f32
  deriving DecidableEq, Repr

/-- What `bd.get`, `bd.set` and `bd.clr` name (R266). -/
inductive BdSrc where
  | tile (i : Ix3)
  | a | w
  deriving DecidableEq, Repr

/-- The operations of `cp.red` (R219). -/
inductive RedOp where
  | addf32 | addbf16 | addi32 | minf32 | maxf32 | mini32 | maxi32
  deriving DecidableEq, Repr

/-- What the device measures over a 1 ms window: its power in watts and its temperature (R465, R476). -/
structure PowerReading where
  pwr  : Word
  temp : Word
  deriving DecidableEq, Repr

/-- The header fields of an L-word (R31). -/
structure Hdr where
  la   : BitVec 4
  neg  : Bool
  pred : Ix3
  wait : BitVec 8
  deriving DecidableEq, Repr

/-- The first source of a lane operation (R123). -/
inductive SrcA where
  | reg (v : VReg)
  | special (x : Special)
  deriving DecidableEq, Repr

/-- The second source of a lane operation (R123). -/
inductive SrcB where
  | reg (v : VReg)
  | imm (i : BitVec 16)
  deriving DecidableEq, Repr

/-- The class-A operations, which alone may stand in a pair (R36, R37). -/
inductive ClassA where
  | add | sub | mul | mulh (g : Sgn) | and | or | xor | andn | shl | shr | sra | rot
  | min (g : Sgn) | max (g : Sgn)
  | mov | not | abs | neg | clz | popc | brev
  | fadd | fsub | fmul | fmin | fmax | ffma
  | badd2 | bmul2 | bfma2
  deriving DecidableEq, Repr

/-- The operation in slot B of a pair (R32 mode 01). -/
structure PairOp where
  op : ClassA
  vd : VReg
  va : VReg
  vb : VReg
  deriving DecidableEq, Repr

/-- The operands of a two-source integer operation: alone, or in slot A of a pair. -/
inductive Bin where
  | one (a : SrcA) (b : SrcB)
  | pair (va vb : VReg) (second : PairOp)
  deriving DecidableEq, Repr

/-- The operands of a one-source integer operation. -/
inductive Un where
  | one (a : SrcA)
  | pair (va : VReg) (second : PairOp)
  deriving DecidableEq, Repr

/-- The operands of a two-source floating operation with a rounding field. -/
inductive FBin where
  | one (va vb : VReg) (rm : Rm)
  | pair (va vb : VReg) (second : PairOp)
  deriving DecidableEq, Repr

/-- The operands of `fmin` and `fmax`, which have no rounding field. -/
inductive FSel where
  | one (va vb : VReg)
  | pair (va vb : VReg) (second : PairOp)
  deriving DecidableEq, Repr

/-- The operands of `ffma` and `bfma2`; in a pair the addend is the destination (R37). -/
inductive FTri where
  | one (va vb vc : VReg) (rm : Rm)
  | pair (va vb : VReg) (second : PairOp)
  deriving DecidableEq, Repr

/-- The annotations of a lane memory access (R33, R194). -/
structure Acc where
  space : Space
  order : Order
  scope : Scope
  rmt   : Bool
  deriving DecidableEq, Repr

/-- The ring target of a copy command (R210): ring, slot, and whether it is used. -/
structure Ring where
  ring : BitVec 4
  slot : BitVec 4
  use  : Bool
  deriving DecidableEq, Repr

/-- The slot an `rg` word names (R227): with `dyn`, `ea` adds to the slot. -/
structure RingSlot where
  ring : BitVec 4
  slot : BitVec 4
  dyn  : Bool
  ea   : SReg
  deriving DecidableEq, Repr

/-- Which check of R44 a word that is not an instruction fails. -/
inductive DecFault where
  | kind | pageEnd | opcode | pair | field | modifier | register
  deriving DecidableEq, Repr

/-- Why an instruction fetch fails (R79, R398). -/
inductive FetchCause where
  | translation | permission | accessError
  deriving DecidableEq, Repr

/-- The register files of a sheaf (R107). -/
inductive RegFile where
  | vector | predicate | uniform | truth
  deriving DecidableEq, Repr

/-- Where a read meets an uncorrectable error (R201, R202, R244). -/
inductive ScrubErr where
  /-- A granule of a space: the team and the sheaf for `.sh` and `.stk`, and its byte address: in the team's window, the
  sheaf's region or the die's scratchpad. -/
  | granule (space : Space) (tid slot addr : Nat)
  /-- A register of a sheaf, and of the thread at a position in a file that each thread has. -/
  | register (tid slot : Nat) (file : RegFile) (pos r : Nat)
  /-- A granule of a register file, of team memory or of the stacks that no team holds. -/
  | unheld
  /-- A line of main memory (R207). -/
  | memory (line : Nat)
  /-- A word of a tile of a core's engine. -/
  | tile (core n : Nat)
  /-- A word of a checkpoint slot. -/
  | checkpoint (core slot n : Nat)
  /-- A line of a core's instruction cache, by its place there. -/
  | code (core n : Nat)
  /-- A line of a core's combining cache, by its scratchpad line. -/
  | combining (core line : Nat)
  deriving DecidableEq, Repr

/-- One step of the AC400: an instruction word, or an event of one of its agents.
Lookahead (`la`) and header (`h`) fields are kept, so that encoding loses nothing. -/
inductive Instr where
  -- U-words (R28, R29)
  | endw
  | ret (sa : SReg)
  | jr (sa : SReg)
  | sAdd (sd sa sb : SReg)
  | sAddImm (sd sa : SReg) (imm : BitVec 11)
  | sSub (sd sa sb : SReg)
  | sSubImm (sd sa : SReg) (imm : BitVec 11)
  | sMul (sd sa sb : SReg)
  | sMulImm (sd sa : SReg) (imm : BitVec 11)
  | sMulhI32 (sd sa sb : SReg)
  | sMulhI32Imm (sd sa : SReg) (imm : BitVec 11)
  | sMulhN32 (sd sa sb : SReg)
  | sMulhN32Imm (sd sa : SReg) (imm : BitVec 11)
  | sAnd (sd sa sb : SReg)
  | sAndImm (sd sa : SReg) (imm : BitVec 11)
  | sOr (sd sa sb : SReg)
  | sOrImm (sd sa : SReg) (imm : BitVec 11)
  | sXor (sd sa sb : SReg)
  | sXorImm (sd sa : SReg) (imm : BitVec 11)
  | sShl (sd sa sb : SReg)
  | sShlImm (sd sa : SReg) (imm : BitVec 11)
  | sShr (sd sa sb : SReg)
  | sShrImm (sd sa : SReg) (imm : BitVec 11)
  | sSra (sd sa sb : SReg)
  | sSraImm (sd sa : SReg) (imm : BitVec 11)
  | sMinI32 (sd sa sb : SReg)
  | sMinI32Imm (sd sa : SReg) (imm : BitVec 11)
  | sMinN32 (sd sa sb : SReg)
  | sMinN32Imm (sd sa : SReg) (imm : BitVec 11)
  | sMaxI32 (sd sa sb : SReg)
  | sMaxI32Imm (sd sa : SReg) (imm : BitVec 11)
  | sMaxN32 (sd sa sb : SReg)
  | sMaxN32Imm (sd sa : SReg) (imm : BitVec 11)
  | sCmpI32 (cc : Cond) (qd : Ix3) (sa sb : SReg)
  | sCmpI32Imm (cc : Cond) (qd : Ix3) (sa : SReg) (imm : BitVec 11)
  | sCmpN32 (cc : Cond) (qd : Ix3) (sa sb : SReg)
  | sCmpN32Imm (cc : Cond) (qd : Ix3) (sa : SReg) (imm : BitVec 11)
  | sSel (sd sa sb : SReg) (neg : Bool) (q : Ix3)
  | sMov (sd sa : SReg)
  | sMovSpecial (sd : SReg) (x : Special)
  | sAddi (sd sa : SReg) (imm : BitVec 12)
  | sBfx (sd sa : SReg) (width : BitVec 6) (pos : BitVec 5)
  | sPopc (sd sa : SReg)
  | sClz (sd sa : SReg)
  | sQop (op : QOp) (qd qa qb : Ix3)
  | sLd (ty : UTy) (space : Space) (sd sa : SReg) (off : BitVec 7)
  | sSt (ty : UTy) (space : Space) (sd sa : SReg) (off : BitVec 7)
  | sAtom (op : AOp) (wide : Bool) (space : Space) (sd sa : SReg)
  | br (off : BitVec 20)
  | bc (neg : Bool) (q : Ix3) (off : BitVec 20)
  | bv (neg : Bool) (p : Ix3) (j : BitVec 4) (off : BitVec 16)
  | call (sd : SReg) (off : BitVec 20)
  | loop (sc : SReg) (off : BitVec 20)
  | join (j : BitVec 4)
  | sMovi (sd : SReg) (imm : BitVec 20)
  | sLui (sd : SReg) (imm : BitVec 20)
  -- lane integer (R124 to R129)
  | add (h : Hdr) (vd : VReg) (x : Bin)
  | sub (h : Hdr) (vd : VReg) (x : Bin)
  | mul (h : Hdr) (vd : VReg) (x : Bin)
  | mulh (h : Hdr) (g : Sgn) (vd : VReg) (x : Bin)
  | and (h : Hdr) (vd : VReg) (x : Bin)
  | or (h : Hdr) (vd : VReg) (x : Bin)
  | xor (h : Hdr) (vd : VReg) (x : Bin)
  | andn (h : Hdr) (vd : VReg) (x : Bin)
  | shl (h : Hdr) (vd : VReg) (x : Bin)
  | shr (h : Hdr) (vd : VReg) (x : Bin)
  | sra (h : Hdr) (vd : VReg) (x : Bin)
  | rot (h : Hdr) (vd : VReg) (x : Bin)
  | min (h : Hdr) (g : Sgn) (vd : VReg) (x : Bin)
  | max (h : Hdr) (g : Sgn) (vd : VReg) (x : Bin)
  | mov (h : Hdr) (vd : VReg) (x : Un)
  | not (h : Hdr) (vd : VReg) (x : Un)
  | abs (h : Hdr) (vd : VReg) (x : Un)
  | neg (h : Hdr) (vd : VReg) (x : Un)
  | clz (h : Hdr) (vd : VReg) (x : Un)
  | popc (h : Hdr) (vd : VReg) (x : Un)
  | brev (h : Hdr) (vd : VReg) (x : Un)
  | movi (h : Hdr) (vd : VReg) (imm : Word)
  | mad (h : Hdr) (vd va : VReg) (b : SrcB) (vc : VReg)
  | sad (h : Hdr) (g : Sgn) (vd va : VReg) (b : SrcB) (vc : VReg)
  | dot4 (h : Hdr) (g : Sgn) (sat : Bool) (vd va : VReg) (b : SrcB) (vc : VReg)
  | bfx (h : Hdr) (g : Sgn) (vd va : VReg) (pos : BitVec 5) (width : BitVec 6)
  | bfi (h : Hdr) (vd va vb : VReg) (pos : BitVec 5) (width : BitVec 6)
  | sel (h : Hdr) (vd va : VReg) (b : SrcB) (neg : Bool) (p : Ix3)
  | cmp (h : Hdr) (g : Sgn) (cc : Cond) (pd : Ix3) (va : VReg) (b : SrcB)
  | div (h : Hdr) (g : Sgn) (vd va : VReg) (b : SrcB)
  | rem (h : Hdr) (g : Sgn) (vd va : VReg) (b : SrcB)
  -- lane floating point (R131 to R143)
  | fadd (h : Hdr) (vd : VReg) (x : FBin)
  | fsub (h : Hdr) (vd : VReg) (x : FBin)
  | fmul (h : Hdr) (vd : VReg) (x : FBin)
  | fmin (h : Hdr) (vd : VReg) (x : FSel)
  | fmax (h : Hdr) (vd : VReg) (x : FSel)
  | ffma (h : Hdr) (vd : VReg) (x : FTri)
  | fcmp (h : Hdr) (cc : Cond) (pd : Ix3) (va vb : VReg)
  | fclass (h : Hdr) (f : FFmt) (vd va : VReg)
  | frcp (h : Hdr) (rm : Rm) (vd va : VReg)
  | frsq (h : Hdr) (vd va : VReg)
  | fsqrt (h : Hdr) (rm : Rm) (vd va : VReg)
  | fex2 (h : Hdr) (vd va : VReg)
  | flg2 (h : Hdr) (vd va : VReg)
  | fsin (h : Hdr) (vd va : VReg)
  | fcos (h : Hdr) (vd va : VReg)
  | ftanh (h : Hdr) (vd va : VReg)
  | fcvt (h : Hdr) (sat : Bool) (rm : Rm) (dst src : Fmt) (vd va : VReg)
  | frnd (h : Hdr) (rm : Rm) (vd va : VReg)
  | badd2 (h : Hdr) (vd : VReg) (x : FBin)
  | bmul2 (h : Hdr) (vd : VReg) (x : FBin)
  | bfma2 (h : Hdr) (vd : VReg) (x : FTri)
  | bfma2V2 (h : Hdr) (vd : VReg) (x : FTri)
  -- cross-thread and bitmap (R146 to R154)
  | shfl (h : Hdr) (m : ShMode) (sw : Bool) (vd va : VReg) (b : SrcB)
  | bal (h : Hdr) (sw : Bool) (vd : VReg) (neg : Bool) (p : Ix3)
  | scan (h : Hdr) (op : ScanOp) (ex : Bool) (sw : Bool) (vd va : VReg)
  | red (h : Hdr) (op : ScanOp) (sw : Bool) (vd va : VReg)
  | cx (h : Hdr) (ty : CxTy) (sw : Bool) (vd va : VReg) (b : SrcB) (neg : Bool) (p : Ix3)
  | vany (h : Hdr) (sw : Bool) (pd : Ix3) (neg : Bool) (p : Ix3)
  | vall (h : Hdr) (sw : Bool) (pd : Ix3) (neg : Bool) (p : Ix3)
  | meq (h : Hdr) (sw : Bool) (vd va : VReg)
  | bmAnd (h : Hdr) (vd : VReg) (p : Ix3) (va vb : VReg)
  | bmRank (h : Hdr) (vd va : VReg) (b : SrcB) (vc : VReg)
  | bmSel (h : Hdr) (vd va : VReg) (b : SrcB)
  | isect (h : Hdr) (g : Sgn) (sp : Bool) (vd va vb vc : VReg) (imm : BitVec 16)
  -- rounds (R158 to R174)
  | sow (h : Hdr) (va : VReg)
  | sowSg (h : Hdr) (va : VReg)
  | sowQ (h : Hdr) (vd va : VReg)
  -- moves, bound registers, lane memory
  | v2s (h : Hdr) (sd : SReg) (va : VReg)
  | s2v (h : Hdr) (vd : VReg) (sa : SReg)
  | bdGet (h : Hdr) (vd : VReg) (src : BdSrc)
  | bdSet (h : Hdr) (mx : Bool) (dst : BdSrc) (va : VReg)
  | bdClr (h : Hdr) (dst : BdSrc)
  | ld (h : Hdr) (a : Acc) (ty : LTy) (n : Cnt) (vd va : VReg) (off : BitVec 16)
  | st (h : Hdr) (a : Acc) (ty : LTy) (n : Cnt) (vd va : VReg) (off : BitVec 16)
  | atom (h : Hdr) (op : AOp) (a : Acc) (g : Sgn) (vd va vb vc : VReg) (off : BitVec 13)
  | fence (h : Hdr) (scope : Scope)
  -- copies (R210 to R227)
  | cpBlkLd (la : BitVec 4) (tk : Ix3) (r : Ring) (oc m n : SReg)
  | cpBlkSt (la : BitVec 4) (tk : Ix3) (r : Ring) (oc m n : SReg)
  | cpBlkMm (la : BitVec 4) (tk : Ix3) (r : Ring) (src dst n : SReg)
  | cpTenLd (la : BitVec 4) (tk : Ix3) (r : Ring) (oc l : SReg)
  | cpTenSt (la : BitVec 4) (tk : Ix3) (r : Ring) (oc l : SReg)
  | cpTenLdBnd (la : BitVec 4) (tk : Ix3) (r : Ring) (oc l : SReg) (i : Ix3)
  | cpTenStBnd (la : BitVec 4) (tk : Ix3) (r : Ring) (oc l : SReg) (i : Ix3)
  | cpTenLdBnda (la : BitVec 4) (tk : Ix3) (r : Ring) (oc l : SReg)
  | cpTenLdBndw (la : BitVec 4) (tk : Ix3) (r : Ring) (oc l : SReg)
  | cpRed (la : BitVec 4) (tk : Ix3) (r : Ring) (dir : BitVec 2) (op : RedOp) (ea eb n : SReg)
  | cpFillOc (la : BitVec 4) (tk : Ix3) (r : Ring) (oc pat n : SReg)
  | cpFillMm (la : BitVec 4) (tk : Ix3) (r : Ring) (pat m n : SReg)
  | cpGat (la : BitVec 4) (tk : Ix3) (r : Ring) (z : Ix3) (d lim : SReg)
  | cpSct (la : BitVec 4) (tk : Ix3) (r : Ring) (z : Ix3) (d lim : SReg)
  | tkWait (la : BitVec 4) (mask : BitVec 8)
  | tkWaitSt (la : BitVec 4) (sd : SReg) (mask : BitVec 8)
  | rgAcqEmpty (la : BitVec 4) (r : RingSlot)
  | rgAcqFull (la : BitVec 4) (r : RingSlot)
  | rgRel (la : BitVec 4) (r : RingSlot)
  -- matrix (R243 to R276)
  | mxLdw (la : BitVec 4) (w f : SReg)
  | mxFlip (la : BitVec 4)
  | mxRun (la : BitVec 4) (tk : Ix3) (i : Ix3) (a f : SReg)
  | mxRunV (la : BitVec 4) (tk : Ix3) (i : Ix3) (vx : VReg) (f : SReg)
  | mxCmatId (la : BitVec 4) (tk : Ix3) (i : Ix3)
  | mxCmatTr (la : BitVec 4) (tk : Ix3) (i : Ix3)
  | mxCmatPerm (la : BitVec 4) (tk : Ix3) (i : Ix3) (vx : VReg)
  | mxCmatSum (la : BitVec 4) (tk : Ix3) (i : Ix3)
  | mxDrain (la : BitVec 4) (tk : Ix3) (i : Ix3) (fmt : Fmt) (sat : Bool) (rm : Rm) (vx vy : VReg) (c : SReg)
  | mxZero (la : BitVec 4) (i : Ix3)
  | mxFence (la : BitVec 4)
  | mxWait (la : BitVec 4) (tk : Ix3)
  | mxBeg (la : BitVec 4) (i : Ix3) (n : Bool)
  | mxRedo (la : BitVec 4) (tk : Ix3) (i : Ix3) (n : Bool)
  -- waiting (R302 to R313)
  | susp (sn st sc : SReg)
  | evAdd (la : BitVec 4) (sn sv : SReg)
  | evAddRet (la : BitVec 4) (sd sn sv : SReg)
  | evSet (la : BitVec 4) (sn sv : SReg)
  | evGet (la : BitVec 4) (sd sn : SReg)
  -- sibling groups (R321 to R337)
  | sgNew (la : BitVec 4) (sd sp : SReg)
  | sgJoin (la : BitVec 4) (st : SReg)
  | sgJoinClr (la : BitVec 4)
  | sgVote (la : BitVec 4) (sd dh : SReg)
  | sgVoteAbst (la : BitVec 4) (sd : SReg)
  | sgCpt (la : BitVec 4)
  | sgStatSt (la : BitVec 4) (sd sg : SReg)
  | sgStatHash (la : BitVec 4) (sd sg : SReg)
  | sgStatWait (la : BitVec 4) (sd sg : SReg)
  | sgFree (la : BitVec 4) (sg : SReg)
  -- launch (R348 to R356)
  | lnch (la : BitVec 4) (tk : Ix3) (q card : SReg)
  | lnchTry (la : BitVec 4) (tk : Ix3) (q card : SReg)
  | post (la : BitVec 4) (tk : Ix3) (q card : SReg)
  | postTry (la : BitVec 4) (tk : Ix3) (q card : SReg)
  -- system (R368 to R388)
  | trap (imm : Word)
  | scall (imm : Word)
  | brk (imm : Word)
  | eretFc (sn st : SReg)
  | srGet (la : BitVec 4) (reg : BitVec 12) (sd : SReg)
  | srSet (la : BitVec 4) (reg : BitVec 12) (ss : SReg)
  -- translation (R394 to R403)
  | tlbInvPage (sa va : SReg)
  | tlbInvAsid (sa : SReg)
  | pgProbe (rd sa va : SReg)
  -- die-to-die queues, clocks, power (R410 to R425, R462)
  | dqPush (la : BitVec 4) (q oc rd : SReg)
  | dqPushTry (la : BitVec 4) (q oc rd : SReg)
  | dqPop (la : BitVec 4) (q oc rd : SReg)
  | dqPopTry (la : BitVec 4) (q oc rd : SReg)
  -- fabric (R429 to R451)
  | nxPut (tk : Ix3) (d n r : SReg)
  | nxGet (tk : Ix3) (d n r : SReg)
  | nxAtom (tk : Ix3) (op : AOp) (d v r : SReg)
  | nxSig (tk : Ix3) (d v r : SReg)
  | nxProbe (tk : Ix3) (rt r : SReg)
  | nxTopo (tk : Ix3) (m r : SReg)
  | nxTree (tk : Ix3) (m r : SReg)
  -- token log (R455 to R459)
  | lgAppTok (la : BitVec 4) (tk : Ix3) (a s r : SReg)
  | lgAppCommit (la : BitVec 4) (tk : Ix3) (a s r : SReg)
  | lgAppVoid (la : BitVec 4) (tk : Ix3) (a s r : SReg)
  | illegalWord (f : DecFault) (parcel : Word)
  | fetchFault (c : FetchCause) (addr : Nat)
  -- events of the device's own agents
  | copyChunk (die core : Nat)
  | gatherBatch (die : Nat)
  | matrixCommandPerform (die core : Nat)
  | jobReRun (die core slot : Nat)
  | eventCounterUpdate (ix : Nat)
  | swapOut (tid : Nat)
  | swapReturn (tid : Nat)
  | ballotAccept (ix : Nat)
  | cancelInstant (ix : Nat)
  | pageReleaseWalk (ix : Nat)
  | groupRecordFree (die g : Nat)
  | cardAccept (ix : Nat)
  | teamPlace (die : Nat)
  | gangReserve (die : Nat)
  | plotRetire (plot : Nat)
  | dqEntryStore (link : Nat)
  | fabricPacketReceive (ix : Nat)
  | fabricTimeout (ix : Nat)
  | logAppend (die core : Nat)
  | sowRoundRetry (tid : Nat)
  | siloResumption (tid : Nat)
  | powerStateEnter (die st : Nat)
  | powerStateExit (die : Nat)
  | wearRecompute (die : Nat)
  | sbalUpdate (die : Nat)
  | siloStall (asid : Nat)
  | contextDrained (asid : Nat)
  | relockEnd (die : Nat)
  | preemptStage2 (asid : Nat)
  | preemptStage3 (asid : Nat)
  | fabricLoadUpdate (first : Nat)
  -- events that the supervisor, the host and the surroundings bring about
  | pageWalk (asid va : Nat)
  | powerWindow (die : Nat) (reading : PowerReading)
  | hrecovWrite (v : Word)
  | hlnchWrite (v : BitVec 64)
  | hcrtailWrite (v : Word)
  | hostRegisterWrite (off : Nat) (v : BitVec 64)
  | hostMemoryRead (addr len : Nat)
  | hostMemoryWrite (addr : Nat) (bytes : List Byte)
  | managementRequest (req : Nat)
  | lifeCycleCommand (cmd : Nat) (bytes : List Byte)
  | getMeasurements (nonce : List Byte)
  | fqsizeWrite (die : Nat) (v : Word)
  | fqbaseWrite (die : Nat) (v : BitVec 64)
  | hcrsizeWrite (v : Word)
  | hostLinkTraining (cxl : Bool)
  | fqtailWrite (die : Nat) (v : Word)
  | pctlPreempt (asid : Nat)
  | pctlTeardown (asid : Nat)
  | pctlRelease (asid : Nat)
  | qownSet (queue asid : Nat)
  | qownClear (queue : Nat)
  | dfreqWrite (die : Nat) (v : Word)
  | lattolWrite (v : Word)
  | fqactResume (die index : Nat)
  | fqactEnd (die index : Nat)
  | linkStateChange (port : Nat) (up : Bool)
  | scrubPass (die : Nat) (err : Option ScrubErr)
  | fieldReread (asid : Nat)
  -- words and events without operands
  | nop
  | barSwath
  | barTeam
  | barGang
  | tlbInvAll
  | tlbSync
  | idle
  | eret
  | meridianTick
  | packageReset
  | recoveryVerifyDone
  | hostCompletionRecord
  | thermalTrip
  deriving DecidableEq, Repr

end Sys2Proof
end

