-- ==== Sys2Proof/Decode.lean ====
section
/-! DEFINITION. The decoder of R22 to R44, total on any parcels and rejecting by check, and the encoder written from the same tables. -/

namespace Sys2Proof

/-! ### Codes of small fields -/

/-- The special operand of a code (R35); codes 9 to 127 are unassigned. -/
def Special.ofCode (n : Nat) : Option Special :=
  match n with
  | 0 => some .ord | 1 => some .rank | 2 => some .rbase | 3 => some .pos | 4 => some .lane
  | 5 => some .sheaf | 6 => some .team | 7 => some .core | 8 => some .die | _ => none

/-- The code of a special operand (R35). -/
def Special.code : Special → Nat
  | .ord => 0 | .rank => 1 | .rbase => 2 | .pos => 3 | .lane => 4
  | .sheaf => 5 | .team => 6 | .core => 7 | .die => 8

/-- The condition of a code (R30). -/
def Cond.ofCode (b : Ix3) : Option Cond :=
  match b.toNat with
  | 0 => some .eq | 1 => some .ne | 2 => some .lt | 3 => some .le | 4 => some .gt | 5 => some .ge
  | _ => none

/-- The code of a condition (R30). -/
def Cond.code : Cond → Ix3
  | .eq => 0 | .ne => 1 | .lt => 2 | .le => 3 | .gt => 4 | .ge => 5

/-- The rounding mode of a code (R59). -/
def Rm.ofCode (b : BitVec 2) : Rm :=
  match b.toNat with
  | 0 => .ne | 1 => .zero | 2 => .up | _ => .down

/-- The code of a rounding mode (R59). -/
def Rm.code : Rm → BitVec 2
  | .ne => 0 | .zero => 1 | .up => 2 | .down => 3

/-- The float format of a type code (R34). -/
def FFmt.ofCode (n : Nat) : Option FFmt :=
  match n with
  | 0 => some .f32 | 1 => some .bf16 | 2 => some .e4m3 | 3 => some .e5m2 | 4 => some .e2m1 | _ => none

/-- The type code of a float format (R34). -/
def FFmt.code : FFmt → Nat
  | .f32 => 0 | .bf16 => 1 | .e4m3 => 2 | .e5m2 => 3 | .e2m1 => 4

/-- The integer format of a type code (R34), the 64-bit ones left out. -/
def IFmt.ofCode (n : Nat) : Option IFmt :=
  match n with
  | 0 => some .i32 | 1 => some .n32 | 2 => some .i16 | 3 => some .n16 | 4 => some .i8 | 5 => some .n8
  | _ => none

/-- The type code of an integer format (R34). -/
def IFmt.code : IFmt → Nat
  | .i32 => 0 | .n32 => 1 | .i16 => 2 | .n16 => 3 | .i8 => 4 | .n8 => 5

/-- The source format field of `fcvt` (R33): a float code, or 8 plus an integer code. -/
def Fmt.ofSrcCode (n : Nat) : Option Fmt :=
  if n < 8 then (FFmt.ofCode n).map .flt else (IFmt.ofCode (n - 8)).map .int

/-- The code of a source format (R33). -/
def Fmt.srcCode : Fmt → Nat
  | .flt f => f.code
  | .int i => 8 + i.code

/-- The drain format field of R243: its codes are those of R33, not all admitted. -/
def Fmt.ofDrainCode (n : Nat) : Option Fmt :=
  match n with
  | 0 => some (.flt .f32) | 1 => some (.flt .bf16) | 2 => some (.flt .e4m3) | 3 => some (.flt .e5m2)
  | 4 => some (.flt .e2m1) | 8 => some (.int .i32) | 12 => some (.int .i8) | _ => none

/-- The space of a code (R26, R33). -/
def Space.ofCode (b : BitVec 2) : Option Space :=
  match b.toNat with
  | 0 => some .sh | 1 => some .sp | 2 => some .stk | _ => none

/-- The code of a space. -/
def Space.code : Space → BitVec 2
  | .sh => 0 | .sp => 1 | .stk => 2

/-- The order of a code (R33). -/
def Order.ofCode (b : BitVec 2) : Order :=
  match b.toNat with
  | 0 => .rlx | 1 => .acq | 2 => .rel | _ => .ar

/-- The code of an order. -/
def Order.code : Order → BitVec 2
  | .rlx => 0 | .acq => 1 | .rel => 2 | .ar => 3

/-- The scope of a code (R33). -/
def Scope.ofCode (b : Ix3) : Option Scope :=
  match b.toNat with
  | 0 => some .sheaf | 1 => some .swath | 2 => some .team | 3 => some .die | 4 => some .device
  | 5 => some .domain | _ => none

/-- The code of a scope. -/
def Scope.code : Scope → Ix3
  | .sheaf => 0 | .swath => 1 | .team => 2 | .die => 3 | .device => 4 | .domain => 5

/-- The atomic operation of a code (R26). -/
def AOp.ofCode (b : Ix3) : AOp :=
  match b.toNat with
  | 0 => .add | 1 => .min | 2 => .max | 3 => .and | 4 => .or | 5 => .xor | 6 => .exch | _ => .cas

/-- The code of an atomic operation (R26). -/
def AOp.code : AOp → Ix3
  | .add => 0 | .min => 1 | .max => 2 | .and => 3 | .or => 4 | .xor => 5 | .exch => 6 | .cas => 7

/-- The type of a uniform access (R26). -/
def UTy.ofCode (b : Ix3) : Option UTy :=
  match b.toNat with
  | 0 => some .b32 | 1 => some .i8 | 2 => some .n8 | 3 => some .i16 | 4 => some .n16 | 5 => some .w64
  | _ => none

/-- The code of the type of a uniform access (R26). -/
def UTy.code : UTy → Ix3
  | .b32 => 0 | .i8 => 1 | .n8 => 2 | .i16 => 3 | .n16 => 4 | .w64 => 5

/-- The type of a lane load or store (R194). -/
def LTy.ofCode (b : Ix3) : Option LTy :=
  match b.toNat with
  | 0 => some .b32 | 2 => some .i16 | 3 => some .n16 | 4 => some .i8 | 5 => some .n8 | _ => none

/-- The code of the type of a lane load or store (R194). -/
def LTy.code : LTy → Ix3
  | .b32 => 0 | .i16 => 2 | .n16 => 3 | .i8 => 4 | .n8 => 5

/-- The number of registers of a range (R194). -/
def Cnt.num : Cnt → Nat
  | .one => 1 | .two => 2 | .four => 4

/-- The range length from its first and last register; other lengths are refused (R195). -/
def Cnt.ofRange (first last : VReg) : Option Cnt :=
  if last.toNat = first.toNat then some .one
  else if last.toNat = first.toNat + 1 then some .two
  else if last.toNat = first.toNat + 3 then some .four
  else none

/-- The operation of `s.qop` (R28). -/
def QOp.ofCode (b : Ix3) : Option QOp :=
  match b.toNat with
  | 0 => some .and | 1 => some .or | 2 => some .xor | 3 => some .andn | 4 => some .not | _ => none

/-- The code of an operation of `s.qop` (R28). -/
def QOp.code : QOp → Ix3
  | .and => 0 | .or => 1 | .xor => 2 | .andn => 3 | .not => 4

/-- The mode of `shfl` (R146). -/
def ShMode.ofCode (b : Ix3) : Option ShMode :=
  match b.toNat with
  | 0 => some .idx | 1 => some .up | 2 => some .down | 3 => some .xor | _ => none

/-- The code of a mode of `shfl` (R146). -/
def ShMode.code : ShMode → Ix3
  | .idx => 0 | .up => 1 | .down => 2 | .xor => 3

/-- The combining operation of `scan` and `red` from its operation and type codes (R146). -/
def ScanOp.ofCode (op ty : Ix3) : Option ScanOp :=
  match op.toNat, ty.toNat with
  | 0, 0 => some .addi | 0, 1 => some .addn | 0, 2 => some .addf
  | 1, 0 => some .mini | 1, 1 => some .minn | 1, 2 => some .minf
  | 2, 0 => some .maxi | 2, 1 => some .maxn | 2, 2 => some .maxf
  | 3, 0 => some .and | 4, 0 => some .or | 5, 0 => some .xor
  | _, _ => none

/-- The operation code of a combining operation. -/
def ScanOp.opCode : ScanOp → Ix3
  | .addi => 0 | .addn => 0 | .addf => 0 | .mini => 1 | .minn => 1 | .minf => 1
  | .maxi => 2 | .maxn => 2 | .maxf => 2 | .and => 3 | .or => 4 | .xor => 5

/-- The type code of a combining operation. -/
def ScanOp.tyCode : ScanOp → Ix3
  | .addi => 0 | .addn => 1 | .addf => 2 | .mini => 0 | .minn => 1 | .minf => 2
  | .maxi => 0 | .maxn => 1 | .maxf => 2 | .and => 0 | .or => 0 | .xor => 0

/-- The type of `cx` (R146). -/
def CxTy.ofCode (b : Ix3) : Option CxTy :=
  match b.toNat with
  | 0 => some .i32 | 1 => some .n32 | 2 => some .f32 | _ => none

/-- The code of a type of `cx` (R146). -/
def CxTy.code : CxTy → Ix3
  | .i32 => 0 | .n32 => 1 | .f32 => 2

/-- The `.i32` and `.n32` type codes (R34). -/
def Sgn.ofCode (b : Ix3) : Option Sgn :=
  match b.toNat with
  | 0 => some .i32 | 1 => some .n32 | _ => none

/-- The code of `.i32` or `.n32` (R34). -/
def Sgn.code : Sgn → Ix3
  | .i32 => 0 | .n32 => 1

/-- The `.i8` and `.n8` type codes (R125, R153). -/
def Sgn.ofCode8 (b : Ix3) : Option Sgn :=
  match b.toNat with
  | 4 => some .i32 | 5 => some .n32 | _ => none

/-- The code of `.i8` or `.n8` (R34). -/
def Sgn.code8 : Sgn → Ix3
  | .i32 => 4 | .n32 => 5

/-- The operation of `cp.red` (R219). -/
def RedOp.ofCode (b : Ix3) : Option RedOp :=
  match b.toNat with
  | 0 => some .addf32 | 1 => some .addbf16 | 2 => some .addi32 | 3 => some .minf32
  | 4 => some .maxf32 | 5 => some .mini32 | 6 => some .maxi32 | _ => none

/-- The code of an operation of `cp.red` (R219). -/
def RedOp.code : RedOp → Ix3
  | .addf32 => 0 | .addbf16 => 1 | .addi32 => 2 | .minf32 => 3 | .maxf32 => 4 | .mini32 => 5 | .maxi32 => 6

/-- One bit as a Bool. -/
def bit (w : BitVec n) (i : Nat) : Bool := w.getLsbD i

/-! ### The raw fields of the word formats -/

/-- The fields of a register-form U-word (R25). -/
structure URaw where
  op  : BitVec 6
  sd  : BitVec 6
  sa  : BitVec 6
  low : BitVec 12
  deriving DecidableEq, Repr

/-- The fields of an immediate-form U-word (R27). -/
structure IRaw where
  op  : BitVec 4
  reg : BitVec 6
  imm : BitVec 20
  deriving DecidableEq, Repr

/-- The fields of an L-word's header (R31). -/
structure HRaw where
  la   : BitVec 4
  mode : BitVec 2
  neg  : BitVec 1
  pred : BitVec 3
  wait : BitVec 8
  rsv  : BitVec 12
  deriving DecidableEq, Repr

/-- The fields of an operation in slot format (R32). -/
structure SRaw where
  op : BitVec 8
  vd : BitVec 7
  va : BitVec 7
  vb : BitVec 7
  ty : BitVec 3
  deriving DecidableEq, Repr

/-- The fields of an extension word (R33). -/
structure XRaw where
  vc  : BitVec 7
  i   : BitVec 1
  s   : BitVec 1
  ctl : BitVec 7
  imm : BitVec 16
  deriving DecidableEq, Repr

/-- The fields of an E-word's command parcel (R39). -/
structure CRaw where
  la  : BitVec 4
  op  : BitVec 8
  tk  : BitVec 3
  sub : BitVec 3
  ea  : BitVec 6
  eb  : BitVec 6
  deriving DecidableEq, Repr

/-- The fields of an E-word's operand parcel of form EF (R39). -/
structure ORaw where
  ec  : BitVec 6
  vx  : BitVec 7
  vy  : BitVec 7
  ctl : BitVec 12
  deriving DecidableEq, Repr

/-- Read a register-form U-word. -/
def URaw.of (w : Word) : URaw :=
  ⟨w.extractLsb' 24 6, w.extractLsb' 18 6, w.extractLsb' 12 6, w.extractLsb' 0 12⟩
/-- Write a register-form U-word. -/
def URaw.word (r : URaw) : Word := (0 : BitVec 2) ++ r.op ++ r.sd ++ r.sa ++ r.low
/-- Read an immediate-form U-word. -/
def IRaw.of (w : Word) : IRaw :=
  ⟨w.extractLsb' 26 4, w.extractLsb' 20 6, w.extractLsb' 0 20⟩
/-- Write an immediate-form U-word. -/
def IRaw.word (r : IRaw) : Word := (1 : BitVec 2) ++ r.op ++ r.reg ++ r.imm
/-- Read a header parcel. -/
def HRaw.of (w : Word) : HRaw :=
  ⟨w.extractLsb' 26 4, w.extractLsb' 24 2, w.extractLsb' 23 1, w.extractLsb' 20 3,
   w.extractLsb' 12 8, w.extractLsb' 0 12⟩
/-- Write a header parcel. -/
def HRaw.word (r : HRaw) : Word :=
  (2 : BitVec 2) ++ r.la ++ r.mode ++ r.neg ++ r.pred ++ r.wait ++ r.rsv
/-- Read a slot parcel. -/
def SRaw.of (w : Word) : SRaw :=
  ⟨w.extractLsb' 24 8, w.extractLsb' 17 7, w.extractLsb' 10 7, w.extractLsb' 3 7, w.extractLsb' 0 3⟩
/-- Write a slot parcel. -/
def SRaw.word (r : SRaw) : Word := r.op ++ r.vd ++ r.va ++ r.vb ++ r.ty
/-- Read an extension parcel. -/
def XRaw.of (w : Word) : XRaw :=
  ⟨w.extractLsb' 25 7, w.extractLsb' 24 1, w.extractLsb' 23 1, w.extractLsb' 16 7, w.extractLsb' 0 16⟩
/-- Write an extension parcel. -/
def XRaw.word (r : XRaw) : Word := r.vc ++ r.i ++ r.s ++ r.ctl ++ r.imm
/-- Read a command parcel. -/
def CRaw.of (w : Word) : CRaw :=
  ⟨w.extractLsb' 26 4, w.extractLsb' 18 8, w.extractLsb' 15 3, w.extractLsb' 12 3,
   w.extractLsb' 6 6, w.extractLsb' 0 6⟩
/-- Write a command parcel. -/
def CRaw.word (r : CRaw) : Word :=
  (3 : BitVec 2) ++ r.la ++ r.op ++ r.tk ++ r.sub ++ r.ea ++ r.eb
/-- Read an operand parcel. -/
def ORaw.of (w : Word) : ORaw :=
  ⟨w.extractLsb' 26 6, w.extractLsb' 19 7, w.extractLsb' 12 7, w.extractLsb' 0 12⟩
/-- Write an operand parcel. -/
def ORaw.word (r : ORaw) : Word := r.ec ++ r.vx ++ r.vy ++ r.ctl

/-! ### The verdict of R44's checks 5 to 7 -/

/-- The answer of checks 5, 6 and 7 in order: a non-zero field marked zero, a code not admitted, a register
rule broken (no instruction). -/
def verdict (field modifier : Bool) (i : Option Instr) : Except DecFault Instr :=
  if field then .error .field
  else if modifier then .error .modifier
  else match i with
    | some i => .ok i
    | none => .error .register

/-- Keep an instruction only where a register rule holds. -/
def keep (ok : Bool) (i : Instr) : Option Instr := if ok then some i else none

/-- A register field names an even pair. -/
def isEven (r : BitVec n) : Bool := r.toNat % 2 == 0
/-- A register field is a multiple of 4. -/
def isQuad (r : BitVec n) : Bool := r.toNat % 4 == 0
/-- A register field is a multiple of 8. -/
def isOct (r : BitVec n) : Bool := r.toNat % 8 == 0

/-! ### System registers (R367) -/

/-- The width in bits of a system register number, where the table of R367 lists it. -/
def sysWidth (n : Nat) : Option Nat :=
  if n = 0x001 ∨ n = 0x002 ∨ n = 0x003 ∨ n = 0x006 ∨ n = 0x016 ∨ n = 0x01D ∨ n = 0x024 ∨ n = 0x025
    ∨ n = 0x030 ∨ n = 0x031 ∨ n = 0x032 ∨ n = 0x033 ∨ n = 0x038 then some 64
  else if 0x400 ≤ n ∧ n ≤ 0x4FF then some 64
  else if n = 0x004 ∨ n = 0x005 ∨ (0x010 ≤ n ∧ n ≤ 0x015) ∨ (0x017 ≤ n ∧ n ≤ 0x01C)
    ∨ (0x020 ≤ n ∧ n ≤ 0x023) ∨ n = 0x026 ∨ (0x034 ≤ n ∧ n ≤ 0x037) ∨ n = 0x039 ∨ n = 0x03A
    ∨ (0x100 ≤ n ∧ n ≤ 0x10F) then some 32
  else none

/-- A level may write the register (R367, the write column). -/
def sysWritable (n : Nat) : Bool :=
  n == 0x004 || n == 0x010 || n == 0x011 || n == 0x012 || n == 0x013 || n == 0x014 || n == 0x01A
    || n == 0x020 || n == 0x026 || n == 0x030 || n == 0x031 || n == 0x032 || n == 0x033 || n == 0x034
    || n == 0x036 || n == 0x037 || n == 0x038 || n == 0x039 || n == 0x03A
    || (decide (0x100 ≤ n) && decide (n ≤ 0x10F))

/-- The pair rule of R368: a 64-bit register needs an even uniform register. -/
def sysPairOk (n : Nat) (r : SReg) : Bool := !(sysWidth n == some 64) || isEven r

/-! ### U-words (R25 to R29, R121) -/

/-- A two-source register-form U-word: register or immediate second source. -/
def decU2 (r : URaw) (kr : SReg → SReg → SReg → Instr) (ki : SReg → SReg → BitVec 11 → Instr) :
    Except DecFault Instr :=
  if bit r.low 11 then .ok (ki r.sd r.sa (r.low.extractLsb' 0 11))
  else verdict (r.low.extractLsb' 0 5 != 0) false (some (kr r.sd r.sa (r.low.extractLsb' 5 6)))

/-- `s.cmp`: the condition and the destination predicate stand in sd (R30). -/
def decUCmp (r : URaw) (kr : Cond → Ix3 → SReg → SReg → Instr)
    (ki : Cond → Ix3 → SReg → BitVec 11 → Instr) : Except DecFault Instr :=
  let cc := Cond.ofCode (r.sd.extractLsb' 3 3)
  if bit r.low 11 then
    verdict false cc.isNone (cc.map fun c => ki c (r.sd.extractLsb' 0 3) r.sa (r.low.extractLsb' 0 11))
  else
    verdict (r.low.extractLsb' 0 5 != 0) cc.isNone
      (cc.map fun c => kr c (r.sd.extractLsb' 0 3) r.sa (r.low.extractLsb' 5 6))

/-- A uniform load or store (R26, R199, R200). -/
def decUMem (r : URaw) (k : UTy → Space → SReg → SReg → BitVec 7 → Instr) : Except DecFault Instr :=
  let ty := UTy.ofCode (r.low.extractLsb' 9 3)
  let sp := Space.ofCode (r.low.extractLsb' 7 2)
  verdict false (ty.isNone || sp.isNone) (do
    let t ← ty
    let s ← sp
    keep (!(t == .w64) || isEven r.sd) (k t s r.sd r.sa (r.low.extractLsb' 0 7)))

/-- The register rule of `s.atom` (R200). -/
def sAtomRegOk (op : AOp) (wide : Bool) (sd : SReg) : Bool :=
  match op, wide with
  | .cas, true => isQuad sd
  | .cas, false => isEven sd
  | _, true => isEven sd
  | _, false => true

/-- `s.atom` (R26, R199, R200). -/
def decUAtom (r : URaw) : Except DecFault Instr :=
  let ty := (r.low.extractLsb' 9 3).toNat
  let sp := Space.ofCode (r.low.extractLsb' 7 2)
  let op := AOp.ofCode (r.low.extractLsb' 4 3)
  verdict (r.low.extractLsb' 0 4 != 0) (!(ty == 0 || ty == 5) || !(sp == some .sh || sp == some .sp)) (do
    let s ← sp
    keep (sAtomRegOk op (ty == 5) r.sd) (.sAtom op (ty == 5) s r.sd r.sa))

/-- `s.qop` (R118, R121). -/
def decQop (r : URaw) : Except DecFault Instr :=
  let op := QOp.ofCode (r.low.extractLsb' 0 3)
  verdict (bit r.low 11 || r.sd.extractLsb' 3 3 != 0 || r.sa.extractLsb' 3 3 != 0
      || r.low.extractLsb' 8 3 != 0 || r.low.extractLsb' 3 2 != 0
      || (op == some .not && r.low.extractLsb' 5 3 != 0)) op.isNone
    (op.map fun o => .sQop o (r.sd.extractLsb' 0 3) (r.sa.extractLsb' 0 3) (r.low.extractLsb' 5 3))

/-- A register-form U-word (R28). -/
def decodeU (r : URaw) : Except DecFault Instr :=
  match r.op.toNat with
  | 0x01 => verdict (r.sd != 0 || r.sa != 0 || r.low != 0) false (some .nop)
  | 0x02 => verdict (r.sd != 0 || r.sa != 0 || r.low != 0) false (some .endw)
  | 0x03 => verdict (r.sd != 0 || r.low != 0) false (some (.ret r.sa))
  | 0x04 => verdict (r.sd != 0 || r.low != 0) false (some (.jr r.sa))
  | 0x08 => decU2 r .sAdd .sAddImm
  | 0x09 => decU2 r .sSub .sSubImm
  | 0x0A => decU2 r .sMul .sMulImm
  | 0x0B => decU2 r .sMulhI32 .sMulhI32Imm
  | 0x0C => decU2 r .sMulhN32 .sMulhN32Imm
  | 0x0D => decU2 r .sAnd .sAndImm
  | 0x0E => decU2 r .sOr .sOrImm
  | 0x0F => decU2 r .sXor .sXorImm
  | 0x10 => decU2 r .sShl .sShlImm
  | 0x11 => decU2 r .sShr .sShrImm
  | 0x12 => decU2 r .sSra .sSraImm
  | 0x13 => decU2 r .sMinI32 .sMinI32Imm
  | 0x14 => decU2 r .sMinN32 .sMinN32Imm
  | 0x15 => decU2 r .sMaxI32 .sMaxI32Imm
  | 0x16 => decU2 r .sMaxN32 .sMaxN32Imm
  | 0x17 => decUCmp r .sCmpI32 .sCmpI32Imm
  | 0x18 => decUCmp r .sCmpN32 .sCmpN32Imm
  | 0x19 => verdict (bit r.low 11 || bit r.low 4) false
      (some (.sSel r.sd r.sa (r.low.extractLsb' 5 6) (bit r.low 3) (r.low.extractLsb' 0 3)))
  | 0x1A =>
    let f := bit r.low 11 || r.low.extractLsb' 5 6 != 0 || r.low.extractLsb' 0 4 != 0
    if bit r.low 4 then verdict f false ((Special.ofCode r.sa.toNat).map (.sMovSpecial r.sd))
    else verdict f false (some (.sMov r.sd r.sa))
  | 0x1B => .ok (.sAddi r.sd r.sa r.low)
  | 0x1C =>
    let w : BitVec 6 := r.low.extractLsb' 5 6
    verdict (!bit r.low 11) (w == 0 || decide (32 < w.toNat))
      (some (.sBfx r.sd r.sa w (r.low.extractLsb' 0 5)))
  | 0x1D => verdict (r.low != 0) false (some (.sPopc r.sd r.sa))
  | 0x1E => verdict (r.low != 0) false (some (.sClz r.sd r.sa))
  | 0x1F => decQop r
  | 0x20 => decUMem r .sLd
  | 0x21 => decUMem r .sSt
  | 0x22 => decUAtom r
  | _ => .error .opcode

/-- An immediate-form U-word (R29, R100). -/
def decodeI (r : IRaw) : Except DecFault Instr :=
  match r.op.toNat with
  | 0x0 => verdict (r.reg != 0) false (some (.br r.imm))
  | 0x1 => verdict (r.reg.extractLsb' 4 2 != 0) false
      (some (.bc (bit r.reg 3) (r.reg.extractLsb' 0 3) r.imm))
  | 0x2 => verdict (r.reg.extractLsb' 4 2 != 0) false
      (some (.bv (bit r.reg 3) (r.reg.extractLsb' 0 3) (r.imm.extractLsb' 16 4) (r.imm.extractLsb' 0 16)))
  | 0x3 => .ok (.call r.reg r.imm)
  | 0x4 => .ok (.loop r.reg r.imm)
  | 0x5 => verdict (r.reg != 0 || r.imm.extractLsb' 0 16 != 0) false
      (some (.join (r.imm.extractLsb' 16 4)))
  | 0x6 => .ok (.sMovi r.reg r.imm)
  | 0x7 => .ok (.sLui r.reg r.imm)
  | _ => .error .opcode

/-! ### L-words (R31 to R38) -/

/-- The lane opcode under a version, by its version 3 number; 0x47 stands for version 2's `bfma2` (R43). -/
def laneOp (ver n : Nat) : Nat :=
  if ver = 3 then (if n = 0x47 then 0 else n)
  else if n = 0x19 then 0x1A
  else if n = 0x1A then 0x19
  else if n = 0x44 ∨ n = 0x61 then 0
  else if ver = 2 then n
  else if n = 0x47 ∨ n = 0x5B then 0
  else n

/-- The opcodes of R36, with 0x47 as `laneOp` leaves it. -/
def laneAssigned (n : Nat) : Bool :=
  (decide (0x01 ≤ n) && decide (n ≤ 0x0E)) || (decide (0x10 ≤ n) && decide (n ≤ 0x1E))
    || n == 0x20 || n == 0x21 || (decide (0x30 ≤ n) && decide (n ≤ 0x44)) || n == 0x47
    || (decide (0x50 ≤ n) && decide (n ≤ 0x5B)) || n == 0x60 || n == 0x61 || n == 0x64 || n == 0x65
    || (decide (0x68 ≤ n) && decide (n ≤ 0x6A)) || (decide (0x70 ≤ n) && decide (n ≤ 0x73))

/-- Class A (R36). -/
def isClassA (n : Nat) : Bool :=
  (decide (0x01 ≤ n) && decide (n ≤ 0x0E)) || (decide (0x10 ≤ n) && decide (n ≤ 0x16))
    || (decide (0x30 ≤ n) && decide (n ≤ 0x35)) || (decide (0x42 ≤ n) && decide (n ≤ 0x44)) || n == 0x47

/-- A one-source class-A opcode: its vb is zero and not read (R37). -/
def isUnaryA (n : Nat) : Bool := decide (0x10 ≤ n) && decide (n ≤ 0x16)

/-- The class-A operation of an opcode and type code, where the type is admitted (R124, R131). -/
def classAOf (n : Nat) (ty : Ix3) : Option ClassA :=
  match n with
  | 0x04 => (Sgn.ofCode ty).map .mulh
  | 0x0D => (Sgn.ofCode ty).map .min
  | 0x0E => (Sgn.ofCode ty).map .max
  | 0x42 => if ty = 1 then some .badd2 else none
  | 0x43 => if ty = 1 then some .bmul2 else none
  | 0x44 => if ty = 1 then some .bfma2 else none
  | 0x47 => if ty = 1 then some .bfma2 else none
  | n => if ty = 0 then
      match n with
      | 0x01 => some .add | 0x02 => some .sub | 0x03 => some .mul | 0x05 => some .and | 0x06 => some .or
      | 0x07 => some .xor | 0x08 => some .andn | 0x09 => some .shl | 0x0A => some .shr | 0x0B => some .sra
      | 0x0C => some .rot | 0x10 => some .mov | 0x11 => some .not | 0x12 => some .abs | 0x13 => some .neg
      | 0x14 => some .clz | 0x15 => some .popc | 0x16 => some .brev
      | 0x30 => some .fadd | 0x31 => some .fsub | 0x32 => some .fmul | 0x33 => some .fmin
      | 0x34 => some .fmax | 0x35 => some .ffma | _ => none
    else none

/-- The opcode of a class-A operation under a version (R36, R43). -/
def ClassA.code (ver : Nat) : ClassA → Nat
  | .add => 0x01 | .sub => 0x02 | .mul => 0x03 | .mulh _ => 0x04 | .and => 0x05 | .or => 0x06
  | .xor => 0x07 | .andn => 0x08 | .shl => 0x09 | .shr => 0x0A | .sra => 0x0B | .rot => 0x0C
  | .min _ => 0x0D | .max _ => 0x0E
  | .mov => 0x10 | .not => 0x11 | .abs => 0x12 | .neg => 0x13 | .clz => 0x14 | .popc => 0x15 | .brev => 0x16
  | .fadd => 0x30 | .fsub => 0x31 | .fmul => 0x32 | .fmin => 0x33 | .fmax => 0x34 | .ffma => 0x35
  | .badd2 => 0x42 | .bmul2 => 0x43 | .bfma2 => if ver = 2 then 0x47 else 0x44

/-- The type code of a class-A operation. -/
def ClassA.ty : ClassA → Ix3
  | .mulh g => g.code | .min g => g.code | .max g => g.code
  | .badd2 => 1 | .bmul2 => 1 | .bfma2 => 1
  | _ => 0

/-- The source registers a pair's operation reads under rules 3 and 4 of R37. -/
def pairSources (r : SRaw) (n : Nat) : List Nat :=
  if isUnaryA n then [r.va.toNat] else [r.va.toNat, r.vb.toNat]

/-- R37: both class A, destinations in different banks, at most three distinct sources, and two sources of
one bank the same register. -/
def pairOk (a b : SRaw) (na nb : Nat) : Bool :=
  let src := pairSources a na ++ pairSources b nb
  isClassA na && isClassA nb && !(a.vd.toNat % 4 == b.vd.toNat % 4)
    && decide (src.eraseDups.length ≤ 3)
    && src.all fun x => src.all fun y => !(x % 4 == y % 4) || x == y

/-- A class-A operation of slot A, standing in a pair. -/
def mkPair (h : Hdr) (c : ClassA) (v2 : Bool) (vd va vb : VReg) (p : PairOp) : Instr :=
  match c with
  | .add => .add h vd (.pair va vb p) | .sub => .sub h vd (.pair va vb p)
  | .mul => .mul h vd (.pair va vb p) | .mulh g => .mulh h g vd (.pair va vb p)
  | .and => .and h vd (.pair va vb p) | .or => .or h vd (.pair va vb p)
  | .xor => .xor h vd (.pair va vb p) | .andn => .andn h vd (.pair va vb p)
  | .shl => .shl h vd (.pair va vb p) | .shr => .shr h vd (.pair va vb p)
  | .sra => .sra h vd (.pair va vb p) | .rot => .rot h vd (.pair va vb p)
  | .min g => .min h g vd (.pair va vb p) | .max g => .max h g vd (.pair va vb p)
  | .mov => .mov h vd (.pair va p) | .not => .not h vd (.pair va p)
  | .abs => .abs h vd (.pair va p) | .neg => .neg h vd (.pair va p)
  | .clz => .clz h vd (.pair va p) | .popc => .popc h vd (.pair va p)
  | .brev => .brev h vd (.pair va p)
  | .fadd => .fadd h vd (.pair va vb p) | .fsub => .fsub h vd (.pair va vb p)
  | .fmul => .fmul h vd (.pair va vb p) | .fmin => .fmin h vd (.pair va vb p)
  | .fmax => .fmax h vd (.pair va vb p) | .ffma => .ffma h vd (.pair va vb p)
  | .badd2 => .badd2 h vd (.pair va vb p) | .bmul2 => .bmul2 h vd (.pair va vb p)
  | .bfma2 => if v2 then .bfma2V2 h vd (.pair va vb p) else .bfma2 h vd (.pair va vb p)

/-- A pair (R32 mode 01): both operations' types must be admitted, a one-source operation has vb zero. -/
def decPair (h : Hdr) (f0 : Bool) (a b : SRaw) (na nb : Nat) : Except DecFault Instr :=
  let ca := classAOf na a.ty
  let cb := classAOf nb b.ty
  verdict (f0 || (isUnaryA na && a.vb != 0) || (isUnaryA nb && b.vb != 0)) (ca.isNone || cb.isNone) (do
    let x ← ca
    let y ← cb
    some (mkPair h x (na == 0x47) a.vd a.va a.vb ⟨y, b.vd, b.va, b.vb⟩))

/-- The second source of R123. -/
def srcB (a : SRaw) (x : XRaw) : SrcB := if x.i = 1 then .imm x.imm else .reg a.vb
/-- Whether R123 leaves a non-zero field beside the second source. -/
def srcBBad (a : SRaw) (x : XRaw) : Bool := if x.i = 1 then a.vb != 0 else x.imm != 0
/-- The first source of R123. -/
def srcA (a : SRaw) (x : XRaw) : Option SrcA :=
  if x.s = 1 then (Special.ofCode a.va.toNat).map .special else some (.reg a.va)

/-- A two-source lane operation alone in its word (R123, R124). -/
def decBin (f0 : Bool) (a : SRaw) (x : XRaw) (k : Option (VReg → Bin → Instr)) : Except DecFault Instr :=
  verdict (f0 || x.vc != 0 || x.ctl != 0 || srcBBad a x) k.isNone (do
    let mk ← k
    let s ← srcA a x
    some (mk a.vd (.one s (srcB a x))))

/-- A one-source lane operation alone in its word (R124). -/
def decUn (f0 : Bool) (a : SRaw) (x : XRaw) (k : VReg → Un → Instr) : Except DecFault Instr :=
  verdict (f0 || x.vc != 0 || x.ctl != 0 || x.i != 0 || a.vb != 0 || x.imm != 0) (a.ty != 0) (do
    let s ← srcA a x
    some (k a.vd (.one s)))

/-- The fields every floating form leaves zero (R131): I, S, imm16 and ctl[20:16]. -/
def fltBad (f0 : Bool) (x : XRaw) : Bool :=
  f0 || x.i != 0 || x.s != 0 || x.imm != 0 || x.ctl.extractLsb' 0 5 != 0

/-- The rounding field (R33). -/
def rmOf (x : XRaw) : Rm := Rm.ofCode (x.ctl.extractLsb' 5 2)

/-- A one-source floating operation of type `.f32` whose rounding field must be 00 (R131). -/
def decFun (f0 : Bool) (a : SRaw) (x : XRaw) (i : Instr) : Except DecFault Instr :=
  verdict (fltBad f0 x || a.vb != 0 || x.vc != 0) (a.ty != 0 || x.ctl.extractLsb' 5 2 != 0) (some i)

/-- The destination range of a mask at swath scope is two registers, at sheaf scope one (R146). -/
def maskRangeOk (a : SRaw) (x : XRaw) : Bool :=
  x.vc.toNat == a.vd.toNat + (if bit x.ctl 6 then 1 else 0)

/-- The bound source of R266. -/
def bdSrcOf (x : XRaw) : Option BdSrc :=
  match (x.ctl.extractLsb' 3 2).toNat with
  | 0 => some (.tile (x.ctl.extractLsb' 0 3)) | 1 => some .a | 2 => some .w | _ => none

/-- The fields a bound word leaves zero (R266): an index stands with source 00 only, and source 11 is no matter of
this check. -/
def bdBad (f0 : Bool) (x : XRaw) : Bool :=
  f0 || x.vc != 0 || x.i != 0 || x.s != 0 || x.imm != 0 || bit x.ctl 6
    || ((x.ctl.extractLsb' 3 2 == 1 || x.ctl.extractLsb' 3 2 == 2) && x.ctl.extractLsb' 0 3 != 0)

/-- The orders and spaces a load, store or atomic admits (R195). -/
def accOk (isSt isAtom : Bool) (a : Acc) : Bool :=
  !(isSt && (a.order == .acq || a.order == .ar))
    && !(!isSt && !isAtom && (a.order == .rel || a.order == .ar))
    && !(a.space == .stk && (a.order != .rlx || isAtom))
    && (!a.rmt || (!isSt && a.space == .sp && (a.order == .acq || a.order == .ar) && a.scope == .die))

/-- The annotations of a lane access (R33). -/
def accOf (x : XRaw) : Option Acc := do
  let s ← Space.ofCode (x.ctl.extractLsb' 5 2)
  let c ← Scope.ofCode (x.ctl.extractLsb' 0 3)
  some ⟨s, Order.ofCode (x.ctl.extractLsb' 3 2), c, x.i = 1⟩

/-- A lane load or store (R194, R195). -/
def decLdSt (f0 : Bool) (a : SRaw) (x : XRaw) (isSt : Bool) (k : Acc → LTy → Cnt → Instr) :
    Except DecFault Instr :=
  let acc := accOf x
  let ty := LTy.ofCode a.ty
  verdict (f0 || a.vb != 0 || x.s != 0) (ty.isNone || !((acc.map (accOk isSt false)).getD false)) (do
    let c ← acc
    let t ← ty
    let n ← Cnt.ofRange a.vd x.vc
    keep (n == .one || t == .b32) (k c t n))

/-- An operation alone in its word, by its version 3 opcode (R36; R122 to R155, R166, R194, R266). -/
def decSingle (h : Hdr) (f0 : Bool) (n : Nat) (a : SRaw) (x : XRaw) : Except DecFault Instr :=
  let t0 := a.ty = 0
  let sg := Sgn.ofCode a.ty
  let sg8 := Sgn.ofCode8 a.ty
  let b := srcB a x
  let sw := bit x.ctl 6
  let neg := bit x.ctl 3
  let p : Ix3 := x.ctl.extractLsb' 0 3
  match n with
  | 0x01 => decBin f0 a x (if t0 then some (.add h) else none)
  | 0x02 => decBin f0 a x (if t0 then some (.sub h) else none)
  | 0x03 => decBin f0 a x (if t0 then some (.mul h) else none)
  | 0x04 => decBin f0 a x (sg.map (.mulh h))
  | 0x05 => decBin f0 a x (if t0 then some (.and h) else none)
  | 0x06 => decBin f0 a x (if t0 then some (.or h) else none)
  | 0x07 => decBin f0 a x (if t0 then some (.xor h) else none)
  | 0x08 => decBin f0 a x (if t0 then some (.andn h) else none)
  | 0x09 => decBin f0 a x (if t0 then some (.shl h) else none)
  | 0x0A => decBin f0 a x (if t0 then some (.shr h) else none)
  | 0x0B => decBin f0 a x (if t0 then some (.sra h) else none)
  | 0x0C => decBin f0 a x (if t0 then some (.rot h) else none)
  | 0x0D => decBin f0 a x (sg.map (.min h))
  | 0x0E => decBin f0 a x (sg.map (.max h))
  | 0x10 => decUn f0 a x (.mov h)
  | 0x11 => decUn f0 a x (.not h)
  | 0x12 => decUn f0 a x (.abs h)
  | 0x13 => decUn f0 a x (.neg h)
  | 0x14 => decUn f0 a x (.clz h)
  | 0x15 => decUn f0 a x (.popc h)
  | 0x16 => decUn f0 a x (.brev h)
  | 0x18 => verdict (f0 || x.s != 0 || x.ctl != 0 || srcBBad a x) (a.ty != 0)
      (some (.mad h a.vd a.va b x.vc))
  | 0x19 => verdict (f0 || x.s != 0 || x.ctl != 0 || srcBBad a x) sg8.isNone
      (sg8.map fun g => .sad h g a.vd a.va b x.vc)
  | 0x1A => verdict (f0 || x.s != 0 || x.ctl.extractLsb' 1 6 != 0 || srcBBad a x) sg8.isNone
      (sg8.map fun g => .dot4 h g (bit x.ctl 0) a.vd a.va b x.vc)
  | 0x1B =>
    let w : BitVec 6 := x.imm.extractLsb' 8 6
    verdict (f0 || x.s != 0 || x.i != 0 || x.ctl != 0 || a.vb != 0 || x.vc != 0
        || x.imm.extractLsb' 14 2 != 0 || x.imm.extractLsb' 5 3 != 0)
      (sg.isNone || w == 0 || decide (32 < w.toNat))
      (sg.map fun g => .bfx h g a.vd a.va (x.imm.extractLsb' 0 5) w)
  | 0x1C =>
    let w : BitVec 6 := x.imm.extractLsb' 8 6
    verdict (f0 || x.s != 0 || x.i != 0 || x.ctl != 0 || x.vc != 0
        || x.imm.extractLsb' 14 2 != 0 || x.imm.extractLsb' 5 3 != 0)
      (a.ty != 0 || w == 0 || decide (32 < w.toNat))
      (some (.bfi h a.vd a.va a.vb (x.imm.extractLsb' 0 5) w))
  | 0x1D => verdict (f0 || x.s != 0 || x.vc != 0 || x.ctl.extractLsb' 4 3 != 0 || srcBBad a x) (a.ty != 0)
      (some (.sel h a.vd a.va b neg p))
  | 0x1E =>
    let cc := Cond.ofCode (x.ctl.extractLsb' 3 3)
    verdict (f0 || x.s != 0 || x.vc != 0 || sw || p != 0 || a.vd.extractLsb' 3 4 != 0 || srcBBad a x)
      (sg.isNone || cc.isNone)
      (do some (.cmp h (← sg) (← cc) (a.vd.extractLsb' 0 3) a.va b))
  | 0x20 => verdict (f0 || x.s != 0 || x.vc != 0 || x.ctl != 0 || srcBBad a x) sg.isNone
      (sg.map fun g => .div h g a.vd a.va b)
  | 0x21 => verdict (f0 || x.s != 0 || x.vc != 0 || x.ctl != 0 || srcBBad a x) sg.isNone
      (sg.map fun g => .rem h g a.vd a.va b)
  | 0x30 => verdict (fltBad f0 x || x.vc != 0) (a.ty != 0) (some (.fadd h a.vd (.one a.va a.vb (rmOf x))))
  | 0x31 => verdict (fltBad f0 x || x.vc != 0) (a.ty != 0) (some (.fsub h a.vd (.one a.va a.vb (rmOf x))))
  | 0x32 => verdict (fltBad f0 x || x.vc != 0) (a.ty != 0) (some (.fmul h a.vd (.one a.va a.vb (rmOf x))))
  | 0x33 => verdict (fltBad f0 x || x.vc != 0) (a.ty != 0 || x.ctl.extractLsb' 5 2 != 0)
      (some (.fmin h a.vd (.one a.va a.vb)))
  | 0x34 => verdict (fltBad f0 x || x.vc != 0) (a.ty != 0 || x.ctl.extractLsb' 5 2 != 0)
      (some (.fmax h a.vd (.one a.va a.vb)))
  | 0x35 => verdict (fltBad f0 x) (a.ty != 0) (some (.ffma h a.vd (.one a.va a.vb x.vc (rmOf x))))
  | 0x36 =>
    let cc := Cond.ofCode (x.ctl.extractLsb' 3 3)
    verdict (f0 || x.i != 0 || x.s != 0 || x.imm != 0 || x.vc != 0 || sw || p != 0
        || a.vd.extractLsb' 3 4 != 0) (a.ty != 0 || cc.isNone)
      (cc.map fun c => .fcmp h c (a.vd.extractLsb' 0 3) a.va a.vb)
  | 0x37 =>
    let f := FFmt.ofCode a.ty.toNat
    verdict (fltBad f0 x || a.vb != 0 || x.vc != 0) (f.isNone || x.ctl.extractLsb' 5 2 != 0)
      (f.map fun g => .fclass h g a.vd a.va)
  | 0x38 => verdict (fltBad f0 x || a.vb != 0 || x.vc != 0) (a.ty != 0) (some (.frcp h (rmOf x) a.vd a.va))
  | 0x39 => decFun f0 a x (.frsq h a.vd a.va)
  | 0x3A => verdict (fltBad f0 x || a.vb != 0 || x.vc != 0) (a.ty != 0) (some (.fsqrt h (rmOf x) a.vd a.va))
  | 0x3B => decFun f0 a x (.fex2 h a.vd a.va)
  | 0x3C => decFun f0 a x (.flg2 h a.vd a.va)
  | 0x3D => decFun f0 a x (.fsin h a.vd a.va)
  | 0x3E => decFun f0 a x (.fcos h a.vd a.va)
  | 0x3F => decFun f0 a x (.ftanh h a.vd a.va)
  | 0x40 =>
    let dst := if a.vb = 0 then (FFmt.ofCode a.ty.toNat).map Fmt.flt else (IFmt.ofCode a.ty.toNat).map Fmt.int
    let src := Fmt.ofSrcCode (x.ctl.extractLsb' 0 4).toNat
    verdict (f0 || x.i != 0 || x.s != 0 || x.imm != 0 || x.vc != 0 || decide (1 < a.vb.toNat))
      (dst.isNone || src.isNone)
      (do some (.fcvt h (bit x.ctl 4) (rmOf x) (← dst) (← src) a.vd a.va))
  | 0x41 => verdict (fltBad f0 x || a.vb != 0 || x.vc != 0) (a.ty != 0) (some (.frnd h (rmOf x) a.vd a.va))
  | 0x42 => verdict (fltBad f0 x || x.vc != 0) (a.ty != 1) (some (.badd2 h a.vd (.one a.va a.vb (rmOf x))))
  | 0x43 => verdict (fltBad f0 x || x.vc != 0) (a.ty != 1) (some (.bmul2 h a.vd (.one a.va a.vb (rmOf x))))
  | 0x44 => verdict (fltBad f0 x) (a.ty != 1) (some (.bfma2 h a.vd (.one a.va a.vb x.vc (rmOf x))))
  | 0x47 => verdict (fltBad f0 x) (a.ty != 1) (some (.bfma2V2 h a.vd (.one a.va a.vb x.vc (rmOf x))))
  | 0x50 =>
    let m := ShMode.ofCode (x.ctl.extractLsb' 3 3)
    verdict (f0 || x.s != 0 || x.vc != 0 || p != 0 || srcBBad a x) (a.ty != 0 || m.isNone)
      (m.map fun k => .shfl h k sw a.vd a.va b)
  | 0x51 => verdict (f0 || x.s != 0 || x.i != 0 || x.imm != 0 || a.va != 0 || a.vb != 0
        || x.ctl.extractLsb' 4 2 != 0) (a.ty != 0)
      (keep (maskRangeOk a x) (.bal h sw a.vd neg p))
  | 0x52 =>
    let op := ScanOp.ofCode (x.ctl.extractLsb' 3 3) a.ty
    verdict (f0 || x.s != 0 || x.i != 0 || x.imm != 0 || a.vb != 0 || x.vc != 0 || x.ctl.extractLsb' 0 2 != 0)
      op.isNone (op.map fun o => .scan h o (bit x.ctl 2) sw a.vd a.va)
  | 0x53 =>
    let op := ScanOp.ofCode (x.ctl.extractLsb' 3 3) a.ty
    verdict (f0 || x.s != 0 || x.i != 0 || x.imm != 0 || a.vb != 0 || x.vc != 0 || p != 0)
      op.isNone (op.map fun o => .red h o sw a.vd a.va)
  | 0x54 =>
    let ty := CxTy.ofCode a.ty
    verdict (f0 || x.s != 0 || x.vc != 0 || x.ctl.extractLsb' 4 2 != 0 || srcBBad a x) ty.isNone
      (ty.map fun t => .cx h t sw a.vd a.va b neg p)
  | 0x55 => verdict (f0 || x.s != 0 || x.i != 0 || x.imm != 0 || a.va != 0 || a.vb != 0 || x.vc != 0
        || x.ctl.extractLsb' 4 2 != 0 || a.vd.extractLsb' 3 4 != 0) (a.ty != 0)
      (some (.vany h sw (a.vd.extractLsb' 0 3) neg p))
  | 0x56 => verdict (f0 || x.s != 0 || x.i != 0 || x.imm != 0 || a.va != 0 || a.vb != 0 || x.vc != 0
        || x.ctl.extractLsb' 4 2 != 0 || a.vd.extractLsb' 3 4 != 0) (a.ty != 0)
      (some (.vall h sw (a.vd.extractLsb' 0 3) neg p))
  | 0x57 => verdict (f0 || x.s != 0 || x.i != 0 || x.imm != 0 || a.vb != 0 || x.ctl.extractLsb' 0 6 != 0)
      (a.ty != 0) (keep (maskRangeOk a x) (.meq h sw a.vd a.va))
  | 0x58 => verdict (f0 || x.s != 0 || x.i != 0 || x.imm != 0 || x.vc != 0 || x.ctl.extractLsb' 3 4 != 0)
      (a.ty != 0) (some (.bmAnd h a.vd p a.va a.vb))
  | 0x59 => verdict (f0 || x.s != 0 || x.ctl != 0 || srcBBad a x) (a.ty != 0)
      (some (.bmRank h a.vd a.va b x.vc))
  | 0x5A => verdict (f0 || x.s != 0 || x.ctl != 0 || x.vc != 0 || srcBBad a x) (a.ty != 0)
      (some (.bmSel h a.vd a.va b))
  | 0x5B => verdict (f0 || x.s != 0 || x.i != 0 || x.ctl.extractLsb' 0 5 != 0) (sg8.isNone || sw)
      (sg8.map fun g => .isect h g (bit x.ctl 5) a.vd a.va a.vb x.vc x.imm)
  | 0x60 => verdict (f0 || h.la != 0 || a.vd != 0 || a.vb != 0 || x.vc != 0 || x.i != 0 || x.s != 0
        || x.ctl.extractLsb' 1 6 != 0 || x.imm != 0) (a.ty != 0)
      (some (if bit x.ctl 0 then .sowSg h a.va else .sow h a.va))
  | 0x61 => verdict (f0 || h.la != 0 || a.vb != 0 || x.i != 0 || x.s != 0 || x.ctl != 0 || x.imm != 0)
      (a.ty != 0) (keep (x.vc.toNat == a.vd.toNat + 1) (.sowQ h a.vd a.va))
  | 0x64 => verdict (f0 || a.vb != 0 || bit a.vd 6 || x.vc != 0 || x.i != 0 || x.s != 0 || x.ctl != 0
        || x.imm != 0) (a.ty != 0) (some (.v2s h (a.vd.extractLsb' 0 6) a.va))
  | 0x65 => verdict (f0 || a.vb != 0 || bit a.va 6 || x.vc != 0 || x.i != 0 || x.s != 0 || x.ctl != 0
        || x.imm != 0) (a.ty != 0) (some (.s2v h a.vd (a.va.extractLsb' 0 6)))
  | 0x68 =>
    let s := bdSrcOf x
    verdict (bdBad f0 x || bit x.ctl 5 || a.va != 0 || a.vb != 0) (s.isNone || a.ty != 0)
      (s.map fun r => .bdGet h a.vd r)
  | 0x69 =>
    let s := bdSrcOf x
    verdict (bdBad f0 x || a.vd != 0 || a.vb != 0) (s.isNone || a.ty != 0)
      (s.map fun r => .bdSet h (bit x.ctl 5) r a.va)
  | 0x6A =>
    let s := bdSrcOf x
    verdict (bdBad f0 x || bit x.ctl 5 || a.vd != 0 || a.va != 0 || a.vb != 0) (s.isNone || a.ty != 0)
      (s.map fun r => .bdClr h r)
  | 0x70 => decLdSt f0 a x false fun c t m => .ld h c t m a.vd a.va x.imm
  | 0x71 => decLdSt f0 a x true fun c t m => .st h c t m a.vd a.va x.imm
  | 0x72 =>
    let acc := accOf x
    let op := AOp.ofCode (x.imm.extractLsb' 13 3)
    verdict (f0 || x.s != 0) (sg.isNone || !((acc.map (accOk false true)).getD false)) (do
      let c ← acc
      let g ← sg
      keep (op == .cas || x.vc == a.vd) (.atom h op c g a.vd a.va a.vb x.vc (x.imm.extractLsb' 0 13)))
  | 0x73 =>
    let sc := Scope.ofCode p
    verdict (f0 || a.vd != 0 || a.va != 0 || a.vb != 0 || a.ty != 0 || x.vc != 0 || x.i != 0 || x.s != 0
        || x.imm != 0 || x.ctl.extractLsb' 3 4 != 0) sc.isNone
      (sc.map fun s => .fence h s)
  | _ => .error .opcode

/-- An L-word (R31, R32, R44 checks 3 to 7). -/
def decodeL (ver : Nat) (hw aw bw : Word) : Except DecFault Instr :=
  let hr := HRaw.of hw
  let h : Hdr := ⟨hr.la, hr.neg = 1, hr.pred, hr.wait⟩
  let f0 := hr.rsv != 0
  let a := SRaw.of aw
  let na := laneOp ver a.op.toNat
  match hr.mode.toNat with
  | 0 =>
    if !laneAssigned na then .error .opcode
    else if na == 0x17 then .error .pair
    else decSingle h f0 na a (XRaw.of bw)
  | 1 =>
    let b := SRaw.of bw
    let nb := laneOp ver b.op.toNat
    if !laneAssigned na || !laneAssigned nb then .error .opcode
    else if !pairOk a b na nb then .error .pair
    else decPair h f0 a b na nb
  | 2 =>
    if !laneAssigned na then .error .opcode
    else if na != 0x17 then .error .pair
    else verdict (f0 || a.va != 0 || a.vb != 0) (a.ty != 0) (some (.movi h a.vd bw))
  | _ => if !laneAssigned na then .error .opcode else .error .pair

/-! ### E-words (R39, R40) -/

/-- The ring target of a copy command (R210). -/
def ringOf (o : ORaw) : Ring := ⟨o.ctl.extractLsb' 8 4, o.ctl.extractLsb' 4 4, bit o.ctl 3⟩

/-- The vector fields of an E-word that uses none of them. -/
def cpBad (o : ORaw) : Bool := o.vx != 0 || o.vy != 0

/-- The fields every copy command leaves zero (R210): vx and vy, and the ring and slot fields of a command that
completes into no ring slot, which it does not use (R41). -/
def copyBad (o : ORaw) : Bool := cpBad o || (!bit o.ctl 3 && o.ctl.extractLsb' 4 8 != 0)

/-- An E-word's EF fields beyond ea and eb are all zero. -/
def tailBad (o : ORaw) : Bool := o.ec != 0 || o.vx != 0 || o.vy != 0 || o.ctl != 0

/-- An E-word's vector and control fields are all zero. -/
def vcBad (o : ORaw) : Bool := o.vx != 0 || o.vy != 0 || o.ctl != 0

/-- The slot an `rg` word names (R227). -/
def ringSlotOf (c : CRaw) (o : ORaw) : RingSlot :=
  ⟨o.ctl.extractLsb' 8 4, o.ctl.extractLsb' 4 4, bit o.ctl 3, c.ea⟩

/-- The fields an `rg` word leaves zero (R227). -/
def rgBad (c : CRaw) (o : ORaw) : Bool :=
  c.tk != 0 || c.eb != 0 || o.ec != 0 || o.vx != 0 || o.vy != 0 || o.ctl.extractLsb' 0 3 != 0
    || (!bit o.ctl 3 && c.ea != 0)

/-- An E-word of form EI (R375). -/
def decEI (c : CRaw) (k : Word → Instr) (imm : Word) : Except DecFault Instr :=
  verdict (c.la != 0 || c.tk != 0 || c.sub != 0 || c.ea != 0 || c.eb != 0) false (some (k imm))

/-- An E-word (R40): copies R210, matrix R243, waiting R302, groups R321, launch R348, system R368 to R375,
translation R400, queues R410, fabric R441, log R455. -/
def decodeE (ver : Nat) (cw ow : Word) : Except DecFault Instr :=
  let c := CRaw.of cw
  let o := ORaw.of ow
  let la := c.la
  let tk := c.tk
  let r := ringOf o
  let sub := c.sub.toNat
  let i : Ix3 := o.ctl.extractLsb' 0 3
  match c.op.toNat with
  | 0x10 =>
    verdict (copyBad o || i != 0) (decide (2 < sub))
      (if sub = 0 then keep (isEven c.eb) (.cpBlkLd la tk r c.ea c.eb o.ec)
       else if sub = 1 then keep (isEven c.eb) (.cpBlkSt la tk r c.ea c.eb o.ec)
       else keep (isEven c.eb && isEven c.ea) (.cpBlkMm la tk r c.ea c.eb o.ec))
  | 0x11 =>
    verdict (copyBad o || o.ec != 0 || (i != 0 && sub != 4 && sub != 5)) (sub == 2 || sub == 3)
      (match sub with
       | 0 => keep (isOct c.eb) (.cpTenLd la tk r c.ea c.eb)
       | 1 => keep (isOct c.eb) (.cpTenSt la tk r c.ea c.eb)
       | 4 => keep (isOct c.eb) (.cpTenLdBnd la tk r c.ea c.eb i)
       | 5 => keep (isOct c.eb) (.cpTenStBnd la tk r c.ea c.eb i)
       | 6 => keep (isOct c.eb) (.cpTenLdBnda la tk r c.ea c.eb)
       | 7 => keep (isOct c.eb) (.cpTenLdBndw la tk r c.ea c.eb)
       | _ => none)
  | 0x12 => verdict (copyBad o || c.eb != 0 || i != 0) false
      (keep (isOct c.ea) (.cpGat la tk r c.sub c.ea o.ec))
  | 0x13 => verdict (copyBad o || c.eb != 0 || i != 0) false
      (keep (isOct c.ea) (.cpSct la tk r c.sub c.ea o.ec))
  | 0x14 =>
    let op := RedOp.ofCode i
    verdict (copyBad o) (decide (2 < sub) || op.isNone)
      (do keep (isEven c.eb && (sub != 2 || isEven c.ea))
            (.cpRed la tk r (c.sub.extractLsb' 0 2) (← op) c.ea c.eb o.ec))
  | 0x15 =>
    verdict (copyBad o || i != 0) (sub != 0 && sub != 2)
      (if sub = 0 then some (.cpFillOc la tk r c.ea c.eb o.ec)
       else keep (isEven c.eb) (.cpFillMm la tk r c.ea c.eb o.ec))
  | 0x16 =>
    verdict (c.tk != 0 || c.eb != 0 || o.ec != 0 || cpBad o || o.ctl.extractLsb' 8 4 != 0
        || (sub == 0 && c.ea != 0)) (decide (1 < sub))
      (some (if sub = 0 then .tkWait la (o.ctl.extractLsb' 0 8) else .tkWaitSt la c.ea (o.ctl.extractLsb' 0 8)))
  | 0x17 => verdict (rgBad c o) (decide (1 < sub))
      (some (if sub = 0 then .rgAcqEmpty la (ringSlotOf c o) else .rgAcqFull la (ringSlotOf c o)))
  | 0x18 => verdict (rgBad c o) (sub != 0) (some (.rgRel la (ringSlotOf c o)))
  | 0x20 => verdict (c.tk != 0 || c.sub != 0 || tailBad o) false
      (keep (isQuad c.eb) (.mxLdw la c.ea c.eb))
  | 0x21 => verdict (c.tk != 0 || c.sub != 0 || c.ea != 0 || c.eb != 0 || tailBad o) false (some (.mxFlip la))
  | 0x22 =>
    verdict (o.ec != 0 || o.ctl.extractLsb' 3 9 != 0 || (sub == 0 && (o.vx != 0 || o.vy != 0))
        || (sub == 1 && c.ea != 0)) (decide (1 < sub))
      (if sub = 0 then keep (isQuad c.eb) (.mxRun la tk i c.ea c.eb)
       else keep (isQuad c.eb && o.vy.toNat == o.vx.toNat + 31) (.mxRunV la tk i o.vx c.eb))
  | 0x23 =>
    verdict (o.ec != 0 || c.ea != 0 || c.eb != 0 || o.ctl.extractLsb' 3 9 != 0
        || (sub != 2 && (o.vx != 0 || o.vy != 0))) (decide (3 < sub))
      (if sub = 0 then some (.mxCmatId la tk i)
       else if sub = 1 then some (.mxCmatTr la tk i)
       else if sub = 2 then keep (o.vy == o.vx) (.mxCmatPerm la tk i o.vx)
       else some (.mxCmatSum la tk i))
  | 0x24 =>
    let f := Fmt.ofDrainCode (o.ctl.extractLsb' 3 4).toNat
    let sr : BitVec 3 := o.ctl.extractLsb' 7 3
    let plain := f == some (.flt .f32) || f == some (.int .i32) || f == some (.int .i8)
    verdict (c.sub != 0 || c.eb != 0 || o.ec != 0 || o.ctl.extractLsb' 10 2 != 0)
      (f.isNone || (plain && sr != 0))
      (do
        let g ← f
        keep (decide (o.vx.toNat ≤ o.vy.toNat) && decide (o.vy.toNat < o.vx.toNat + 16))
          (.mxDrain la tk i g (bit o.ctl 7) (Rm.ofCode (o.ctl.extractLsb' 8 2)) o.vx o.vy c.ea))
  | 0x25 => verdict (c.tk != 0 || c.sub != 0 || c.ea != 0 || c.eb != 0 || o.ec != 0 || cpBad o
        || o.ctl.extractLsb' 3 9 != 0) false (some (.mxZero la i))
  | 0x26 => verdict (c.tk != 0 || c.sub != 0 || c.ea != 0 || c.eb != 0 || tailBad o) false (some (.mxFence la))
  | 0x27 => verdict (c.sub != 0 || c.ea != 0 || c.eb != 0 || tailBad o) false (some (.mxWait la tk))
  | 0x28 => verdict (c.tk != 0 || c.sub != 0 || c.ea != 0 || c.eb != 0 || o.ec != 0 || cpBad o
        || o.ctl.extractLsb' 4 8 != 0) false (some (.mxBeg la i (bit o.ctl 3)))
  | 0x29 =>
    if ver = 3 then
      verdict (c.sub != 0 || c.ea != 0 || c.eb != 0 || o.ec != 0 || cpBad o || o.ctl.extractLsb' 4 8 != 0) false
        (some (.mxRedo la tk i (bit o.ctl 3)))
    else .error .opcode
  | 0x30 => verdict (la != 0 || c.tk != 0 || vcBad o) (c.sub != 0) (some (.susp c.ea c.eb o.ec))
  | 0x31 => verdict (c.tk != 0 || vcBad o || (sub == 0 && o.ec != 0)) (decide (1 < sub))
      (some (if sub = 0 then .evAdd la c.ea c.eb else .evAddRet la o.ec c.ea c.eb))
  | 0x32 => verdict (c.tk != 0 || tailBad o) (c.sub != 0) (some (.evSet la c.ea c.eb))
  | 0x33 => verdict (c.tk != 0 || c.eb != 0 || vcBad o) (c.sub != 0) (some (.evGet la o.ec c.ea))
  | 0x34 => verdict (la != 0 || c.tk != 0 || c.ea != 0 || c.eb != 0 || tailBad o) (decide (2 < sub))
      (some (if sub = 0 then .barSwath else if sub = 1 then .barTeam else .barGang))
  | 0x38 => verdict (c.tk != 0 || c.eb != 0 || vcBad o) (c.sub != 0) (keep (isQuad c.ea) (.sgNew la o.ec c.ea))
  | 0x39 => verdict (c.tk != 0 || c.eb != 0 || tailBad o || (sub == 1 && c.ea != 0)) (decide (1 < sub))
      (some (if sub = 0 then .sgJoin la c.ea else .sgJoinClr la))
  | 0x3A => verdict (c.tk != 0 || c.ea != 0 || vcBad o || (sub == 1 && c.eb != 0)) (decide (1 < sub))
      (if sub = 0 then keep (isEven c.eb) (.sgVote la o.ec c.eb) else some (.sgVoteAbst la o.ec))
  | 0x3B => verdict (c.tk != 0 || c.ea != 0 || c.eb != 0 || tailBad o) (c.sub != 0) (some (.sgCpt la))
  | 0x3C => verdict (c.tk != 0 || c.eb != 0 || vcBad o) (decide (2 < sub))
      (if sub = 0 then some (.sgStatSt la o.ec c.ea)
       else if sub = 1 then keep (isEven o.ec) (.sgStatHash la o.ec c.ea)
       else some (.sgStatWait la o.ec c.ea))
  | 0x3D => verdict (c.tk != 0 || c.eb != 0 || tailBad o) (c.sub != 0) (some (.sgFree la c.ea))
  | 0x40 => verdict (tailBad o) (decide (1 < sub))
      (keep (isEven c.eb) (if sub = 0 then .lnch la tk c.ea c.eb else .lnchTry la tk c.ea c.eb))
  | 0x41 => verdict (tailBad o) (decide (1 < sub))
      (keep (isEven c.eb) (if sub = 0 then .post la tk c.ea c.eb else .postTry la tk c.ea c.eb))
  | 0x48 => decEI c .trap ow
  | 0x49 => decEI c .scall ow
  | 0x4A => verdict (la != 0 || c.tk != 0 || tailBad o || (sub == 0 && (c.ea != 0 || c.eb != 0)))
      (decide (1 < sub)) (some (if sub = 0 then .eret else .eretFc c.ea c.eb))
  | 0x4B => verdict (c.tk != 0 || c.sub != 0 || c.ea != 0 || c.eb != 0 || cpBad o)
      (sysWidth o.ctl.toNat).isNone (keep (sysPairOk o.ctl.toNat o.ec) (.srGet la o.ctl o.ec))
  | 0x4C => verdict (c.tk != 0 || c.sub != 0 || c.eb != 0 || o.ec != 0 || cpBad o)
      ((sysWidth o.ctl.toNat).isNone || !sysWritable o.ctl.toNat)
      (keep (sysPairOk o.ctl.toNat c.ea) (.srSet la o.ctl c.ea))
  | 0x4D => decEI c .brk ow
  | 0x4E => verdict (la != 0 || c.tk != 0 || c.sub != 0 || c.ea != 0 || c.eb != 0 || tailBad o) false
      (some .idle)
  | 0x50 => verdict (la != 0 || c.tk != 0 || tailBad o || (sub == 1 && c.eb != 0)
        || (sub == 2 && (c.ea != 0 || c.eb != 0))) (decide (2 < sub))
      (if sub = 0 then keep (isEven c.eb) (.tlbInvPage c.ea c.eb)
       else some (if sub = 1 then .tlbInvAsid c.ea else .tlbInvAll))
  | 0x51 => verdict (la != 0 || c.tk != 0 || c.ea != 0 || c.eb != 0 || tailBad o) (c.sub != 0) (some .tlbSync)
  | 0x52 => verdict (la != 0 || c.tk != 0 || vcBad o) (c.sub != 0)
      (keep (isEven c.eb && isQuad o.ec) (.pgProbe o.ec c.ea c.eb))
  | 0x58 => verdict (c.tk != 0 || vcBad o) (decide (1 < sub))
      (keep (isEven o.ec) (if sub = 0 then .dqPush la c.ea c.eb o.ec else .dqPushTry la c.ea c.eb o.ec))
  | 0x59 => verdict (c.tk != 0 || vcBad o) (decide (1 < sub))
      (keep (isEven o.ec) (if sub = 0 then .dqPop la c.ea c.eb o.ec else .dqPopTry la c.ea c.eb o.ec))
  | 0x60 => verdict (la != 0 || vcBad o) (c.sub != 0) (keep (isOct c.ea) (.nxPut tk c.ea c.eb o.ec))
  | 0x61 => verdict (la != 0 || vcBad o) (c.sub != 0) (keep (isOct c.ea) (.nxGet tk c.ea c.eb o.ec))
  | 0x62 =>
    let op := AOp.ofCode c.sub
    verdict (la != 0 || vcBad o) false
      (keep (isOct c.ea && (op != .cas || isEven c.eb)) (.nxAtom tk op c.ea c.eb o.ec))
  | 0x63 => verdict (la != 0 || vcBad o) (c.sub != 0) (keep (isOct c.ea) (.nxSig tk c.ea c.eb o.ec))
  | 0x64 => verdict (la != 0 || c.ea != 0 || vcBad o) (c.sub != 0) (keep (isEven c.eb) (.nxTopo tk c.eb o.ec))
  | 0x65 => verdict (la != 0 || c.ea != 0 || vcBad o) (c.sub != 0) (keep (isEven c.eb) (.nxTree tk c.eb o.ec))
  | 0x66 => verdict (la != 0 || c.eb != 0 || vcBad o) (c.sub != 0)
      (keep (isQuad c.ea && isEven o.ec) (.nxProbe tk c.ea o.ec))
  | 0x68 => verdict (vcBad o) (decide (2 < sub))
      (keep (isEven c.ea)
        (if sub = 0 then .lgAppTok la tk c.ea c.eb o.ec
         else if sub = 1 then .lgAppCommit la tk c.ea c.eb o.ec
         else .lgAppVoid la tk c.ea c.eb o.ec))
  | _ => .error .opcode

/-- How many parcels a word has, from its first parcel (R22). -/
def wordParcels (p : Word) : Nat :=
  match (p.extractLsb' 30 2).toNat with
  | 2 => 3 | 3 => 2 | _ => 1

/-- Checks 1 to 7 of R44 over the parcels that stand within the code page, in R44's order. -/
def decode (ver : Nat) (ps : List Word) : Except DecFault Instr :=
  match ps with
  | [] => .error .pageEnd
  | p :: t =>
    match (p.extractLsb' 30 2).toNat with
    | 0 => decodeU (URaw.of p)
    | 1 => decodeI (IRaw.of p)
    | 2 =>
      match t with
      | a :: b :: _ => decodeL ver p a b
      | _ => .error .pageEnd
    | _ =>
      if ver = 1 then .error .kind
      else match t with
        | o :: _ => decodeE ver p o
        | _ => .error .pageEnd

/-! ### The encoder -/

/-- A register-form U-word. -/
def encU (op sd sa : BitVec 6) (low : BitVec 12) : List Word := [URaw.word ⟨op, sd, sa, low⟩]
/-- A two-source U-word with a register second source (R25). -/
def encUR (op : BitVec 6) (sd sa sb : SReg) (ctl : BitVec 5) : List Word :=
  encU op sd sa ((0 : BitVec 1) ++ sb ++ ctl)
/-- A two-source U-word with an immediate second source (R25). -/
def encUI (op : BitVec 6) (sd sa : SReg) (imm : BitVec 11) : List Word :=
  encU op sd sa ((1 : BitVec 1) ++ imm)
/-- An immediate-form U-word. -/
def encI (op : BitVec 4) (reg : BitVec 6) (imm : BitVec 20) : List Word := [IRaw.word ⟨op, reg, imm⟩]

/-- The header parcel of a mode. -/
def encH (h : Hdr) (mode : BitVec 2) : Word :=
  HRaw.word ⟨h.la, mode, BitVec.ofBool h.neg, h.pred, h.wait, 0⟩
/-- A single operation with its extension. -/
def encL (h : Hdr) (a : SRaw) (x : XRaw) : List Word := [encH h 0, a.word, x.word]

/-- A second source's fields: vb, I and imm16 (R123). -/
def encB : SrcB → BitVec 7 × BitVec 1 × BitVec 16
  | .reg v => (v, 0, 0)
  | .imm i => (0, 1, i)
/-- A first source's fields: va and S (R123). -/
def encA : SrcA → BitVec 7 × BitVec 1
  | .reg v => (v, 0)
  | .special x => (BitVec.ofNat 7 x.code, 1)

/-- A pair's parcels (R32 mode 01). -/
def encPair (ver : Nat) (h : Hdr) (c : ClassA) (vd va vb : VReg) (p : PairOp) : List Word :=
  [encH h 1, SRaw.word ⟨BitVec.ofNat 8 (c.code ver), vd, va, vb, c.ty⟩,
   SRaw.word ⟨BitVec.ofNat 8 (p.op.code ver), p.vd, p.va, p.vb, p.op.ty⟩]

/-- A two-source integer operation, alone or in a pair. -/
def encBin (ver : Nat) (h : Hdr) (c : ClassA) (vd : VReg) : Bin → List Word
  | .one a b => encL h ⟨BitVec.ofNat 8 (c.code ver), vd, (encA a).1, (encB b).1, c.ty⟩
      ⟨0, (encB b).2.1, (encA a).2, 0, (encB b).2.2⟩
  | .pair va vb p => encPair ver h c vd va vb p
/-- A one-source integer operation, alone or in a pair. -/
def encUn (ver : Nat) (h : Hdr) (c : ClassA) (vd : VReg) : Un → List Word
  | .one a => encL h ⟨BitVec.ofNat 8 (c.code ver), vd, (encA a).1, 0, c.ty⟩ ⟨0, 0, (encA a).2, 0, 0⟩
  | .pair va p => encPair ver h c vd va 0 p
/-- The extension control field of a rounding mode. -/
def encRm (rm : Rm) : BitVec 7 := rm.code ++ (0 : BitVec 5)
/-- A two-source floating operation, alone or in a pair. -/
def encFBin (ver : Nat) (h : Hdr) (c : ClassA) (vd : VReg) : FBin → List Word
  | .one va vb rm => encL h ⟨BitVec.ofNat 8 (c.code ver), vd, va, vb, c.ty⟩ ⟨0, 0, 0, encRm rm, 0⟩
  | .pair va vb p => encPair ver h c vd va vb p
/-- `fmin` and `fmax`, alone or in a pair. -/
def encFSel (ver : Nat) (h : Hdr) (c : ClassA) (vd : VReg) : FSel → List Word
  | .one va vb => encL h ⟨BitVec.ofNat 8 (c.code ver), vd, va, vb, c.ty⟩ ⟨0, 0, 0, 0, 0⟩
  | .pair va vb p => encPair ver h c vd va vb p
/-- A fused operation, alone or in a pair. -/
def encFTri (ver : Nat) (h : Hdr) (c : ClassA) (vd : VReg) : FTri → List Word
  | .one va vb vc rm => encL h ⟨BitVec.ofNat 8 (c.code ver), vd, va, vb, c.ty⟩ ⟨vc, 0, 0, encRm rm, 0⟩
  | .pair va vb p => encPair ver h c vd va vb p

/-- A single operation without I, S or immediate. -/
def encL0 (h : Hdr) (op : BitVec 8) (vd va vb : VReg) (ty : Ix3) (vc : VReg) (ctl : BitVec 7) : List Word :=
  encL h ⟨op, vd, va, vb, ty⟩ ⟨vc, 0, 0, ctl, 0⟩
/-- A single operation with a register or immediate second source. -/
def encLB (h : Hdr) (op : BitVec 8) (vd va : VReg) (b : SrcB) (ty : Ix3) (vc : VReg) (ctl : BitVec 7) :
    List Word :=
  encL h ⟨op, vd, va, (encB b).1, ty⟩ ⟨vc, (encB b).2.1, 0, ctl, (encB b).2.2⟩
/-- A thread predicate in a destination field. -/
def encPd (p : Ix3) : VReg := (0 : BitVec 4) ++ p
/-- One bit. -/
def ob (b : Bool) : BitVec 1 := BitVec.ofBool b
/-- The fields of a bound source (R266). -/
def encBd (mx : Bool) : BdSrc → BitVec 7
  | .tile i => (0 : BitVec 1) ++ ob mx ++ (0 : BitVec 2) ++ i
  | .a => (0 : BitVec 1) ++ ob mx ++ (1 : BitVec 2) ++ (0 : BitVec 3)
  | .w => (0 : BitVec 1) ++ ob mx ++ (2 : BitVec 2) ++ (0 : BitVec 3)
/-- The control field of a lane access (R33). -/
def encAcc (a : Acc) : BitVec 7 := a.space.code ++ a.order.code ++ a.scope.code
/-- The last register of a range (R194). -/
def rangeLast (vd : VReg) (n : Cnt) : VReg := vd + BitVec.ofNat 7 (n.num - 1)
/-- The field control of `bfx` and `bfi` (R126). -/
def encBf (pos : BitVec 5) (w : BitVec 6) : BitVec 16 := (0 : BitVec 2) ++ w ++ (0 : BitVec 3) ++ pos

/-- An E-word of form EF. -/
def encE (la : BitVec 4) (op : BitVec 8) (tk sub : Ix3) (ea eb ec : SReg) (vx vy : VReg) (ctl : BitVec 12) :
    List Word :=
  [CRaw.word ⟨la, op, tk, sub, ea, eb⟩, ORaw.word ⟨ec, vx, vy, ctl⟩]
/-- An E-word of form EI. -/
def encEI (op : BitVec 8) (imm : Word) : List Word := [CRaw.word ⟨0, op, 0, 0, 0, 0⟩, imm]
/-- A ring target and the low control bits of a copy command (R210). -/
def encRing (r : Ring) (i : Ix3) : BitVec 12 := r.ring ++ r.slot ++ ob r.use ++ i
/-- The control field of an `rg` word (R227). -/
def encRg (r : RingSlot) : BitVec 12 := r.ring ++ r.slot ++ ob r.dyn ++ (0 : BitVec 3)
/-- A tile index in the control field (R243). -/
def encTile (i : Ix3) : BitVec 12 := (0 : BitVec 9) ++ i
/-- A tile index and slot in the control field (R270). -/
def encJob (i : Ix3) (n : Bool) : BitVec 12 := (0 : BitVec 8) ++ ob n ++ i

/-- The parcels of an instruction under a version, from the encoding tables of the spec; an event has none. -/
def encode (ver : Nat) : Instr → List Word
  | .nop => encU 0x01 0 0 0
  | .endw => encU 0x02 0 0 0
  | .ret sa => encU 0x03 0 sa 0
  | .jr sa => encU 0x04 0 sa 0
  | .sAdd d a b => encUR 0x08 d a b 0 | .sAddImm d a i => encUI 0x08 d a i
  | .sSub d a b => encUR 0x09 d a b 0 | .sSubImm d a i => encUI 0x09 d a i
  | .sMul d a b => encUR 0x0A d a b 0 | .sMulImm d a i => encUI 0x0A d a i
  | .sMulhI32 d a b => encUR 0x0B d a b 0 | .sMulhI32Imm d a i => encUI 0x0B d a i
  | .sMulhN32 d a b => encUR 0x0C d a b 0 | .sMulhN32Imm d a i => encUI 0x0C d a i
  | .sAnd d a b => encUR 0x0D d a b 0 | .sAndImm d a i => encUI 0x0D d a i
  | .sOr d a b => encUR 0x0E d a b 0 | .sOrImm d a i => encUI 0x0E d a i
  | .sXor d a b => encUR 0x0F d a b 0 | .sXorImm d a i => encUI 0x0F d a i
  | .sShl d a b => encUR 0x10 d a b 0 | .sShlImm d a i => encUI 0x10 d a i
  | .sShr d a b => encUR 0x11 d a b 0 | .sShrImm d a i => encUI 0x11 d a i
  | .sSra d a b => encUR 0x12 d a b 0 | .sSraImm d a i => encUI 0x12 d a i
  | .sMinI32 d a b => encUR 0x13 d a b 0 | .sMinI32Imm d a i => encUI 0x13 d a i
  | .sMinN32 d a b => encUR 0x14 d a b 0 | .sMinN32Imm d a i => encUI 0x14 d a i
  | .sMaxI32 d a b => encUR 0x15 d a b 0 | .sMaxI32Imm d a i => encUI 0x15 d a i
  | .sMaxN32 d a b => encUR 0x16 d a b 0 | .sMaxN32Imm d a i => encUI 0x16 d a i
  | .sCmpI32 c q a b => encUR 0x17 (c.code ++ q) a b 0
  | .sCmpI32Imm c q a i => encUI 0x17 (c.code ++ q) a i
  | .sCmpN32 c q a b => encUR 0x18 (c.code ++ q) a b 0
  | .sCmpN32Imm c q a i => encUI 0x18 (c.code ++ q) a i
  | .sSel d a b n q => encUR 0x19 d a b ((0 : BitVec 1) ++ ob n ++ q)
  | .sMov d a => encUR 0x1A d a 0 0
  | .sMovSpecial d x => encUR 0x1A d (BitVec.ofNat 6 x.code) 0 0x10
  | .sAddi d a i => encU 0x1B d a i
  | .sBfx d a w p => encU 0x1C d a ((1 : BitVec 1) ++ w ++ p)
  | .sPopc d a => encU 0x1D d a 0
  | .sClz d a => encU 0x1E d a 0
  | .sQop o d a b => encU 0x1F ((0 : BitVec 3) ++ d) ((0 : BitVec 3) ++ a)
      ((0 : BitVec 1) ++ (0 : BitVec 3) ++ b ++ (0 : BitVec 2) ++ o.code)
  | .sLd t s d a o => encU 0x20 d a (t.code ++ s.code ++ o)
  | .sSt t s d a o => encU 0x21 d a (t.code ++ s.code ++ o)
  | .sAtom o w s d a => encU 0x22 d a ((if w then (5 : BitVec 3) else 0) ++ s.code ++ o.code ++ (0 : BitVec 4))
  | .br o => encI 0x0 0 o
  | .bc n q o => encI 0x1 ((0 : BitVec 2) ++ ob n ++ q) o
  | .bv n p j o => encI 0x2 ((0 : BitVec 2) ++ ob n ++ p) (j ++ o)
  | .call d o => encI 0x3 d o
  | .loop c o => encI 0x4 c o
  | .join j => encI 0x5 0 (j ++ (0 : BitVec 16))
  | .sMovi d i => encI 0x6 d i
  | .sLui d i => encI 0x7 d i
  | .add h d x => encBin ver h .add d x | .sub h d x => encBin ver h .sub d x
  | .mul h d x => encBin ver h .mul d x | .mulh h g d x => encBin ver h (.mulh g) d x
  | .and h d x => encBin ver h .and d x | .or h d x => encBin ver h .or d x
  | .xor h d x => encBin ver h .xor d x | .andn h d x => encBin ver h .andn d x
  | .shl h d x => encBin ver h .shl d x | .shr h d x => encBin ver h .shr d x
  | .sra h d x => encBin ver h .sra d x | .rot h d x => encBin ver h .rot d x
  | .min h g d x => encBin ver h (.min g) d x | .max h g d x => encBin ver h (.max g) d x
  | .mov h d x => encUn ver h .mov d x | .not h d x => encUn ver h .not d x
  | .abs h d x => encUn ver h .abs d x | .neg h d x => encUn ver h .neg d x
  | .clz h d x => encUn ver h .clz d x | .popc h d x => encUn ver h .popc d x
  | .brev h d x => encUn ver h .brev d x
  | .movi h d i => [encH h 2, SRaw.word ⟨0x17, d, 0, 0, 0⟩, i]
  | .mad h d a b c => encLB h 0x18 d a b 0 c 0
  | .sad h g d a b c => encLB h (if ver = 3 then 0x19 else 0x1A) d a b g.code8 c 0
  | .dot4 h g s d a b c =>
    encLB h (if ver = 3 then 0x1A else 0x19) d a b g.code8 c ((0 : BitVec 6) ++ ob s)
  | .bfx h g d a p w => encL h ⟨0x1B, d, a, 0, g.code⟩ ⟨0, 0, 0, 0, encBf p w⟩
  | .bfi h d a b p w => encL h ⟨0x1C, d, a, b, 0⟩ ⟨0, 0, 0, 0, encBf p w⟩
  | .sel h d a b n p => encLB h 0x1D d a b 0 0 ((0 : BitVec 3) ++ ob n ++ p)
  | .cmp h g c p a b => encLB h 0x1E (encPd p) a b g.code 0 ((0 : BitVec 1) ++ c.code ++ (0 : BitVec 3))
  | .div h g d a b => encLB h 0x20 d a b g.code 0 0
  | .rem h g d a b => encLB h 0x21 d a b g.code 0 0
  | .fadd h d x => encFBin ver h .fadd d x | .fsub h d x => encFBin ver h .fsub d x
  | .fmul h d x => encFBin ver h .fmul d x
  | .fmin h d x => encFSel ver h .fmin d x | .fmax h d x => encFSel ver h .fmax d x
  | .ffma h d x => encFTri ver h .ffma d x
  | .fcmp h c p a b => encL0 h 0x36 (encPd p) a b 0 0 ((0 : BitVec 1) ++ c.code ++ (0 : BitVec 3))
  | .fclass h f d a => encL0 h 0x37 d a 0 (BitVec.ofNat 3 f.code) 0 0
  | .frcp h rm d a => encL0 h 0x38 d a 0 0 0 (encRm rm)
  | .frsq h d a => encL0 h 0x39 d a 0 0 0 0
  | .fsqrt h rm d a => encL0 h 0x3A d a 0 0 0 (encRm rm)
  | .fex2 h d a => encL0 h 0x3B d a 0 0 0 0
  | .flg2 h d a => encL0 h 0x3C d a 0 0 0 0
  | .fsin h d a => encL0 h 0x3D d a 0 0 0 0
  | .fcos h d a => encL0 h 0x3E d a 0 0 0 0
  | .ftanh h d a => encL0 h 0x3F d a 0 0 0 0
  | .fcvt h s rm dst src d a =>
    encL0 h 0x40 d a (match dst with | .flt _ => 0 | .int _ => 1)
      (BitVec.ofNat 3 (match dst with | .flt f => f.code | .int i => i.code)) 0
      (rm.code ++ ob s ++ BitVec.ofNat 4 src.srcCode)
  | .frnd h rm d a => encL0 h 0x41 d a 0 0 0 (encRm rm)
  | .badd2 h d x => encFBin ver h .badd2 d x | .bmul2 h d x => encFBin ver h .bmul2 d x
  | .bfma2 h d x => encFTri ver h .bfma2 d x | .bfma2V2 h d x => encFTri ver h .bfma2 d x
  | .shfl h m w d a b => encLB h 0x50 d a b 0 0 (ob w ++ m.code ++ (0 : BitVec 3))
  | .bal h w d n p => encL0 h 0x51 d 0 0 0 (if w then d + 1 else d) (ob w ++ (0 : BitVec 2) ++ ob n ++ p)
  | .scan h o e w d a => encL0 h 0x52 d a 0 o.tyCode 0 (ob w ++ o.opCode ++ ob e ++ (0 : BitVec 2))
  | .red h o w d a => encL0 h 0x53 d a 0 o.tyCode 0 (ob w ++ o.opCode ++ (0 : BitVec 3))
  | .cx h t w d a b n p => encLB h 0x54 d a b t.code 0 (ob w ++ (0 : BitVec 2) ++ ob n ++ p)
  | .vany h w d n p => encL0 h 0x55 (encPd d) 0 0 0 0 (ob w ++ (0 : BitVec 2) ++ ob n ++ p)
  | .vall h w d n p => encL0 h 0x56 (encPd d) 0 0 0 0 (ob w ++ (0 : BitVec 2) ++ ob n ++ p)
  | .meq h w d a => encL0 h 0x57 d a 0 0 (if w then d + 1 else d) (ob w ++ (0 : BitVec 6))
  | .bmAnd h d p a b => encL0 h 0x58 d a b 0 0 ((0 : BitVec 4) ++ p)
  | .bmRank h d a b c => encLB h 0x59 d a b 0 c 0
  | .bmSel h d a b => encLB h 0x5A d a b 0 0 0
  | .isect h g sp d a b c i =>
    encL h ⟨0x5B, d, a, b, g.code8⟩ ⟨c, 0, 0, (0 : BitVec 1) ++ ob sp ++ (0 : BitVec 5), i⟩
  | .sow h a => encL0 h 0x60 0 a 0 0 0 0
  | .sowSg h a => encL0 h 0x60 0 a 0 0 0 1
  | .sowQ h d a => encL0 h 0x61 d a 0 0 (d + 1) 0
  | .v2s h d a => encL0 h 0x64 ((0 : BitVec 1) ++ d) a 0 0 0 0
  | .s2v h d a => encL0 h 0x65 d ((0 : BitVec 1) ++ a) 0 0 0 0
  | .bdGet h d s => encL0 h 0x68 d 0 0 0 0 (encBd false s)
  | .bdSet h m s a => encL0 h 0x69 0 a 0 0 0 (encBd m s)
  | .bdClr h s => encL0 h 0x6A 0 0 0 0 0 (encBd false s)
  | .ld h c t n d a o => encL h ⟨0x70, d, a, 0, t.code⟩ ⟨rangeLast d n, ob c.rmt, 0, encAcc c, o⟩
  | .st h c t n d a o => encL h ⟨0x71, d, a, 0, t.code⟩ ⟨rangeLast d n, ob c.rmt, 0, encAcc c, o⟩
  | .atom h op c g d a b vc o => encL h ⟨0x72, d, a, b, g.code⟩ ⟨vc, ob c.rmt, 0, encAcc c, op.code ++ o⟩
  | .fence h s => encL0 h 0x73 0 0 0 0 0 ((0 : BitVec 4) ++ s.code)
  | .cpBlkLd la tk r a b n => encE la 0x10 tk 0 a b n 0 0 (encRing r 0)
  | .cpBlkSt la tk r a b n => encE la 0x10 tk 1 a b n 0 0 (encRing r 0)
  | .cpBlkMm la tk r a b n => encE la 0x10 tk 2 a b n 0 0 (encRing r 0)
  | .cpTenLd la tk r a b => encE la 0x11 tk 0 a b 0 0 0 (encRing r 0)
  | .cpTenSt la tk r a b => encE la 0x11 tk 1 a b 0 0 0 (encRing r 0)
  | .cpTenLdBnd la tk r a b i => encE la 0x11 tk 4 a b 0 0 0 (encRing r i)
  | .cpTenStBnd la tk r a b i => encE la 0x11 tk 5 a b 0 0 0 (encRing r i)
  | .cpTenLdBnda la tk r a b => encE la 0x11 tk 6 a b 0 0 0 (encRing r 0)
  | .cpTenLdBndw la tk r a b => encE la 0x11 tk 7 a b 0 0 0 (encRing r 0)
  | .cpRed la tk r dir o a b n => encE la 0x14 tk ((0 : BitVec 1) ++ dir) a b n 0 0 (encRing r o.code)
  | .cpFillOc la tk r a b n => encE la 0x15 tk 0 a b n 0 0 (encRing r 0)
  | .cpFillMm la tk r a b n => encE la 0x15 tk 2 a b n 0 0 (encRing r 0)
  | .cpGat la tk r z d l => encE la 0x12 tk z d 0 l 0 0 (encRing r 0)
  | .cpSct la tk r z d l => encE la 0x13 tk z d 0 l 0 0 (encRing r 0)
  | .tkWait la m => encE la 0x16 0 0 0 0 0 0 0 ((0 : BitVec 4) ++ m)
  | .tkWaitSt la d m => encE la 0x16 0 1 d 0 0 0 0 ((0 : BitVec 4) ++ m)
  | .rgAcqEmpty la r => encE la 0x17 0 0 r.ea 0 0 0 0 (encRg r)
  | .rgAcqFull la r => encE la 0x17 0 1 r.ea 0 0 0 0 (encRg r)
  | .rgRel la r => encE la 0x18 0 0 r.ea 0 0 0 0 (encRg r)
  | .mxLdw la w f => encE la 0x20 0 0 w f 0 0 0 0
  | .mxFlip la => encE la 0x21 0 0 0 0 0 0 0 0
  | .mxRun la tk i a f => encE la 0x22 tk 0 a f 0 0 0 (encTile i)
  | .mxRunV la tk i v f => encE la 0x22 tk 1 0 f 0 v (v + 31) (encTile i)
  | .mxCmatId la tk i => encE la 0x23 tk 0 0 0 0 0 0 (encTile i)
  | .mxCmatTr la tk i => encE la 0x23 tk 1 0 0 0 0 0 (encTile i)
  | .mxCmatPerm la tk i v => encE la 0x23 tk 2 0 0 0 v v (encTile i)
  | .mxCmatSum la tk i => encE la 0x23 tk 3 0 0 0 0 0 (encTile i)
  | .mxDrain la tk i f s rm x y c =>
    encE la 0x24 tk 0 c 0 0 x y ((0 : BitVec 2) ++ rm.code ++ ob s ++ BitVec.ofNat 4 f.srcCode ++ i)
  | .mxZero la i => encE la 0x25 0 0 0 0 0 0 0 (encTile i)
  | .mxFence la => encE la 0x26 0 0 0 0 0 0 0 0
  | .mxWait la tk => encE la 0x27 tk 0 0 0 0 0 0 0
  | .mxBeg la i n => encE la 0x28 0 0 0 0 0 0 0 (encJob i n)
  | .mxRedo la tk i n => encE la 0x29 tk 0 0 0 0 0 0 (encJob i n)
  | .susp n t c => encE 0 0x30 0 0 n t c 0 0 0
  | .evAdd la n v => encE la 0x31 0 0 n v 0 0 0 0
  | .evAddRet la d n v => encE la 0x31 0 1 n v d 0 0 0
  | .evSet la n v => encE la 0x32 0 0 n v 0 0 0 0
  | .evGet la d n => encE la 0x33 0 0 n 0 d 0 0 0
  | .barSwath => encE 0 0x34 0 0 0 0 0 0 0 0
  | .barTeam => encE 0 0x34 0 1 0 0 0 0 0 0
  | .barGang => encE 0 0x34 0 2 0 0 0 0 0 0
  | .sgNew la d p => encE la 0x38 0 0 p 0 d 0 0 0
  | .sgJoin la t => encE la 0x39 0 0 t 0 0 0 0 0
  | .sgJoinClr la => encE la 0x39 0 1 0 0 0 0 0 0
  | .sgVote la d h => encE la 0x3A 0 0 0 h d 0 0 0
  | .sgVoteAbst la d => encE la 0x3A 0 1 0 0 d 0 0 0
  | .sgCpt la => encE la 0x3B 0 0 0 0 0 0 0 0
  | .sgStatSt la d g => encE la 0x3C 0 0 g 0 d 0 0 0
  | .sgStatHash la d g => encE la 0x3C 0 1 g 0 d 0 0 0
  | .sgStatWait la d g => encE la 0x3C 0 2 g 0 d 0 0 0
  | .sgFree la g => encE la 0x3D 0 0 g 0 0 0 0 0
  | .lnch la tk q c => encE la 0x40 tk 0 q c 0 0 0 0
  | .lnchTry la tk q c => encE la 0x40 tk 1 q c 0 0 0 0
  | .post la tk q c => encE la 0x41 tk 0 q c 0 0 0 0
  | .postTry la tk q c => encE la 0x41 tk 1 q c 0 0 0 0
  | .trap i => encEI 0x48 i
  | .scall i => encEI 0x49 i
  | .brk i => encEI 0x4D i
  | .eret => encE 0 0x4A 0 0 0 0 0 0 0 0
  | .eretFc n t => encE 0 0x4A 0 1 n t 0 0 0 0
  | .idle => encE 0 0x4E 0 0 0 0 0 0 0 0
  | .srGet la r d => encE la 0x4B 0 0 0 0 d 0 0 r
  | .srSet la r s => encE la 0x4C 0 0 s 0 0 0 0 r
  | .tlbInvPage a v => encE 0 0x50 0 0 a v 0 0 0 0
  | .tlbInvAsid a => encE 0 0x50 0 1 a 0 0 0 0 0
  | .tlbInvAll => encE 0 0x50 0 2 0 0 0 0 0 0
  | .tlbSync => encE 0 0x51 0 0 0 0 0 0 0 0
  | .pgProbe d a v => encE 0 0x52 0 0 a v d 0 0 0
  | .dqPush la q c d => encE la 0x58 0 0 q c d 0 0 0
  | .dqPushTry la q c d => encE la 0x58 0 1 q c d 0 0 0
  | .dqPop la q c d => encE la 0x59 0 0 q c d 0 0 0
  | .dqPopTry la q c d => encE la 0x59 0 1 q c d 0 0 0
  | .nxPut tk d n r => encE 0 0x60 tk 0 d n r 0 0 0
  | .nxGet tk d n r => encE 0 0x61 tk 0 d n r 0 0 0
  | .nxAtom tk o d v r => encE 0 0x62 tk o.code d v r 0 0 0
  | .nxSig tk d v r => encE 0 0x63 tk 0 d v r 0 0 0
  | .nxProbe tk rt r => encE 0 0x66 tk 0 rt 0 r 0 0 0
  | .nxTopo tk m r => encE 0 0x64 tk 0 0 m r 0 0 0
  | .nxTree tk m r => encE 0 0x65 tk 0 0 m r 0 0 0
  | .lgAppTok la tk a s r => encE la 0x68 tk 0 a s r 0 0 0
  | .lgAppCommit la tk a s r => encE la 0x68 tk 1 a s r 0 0 0
  | .lgAppVoid la tk a s r => encE la 0x68 tk 2 a s r 0 0 0
  | _ => []

/-! ### Bytes and the numbering of spec/opcode_table.json -/

/-- The parcel that four bytes hold, the byte at the lowest address in bits 7 to 0 (R48). -/
def parcelOfBytes (b0 b1 b2 b3 : Byte) : Word := b3 ++ b2 ++ b1 ++ b0

/-- The parcels of a byte string; a rest of fewer than four bytes is dropped. -/
def parcelsOf : List Byte → List Word
  | b0 :: b1 :: b2 :: b3 :: t => parcelOfBytes b0 b1 b2 b3 :: parcelsOf t
  | _ => []

/-- The first `n` bytes of a number, little-endian. -/
def leBytes (n w : Nat) : List Byte :=
  match n with
  | 0 => []
  | k + 1 => BitVec.ofNat 8 w :: leBytes k (w / 256)

/-- Decode an instruction from its bytes under a version. -/
def decodeBytes (ver : Nat) (bs : List Byte) : Except DecFault Instr := decode ver (parcelsOf bs)

/-- The bits of a table word below `nbits`, as the twelve bytes of the longest word. -/
def tableBytes (nbits w : Nat) : List Byte := leBytes 12 (w % 2 ^ nbits)

/-- The instruction the decoder reads, under version 3, from an instruction whose bits are `w` as
spec/opcode_table.json numbers them; bits above `nbits` are zero (log 12). -/
def decodeTableWord (nbits w : Nat) : Option Instr := (decodeBytes 3 (tableBytes nbits w)).toOption

end Sys2Proof
end

