-- ==== Sys2Proof/Config.lean ====
section
/-! DEFINITION. What the spec leaves open: constants without a body, so that no proof can see their values. -/

namespace Sys2Proof

/-- The n-th free value: a value the spec leaves open (log 5). -/
opaque Config.freeValue : Nat → BitVec 64

/-- What the special functions return for an input where the spec gives only an error bound (R138):
the function's number and the input pattern give a candidate, used where it lies within the bound (log 6). -/
opaque Config.specialFunction : Nat → Word → Word

/-- The SHA-256 digest of Caerak's public key, fused into the die (R468, R470; log 8). -/
opaque Config.fusedKey : BitVec 256

/-- What the device derives from its identity seed for a leaf of a signature tree (R473; log 8): the `i`-th secret of leaf
`leaf` of tree `tree`. -/
opaque Config.identitySecret : BitVec 256 → Nat → Nat → Nat → BitVec 256

/-- The check word over the bytes of a retention area (R474; log 34). -/
opaque Config.areaCheck : List Byte → BitVec 32

/-- The SHA-256 digest of the boot ROM (R473; log 8). -/
opaque Config.romDigest : BitVec 256

/-- Whether a die whose frequency is an odd number of tenths of a GHz runs the longer half of its cycles in even
meridian ticks (R415) (log 10). -/
opaque Config.clockPhase : Nat → Bool

end Sys2Proof
end

