-- ==== Sys2Proof/Machine/State.lean ====
section
/-! DEFINITION. The state of the AC400 as plain data: everything the spec gives the device, and the reset state. -/

namespace Sys2Proof.Machine

/-- Why the machine stops: nothing in this model does. -/
inductive Fault where
  /-- Raised by no meaning: every fault the spec describes is a trap, a record or a status, which go on. Safe. -/
  | none
  deriving DecidableEq, Repr

/-- Why an instruction has no meaning in a state. -/
inductive Refusal where
  /-- Raised by an arm of `exec` that has no meaning yet. Safe. -/
  | notModelled (mnemonic : String)
  /-- Raised by an instruction word executed where no unit issues it (`State.cur` names no unit): a term that
  no fetch reaches. Safe. -/
  | noIssuingUnit
  deriving DecidableEq, Repr

/-! ### Sheaves and their units (R77 to R88, R107 to R113) -/

/-- The privilege levels of R365. -/
inductive Level where
  | user | supervisor | monitor
  deriving DecidableEq, Repr

/-- The roles of R18. -/
inductive Role where
  | g | c | m | v
  deriving DecidableEq, Repr

/-- A register a word of one unit reads or writes, as R94 counts them. -/
inductive RegKey where
  | v (pos r : Nat)
  | p (pos i : Nat)
  | s (r : Nat)
  | q (i : Nat)
  deriving DecidableEq, Repr

/-- A register write whose lookahead window is open for `left` more words of its unit (R94, R95): the value
from before the write. -/
structure Win where
  left : Nat
  key  : RegKey
  old  : Word
  deriving DecidableEq, Repr

/-- A token: pending or complete with a status (R113). -/
structure Tok where
  pending : Bool
  status  : Nat
  deriving DecidableEq, Repr

/-- The round words of R158. -/
inductive RoundKind where
  | sow | sowSg | sowQ
  deriving DecidableEq, Repr

/-- A round word as a unit waits at it: kind, count register, first destination, predicate. -/
structure RoundWord where
  kind : RoundKind
  va   : Nat
  vd   : Nat
  pred : Nat
  neg  : Bool
  deriving DecidableEq, Repr

/-- The swath-collective words: `bar.swath`, a cross-thread L-word, an E-word of the matrix engine (R89). -/
inductive SwathWord where
  | bar | lane | matrix
  deriving DecidableEq, Repr

/-- What a word finds full or busy: a copy queue or a ring slot's count of copies, its engine's queue, a job's re-run, the fabric
commands of its die, the unit's own requests to ballot arrays, the invalidation queue (R214, R226, R242, R272, R326, R401, R441). -/
inductive RoomFor where
  | copy (gather : Bool) (ring : Option Nat)
  | engine
  | job (n : Nat)
  | fabric
  | ballots
  | invals
  deriving DecidableEq, Repr

/-- What a unit waits for. A waiting word has not taken effect, unless its wait is one that an event ends. -/
inductive Wait where
  /-- Nothing: the unit's next word may issue. -/
  | ready
  /-- Tokens of a wait mask, a `tk.wait`, an `mx.wait` or a command's own token (R91, R113, R225, R255). -/
  | tokens (mask : Nat)
  /-- Room in an engine or a queue that the word enters. -/
  | room (r : RoomFor)
  /-- A ring slot's phase (R227). -/
  | ring (r s : Nat) (full : Bool)
  /-- The rest of the swath at a swath-collective word (R89). -/
  | swath (w : SwathWord)
  /-- A `sow` round (R158). -/
  | round (w : RoundWord)
  /-- A team or gang barrier (R307). -/
  | barTeam
  | barGang
  /-- A `susp` registered on its counter (R304), or the wait of a fault continuation (R379). -/
  | susp (id : Nat)
  /-- The reply to an earlier word's request, which this word may not run ahead of (R91, R94). -/
  | reply (id : Nat)
  /-- A decision of the group that a tag word names (R328). -/
  | decision (w : Word)
  /-- Room toward a die-to-die queue (R412), or an entry of one (R413). -/
  | dqPush (q : Nat)
  | dqPop (q : Nat)
  /-- `idle` (R375). -/
  | idle
  deriving DecidableEq, Repr

/-- A value on its way to a uniform register: the request that brings it, the register by its number, and how many words of
the unit may still run ahead of the write by its word's lookahead (R94). -/
structure Await where
  id   : Nat
  dst  : Nat
  left : Nat
  deriving DecidableEq, Repr

/-- What a unit may have seen of its team's stores, which are numbered: those below `since` happen before its next access, and
of some bytes it has read or written the state as of a later number (R283, R288; log 2). -/
structure View where
  since : Nat
  seen  : List (Space × Nat × Nat)
  deriving DecidableEq, Repr

/-- A unit: a sheaf or one of its fragments (R77 to R80). -/
structure UnitSt where
  mask   : BitVec 16
  pc     : Word
  inner  : Option Nat
  age    : Nat
  /-- In the lane's active set (R91). -/
  active : Bool
  /-- The lane cycle of its last issue (R93). -/
  last   : Nat
  wait   : Wait
  wins   : List Win
  /-- The scopes of the fences that it has passed: its later stores are releases at each of them (R287). -/
  fenced : List Scope
  /-- The splits it came from, outermost first: true where it is of the taken side (R92). -/
  path   : List Bool
  /-- The uniform registers whose values are on their way (R303, R326). -/
  awaits : List Await
  /-- Its view of its team's stores; none where all of them so far happen before its next access (R288; log 2). -/
  view   : Option View
  deriving DecidableEq, Repr

/-- Where a parked side stands: it has yet to run, or it has arrived at a round word, or at a team's or a gang's barrier (R159,
R307). -/
inductive Parked where
  | fresh | atSow | atSowQ | atBar (gang : Bool)
  deriving DecidableEq, Repr

/-- A parked side of a split record (R82). -/
structure Side where
  mask    : BitVec 16
  pc      : Word
  arrived : Parked
  /-- As its unit's (R92, R287). -/
  path    : List Bool
  fenced  : List Scope
  /-- The inner record of its unit, where that is not the record that parks it (R159; log 21). -/
  inner   : Option Nat
  deriving DecidableEq, Repr

/-- A split record (R82). -/
structure Split where
  id      : Nat
  parent  : Option Nat
  live    : Nat
  arrived : BitVec 16
  jaddr   : Word
  parked  : List Side
  age     : Nat
  /-- The path of the unit that opened it (R92), and the scopes of the fences that its members have passed (R86, R287). -/
  path    : List Bool
  fenced  : List Scope
  deriving DecidableEq, Repr

/-- A thread of a sheaf: its registers, ordinal, rank and group tag (R107, R111, R317). -/
structure Thread where
  v    : Tbl Word
  p    : BitVec 8
  ord  : Word
  rank : Nat
  tag  : Word
  deriving DecidableEq, Repr

/-- The per-sheaf system registers of R367. -/
structure SysRegs where
  utvec  : Word
  fcont  : Word
  bthr   : Word
  bmode  : Word
  uepc   : Word
  ucause : Word
  urows  : DWord
  fret   : Word
  fevn   : Word
  ftgt   : Word
  dthr   : Word
  sepc   : Word
  scause : Word
  sinfo  : Word
  smask  : Word
  ssum   : DWord
  saddr  : DWord
  sstat  : Word
  deriving DecidableEq, Repr

/-- A register that a matrix command holds until a word has waited for its token (R247): an operand, or a drain's
destination. -/
structure Held where
  cmd   : Nat
  tk    : Nat
  key   : RegKey
  drain : Bool
  deriving DecidableEq, Repr

/-- A vector register that a lane word wrote since the sheaf's last `mx.fence`, with its value before (R246). -/
structure LooseReg where
  key : RegKey
  old : Word
  deriving DecidableEq, Repr

/-- A `.sh` or `.sp` byte that a lane word stored since the sheaf's last `mx.fence`, with its value before (R246). -/
structure LooseByte where
  sp   : Bool
  addr : Nat
  old  : Byte
  deriving DecidableEq, Repr

/-- A register that a fabric command or a log append reports to, until a word of the issuing unit has waited for its token (R443,
R457): the unit, whether the report is there, the value before it, and whether a word has written the register since the
issue. -/
structure Report where
  uid   : Nat
  tk    : Nat
  key   : RegKey
  old   : Word
  done  : Bool
  touched : Bool
  deriving DecidableEq, Repr

/-- A sheaf of a team (R77, R78, R107, R144, R183). -/
structure Sheaf where
  role    : Role
  lane    : Nat
  allot   : Nat
  s       : Tbl Word
  ss      : Tbl Word
  q       : BitVec 8
  tok     : Tbl Tok
  threads : Tbl Thread
  /-- Virtual position to physical position (R144). -/
  remap   : Tbl Nat
  splits  : Tbl Split
  units   : Tbl UnitSt
  /-- The age of the sheaf: when it entered its lane (R92). -/
  age     : Nat
  level   : Level
  sys     : SysRegs
  /-- The unit F of a supervisor trap being handled (R372). -/
  trapped : Option Nat
  /-- Fetch is from SVBASE under ASID 0 (R372). -/
  svFetch : Bool
  /-- SVBASE as the trap found it: a later write of it has no effect on a trap under way (R367). -/
  svAt    : DWord
  stack   : List Host.Cell
  /-- Poisoned 8-byte granules of the stack (R202). -/
  stackPz : List Nat
  retired : Bool
  /-- Registers held by matrix commands, held registers touched since, writes not fenced (R246, R247). -/
  held    : List Held
  spoilt  : List Held
  loose   : List LooseReg
  looseB  : List LooseByte
  /-- Report registers of commands whose tokens have not been waited for (R443). -/
  reports : List Report
  /-- Values on their way whose register a word has written since their request, each with the last unit that did (R86). -/
  overtaken : List (Nat × Nat)
  deriving DecidableEq, Repr

/-! ### Copies and rings (R208 to R234) -/

/-- What a queued copy command does (R210), or a log append (R455). -/
inductive CopyKind where
  | blkLd | blkSt | blkMm
  | tenLd | tenSt | tenLdBnd (i : Nat) | tenStBnd (i : Nat) | tenLdBnda | tenLdBndw
  | redLd (op : RedOp) | redSt (op : RedOp) | redMm (op : RedOp)
  | fillOc | fillMm
  | gat (z : Nat) | sct (z : Nat)
  | log (kind : Nat)
  deriving DecidableEq, Repr

/-- A copy command or log append after its issue, with everything captured there (R213, R66). -/
structure CopyCmd where
  id     : Nat
  kind   : CopyKind
  tid    : Nat
  slot   : Nat
  tk     : Nat
  /-- The ring slot it counts in: 16 × ring + slot. -/
  ring   : Option Nat
  asid   : Nat
  /-- The unit tag it carries (R318). -/
  tag    : Word
  /-- s(ea), the pair of eb, s(ec), and the captured record or descriptor. -/
  a      : Word
  b      : DWord
  /-- The second main pair of a main-to-main form. -/
  b2     : DWord
  n      : Nat
  layout : List Word
  /-- Bound rows captured by `cp.ten.st.bnd`. -/
  rows   : List (BitVec 16)
  parcel0 : Word
  parcel1 : Word
  /-- Chunks completed (R228). -/
  progress : Nat
  /-- Stopped on a posted or waiting fault record (R230). -/
  stopped : Bool
  /-- The destination line from which poison is written (R231). -/
  poison : Option Nat
  /-- An element was out of range (R221), or an element met an uncorrectable error (R231). -/
  bad    : Bool
  err    : Bool
  /-- For forms read as if whole before any write (R215): source bytes that the command has overwritten, as they stood
  before, by physical place, and those of them that met an uncorrectable error. -/
  buf    : Option (List Host.Cell)
  bufPz  : List Nat
  /-- The token of the result register of a log append (R455). -/
  res    : Nat
  /-- A log append that has found its ring full (R457). -/
  full   : Bool
  deriving DecidableEq, Repr

/-- A stage ring slot (R226). -/
structure RingSt where
  ph : Bool
  se : Bool
  oc : Nat
  deriving DecidableEq, Repr

/-! ### The matrix engine (R238 to R277) -/

/-- A filled plane (R238): the tile's 8,192 bytes, its W format and scales, its largest finite magnitude as m × 2^e,
whether an element is infinite, and e_W (R261). -/
structure Plane where
  fmt   : Nat
  kind  : Nat
  lblk  : Nat
  tile  : List Byte
  scales : List Nat
  maxM  : Nat
  maxE  : Int
  maxInf : Bool
  eW    : BitVec 16
  deriving DecidableEq, Repr

/-- What a matrix command does, with its captured operands (R243, R66). -/
inductive MxOp where
  | ldw (addr desc scale : Word)
  | flip
  | run (tile : Nat) (addr desc scale : Word)
  | runV (tile : Nat) (vx : Nat) (desc scale : Word)
  | cmatId (tile : Nat)
  | cmatTr (tile : Nat)
  | cmatPerm (tile : Nat) (vx : Nat)
  | cmatSum (tile : Nat)
  | drain (tile : Nat) (fmt : Fmt) (sat : Bool) (rm : Rm) (vx vy c0 : Nat)
  | zero (tile : Nat)
  | beg (tile : Nat) (slot : Nat)
  | redo (tile : Nat) (slot : Nat)
  deriving DecidableEq, Repr

/-- A matrix command in the queue (R238, R241). -/
structure MxCmd where
  id    : Nat
  op    : MxOp
  tid   : Nat
  /-- The sheaves that issued it, lead first. -/
  slots : List Nat
  /-- The swath row of the first sheaf's position 0. -/
  base  : Nat
  /-- Participating rows (R241). -/
  rows  : BitVec 64
  tk    : Option Nat
  tag   : Word
  /-- Writes that no fence stands behind (R246): by slot and register, and bytes. -/
  loose : List (Nat × LooseReg)
  looseB : List LooseByte
  deriving DecidableEq, Repr

/-- The states of a checkpoint slot (R277). -/
inductive JobState where
  | free | opened | rerunning | held
  deriving DecidableEq, Repr

/-- A logged command of a job with the A-buffer entries its pass read (R271). -/
structure LogEntry where
  cmd  : MxCmd
  aBuf : Tbl (BitVec 16)
  deriving DecidableEq, Repr

/-- A checkpoint slot (R270 to R277). -/
structure Job where
  state   : JobState
  tile    : Nat
  tau     : Word
  mode    : Nat
  slots   : List Nat
  base    : Nat
  /-- The checkpoint: tile words by row × 64 + column, bound rows, planes. -/
  words   : Tbl Word
  bounds  : Tbl (BitVec 16)
  active  : Option Plane
  shadow  : Option Plane
  log     : List LogEntry
  /-- Commands issued into the job but not yet performed. -/
  pend    : Nat
  /-- Rows that took part in a pass. -/
  rows    : BitVec 64
  /-- The token of the job's most recent pass. -/
  lastTk  : Option Nat
  /-- A re-run asked for by `mx.redo` rather than by a trip: its token. -/
  redoTk  : Option Nat
  /-- The rows whose last pass in the job read their words as integers (R74). -/
  ints    : BitVec 64
  /-- Once the job's ending `mx.wait` has issued, or its swath is gone: commands below this number issued before that (R242, R272,
  R278). -/
  mark    : Nat
  /-- The threads of its swath have all ended: no later word is of the job (R278). -/
  lost    : Bool
  deriving DecidableEq, Repr

/-- A core's matrix engine. -/
structure Engine where
  holder : Option Nat
  active : Option Plane
  shadow : Option Plane
  /-- Tile words by tile × 4096 + row × 64 + column. -/
  tiles  : Tbl Word
  /-- Bound rows by tile × 64 + row. -/
  bounds : Tbl (BitVec 16)
  aBuf   : Tbl (BitVec 16)
  wBuf   : Tbl (BitVec 16)
  queue  : List MxCmd
  job0   : Job
  job1   : Job
  /-- Jobs that an `mx.redo` has run again and whose trip check its `mx.wait` has yet to make (R276): the sheaves that issued
  the word, its token, and what the check reads. -/
  redone : List Job
  deriving DecidableEq, Repr

/-- A scratchpad line in a core's combining cache (R189): a copy of the line's bytes, if the cache holds one, and the
merged stores that wait, by offset in the line. -/
structure CcLine where
  clean : List Byte
  dirty : List Host.Cell
  deriving DecidableEq, Repr

/-- A core: its engine, its streamer's queue, its combining cache by scratchpad line, and the lines of main memory that its
instruction cache holds, the latest last (R2, R201; log 56). -/
structure Core where
  engine   : Engine
  streamer : List CopyCmd
  cache    : Tbl CcLine
  icache   : List Nat
  deriving DecidableEq, Repr

/-- A lane's scheduler (R93): current unit, greedy count, and the lane's clock after its last issue (log 1). -/
structure Lane where
  current : Option (Nat × Nat × Nat)
  greedy  : Nat
  cycles  : Nat
  deriving DecidableEq, Repr

/-! ### Teams, plots, launch queues (R156 to R178, R299, R311, R339 to R356) -/

/-- A spill level of the silo (R167, R170). -/
structure SiloLevel where
  first : Nat
  count : Nat
  round : Nat
  pc    : Word
  /-- By record, the lowest first: the tags that it carries, which the device tracks (R316); one for each ordinal left of a record
  spilled by `sow.sg`. -/
  tags  : List (List Word)
  deriving DecidableEq, Repr

/-- Why a team's round does not take place yet (R174), or waits for a walker (R395). -/
inductive RoundHold where
  | none | pool | fault | walker
  deriving DecidableEq, Repr

/-- A byte that a store of a unit wrote while its team had others: in `.sh`, in a sheaf's stack or in the scratchpad; what it held
before, the number of the store among the team's, the storing sheaf, the scopes at which it is a released write, and whether an
atomic made it (R283, R287, R288; log 2). -/
structure PastByte where
  space : Space
  stack : Nat
  addr  : Nat
  old   : Byte
  id    : Nat
  by'   : Nat
  rel   : List Scope
  atom  : Bool
  deriving DecidableEq, Repr

/-- A team: its placement, its captures, its sheaves and everything its threads share. -/
structure Team where
  asid    : Nat
  /-- The plot: die × 4096 + record. -/
  plot    : Nat
  index   : Nat
  die     : Nat
  core    : Nat
  ver     : Nat
  codeBase : Nat
  capacity : Nat
  live    : Nat
  /-- The `.sh` window's length W (R181). -/
  window  : Nat
  /-- The stack bytes of each sheaf (R183). -/
  stackLen : Nat
  tiles   : Nat
  sowing  : Bool
  hasC    : Bool
  hasM    : Bool
  slots   : Nat
  /-- Wait mode SWAP (R305), swap threshold and save base (R310, R311), silo base (R170). -/
  swapMode : Bool
  swapThr : Nat
  saveBase : Nat
  siloBase : Nat
  tag     : Word
  /-- The gang: the plot's gang number, and whether it has more than one team. -/
  gang    : Nat
  ganged  : Bool
  /-- Captured at placement: the scratchpad window of its die (R188), four event windows (R299). -/
  spWin   : Word
  evWin   : List Word
  sheaves : Tbl Sheaf
  shared  : List Host.Cell
  sharedPz : List Nat
  /-- How many stores of its units are numbered, and the bytes of those that a unit need not have seen (R288; log 2). -/
  stores  : Nat
  past    : List PastByte
  rings   : Tbl RingSt
  /-- The round number of its slice (R161). -/
  round   : Nat
  hold    : RoundHold
  /-- The silo header (R169, R170). -/
  floorOk : Bool
  floor   : Nat
  top     : Nat
  levels  : List SiloLevel
  totals  : Tbl Nat
  /-- Silo pages in use (R173). -/
  pages   : List Nat
  /-- The 29 counters of R312, in its order. -/
  counters : Tbl Nat
  /-- Accounting by tag word: ISSUE, COPYB, MXP, LOGR, DJOB, DCOPY, TEND, PREL (R320, R336), not yet
  written to the group area. -/
  acct    : Tbl (List Nat)
  /-- Ended, with commands of its own still to finish; its granules are released, and it no longer counts as resident
  (R234, R357). -/
  ended   : Bool
  freed   : Bool
  faulted : Bool
  cancelled : Bool
  /-- Swapped out (R311), waiting to return (R313), and the header fields of R312. -/
  out     : Bool
  returning : Bool
  swState : Nat
  swWaits : Nat
  swaps   : Nat
  mOut    : Nat
  mIn     : Nat
  /-- Meridian tick since when it is swap-eligible (R310). -/
  eligible : Option Nat
  /-- Stopped by stage 2 of a pre-emption (R387); its swap-out stands on a fault (R311); the free-value counter at its
  last swap-out, from which the bytes of the body came; placements of lower levels that passed it (R352). -/
  halted  : Bool
  swapHold : Bool
  saveSeed : Nat
  passes  : Nat
  /-- The matrix state of a swapped-out team (R240, R278). -/
  saved   : Option Engine
  /-- The image read of its placement stands on a fault (R350). -/
  imageHold : Bool
  imageOff : Nat
  imageLen : Nat
  /-- The launch queue it came from: die × 64 + queue. -/
  queue   : Nat
  deriving DecidableEq, Repr

/-- The words of a kernel header (R339) and a job card (R340) as captured at acceptance. -/
structure Card where
  id     : Nat
  addr   : Nat
  card   : List Byte
  hdr    : List Byte
  asid   : Nat
  /-- The effective tag (R318). -/
  tag    : Word
  /-- For `lnch`: the parent plot, and the team, slot and token to complete at retirement. -/
  parent : Option Nat
  tid    : Nat
  slot   : Nat
  tk     : Nat
  depth  : Nat
  /-- A host submission (R466): its completion goes to the host's ring. -/
  host   : Bool
  /-- Found eligible (R351), the plot once dispatched, teams placed so far. -/
  eligible : Bool
  plot   : Option Nat
  placed : Nat
  passes : Nat
  backs  : Nat
  /-- A check of it as a head found a name that fails R300: it is refused (R351). -/
  bad    : Bool
  /-- A check of it is due when it is the head of its queue and its die's clock runs: its first, and one for each update of a counter
  that it names (R351). -/
  due    : Bool
  /-- The launcher of a `post` has not been told yet (R350, R361; log 58). -/
  untold : Bool
  deriving DecidableEq, Repr

/-- Who a launch token or completion belongs to. -/
inductive LaunchFrom where
  | unit (tid slot tk : Nat)
  | host
  | nobody
  deriving DecidableEq, Repr

/-- A card on its way to its queue (R350). -/
structure CardReq where
  id    : Nat
  die   : Nat
  queue : Nat
  addr  : Nat
  user  : Bool
  /-- The context under which it is read; 4,096 until a queue's owner gives it (R346). -/
  asid  : Nat
  tag   : Word
  isTry : Bool
  parent : Option Nat
  depth : Nat
  src   : LaunchFrom
  stopped : Bool
  /-- The CODE and REASON of a refusal, a cancellation or a failure, 16 × code + reason, whose STATUS is not written yet
  (R343). -/
  verdict : Option Nat
  /-- The die it sets out from (R406). -/
  origin : Nat
  deriving DecidableEq, Repr

/-- A launch queue (R344, R346). -/
structure LQueue where
  cards : List Card
  owner : Option Nat
  deriving DecidableEq, Repr

/-- A plot record (R354). -/
structure Plot where
  card   : Card
  teams  : Nat
  placed : Nat
  ended  : Nat
  children : Nat
  faulted : Bool
  cancelled : Bool
  /-- Retirement has written STATUS up to a fault on that write (R343). -/
  stalled : Bool
  deriving DecidableEq, Repr

/-- A gang's reserve phase (R356): queue, the cores reserved for its teams in order, and the eligible heads of higher
levels that stood when it began, by queue and card. -/
structure Reserve where
  queue : Nat
  cores : List Nat
  seen  : List (Nat × Nat)
  deriving DecidableEq, Repr

/-! ### Event counters and sibling groups (R298 to R306, R315 to R336) -/

/-- An event counter (R298). -/
structure Counter where
  value : Word
  tag   : Option Nat
  deriving DecidableEq, Repr

/-- What a request does at a counter (R303, R304). -/
inductive EvOp where
  | add | set | addRet | get | susp
  deriving DecidableEq, Repr

/-- A request on its way to a counter (R301), or a continuation registered there (R304). -/
structure EvReq where
  id   : Nat
  op   : EvOp
  /-- die × 1024 + counter. -/
  ctr  : Nat
  value : Word
  /-- For a reply or a wake: team, slot, unit and continuation. -/
  tid  : Nat
  slot : Nat
  uid  : Nat
  cont : Word
  /-- A wait of a fault continuation (R379). -/
  fc   : Bool
  /-- The die it sets out from (R406). -/
  src  : Nat
  deriving DecidableEq, Repr

/-- The states of a group record (R315); FREE is no record. -/
inductive GState where
  | opened | decided | freed
  deriving DecidableEq, Repr

/-- A member's settlement (R316). -/
inductive Settle where
  | none | voted | abstained | cancelled
  deriving DecidableEq, Repr

/-- A distinct hash of a group: its value, count and first vote (R316). -/
structure HashCount where
  hash  : DWord
  count : Nat
  first : Nat
  deriving DecidableEq, Repr

/-- A group record (R316). -/
structure Group where
  asid   : Nat
  state  : GState
  n      : Nat
  q      : Nat
  area   : Nat
  /-- The event counter that its name word named at `sg.new` (R300, R323): die × 1024 + counter. -/
  ev     : Option Nat
  seq    : Nat
  settle : Tbl (Settle × Nat)
  hashes : List HashCount
  kind   : Nat
  dhash  : DWord
  win    : Nat
  /-- A group-area access stands on a fault: later requests wait (R481). -/
  stopped : Bool
  deriving DecidableEq, Repr

/-- What a ballot request asks (R323, R326, R328, R329). -/
inductive BallotOp where
  | new (area : Nat) (n q : Nat) (ev : Option Nat)
  | vote (h : DWord)
  | abst
  | free
  /-- Counts of a team for a member entry, in the order of R320 (R336). -/
  | account (row : List Nat)
  /-- The area writes and the event of a decision or a free, which a failed access has held back (R481). -/
  | decided
  /-- The initialisation of the area of a group whose record `sg.new` has taken, its word being the handle (R323, R481). -/
  | init (area n : Nat)
  deriving DecidableEq, Repr

/-- A request on its way to a ballot array (R326). -/
structure BallotReq where
  id    : Nat
  op    : BallotOp
  die   : Nat
  /-- The tag word, or for `sg.new` the window. -/
  word  : Word
  asid  : Nat
  tid   : Nat
  slot  : Nat
  uid   : Nat
  stopped : Bool
  /-- The die it sets out from (R406). -/
  src   : Nat
  /-- Its writes to the group area that have been made or dropped (R481). -/
  done  : Nat
  deriving DecidableEq, Repr

/-- A cancellation on its way to a die (R330): group and member; the die it sets out from (R406). -/
structure CancelReq where
  id   : Nat
  src  : Nat
  die  : Nat
  tag  : Word
  asid : Nat
  deriving DecidableEq, Repr

/-- A page release walk of a cancelled member (R335): its tag, context and home die; the page list as read when it began;
the next entry, and the page whose count has been lowered for it already and that waits for the ring. -/
structure Walk where
  tag    : Word
  asid   : Nat
  home   : Nat
  begun  : Bool
  plist  : Nat
  count  : Nat
  next   : Nat
  lowered : Option Nat
  stopped : Bool
  deriving DecidableEq, Repr

/-! ### Fault queue, translation, dies (R380 to R385, R395 to R402, R414 to R425) -/

/-- The sources of fault records (R381). -/
inductive Source where
  | streamer | gather | silo | swap | launch | ballot | array | timer | fabric | device
  deriving DecidableEq, Repr

/-- The work that stands on a restartable record, and resumes or ends by FQACT (R383). -/
inductive Stalled where
  | none
  | copy (die core id : Nat)
  | gatherCmd (die id : Nat)
  | siloRound (tid : Nat)
  | swapTeam (tid : Nat)
  | card (id : Nat)
  | image (tid : Nat)
  | status (plot : Nat)
  | ballotReq (id : Nat)
  | walk (tag : Word)
  | fabricCmd (id : Nat)
  /-- A write of a port's STATE or LOAD into the topology map. -/
  | portField (port : Nat) (load : Bool)
  deriving DecidableEq, Repr

/-- What a source that cannot post waits for: room in the ring, the ring's page, a fault-table entry, its die's clock, a walker
(R380, R395, R419). -/
inductive PostWait where
  | ring | page | entry | clock | walker
  deriving DecidableEq, Repr

/-- A fault record before or after its post (R381, R383). -/
structure FRec where
  seq   : Nat
  src   : Source
  cause : Nat
  sub   : Nat
  rst   : Bool
  asid  : Nat
  team  : Nat
  plot  : Nat
  token : Nat
  slot  : Nat
  addr  : Nat
  kind  : Nat
  body  : List Word
  work  : Stalled
  acted : Bool
  /-- Before its post: what its last attempt found wanting. -/
  why   : PostWait
  deriving DecidableEq, Repr

/-- A fault-table entry (R399): key, the work that stands on it, and the attached commands seen so far. -/
structure FEntry where
  asid : Nat
  page : Nat
  kind : Nat
  seq  : Nat
  work : List Stalled
  seen : Nat
  deriving DecidableEq, Repr

/-- A translation copy (R395, R396): the leaf a walk read, by ASID, page base and size in bits, in a core's TLB or in the
die's shared one. -/
structure TlbEntry where
  die  : Nat
  core : Option Nat
  asid : Nat
  page : Nat
  bits : Nat
  leaf : DWord
  deriving DecidableEq, Repr

/-- A copy of a valid table entry in a die's walk cache (R396): its level, the address bits above that level's pages, and the
table that it names. -/
structure WalkCopy where
  die  : Nat
  asid : Nat
  level : Nat
  pre  : Nat
  table : Nat
  deriving DecidableEq, Repr

/-- A walk in progress in one of a die's walkers (R395): its page, and the copies of what it has read. -/
structure Walking where
  die  : Nat
  asid : Nat
  page : Nat
  leaf : Option TlbEntry
  path : List WalkCopy
  deriving DecidableEq, Repr

/-- The power states of R422. -/
inductive Power where
  | a0 | a1 | a2 | a3
  deriving DecidableEq, Repr

/-- A die. -/
structure Die where
  fset   : Nat
  fcur   : Nat
  busy   : Bool
  /-- A relock's target and the tick at which it ends (R419). -/
  target : Nat
  relockEnd : Nat
  ceiling : Nat
  /-- Requests through the die, as the middle of their path, that had crossed it when its relock began: those of lower identifiers
  (R406, R420). -/
  crossed : Nat
  cyc    : Nat
  /-- CYC at the last meridian tick, and the increment of the nominal accumulator in force (R415, R416). -/
  cycTick : Nat
  inc    : Nat
  /-- Nominal cycles, with 16 fraction bits (R416). -/
  ncyc   : Nat
  wear   : DWord
  sbal   : Word
  /-- The ticks of the last recomputations of WEAR and SBAL (R425, R462), and whether a team of the die has held an engine in this
  period of SBAL. -/
  wearAt : Nat
  sbalAt : Nat
  held   : Bool
  power  : Power
  /-- Ticks for which the conditions of A1, A2 and A3 have held (R422). -/
  quiet  : Tbl Nat
  fqbase : DWord
  fqsize : Word
  fqhead : Word
  fqtail : Word
  fqevn  : Word
  lost   : Bool
  /-- Restartable records in the ring and not yet acted on, and sources waiting to post. -/
  posted : List FRec
  toPost : List FRec
  ftable : List FEntry
  /-- Status area: 0 to 3 for 0x400 to 0x403 (R385). -/
  stat   : Tbl Nat
  /-- Launch counters 0 to 6 (R362). -/
  launch : Tbl Nat
  counters : Tbl Counter
  susps  : List EvReq
  groups : Tbl Group
  /-- Tag words whose cancel instant this die has reached (R330). -/
  cancelled : List Word
  queues : Tbl LQueue
  /-- By level: the queue of the level that is served next (R352). -/
  served : Tbl Nat
  reserve : Option Reserve
  plots  : Tbl Plot
  /-- Scratchpad bytes, segment owner tags (R188), poisoned granules (R202). -/
  sp     : List Host.Cell
  spTag  : Tbl Nat
  spPz   : List Nat
  /-- The release directory (R290): line and owner core. -/
  reldir : List (Nat × Nat)
  gather : List CopyCmd
  deriving DecidableEq, Repr

/-! ### Die-to-die queues, fabric, host (R406 to R413, R429 to R451, R463 to R478) -/

/-- An entry of a die-to-die queue: its sequence number and 64 bytes (R407). -/
structure DqEntry where
  seq   : Word
  bytes : List Byte
  deriving DecidableEq, Repr

/-- A die-to-die queue (R407, R409): stored entries, next sequence, owner. -/
structure Dq where
  stored : List DqEntry
  inFlight : Nat
  next   : Word
  owner  : Option Nat
  deriving DecidableEq, Repr

/-- A pushed entry in a crossing FIFO (R406, R412): queue, entry, the dies still to reach, and the ASID that sent it. -/
structure Flit where
  id    : Nat
  queue : Nat
  entry : DqEntry
  path  : List Nat
  asid  : Nat
  drop  : Bool
  deriving DecidableEq, Repr

/-- The states of a Bunal port (R438). -/
inductive PortState where
  | down | training | up | disabled
  deriving DecidableEq, Repr

/-- A port (R429, R438): its state, the flits sent in this period, LOAD of the last. -/
structure Port where
  state : PortState
  flits : Nat
  load  : Nat
  /-- States to write into the map, each with the one before it, whose record follows the write (R440), and whether the write of the
  first stands on a record; LOAD is to be written. -/
  changes : List (PortState × PortState)
  stopped : Bool
  loadDue : Bool
  deriving DecidableEq, Repr

/-- The installed topology map (R438, R439, R449): its address and the fields the device uses. -/
structure TopoMap where
  addr   : Nat
  self   : Nat
  nnodes : Nat
  tmo    : Nat
  asidEn : List Byte
  /-- By port: EN, neighbour's node and port. -/
  ports  : Tbl (Bool × Nat × Nat)
  /-- Turn masks by 4 × row + class. -/
  turn   : Tbl Word
  deriving DecidableEq, Repr

/-- An entry of the installed tree table (R450). -/
structure TreeEntry where
  node   : Nat
  parent : Nat
  up     : List Word
  down   : List Word
  deriving DecidableEq, Repr

/-- The passage of a packet over this device's die-to-die links (R406, R429): the path on which it set out, and the port on which it
leaves, or none where it goes to its command. -/
structure Leg where
  id  : Nat
  src : Nat
  dst : Nat
  out : Option Nat
  deriving DecidableEq, Repr

/-- A packet (R433). -/
structure Packet where
  kind : Nat
  hi   : Nat
  nh   : Nat
  asid : Nat
  dst  : Nat
  src  : Nat
  hops : List Nat
  rp   : List Nat
  tag  : Nat
  addr : Nat
  opnd : DWord
  /-- The operation of an atomic, which R433 gives no place. -/
  aop  : AOp
  /-- Payload bytes, or for a get the bytes that it asks for. -/
  len  : Nat
  data : List Byte
  /-- The payload is poisoned (R446). -/
  poison : Bool
  /-- Where it arrives: a port of this device, or 31 at the sending node; in the outbox, the port on which it leaves. -/
  port : Nat
  /-- Its passage between dies, once it has set out on it. -/
  leg  : Option Leg
  deriving DecidableEq, Repr

/-- What a fabric command is (R441). -/
inductive NxKind where
  | put | get | atom (op : AOp) | sig | probe
  deriving DecidableEq, Repr

/-- A packet of a command not yet answered, or its outcome: status, check, hop (R444, R446). Its TAG is the number here modulo 2^16. -/
structure NxPart where
  tag   : Nat
  off   : Nat
  len   : Nat
  /-- The tick at which its packet was sent, and whether its response has arrived. -/
  sentAt : Option Nat
  came  : Bool
  done  : Option (Nat × Nat × Nat)
  deriving DecidableEq, Repr

/-- An issued fabric command (R441 to R446). -/
structure NxCmd where
  id    : Nat
  kind  : NxKind
  die   : Nat
  tid   : Nat
  slot  : Nat
  tk    : Nat
  asid  : Nat
  mtag  : Word
  route : List Word
  remote : Nat
  loc   : DWord
  n     : Nat
  opnd  : DWord
  dst   : Nat
  parts : List NxPart
  /-- An atomic's old value, or a probe's round trip, once a response has brought it. -/
  value : Option Nat
  /-- The offset of the first packet whose local source met an uncorrectable error (R446). -/
  bad   : Option Nat
  /-- Stopped on a record for a local access that failed its walk (R398). -/
  stopped : Bool
  deriving DecidableEq, Repr

/-- A completion record waiting for the host's ring, or written there (R466). -/
structure HostRec where
  card   : Nat
  kind   : Nat
  code   : Nat
  reason : Nat
  deriving DecidableEq, Repr

/-- What the host or management last received: read data, all ones, poison, or a completion (R464, R465, R478). -/
structure HostReply where
  value  : DWord
  poison : Bool
  deriving DecidableEq, Repr

/-- BOOT of HSTAT (R465). -/
inductive Boot where
  | rom | recovery | verify | ready
  deriving DecidableEq, Repr

/-- The life-cycle states of R470. -/
inductive LifeCycle where
  | manufacture | provisioned | deployed | decommissioned
  deriving DecidableEq, Repr

/-- The host's registers and what the module keeps across resets (R463 to R473). -/
structure HostSt where
  boot    : Boot
  fails   : Nat
  hcrbase : DWord
  hcrsize : Word
  hcrhead : Word
  hcrtail : Word
  pcap    : Word
  pwr     : Word
  temp    : Word
  /-- The tick of the last power window, and the cool windows in a row that have ended (R476). -/
  windowAt : Nat
  cool    : Nat
  pending : List HostRec
  msi     : Nat
  cxl     : Bool
  /-- The IDE state of the link (R463, R473). -/
  ide     : Bool
  reply   : HostReply
  /-- The recovery image, as the host has written it (R468, R469). -/
  recov   : List Host.Cell
  /-- The last signed measurements (R473): ROM digest, firmware digest, LC, minimum version, IDE state, leaf. -/
  report  : Option (List Nat)
  /-- The signature on them by the identity key (R473). -/
  signed  : List Byte
  /-- Flash image, fused minimum version, life cycle, the digest of the owner key installed at provisioning, the identity
  seed, attestation leaves used (R468 to R473). -/
  flash   : List Byte
  minVer  : Nat
  lc      : LifeCycle
  owner   : BitVec 256
  seed    : Option (BitVec 256)
  leaves  : Nat
  deriving DecidableEq, Repr

/-- A pre-emption in progress (R387): the tick of the action, the stage reached. -/
structure Preempt where
  asid  : Nat
  tick  : Nat
  stage : Nat
  deriving DecidableEq, Repr

/-- An invalidation not yet effective (R401, R402): 0 page, 1 asid, 2 all; the die whose queue holds it; the team whose unit
issued it. -/
structure Inval where
  kind : Nat
  asid : Nat
  va   : Nat
  die  : Nat
  tid  : Nat
  deriving DecidableEq, Repr

/-- Which agent moves next: a unit issues, or an event takes place (log 1). -/
inductive Action where
  | issue (tid slot uid : Nat)
  | event (i : Instr)
  deriving DecidableEq, Repr

/-- The device, with the model's own fields last. -/
structure State where
  mer     : Nat
  svbase  : DWord
  mvbase  : DWord
  cdbase  : DWord
  lattol  : Word
  /-- Main memory by physical address (R206, R464), and its poisoned 64-byte lines (R207). -/
  mem     : List Host.Cell
  memPz   : List Nat
  /-- By die 0 to 3. -/
  dies    : Tbl Die
  /-- By die × 128 + core, and by that × 64 + lane. -/
  cores   : Tbl Core
  lanes   : Tbl Lane
  teams   : Tbl Team
  evReqs  : List EvReq
  ballots : List BallotReq
  cardReqs : List CardReq
  cancels : List CancelReq
  walks   : List Walk
  preempts : List Preempt
  stalls  : Tbl Nat
  /-- Leaves in the TLBs, table entries in the walk caches, walks in progress. -/
  tlb     : List TlbEntry
  walked  : List WalkCopy
  walking : List Walking
  invals  : List Inval
  /-- Die-to-die queues by source × 64 + destination × 16 + number; crossing FIFOs by source × 4 + receiving die. -/
  dqs     : Tbl Dq
  fifos   : Tbl (List Flit)
  ports   : Tbl Port
  /-- The tick of the last update of LOAD (R438). -/
  loadAt  : Nat
  topo    : Option TopoMap
  tree    : Option (Tbl TreeEntry)
  nxCmds  : List NxCmd
  /-- Packets at this device's ports, those that the neighbours have yet to send among them (log 1), and packets queued for a port or gone
from it. -/
  packets : List Packet
  outbox  : List Packet
  host    : HostSt
  /-- MODEL: the actions that the surroundings chose to come next (log 1). -/
  agenda  : List Action
  /-- MODEL: the unit whose word is executed (log 1). -/
  cur     : Option (Nat × Nat × Nat)
  /-- MODEL: the step's free-value counter (log 5). -/
  free    : Nat
  /-- MODEL: the next identifier of a team, unit, command or request. -/
  nextId  : Nat
  deriving DecidableEq, Repr

/-! ### Reset (R472, R414, R418, R465) -/

/-- A free checkpoint slot. -/
def Job.zero : Job :=
  ⟨.free, 0, 0, 0, [], 0, [], [], none, none, [], 0, 0, none, none, 0, 0, false⟩

/-- A matrix engine at placement or when released (R240, R261). -/
def Engine.zero : Engine := ⟨none, none, none, [], [], [], [], [], Job.zero, Job.zero, []⟩

/-- A core with nothing on it. -/
def Core.zero : Core := ⟨Engine.zero, [], [], []⟩

/-- A lane with nothing on it. -/
def Lane.zero : Lane := ⟨none, 0, 0⟩

/-- A die after reset: 1.9 GHz in FSET and FCUR (R418), ceiling 19 (R476), all else zero (R472). -/
def Die.reset : Die :=
  { fset := 19, fcur := 19, busy := false, target := 19, relockEnd := 0, ceiling := 19, crossed := 0, cyc := 0, cycTick := 0, inc := 65536, ncyc := 0,
    wear := 0, sbal := 0, wearAt := 0, sbalAt := 0, held := false, power := .a0, quiet := [], fqbase := 0, fqsize := 0, fqhead := 0, fqtail := 0,
    fqevn := 0, lost := false, posted := [], toPost := [], ftable := [], stat := [], launch := [],
    counters := [], susps := [], groups := [], cancelled := [], queues := [], served := [], reserve := none,
    plots := [], sp := [], spTag := [], spPz := [], reldir := [], gather := [] }

/-- The host's registers after reset (R465); flash, fuses and identity as log 4 names them. -/
def HostSt.reset : HostSt :=
  { boot := .rom, fails := 0, hcrbase := 0, hcrsize := 0, hcrhead := 0, hcrtail := 0, pcap := 0, pwr := 0,
    temp := 0, windowAt := 0, cool := 0, pending := [], msi := 0, cxl := false, ide := false, reply := ⟨0, false⟩, recov := [], report := none,
    signed := [], flash := [], minVer := 0, lc := .manufacture, owner := 0, seed := none, leaves := 0 }

/-- The device right after package reset, its memory wiped (R472). -/
def State.reset : State :=
  { mer := 0, svbase := 0, mvbase := 0, cdbase := 0, lattol := 0, mem := [], memPz := [],
    dies := [(0, Die.reset), (1, Die.reset), (2, Die.reset), (3, Die.reset)],
    cores := [], lanes := [], teams := [], evReqs := [], ballots := [], cardReqs := [], cancels := [],
    walks := [], preempts := [], stalls := [], tlb := [], walked := [], walking := [], invals := [], dqs := [], fifos := [],
    ports := [], loadAt := 0, topo := none, tree := none, nxCmds := [], packets := [], outbox := [],
    host := HostSt.reset, agenda := [], cur := none, free := 0, nextId := 0 }

end Sys2Proof.Machine
end

