-- ==== Sys2Proof/Machine/Bits.lean ====
section
/-! DEFINITION. Bit fields, signed readings and byte order: the helpers of R21 and R48. -/

namespace Sys2Proof.Machine

/-- Bits `hi` to `lo` of a natural number (R20). -/
def bits (x hi lo : Nat) : Nat := x / 2 ^ lo % 2 ^ (hi + 1 - lo)

/-- One bit of a natural number. -/
def bitOf (x i : Nat) : Bool := x / 2 ^ i % 2 == 1

/-- `sext(x, n)` of R21. -/
def sext (x n : Nat) : Int :=
  if x % 2 ^ n < 2 ^ (n - 1) then (x % 2 ^ n : Nat) else ((x % 2 ^ n : Nat) : Int) - (2 ^ n : Nat)

/-- `wrap(x, n)` of R21 as a natural number. -/
def wrapN (x : Int) (n : Nat) : Nat := (x % ((2 ^ n : Nat) : Int)).toNat

/-- `wrap(x, 32)` of R21. -/
def wrap (x : Int) : Word := BitVec.ofInt 32 x

/-- `sat(x, lo, hi)` of R21. -/
def sat (x lo hi : Int) : Int := if x < lo then lo else if hi < x then hi else x

/-- A word of a truth value. -/
def ofBool (b : Bool) : Word := if b then 1 else 0

/-- The pair of a low and a high word (R15). -/
def pair (lo hi : Word) : DWord := hi ++ lo

/-- The low word of a pair. -/
def lowWord (d : DWord) : Word := d.extractLsb' 0 32
/-- The high word of a pair. -/
def highWord (d : DWord) : Word := d.extractLsb' 32 32

/-- The number that bytes hold, the first at the lowest address least significant (R48). -/
def leNat : List Byte → Nat
  | [] => 0
  | b :: t => b.toNat + 256 * leNat t

/-- The number of bits of a number. -/
def bitLen (x : Nat) : Nat := if x = 0 then 0 else Nat.log2 x + 1

/-- The number of set bits below bit `n`. -/
def popBelow (x : Nat) : Nat → Nat
  | 0 => 0
  | n + 1 => popBelow x n + (if bitOf x n then 1 else 0)

/-- The count of set bits of a word. -/
def popc (w : Word) : Nat := popBelow w.toNat 32

/-- The count of leading zero bits of a word; 32 for zero (R119, R124). -/
def clz (w : Word) : Nat := 32 - bitLen w.toNat

/-- The bit reversal of a word (R124). -/
def brevAux (x : Nat) : Nat → Nat
  | 0 => 0
  | n + 1 => 2 * brevAux x n + x / 2 ^ n % 2

/-- Bit i of the result is bit 31 − i of the word (R124). -/
def brev (w : Word) : Word := BitVec.ofNat 32 (brevAux w.toNat 32)

/-- The position of the set bit of `x` that has `k` set bits below it; 32 if there is none (R152). -/
def selBit (x k : Nat) : Nat → Nat
  | 0 => 32
  | n + 1 =>
    let i := 31 - n
    if bitOf x i then (if k = 0 then i else selBit x (k - 1) n) else selBit x k n

/-- The numbers below `n`, rising. -/
def upto (n : Nat) : List Nat := List.range n

/-- The positions whose bit is set in a mask, rising. -/
def maskList (m : Nat) (n : Nat) : List Nat := (List.range n).filter (bitOf m)

/-- A 16-bit mask of positions. -/
def maskOf (ps : List Nat) : BitVec 16 := ps.foldl (fun m p => m ||| BitVec.ofNat 16 (2 ^ p)) 0

/-- Replace the elements of a list that satisfy a test. -/
def updWhere {α : Type} (l : List α) (p : α → Bool) (f : α → α) : List α :=
  l.map fun x => if p x then f x else x

/-- Replace the element at an index. -/
def updAt {α : Type} : List α → Nat → (α → α) → List α
  | [], _, _ => []
  | x :: t, 0, f => f x :: t
  | x :: t, n + 1, f => x :: updAt t n f

/-- Remove the element at an index. -/
def dropAt {α : Type} : List α → Nat → List α
  | [], _ => []
  | _ :: t, 0 => t
  | x :: t, n + 1 => x :: dropAt t n

/-- Add to a counter file. -/
def bump (t : Tbl Nat) (k n : Nat) : Tbl Nat := Tbl.set 0 t k (Tbl.get 0 t k + n)

end Sys2Proof.Machine
end

