-- ==== Sys2Proof/Machine/Numbers.lean ====
section
/-! DEFINITION. Number formats, exact values, rounding and special functions (R48 to R64, R131 to R143). -/

namespace Sys2Proof.Machine

/-- The exact value of a floating code: NaN, an infinity, or (−1)^neg × m × 2^e, zero keeping its sign (R50). -/
inductive FVal where
  | nan
  | inf (neg : Bool)
  | fin (neg : Bool) (m : Nat) (e : Int)
  deriving DecidableEq, Repr

/-- The parameters of a floating format (R49): width, mantissa width, emin, largest finite code, code of infinity,
canonical NaN (R62; +0 where R61 says so). -/
structure FloatFmt where
  width : Nat
  mant  : Nat
  emin  : Int
  max   : Nat
  inf   : Option Nat
  nan   : Nat
  deriving DecidableEq, Repr

/-- R49, R51 to R54, R62. -/
def fmtOf : FFmt → FloatFmt
  | .f32 => ⟨32, 23, -126, 0x7F7FFFFF, some 0x7F800000, 0x7FC00000⟩
  | .bf16 => ⟨16, 7, -126, 0x7F7F, some 0x7F80, 0x7FC0⟩
  | .e4m3 => ⟨8, 3, -6, 0x7E, none, 0x7F⟩
  | .e5m2 => ⟨8, 2, -14, 0x7B, some 0x7C, 0x7E⟩
  | .e2m1 => ⟨4, 1, 0, 0x7, none, 0x0⟩

/-- The finite value of a magnitude code (R50). -/
def finOf (F : FloatFmt) (neg : Bool) (c : Nat) : FVal :=
  let e := c / 2 ^ F.mant
  let m := c % 2 ^ F.mant
  if e = 0 then .fin neg m (F.emin - F.mant) else .fin neg (2 ^ F.mant + m) (F.emin - F.mant + (e - 1 : Nat))

/-- `val` of a code (R50 to R54). -/
def val (f : FFmt) (code : Nat) : FVal :=
  let F := fmtOf f
  let c := code % 2 ^ (F.width - 1)
  let neg := bitOf code (F.width - 1)
  if c ≤ F.max then finOf F neg c else if F.inf = some c then .inf neg else .nan

/-- `m / 2^d` rounded to an integer under a mode, for a magnitude of a sign (R59). -/
def roundShift (rm : Rm) (neg : Bool) (m d : Nat) : Nat :=
  let q := m / 2 ^ d
  let r := m % 2 ^ d
  if r = 0 then q else
  match rm with
  | .ne => if 2 * r < 2 ^ d then q else if 2 ^ d < 2 * r then q + 1 else q + q % 2
  | .zero => q
  | .up => if neg then q else q + 1
  | .down => if neg then q + 1 else q

/-- The magnitude code that step 1 of R60 gives for `m × 2^e`, which may lie above the format's largest. -/
def roundCode (F : FloatFmt) (rm : Rm) (neg : Bool) (m : Nat) (e : Int) : Nat :=
  let qmin := F.emin - F.mant
  let q := Max.max ((bitLen m : Int) - 1 + e - F.mant) qmin
  let n := if q ≤ e then m * 2 ^ (e - q).toNat else roundShift rm neg m (q - e).toNat
  if m = 0 then 0 else (q - qmin).toNat * 2 ^ F.mant + n

/-- A sign bit in front of a magnitude code. -/
def signed (F : FloatFmt) (neg : Bool) (c : Nat) : Nat := (if neg then 2 ^ (F.width - 1) else 0) + c

/-- The rounding mode points away from zero or is nearest: the "Outward" column of R61. -/
def outward (rm : Rm) (neg : Bool) : Bool :=
  match rm with
  | .ne => true
  | .zero => false
  | .up => !neg
  | .down => neg

/-- `enc(round_m(x, F, m), F)` with the overflow and special rules of R60 to R62. -/
def encR (f : FFmt) (sat : Bool) (rm : Rm) : FVal → Nat
  | .nan => (fmtOf f).nan
  | .inf neg =>
    let F := fmtOf f
    if f = .e2m1 || sat then signed F neg F.max else
    match F.inf with
    | some i => signed F neg i
    | none => F.nan
  | .fin neg m e =>
    let F := fmtOf f
    let c := roundCode F rm neg m e
    if c ≤ F.max then signed F neg c
    else if f = .e2m1 || sat || !outward rm neg then signed F neg F.max
    else match F.inf with
      | some i => signed F neg i
      | none => F.nan

/-- An FP32 result under a mode. -/
def enc32 (rm : Rm) (x : FVal) : Word := BitVec.ofNat 32 (encR .f32 false rm x)
/-- The value of an FP32 word. -/
def val32 (w : Word) : FVal := val .f32 w.toNat
/-- `round_ne(x, FP32)` as a value. -/
def rne32 (x : FVal) : FVal := val .f32 (encR .f32 false .ne x)

/-- The negation of a value. -/
def FVal.negate : FVal → FVal
  | .nan => .nan
  | .inf n => .inf (!n)
  | .fin n m e => .fin (!n) m e

/-- The signed integer of a finite value at an exponent not above its own. -/
def alignInt (neg : Bool) (m : Nat) (e e0 : Int) : Int :=
  let v : Int := (m * 2 ^ (e - e0).toNat : Nat)
  if neg then -v else v

/-- The exact sum with the zero rules of R133. -/
def FVal.add (rm : Rm) : FVal → FVal → FVal
  | .nan, _ => .nan
  | _, .nan => .nan
  | .inf a, .inf b => if a = b then .inf a else .nan
  | .inf a, .fin .. => .inf a
  | .fin .., .inf b => .inf b
  | .fin a m e, .fin b n f =>
    let lo := Min.min e f
    let s := alignInt a m e lo + alignInt b n f lo
    if s = 0 then .fin (if m = 0 && n = 0 && a == b then a else rm == .down) 0 0
    else .fin (decide (s < 0)) s.natAbs lo

/-- The exact product (R133). -/
def FVal.mul : FVal → FVal → FVal
  | .nan, _ => .nan
  | _, .nan => .nan
  | .inf a, .inf b => .inf (a != b)
  | .inf a, .fin b n _ => if n = 0 then .nan else .inf (a != b)
  | .fin a m _, .inf b => if m = 0 then .nan else .inf (a != b)
  | .fin a m e, .fin b n f => .fin (a != b) (m * n) (e + f)

/-- The exact fused product and sum (R133, R134). -/
def FVal.fma (rm : Rm) (x y z : FVal) : FVal := FVal.add rm (FVal.mul x y) z

/-- The key of the total order of R151 on FP32 words: −0 below +0, every NaN above +∞ and equal to every other. -/
def fkey (w : Word) : Int :=
  let c : Nat := w.toNat % 2 ^ 31
  if 0x7F800000 < c then 2 ^ 31 else if bitOf w.toNat 31 then -(c : Int) - 1 else c

/-- An FP32 word is a NaN. -/
def isNan32 (w : Word) : Bool := decide (0x7F800000 < w.toNat % 2 ^ 31)

/-- The canonical NaN of FP32 (R62). -/
def nan32 : Word := 0x7FC00000

/-- `fmin` and `fmax` (R135). -/
def fpick (max : Bool) (x y : Word) : Word :=
  if isNan32 x && isNan32 y then nan32
  else if isNan32 x then y
  else if isNan32 y then x
  else if (fkey x < fkey y) != max then x else y

/-- The order of two non-NaN FP32 words with −0 equal to +0 (R136). -/
def ckey (w : Word) : Int :=
  let c : Nat := w.toNat % 2 ^ 31
  if bitOf w.toNat 31 then -(c : Int) else c

/-- The class word of R137. -/
def fclassOf (f : FFmt) (w : Word) : Word :=
  let F := fmtOf f
  match val f w.toNat with
  | .nan => 0x100
  | .inf neg => if neg then 0x001 else 0x080
  | .fin neg _ _ =>
    let c := w.toNat % 2 ^ (F.width - 1)
    if c = 0 then (if neg then 0x008 else 0x010)
    else if c < 2 ^ F.mant then (if neg then 0x004 else 0x020)
    else (if neg then 0x002 else 0x040)

/-- A value rounded to an integer under a mode (R59, R143); NaN and the infinities are the caller's. -/
def roundInt (rm : Rm) (neg : Bool) (m : Nat) (e : Int) : Int :=
  let n := if 0 ≤ e then m * 2 ^ e.toNat else roundShift rm neg m (-e).toNat
  if neg then -(n : Int) else n

/-- `frnd` (R140). -/
def frndOf (rm : Rm) (w : Word) : Word :=
  match val32 w with
  | .nan => nan32
  | .inf _ => w
  | .fin neg m e => if 0 ≤ e then w else enc32 .zero (.fin neg (roundInt rm neg m e).natAbs 0)

/-- Width and signedness of an integer format (R58). -/
def intWidth : IFmt → Nat
  | .i32 | .n32 => 32 | .i16 | .n16 => 16 | .i8 | .n8 => 8
/-- The format is signed. -/
def intSigned : IFmt → Bool
  | .i32 | .i16 | .i8 => true | _ => false
/-- The least value of an integer format. -/
def intLeast (i : IFmt) : Int := if intSigned i then -((2 ^ (intWidth i - 1) : Nat) : Int) else 0
/-- The greatest value of an integer format. -/
def intMost (i : IFmt) : Int := (2 ^ (if intSigned i then intWidth i - 1 else intWidth i) : Nat) - 1
/-- An integer code's value (R143). -/
def intRead (i : IFmt) (w : Word) : Int :=
  if intSigned i then sext w.toNat (intWidth i) else ((w.toNat % 2 ^ (intWidth i) : Nat) : Int)

/-- A conversion to an integer format (R61, R143). -/
def toInt (i : IFmt) (rm : Rm) : FVal → Int
  | .nan => 0
  | .inf neg => if neg then intLeast i else intMost i
  | .fin neg m e => sat (roundInt rm neg m e) (intLeast i) (intMost i)

/-- The exact value of an integer, +0 for 0. -/
def ofIntVal (n : Int) : FVal := .fin (decide (n < 0)) n.natAbs 0

/-- `fcvt` on one thread's word (R142, R143). -/
def fcvtOf (sat : Bool) (rm : Rm) (dst src : Fmt) (w : Word) : Word :=
  let x := match src with
    | .flt f => val f w.toNat
    | .int i => ofIntVal (intRead i w)
  match dst with
  | .flt f => BitVec.ofNat 32 (encR f sat rm x)
  | .int i => wrap (toInt i rm x)

/-- The integer square root, from bit `n` down to bit 0 added to `r`. -/
def sqrtFrom (x : Nat) : Nat → Nat → Nat
  | 0, r => r
  | n + 1, r =>
    let t := r + 2 ^ n
    sqrtFrom x n (if t * t ≤ x then t else r)

/-- 1/x with a sticky last bit, enough for one rounding (R138). -/
def recip (neg : Bool) (m : Nat) (e : Int) : FVal :=
  let q := 2 ^ 64 / m
  .fin neg (2 * q + (if 2 ^ 64 % m = 0 then 0 else 1)) (-e - 65)

/-- √x with a sticky last bit (R138). -/
def sqrtVal (m : Nat) (e : Int) : FVal :=
  let k : Nat := if (e % 2) = 0 then 64 else 65
  let x := m * 2 ^ k
  let r := sqrtFrom x 46 0
  .fin false (2 * r + (if r * r = x then 0 else 1)) ((e - k) / 2 - 1)

/-- `frcp` (R138, R139). -/
def frcpOf (rm : Rm) (w : Word) : Word :=
  match val32 w with
  | .nan => nan32
  | .inf neg => enc32 rm (.fin neg 0 0)
  | .fin neg m e => if m = 0 then enc32 rm (.inf neg) else enc32 rm (recip neg m e)

/-- `fsqrt` (R138, R139). -/
def fsqrtOf (rm : Rm) (w : Word) : Word :=
  match val32 w with
  | .nan => nan32
  | .inf neg => if neg then nan32 else w
  | .fin neg m e => if m = 0 then w else if neg then nan32 else enc32 rm (sqrtVal m e)

/-! ### Special functions with an error bound (R138, R139)

Each is computed to far below its bound; a result within the bound is the machine's own choice (log 6). -/

/-- |a − b| ≤ t for finite values. -/
def within (a b t : FVal) : Bool :=
  match FVal.add .ne a b.negate, t with
  | .fin _ m e, .fin _ n f =>
    let lo := Min.min e f
    decide (m * 2 ^ (e - lo).toNat ≤ n * 2 ^ (f - lo).toNat)
  | _, _ => false

/-- The exponent of `ulp(x, FP32)` (R63). -/
def ulpExp (m : Nat) (e : Int) : Int := Max.max ((bitLen m : Int) - 1 + e) (-126) - 23

/-- The result of special function `fn` on `w`, where the exact value has sign `neg` and a size from `lo * 2^e` to
`hi * 2^e`, within `ulps` ulp or `2^abs`, whichever is larger: the machine's candidate where it lies within the bound
of every value of that interval and within `lim`, else the FP32 value nearest to `lo * 2^e`.  The interval is so
narrow that no candidate lies within the bound of a part of it only. -/
def choose (fn : Nat) (w : Word) (ulps : Nat) (abs : Int) (lim : Bool) (neg : Bool) (lo hi : Nat) (e : Int) : Word :=
  let c := Config.specialFunction fn w
  let u := ulpExp lo e
  let tol : FVal := if u + 1 ≤ abs then .fin false 1 abs else .fin false ulps u
  if within (val32 c) (.fin neg lo e) tol && within (val32 c) (.fin neg hi e) tol
      && (!lim || within (val32 c) (.fin false 0 0) (.fin false 1 0)) then c
  else enc32 .ne (.fin neg lo e)

/-- The fraction bits of the fixed-point series, and the bound on a series' error in its units. -/
abbrev fixBits : Nat := 192
abbrev fixErr : Nat := 2 ^ 16

/-- `Σ x^k / k!` from term `t` of index `k`, in fixed point. -/
def expSeries (x : Nat) : Nat → Nat → Nat → Nat
  | 0, _, _ => 0
  | n + 1, k, t => t + expSeries x n (k + 1) (t * x / 2 ^ fixBits / (k + 1))

/-- 2^f for a fraction f, both in fixed point: never more than the exact value. -/
def exp2Frac (f : Nat) : Nat :=
  expSeries (f * 0xb17217f7d1cf79abc9e3b39803f2f6af40f343267298b62d8a0d175b8baafa2b / 2 ^ 256) 60 0 (2 ^ fixBits)

/-- `fex2` (R138, R139). -/
def fex2Of (w : Word) : Word :=
  match val32 w with
  | .nan => nan32
  | .inf neg => if neg then 0 else w
  | .fin neg m e =>
    if m = 0 then 0x3F800000 else
    let x : Int := alignInt neg m e (-149) * 2 ^ (fixBits - 149)
    if 128 * 2 ^ fixBits ≤ x then 0x7F800000
    else if x < -(150 * 2 ^ fixBits) then 0
    else
      let n := x / 2 ^ fixBits
      let f := (x % 2 ^ fixBits).toNat
      if f = 0 then (if -149 ≤ n then enc32 .ne (.fin false 1 n) else choose 1 w 2 (-400) false false 1 1 n)
      else
        let v := exp2Frac f
        choose 1 w 2 (-400) false false v (Min.min (v + fixErr) (2 ^ (fixBits + 1))) (n - fixBits)

/-- The first `n` binary digits of log2 y, for y in [1, 2) with 256 fraction bits. -/
def logDigits : Nat → Nat → Nat → Nat
  | 0, _, acc => acc
  | n + 1, y, acc =>
    let z := y * y / 2 ^ 256
    if z < 2 ^ 257 then logDigits n z (2 * acc) else logDigits n (z / 2) (2 * acc + 1)

/-- `flg2` (R138, R139): log2 x lies less than 2 units of the last of 120 digits above the digits found. -/
def flg2Of (w : Word) : Word :=
  match val32 w with
  | .nan => nan32
  | .inf neg => if neg then nan32 else w
  | .fin neg m e =>
    if m = 0 then 0xFF800000 else if neg then nan32 else
    let k := bitLen m - 1
    let n : Int := k + e
    if m = 2 ^ k then enc32 .ne (ofIntVal n) else
    let x : Int := n * 2 ^ 120 + logDigits 120 (m * 2 ^ 256 / 2 ^ k) 0
    let inside := decide (-(2 ^ 120) ≤ x) && decide (x < 2 ^ 120)
    let sign := decide (x < 0)
    let lo := if sign then x.natAbs - 2 else x.natAbs
    if inside then
      let c := val32 (Config.specialFunction 2 w)
      let near (v : Nat) : Bool := within c (.fin sign v (-120)) (.fin false 1 (-22))
      if near lo && near (lo + 2) then Config.specialFunction 2 w else enc32 .ne (.fin sign lo (-120))
    else choose 2 w 2 (-400) false sign lo (lo + 2) (-120)

/-- `frsq` (R138, R139). -/
def frsqOf (w : Word) : Word :=
  match val32 w with
  | .nan => nan32
  | .inf neg => if neg then nan32 else 0
  | .fin neg m e =>
    if m = 0 then (if neg then 0xFF800000 else 0x7F800000) else if neg then nan32 else
    let k : Nat := if (e % 2) = 0 then 120 else 121
    -- 1/√(m 2^e) = √(2^k / m) × 2^(−(k+e)/2)
    let r := sqrtFrom (2 ^ 60 * 2 ^ k / m) 92 0
    let hi := if r * r * m = 2 ^ 60 * 2 ^ k then r else r + 1
    choose 0 w 1 (-400) false false r hi (-((k : Int) + e) / 2 - 30)

/-- The alternating series of sine or cosine from term `t` of index `k`, in fixed point. -/
def trigSeries (x2 : Int) : Nat → Nat → Int → Int
  | 0, _, _ => 0
  | n + 1, k, t => t + trigSeries x2 n (k + 2) (-(t * x2 / 2 ^ fixBits / ((k + 1) * (k + 2) : Nat)))

/-- sin (quarter 0) or cos (quarter 1) of |x|, by reduction modulo 2π, in fixed point. -/
def trigFix (m : Nat) (e : Int) (quarter : Nat) : Int :=
  let pi448 : Nat := 0x3243f6a8885a308d313198a2e03707344a4093822299f31d0082efa98ec4e6c89452821e638d01377be5466cf34e90c6cc0ac29b7c97c50dd
  let x := m * 2 ^ (e + 448).toNat % (2 * pi448)
  let k := x / (pi448 / 2)
  let r : Int := ((x - k * (pi448 / 2)) / 2 ^ (448 - fixBits) : Nat)
  let x2 := r * r / 2 ^ fixBits
  let s := if (k + quarter) % 2 = 0 then trigSeries x2 40 1 r else trigSeries x2 40 0 (2 ^ fixBits)
  if (k + quarter) % 4 < 2 then s else -s

/-- The interval of sin x and of tanh x below `2^-46`: from `x (1 - 2^-64)` to x. -/
def chooseTiny (fn : Nat) (w : Word) (lim : Bool) (neg : Bool) (m : Nat) (e : Int) : Word :=
  choose fn w 2 (-22) lim neg (m * 2 ^ 64 - m) (m * 2 ^ 64) (e - 64)

/-- `fsin` and `fcos` (R138, R139): the result lies in [−1, 1]. -/
def ftrigOf (cos : Bool) (w : Word) : Word :=
  match val32 w with
  | .nan => nan32
  | .inf _ => nan32
  | .fin neg m e =>
    if m = 0 then (if cos then 0x3F800000 else w) else
    if !cos && decide (e + bitLen m < -46) then chooseTiny 3 w true neg m e else
    let s := trigFix m e (if cos then 1 else 0)
    let v := if neg && !cos then -s else s
    let hi := Min.min (v.natAbs + fixErr) (2 ^ fixBits)
    choose (if cos then 4 else 3) w 2 (-22) true (decide (v < 0)) (v.natAbs - fixErr) hi (-fixBits)

/-- `ftanh` (R138, R139). -/
def ftanhOf (w : Word) : Word :=
  match val32 w with
  | .nan => nan32
  | .inf neg => if neg then 0xBF800000 else 0x3F800000
  | .fin neg m e =>
    if m = 0 then w else
    let x := (alignInt false m e (-149)).toNat           -- 149 fraction bits
    if 19 * 2 ^ 148 ≤ x then (if neg then 0xBF800000 else 0x3F800000) else
    if decide (e + bitLen m < -46) then chooseTiny 5 w false neg m e else
    -- e^(2x) = 2^(2x log2 e)
    let y := 2 * x * 0x171547652b82fe1777d0ffda0d23a7d11d6aef551bad2b4b1164a2cd9a342648f / 2 ^ (149 + 256 - fixBits)
    let t := exp2Frac (y % 2 ^ fixBits) * 2 ^ (y / 2 ^ fixBits)
    let v := (t - 2 ^ fixBits) * 2 ^ fixBits / (t + 2 ^ fixBits)
    choose 5 w 2 (-22) false neg (v - fixErr) (Min.min (v + fixErr) (2 ^ fixBits)) (-fixBits)

end Sys2Proof.Machine
end

