-- ==== Sys2Proof/Machine/Regs.lean ====
section
/-! DEFINITION. The issuing unit, its registers with lookahead windows and held registers, and the end of a word. -/

namespace Sys2Proof.Machine

/-- The issuing unit as its word finds it. -/
structure Ctx where
  st    : State
  tid   : Nat
  slot  : Nat
  uid   : Nat
  team  : Team
  sheaf : Sheaf
  unit  : UnitSt
  deriving DecidableEq, Repr

/-- A unit by its names. -/
def unitAt (s : State) (tid slot uid : Nat) : Option Ctx :=
  match Tbl.find s.teams tid with
  | none => none
  | some t =>
    match Tbl.find t.sheaves slot with
    | none => none
    | some sh =>
      match Tbl.find sh.units uid with
      | none => none
      | some u => some ⟨s, tid, slot, uid, t, sh, u⟩

/-- The unit whose word is executed. -/
def ctxOf (s : State) : Option Ctx :=
  match s.cur with
  | none => none
  | some (tid, slot, uid) => unitAt s tid slot uid

/-- Change a team. -/
def modTeam (s : State) (tid : Nat) (f : Team → Team) : State := { s with teams := Tbl.modify s.teams tid f }
/-- Change a sheaf. -/
def modSheaf (s : State) (tid slot : Nat) (f : Sheaf → Sheaf) : State :=
  modTeam s tid fun t => { t with sheaves := Tbl.modify t.sheaves slot f }
/-- Change a unit. -/
def modUnit (s : State) (tid slot uid : Nat) (f : UnitSt → UnitSt) : State :=
  modSheaf s tid slot fun sh => { sh with units := Tbl.modify sh.units uid f }
/-- Change the sheaf of the issuing unit. -/
def Ctx.modSheaf (c : Ctx) (s : State) (f : Sheaf → Sheaf) : State := Machine.modSheaf s c.tid c.slot f
/-- Change the issuing unit. -/
def Ctx.modUnit (c : Ctx) (s : State) (f : UnitSt → UnitSt) : State := Machine.modUnit s c.tid c.slot c.uid f
/-- Change a die. -/
def modDie (s : State) (d : Nat) (f : Die → Die) : State := { s with dies := Tbl.modify s.dies d f }
/-- A die; the state holds dies 0 to 3. -/
def dieOf (s : State) (d : Nat) : Die := (Tbl.find s.dies d).getD Die.reset
/-- A core's key (State.cores). -/
def coreKey (die core : Nat) : Nat := die * 128 + core
/-- A core. -/
def coreOf (s : State) (k : Nat) : Core := Tbl.get Core.zero s.cores k
/-- Change a core. -/
def modCore (s : State) (k : Nat) (f : Core → Core) : State :=
  { s with cores := Tbl.set Core.zero s.cores k (f (coreOf s k)) }

/-- The n-th free value of this step (log 5). -/
def freeAt (s : State) (n : Nat) : BitVec 64 := Config.freeValue (s.free * 2 ^ 32 + n)
/-- A free truth value of this step. -/
def freeBit (s : State) (n : Nat) : Bool := (freeAt s n).getLsbD 0

/-! ### Threads -/

/-- A thread that does not exist: all zero. -/
def Thread.zero : Thread := ⟨[], 0, 0, 0, 0⟩
/-- The thread at a position. -/
def threadAt (sh : Sheaf) (pos : Nat) : Thread := (Tbl.find sh.threads pos).getD Thread.zero
/-- The positions of a mask. -/
def positions (m : BitVec 16) : List Nat := maskList m.toNat 16
/-- Insert a position into a list that ascends in rank. -/
def insertRank (sh : Sheaf) (p : Nat) : List Nat → List Nat
  | [] => [p]
  | q :: t => if (threadAt sh p).rank ≤ (threadAt sh q).rank then p :: q :: t else q :: insertRank sh p t
/-- Positions in ascending rank. -/
def byRank (sh : Sheaf) (ps : List Nat) : List Nat := ps.foldr (insertRank sh) []
/-- The virtual position of a thread (R144): the entry of the remap table that holds its position. -/
def virtualPos (sh : Sheaf) (pos : Nat) : Nat := ((sh.remap.find? fun e => e.2 == pos).map (·.1)).getD pos

/-- The unit tag (R318): the tag of the lowest-ranked thread of a mask. -/
def unitTag (sh : Sheaf) (m : BitVec 16) : Word :=
  match byRank sh (positions m) with
  | [] => 0
  | p :: _ => (threadAt sh p).tag

/-! ### Registers (R107 to R113) -/

/-- A register's value as stored. -/
def readKey (sh : Sheaf) : RegKey → Word
  | .v pos r => Tbl.get 0 (threadAt sh pos).v r
  | .p pos i => if i = 7 then 1 else ofBool ((threadAt sh pos).p.getLsbD i)
  | .s r => if r < 64 then Tbl.get 0 sh.s r else Tbl.get 0 sh.ss (r - 64)
  | .q i => ofBool (sh.q.getLsbD i)

/-- A bit of a predicate file. -/
def setBit8 (b : BitVec 8) (i : Nat) (v : Bool) : BitVec 8 :=
  if v then b ||| BitVec.ofNat 8 (2 ^ i) else b &&& ~~~ BitVec.ofNat 8 (2 ^ i)

/-- A register's value replaced; a write of `p7` is discarded (R109). -/
def writeKey (sh : Sheaf) (k : RegKey) (w : Word) : Sheaf :=
  match k with
  | .v pos r => { sh with threads := Tbl.modify sh.threads pos fun t => { t with v := Tbl.set 0 t.v r w } }
  | .p pos i =>
    if i = 7 then sh else
    { sh with threads := Tbl.modify sh.threads pos fun t => { t with p := setBit8 t.p i (w != 0) } }
  | .s r => if r < 64 then { sh with s := Tbl.set 0 sh.s r w } else { sh with ss := Tbl.set 0 sh.ss (r - 64) w }
  | .q i => { sh with q := setBit8 sh.q i (w != 0) }

/-- The register that a uniform field names (R110): fields 48 to 63 name `ss0` to `ss15` above user level. -/
def fieldKey (sh : Sheaf) (f : SReg) : RegKey :=
  if sh.level = .user || f.toNat < 48 then .s f.toNat else .s (f.toNat + 16)

/-- A number for a register, for the free values of its reads and writes. -/
def keyCode : RegKey → Nat
  | .v pos r => pos * 128 + r
  | .p pos i => 2048 + pos * 8 + i
  | .s r => 4096 + r
  | .q i => 4224 + i

/-- The free value that decides the windows of a register in this step. -/
def keyFree (c : Ctx) (k : RegKey) : BitVec 64 := freeAt c.st (c.slot * 2 ^ 14 + keyCode k)

/-- A read inside windows (R95): the value, or the value before a write whose window is open, the device not
saying which. -/
def winPick (fv : BitVec 64) (k : RegKey) : Nat → List Win → Word → Word
  | _, [], w => w
  | j, x :: t, w => winPick fv k (j + 1) t (if x.key = k && fv.getLsbD j then x.old else w)

/-- A read of a report register before its token has been waited for (R443): the report, or the value before it. -/
def reportPick (fv : BitVec 64) (k : RegKey) : Nat → List Report → Word → Word
  | _, [], w => w
  | j, x :: t, w => reportPick fv k (j + 1) t (if x.done && x.key = k && fv.getLsbD j then x.old else w)

/-- A register is a destination of a drain that still holds it (R247). -/
def drainHolds (sh : Sheaf) (k : RegKey) : Bool := sh.held.any fun h => h.drain && h.key == k

/-- A register as the issuing unit's word reads it: inside a window either value (R95), a report register either value
(R443), and a destination of a drain in flight an undefined value (R247). -/
def readReg (c : Ctx) (k : RegKey) : Word :=
  if drainHolds c.sheaf k then (keyFree c k).setWidth 32
  else reportPick (keyFree c k) k 40 c.sheaf.reports (winPick (keyFree c k) k 0 c.unit.wins (readKey c.sheaf k))

/-- A vector register of a thread. -/
def rdV (c : Ctx) (pos : Nat) (r : VReg) : Word := readReg c (.v pos r.toNat)
/-- A thread predicate. -/
def rdP (c : Ctx) (pos : Nat) (i : Ix3) : Bool := readReg c (.p pos i.toNat) != 0
/-- A uniform register field. -/
def rdS (c : Ctx) (f : SReg) : Word := readReg c (fieldKey c.sheaf f)
/-- The uniform register of the field `k` above a field. -/
def rdSk (c : Ctx) (f : SReg) (k : Nat) : Word := rdS c (f + BitVec.ofNat 6 k)
/-- A uniform predicate. -/
def rdQ (c : Ctx) (i : Ix3) : Bool := readReg c (.q i.toNat) != 0
/-- A uniform pair (R15). -/
def rdPair (c : Ctx) (f : SReg) : DWord := pair (rdS c f) (rdSk c f 1)

/-- A write of a register may leave either of two values: a window of an earlier write is open (R95), or a report is there
whose token has not been waited for (R443). -/
def eitherWrite (c : Ctx) (k : RegKey) : Bool :=
  c.unit.wins.any (fun w => w.key == k) || c.sheaf.reports.any fun r => r.done && r.key == k

/-- The sheaf may issue matrix commands (R239, R241). -/
def mayCommand (t : Team) (sh : Sheaf) : Bool := t.tiles != 0 && (if t.hasM then sh.role == .m else sh.role == .g)

/-- Note a write of a register: held registers that it spoils (R247), report registers that it touches (R443), and, in a
sheaf that may issue matrix commands, the write as one that no fence stands behind, the latest first (R246). -/
def noteWrite (mx : Bool) (k : RegKey) (old : Word) (sh : Sheaf) : Sheaf :=
  let hit := sh.held.filter fun h => h.key == k
  let isV := match k with | .v .. => true | _ => false
  { sh with
    spoilt := sh.spoilt ++ hit
    reports := sh.reports.map fun r => if r.key = k then { r with touched := true } else r
    loose := if mx && isV then ⟨k, old⟩ :: sh.loose else sh.loose }

/-- A write of a register by a word, where `fv` decides what the spec leaves open: a drain's destination is left unspecified
(R247). -/
def writeNoted (mx : Bool) (fv : BitVec 64) (sh : Sheaf) (k : RegKey) (w : Word) : Sheaf :=
  noteWrite mx k (readKey sh k) (writeKey sh k (if drainHolds sh k then fv.setWidth 32 else w))

/-- A unit has written a register: values on their way to it, which pass the test, were asked for before (R86). -/
def overtake (uid : Nat) (p : Nat → Bool) (k : RegKey) (sh : Sheaf) : Sheaf :=
  match k with
  | .s r =>
    let ids := sh.units.flatMap fun u => (u.2.awaits.filter fun a => a.dst == r && p a.id).map (·.id)
    if ids = [] then sh else
    { sh with overtaken := (sh.overtaken.filter fun o => !ids.contains o.1) ++ ids.map fun i => (i, uid) }
  | _ => sh

/-- Write one register for the issuing unit's word of lookahead `la`. A write inside a window of the same register, or of a
report register, leaves one of the two results (R95, R443). -/
def putOne (c : Ctx) (la : Nat) (sh : Sheaf) (kv : RegKey × Word) : Sheaf :=
  let old := readKey sh kv.1
  let v := if eitherWrite c kv.1 && (keyFree c kv.1).getLsbD 63 then old else kv.2
  let sh1 := writeNoted (mayCommand c.team c.sheaf) (keyFree c kv.1) sh kv.1 v
  if la = 0 then sh1
  else { sh1 with units := Tbl.modify sh1.units c.uid fun u => { u with wins := u.wins ++ [⟨la + 1, kv.1, old⟩] } }

/-- Write one register for the issuing unit's word: the write comes after those of earlier requests for it (R86). -/
def commitOne (c : Ctx) (la : Nat) (sh : Sheaf) (kv : RegKey × Word) : Sheaf :=
  overtake c.uid (fun _ => true) kv.1 (putOne c la sh kv)

/-- Write registers for the issuing unit's word. -/
def commit (c : Ctx) (s : State) (la : Nat) (ws : List (RegKey × Word)) : State :=
  c.modSheaf s fun sh => ws.foldl (commitOne c la) sh

/-! ### Tokens (R113) -/

/-- A token: complete with OK when unlisted. -/
def tokAt (sh : Sheaf) (k : Nat) : Tok := Tbl.get ⟨false, 0⟩ sh.tok k
/-- Set a token. -/
def setTok (sh : Sheaf) (k : Nat) (t : Tok) : Sheaf := { sh with tok := Tbl.set ⟨false, 0⟩ sh.tok k t }
/-- Some token of a mask is pending. -/
def tokensPending (sh : Sheaf) (m : Nat) : Bool := (maskList m 8).any fun k => (tokAt sh k).pending
/-- A unit issues a command that will report to registers (R443). -/
def expectReports (uid tk : Nat) (ks : List RegKey) (sh : Sheaf) : Sheaf :=
  { sh with reports := sh.reports ++ ks.map fun k => ⟨uid, tk, k, 0, false, false⟩ }
/-- A report is written: a register that a word has written meanwhile is left with either value (R443). -/
def putReport (s : State) (tk : Nat) (kv : RegKey × Word) (sh : Sheaf) : Sheaf :=
  let touched := sh.reports.any fun r => r.tk == tk && r.key == kv.1 && r.touched
  let sh1 := if touched && freeBit s (2 ^ 27 + 2 ^ 20 + keyCode kv.1) then sh else writeKey sh kv.1 kv.2
  { sh1 with reports := sh.reports.map fun r =>
      if r.tk = tk && r.key = kv.1 then { r with old := readKey sh kv.1, done := true } else r }
/-- The token of commands that reported has been waited for, or a command ends without a report. -/
def dropReports (p : Report → Bool) (sh : Sheaf) : Sheaf := { sh with reports := sh.reports.filter fun r => !p r }

/-- A unit of a sheaf waits for a token. -/
def tokenWaited (sh : Sheaf) (tk : Nat) : Bool := sh.units.any fun u => match u.2.wait with
  | .tokens m => bitOf m tk
  | _ => false

/-- Complete a token of a sheaf, if the sheaf is still there (R113). A swapped-out team that waits for it is to return (R313). -/
def completeTok (s : State) (tid slot tk status : Nat) : State :=
  modTeam s tid fun t => match Tbl.find t.sheaves slot with
    | some sh => if sh.retired then t else { t with
        sheaves := Tbl.modify t.sheaves slot fun sh => setTok sh tk ⟨false, status⟩
        returning := t.returning || (t.out && tokenWaited sh tk) }
    | none => t

/-! ### The end of a word (R80, R93, R94, R99, R336) -/

/-- Add to the count `ix` of a tag word in a team's accounting (R320, R336). -/
def charge (tag : Word) (ix n : Nat) (t : Team) : Team :=
  if !tag.getLsbD 31 then t else
  let row := Tbl.get (List.replicate 8 0) t.acct tag.toNat
  { t with acct := Tbl.put t.acct tag.toNat (updAt row ix (· + n)) }

/-- Add to a team counter of R312's order. -/
def count (ix n : Nat) (t : Team) : Team := { t with counters := bump t.counters ix n }

/-- A lane's key. -/
def laneKey (t : Team) (sh : Sheaf) : Nat := coreKey t.die t.core * 64 + sh.lane

/-- One word fewer of each window; a window of no more words ends (R94). -/
def tickWins (ws : List Win) : List Win := (ws.filter fun w => decide (1 < w.left)).map fun w => { w with left := w.left - 1 }

/-- The lane's clock (R93): CYC of its die, or the cycles at which its last word left it where those are more (log 1). -/
def laneNow (s : State) (k : Nat) : Nat := Max.max (Tbl.get Lane.zero s.lanes k).cycles (dieOf s (k / 8192)).cyc

/-- The lane's record of an issue at a cycle of its clock that holds it for `cyc` cycles: the current unit and its greedy
count (R80, R93). -/
def laneIssue (l : Lane) (who : Nat × Nat × Nat) (now cyc : Nat) : Lane :=
  { current := some who
    greedy := if l.current = some who && decide (l.greedy < 256) then l.greedy + 1 else 1
    cycles := now + cyc }

/-- Charge the lane cycles of a word: to its lane, its team and the tags of its threads (R80, R99, R336). -/
def chargeCycles (c : Ctx) (s : State) (cyc : Nat) (tags : List Word) : State :=
  let k := laneKey c.team c.sheaf
  let s1 := { s with lanes := Tbl.put s.lanes k (laneIssue (Tbl.get Lane.zero s.lanes k) (c.tid, c.slot, c.uid) (laneNow s k) cyc) }
  modTeam s1 c.tid fun t => tags.foldl (fun t g => charge g 0 1 t) { count 0 cyc t with eligible := none }

/-- A word issues: each value on its way has one word less to run ahead of it. -/
def tickAwaits (l : List Await) : List Await := l.map fun a => { a with left := a.left - 1 }

/-- The unit continues at `pc` after its word. -/
def advance (c : Ctx) (s : State) (pc : Word) : State :=
  let now := laneNow s (laneKey c.team c.sheaf)
  c.modUnit s fun u =>
    { u with pc := pc, wait := .ready, wins := tickWins u.wins, last := now, awaits := tickAwaits u.awaits }

/-- The tag that U-words and E-words are charged to. -/
def Ctx.tag (c : Ctx) : Word := unitTag c.sheaf c.unit.mask

/-- The end of a U-word or an E-word: one cycle, the unit at `pc`. -/
def retire (c : Ctx) (s : State) (pc : Word) : State := advance c (chargeCycles c s 1 [c.tag]) pc

/-- The end of an L-word of `w` parcels with the given active threads. -/
def retireLane (c : Ctx) (s : State) (w : Nat) (ps : List Nat) : State :=
  advance c (chargeCycles c s (Max.max 1 ps.length) (ps.map fun p => (threadAt c.sheaf p).tag))
    (c.unit.pc + BitVec.ofNat 32 (4 * w))

/-- The unit waits at its word, which has no effect yet (R91). -/
def waitAt (c : Ctx) (s : State) (w : Wait) : State := c.modUnit s fun u => { u with wait := w }

/-- The state register that a uniform field names, by number. -/
def fieldIx (c : Ctx) (f : SReg) : Nat :=
  match fieldKey c.sheaf f with
  | .s r => r
  | _ => 0

/-- The request `id` will write the register that a field names, with the word's lookahead (R94, R303). -/
def awaitReply (c : Ctx) (s : State) (id : Nat) (f : SReg) (la : BitVec 4) : State :=
  c.modUnit s fun u => { u with awaits := u.awaits ++ [⟨id, fieldIx c f, la.toNat + 1⟩] }

/-- The unit waits outside the active set (R305, R375). -/
def leaveSet (c : Ctx) (s : State) (w : Wait) : State := c.modUnit s fun u => { u with wait := w, active := false }

/-- Every lookahead window of the unit ends (R94). -/
def endWins (c : Ctx) (s : State) : State := c.modUnit s fun u => { u with wins := [] }

end Sys2Proof.Machine
end

