-- ==== Sys2Proof/Machine/Mem.lean ====
section
/-! DEFINITION. Memories: bytes, the on-chip spaces with their checks, the combining cache and the release directory,
main memory, descriptors and translation. -/

namespace Sys2Proof.Machine

/-! ### A memory of bytes: an unlisted address reads 0 -/

/-- The byte at an address. -/
def byteAt (m : List Host.Cell) (a : Nat) : Byte := Tbl.get 0 m a
/-- A byte stored; a zero is not listed, so that equal memories are equal data. -/
def setByte (m : List Host.Cell) (a : Nat) (b : Byte) : List Host.Cell := Tbl.set 0 m a b
/-- The canonical form: addresses strictly rising, no zero listed. -/
def Memory.wf (m : List Host.Cell) : Bool := Tbl.sorted m && m.all fun c => c.2 != 0
/-- `n` bytes from an address. -/
def readBytes (m : List Host.Cell) (a n : Nat) : List Byte := (upto n).map fun i => byteAt m (a + i)
/-- The bytes at a list of addresses. -/
def readAt (m : List Host.Cell) (as : List Nat) : List Byte := as.map (byteAt m)
/-- Bytes stored at a list of addresses. -/
def writeAt (m : List Host.Cell) (as : List Nat) (bs : List Byte) : List Host.Cell :=
  (as.zip bs).foldl (fun m ab => setByte m ab.1 ab.2) m
/-- Bytes stored from an address. -/
def writeBytes (m : List Host.Cell) (a : Nat) (bs : List Byte) : List Host.Cell :=
  writeAt m ((upto bs.length).map (a + ·)) bs
/-- Remove the bytes of a range: they read 0. -/
def clearBytes (m : List Host.Cell) (a n : Nat) : List Host.Cell :=
  m.filter fun c => decide (c.1 < a) || decide (a + n ≤ c.1)

/-- The granules of 8 bytes that addresses cover in full (R202). -/
def fullGranules (as : List Nat) : List Nat :=
  (as.map (· / 8)).eraseDups.filter fun g => (upto 8).all fun i => as.contains (8 * g + i)
/-- A store of these addresses reads a poisoned granule first (R202). -/
def storeHitsPoison (pz as : List Nat) : Bool :=
  let full := fullGranules as
  as.any fun a => pz.contains (a / 8) && !full.contains (a / 8)
/-- A load of these addresses reads a poisoned granule. -/
def loadHitsPoison (pz as : List Nat) : Bool := as.any fun a => pz.contains (a / 8)

/-! ### The on-chip spaces (R180 to R192) -/

/-- A scratchpad window word is usable (R187). -/
def spUsable (w : Word) : Bool :=
  let x := w.toNat
  bitOf x 31 && bits x 29 23 == 0 && bits x 15 7 == 0 && decide (1 ≤ bits x 22 16)
    && decide (bits x 6 0 + bits x 22 16 ≤ 96)
/-- The first byte of a window in its die's scratchpad. -/
def spBase (w : Word) : Nat := bits w.toNat 6 0 * 2097152
/-- The length of a window in bytes; 0 where there is none (R187). -/
def spLen (w : Word) : Nat := if spUsable w then bits w.toNat 22 16 * 2097152 else 0
/-- Stores and atomics are allowed. -/
def spWR (w : Word) : Bool := bitOf w.toNat 30

/-- The size of a view (R184, R190): of a lane's thread view, or of the sheaf view. -/
def viewSize (c : Ctx) (spc : Space) (lane : Bool) : Nat :=
  match spc with
  | .sh => c.team.window
  | .sp => spLen c.team.spWin
  | .stk => if lane then c.team.stackLen / 16 else c.team.stackLen

/-- Where byte `o` of a view lies: in the team's window, in the die's scratchpad, or in the stack region (R184). -/
def rawAddr (c : Ctx) (spc : Space) (pos : Option Nat) (o : Nat) : Nat :=
  match spc with
  | .sh => o
  | .sp => spBase c.team.spWin + o
  | .stk => match pos with
    | none => o
    | some p => 64 * (o / 4) + 4 * p + o % 4

/-- Where the bytes of an access lie. -/
def rawAddrs (c : Ctx) (spc : Space) (pos : Option Nat) (a n : Nat) : List Nat :=
  (upto n).map fun i => rawAddr c spc pos (a + i)

/-- No line held. -/
def CcLine.none : CcLine := ⟨[], []⟩
/-- A core's combining cache holds merged stores to all of a granule, whose poison its own accesses no longer meet (R189,
R202). -/
def mergedWhole (s : State) (core g : Nat) : Bool :=
  let d := (Tbl.get CcLine.none (coreOf s core).cache (g / 8)).dirty
  (upto 8).all fun i => (Tbl.find d (8 * (g % 8) + i)).isSome
/-- The poisoned granules of a scratchpad as a core and its engines meet them (R202). -/
def corePoison (s : State) (core : Nat) : List Nat := (dieOf s (core / 128)).spPz.filter fun g => !mergedWhole s core g
/-- The poisoned granules of a space as the issuing unit's accesses meet them. -/
def poisonOf (c : Ctx) : Space → List Nat
  | .sh => c.team.sharedPz
  | .sp => corePoison c.st (coreKey c.team.die c.team.core)
  | .stk => c.sheaf.stackPz

/-- The segment of a scratchpad byte carries the context's tag (R188). -/
def spMine (s : State) (die asid a : Nat) : Bool := Tbl.find (dieOf s die).spTag (a / 2097152) == some asid
/-- Every segment that scratchpad bytes touch carries the context's tag (R188). -/
def spTagged (s : State) (die asid : Nat) (as : List Nat) : Bool := as.all (spMine s die asid)
/-- Every segment of a scratchpad range carries the context's tag (R188). -/
def spOwned (s : State) (die asid a n : Nat) : Bool :=
  n == 0 || (upto ((a + n - 1) / 2097152 - a / 2097152 + 1)).all fun i => spMine s die asid ((a / 2097152 + i) * 2097152)

/-- The causes of R190 in its order (R371's codes): none where the access passes. `wr` is a store or atomic, `rd` an
access that reads. -/
def accessCause (c : Ctx) (spc : Space) (pos : Option Nat) (a : Int) (n : Nat) (wr rd : Bool) : Option Nat :=
  if a % (n : Int) ≠ 0 then some 4
  else if a < 0 || decide ((viewSize c spc pos.isSome : Int) < a + n) then some (if spc = .stk then 6 else 5)
  else
    let as := rawAddrs c spc pos a.toNat n
    if spc = .sp && !spTagged c.st c.team.die c.team.asid as then some 5
    else if spc = .sp && wr && !spWR c.team.spWin then some 7
    else if (rd && loadHitsPoison (poisonOf c spc) as) || (wr && !rd && storeHitsPoison (poisonOf c spc) as) then some 8
    else none

/-! ### The combining cache and the release directory (R189, R289, R290) -/

/-- The issuing unit's core. -/
def Ctx.core (c : Ctx) : Nat := coreKey c.team.die c.team.core

/-- Lay merged stores over a line's bytes. -/
def overlay (line : List Byte) (dirty : List Host.Cell) : List Byte :=
  (upto line.length).map fun i => (Tbl.find dirty i).getD (line.getD i 0)

/-- The 64 bytes of a scratchpad line. -/
def spLine (s : State) (die ln : Nat) : List Byte := readBytes (dieOf s die).sp (64 * ln) 64

/-- Write scratchpad bytes and clear the poison of granules written in full (R202). -/
def spWrite (s : State) (die : Nat) (as : List Nat) (bs : List Byte) : State :=
  let full := fullGranules as
  modDie s die fun d => { d with sp := writeAt d.sp as bs, spPz := d.spPz.filter fun g => !full.contains g }

/-- The lines of a combining cache (R189). -/
def cacheLines : Nat := 1024

/-- A line leaves a core's combining cache: its merged stores are written back. -/
def evictLine (s : State) (core : Nat) (e : Nat × CcLine) : State :=
  let s1 := modCore s core fun k => { k with cache := Tbl.erase k.cache e.1 }
  spWrite s1 (core / 128) (e.2.dirty.map fun d => 64 * e.1 + d.1) (e.2.dirty.map (·.2))

/-- A core's combining cache takes a line: where all its lines are held, one of them leaves, which one being free (log 5). -/
def takeLine (s : State) (core ln : Nat) : State :=
  let t := (coreOf s core).cache
  if (Tbl.find t ln).isSome || decide (t.length < cacheLines) then s else
  match t[(freeAt s (2 ^ 27 + 2 ^ 21)).toNat % t.length]? with
  | some e => evictLine s core e
  | none => s

/-- A load of scratchpad bytes within one line. Relaxed, it may return a line held in the core's cache, or take the
line afresh; `fk` numbers the free choice. Any other takes the line afresh, and no older copy of it stays (R283). Merged
stores of the core are always seen. -/
def spLoad (s : State) (core : Nat) (rlx : Bool) (fk : Nat) (as : List Nat) : List Byte × State :=
  let die := core / 128
  let ln := as.headD 0 / 64
  let cl := Tbl.get CcLine.none (coreOf s core).cache ln
  let hit := rlx && cl.clean != [] && freeBit s fk
  let base := if hit then cl.clean else spLine s die ln
  let s0 := if rlx then takeLine s core ln else s
  let s' := modCore s0 core fun k => { k with cache := Tbl.set CcLine.none k.cache ln { cl with clean := if rlx then base else [] } }
  let whole := overlay base cl.dirty
  (as.map fun a => whole.getD (a % 64) 0, s')

/-- Patch a held line with bytes written, dropping merged stores to them. -/
def patchLine (cl : CcLine) (as : List Nat) (bs : List Byte) : CcLine :=
  let os := as.map (· % 64)
  { clean := if cl.clean = [] then [] else overlay cl.clean (os.zip bs)
    dirty := cl.dirty.filter fun d => !os.contains d.1 }

/-- The merged stores of a line to granules that bytes of it touch, those bytes apart. -/
def mergedBeside (cl : CcLine) (as : List Nat) : List Host.Cell :=
  cl.dirty.filter fun d => (as.any fun a => a % 64 / 8 == d.1 / 8) && !as.any fun a => a % 64 == d.1

/-- A store of scratchpad bytes within one line: relaxed, it may wait merged in the core's cache or be written at
once, and otherwise it is written, with the stores merged in its granules before it. -/
def spStore (s : State) (core : Nat) (rlx : Bool) (fk : Nat) (as : List Nat) (bs : List Byte) : State :=
  let ln := as.headD 0 / 64
  let cl := Tbl.get CcLine.none (coreOf s core).cache ln
  if rlx && freeBit s fk then
    let d := (as.zip bs).foldl (fun d ab => Tbl.put d (ab.1 % 64) ab.2) cl.dirty
    modCore (takeLine s core ln) core fun k => { k with cache := Tbl.set CcLine.none k.cache ln { cl with dirty := d } }
  else
    let near := mergedBeside cl as
    let as1 := near.map (64 * ln + ·.1) ++ as
    let bs1 := near.map (·.2) ++ bs
    spWrite (modCore s core fun k => { k with cache := Tbl.set CcLine.none k.cache ln (patchLine cl as1 bs1) }) (core / 128) as1 bs1

/-- Write a core's merged stores back: a release at die scope or wider (R289). -/
def flushCore (s : State) (core : Nat) : State :=
  (coreOf s core).cache.foldl (fun s e =>
    let as := e.2.dirty.map fun d => 64 * e.1 + d.1
    let bs := e.2.dirty.map (·.2)
    if e.2.dirty = [] then s else
    spWrite (modCore s core fun k => { k with cache := Tbl.set CcLine.none k.cache e.1 (patchLine e.2 as bs) })
      (core / 128) as bs) s

/-- Discard a core's clean lines: an acquire at die scope or wider (R289). -/
def dropClean (s : State) (core : Nat) : State :=
  if (coreOf s core).cache = [] then s else
  modCore s core fun k =>
    { k with cache := (k.cache.filter fun e => e.2.dirty != []).map fun e => (e.1, { e.2 with clean := [] }) }

/-- The scope reaches beyond the core (R285). -/
def Scope.beyond : Scope → Bool
  | .die | .device | .domain => true
  | _ => false

/-- A release point (R287, R289). -/
def releaseAt (s : State) (core : Nat) (sc : Scope) : State := if Scope.beyond sc then flushCore s core else s
/-- An acquire point (R287, R289). -/
def acquireAt (s : State) (core : Nat) (sc : Scope) : State := if Scope.beyond sc then dropClean s core else s

/-- Set a line's entry of the release directory; a full directory evicts its least recently set entry, which promotes
the releases of its owner (R290). -/
def dirSet (s : State) (core ln : Nat) : State :=
  let die := core / 128
  let d := (dieOf s die).reldir
  let rest := d.filter fun e => e.1 != ln
  if rest.length = d.length && decide (8192 ≤ d.length) then
    modDie (flushCore s (coreKey die ((d.headD (0, 0)).2))) die fun x => { x with reldir := rest.drop 1 ++ [(ln, core % 128)] }
  else modDie s die fun x => { x with reldir := rest ++ [(ln, core % 128)] }

/-- A `.rmt` acquire reads a line: the releases of another core that the directory names are promoted (R290). -/
def promote (s : State) (core ln : Nat) : State :=
  let die := core / 128
  match (dieOf s die).reldir.find? fun e => e.1 == ln with
  | some e => if e.2 = core % 128 then s else flushCore s (coreKey die e.2)
  | none => s

/-! ### Loads and stores of the issuing sheaf -/

/-- A scratchpad byte as a core sees it: its own merged store where one waits, else the scratchpad's (R189). -/
def coreSees (s : State) (core a : Nat) : Byte :=
  (Tbl.find (Tbl.get CcLine.none (coreOf s core).cache (a / 64)).dirty (a % 64)).getD (byteAt (dieOf s (core / 128)).sp a)

/-- Note stored bytes that no fence stands behind (R246): the latest first, each with its value before. -/
def noteBytes (c : Ctx) (s : State) (sp : Bool) (as : List Nat) : State :=
  if !mayCommand c.team c.sheaf then s else
  let old := fun a => if sp then coreSees s c.core a else
    match Tbl.find s.teams c.tid with
    | some t => byteAt t.shared a
    | none => 0
  c.modSheaf s fun sh => { sh with looseB := (as.map fun a => ⟨sp, a, old a⟩) ++ sh.looseB }

/-! What a unit has seen of its team's stores (R283 to R288; log 2). A team with one unit alone, before whose next access all its
stores come, has nothing to note. -/

/-- The team has no second unit. -/
def Team.alone (t : Team) : Bool := decide ((t.sheaves.map fun sh => sh.2.units.length).sum ≤ 1)
/-- The sheaf whose stack a space stands for. -/
def memSlot (c : Ctx) (spc : Space) : Nat := if spc = .stk then c.slot else 0
/-- A stored byte lies in the memory that a space stands for. -/
def PastByte.within (c : Ctx) (spc : Space) (e : PastByte) : Bool := e.space == spc && e.stack == memSlot c spc

/-- The earliest number as of which a view may read bytes. -/
def View.floor (v : View) (spc : Space) (as : List Nat) : Nat :=
  (v.seen.filter fun x => x.1 == spc && as.contains x.2.1).foldl (fun m x => Max.max m x.2.2) v.since
/-- The view has read or written bytes, each as of a number. -/
def View.note (v : View) (spc : Space) (ns : List (Nat × Nat)) : View :=
  { v with seen := (v.seen.filter fun x => !(x.1 == spc && ns.any fun a => a.1 == x.2.1)) ++ ns.map fun a => (spc, a.1, a.2) }
/-- The view learns that the stores below a number happen before what its unit does next. -/
def View.learn (v : View) (n : Nat) : View :=
  let k := Max.max v.since n
  ⟨k, v.seen.filter fun x => decide (k < x.2.2)⟩

/-- The unit reads or writes bytes, each as of a number; where its view is none, as they stand after `n` stores. -/
def look (c : Ctx) (s : State) (spc : Space) (n : Nat) (ns : List (Nat × Nat)) : State :=
  c.modUnit s fun u => { u with view := some (match u.view with
    | none => ⟨n, []⟩
    | some v => v.note spc ns) }
/-- The unit reads or writes bytes as they stand after `n` stores. -/
def lookNow (c : Ctx) (s : State) (spc : Space) (n : Nat) (as : List Nat) : State := look c s spc n (as.map fun a => (a, n))
/-- Every store so far happens before what the unit does next: an acquire of a kind that the view does not follow. -/
def hearAll (c : Ctx) (s : State) : State := c.modUnit s fun u => { u with view := none }

/-- The bytes of a load in elements of `w` bytes, in runs that are decided together: neighbours in an element both of which one store
of the team's wrote (R191, R288). -/
def byteRuns (c : Ctx) (t : Team) (spc : Space) (w : Nat) (as : List Nat) : List (List Nat) :=
  let one := fun (e : PastByte) a b => e.within c spc && e.addr == a && t.past.any fun x => x.id == e.id && x.addr == b
  (as.zipIdx).foldr (fun x runs =>
    match runs with
    | (b :: r) :: rest =>
      if (x.2 + 1) % w ≠ 0 && t.past.any fun e => one e x.1 b then (x.1 :: b :: r) :: rest else [x.1] :: (b :: r) :: rest
    | _ => [x.1] :: runs) []

/-- The numbers as of which a relaxed load reads its bytes, if not as of now: where a store neither happens before it nor has been
seen, a run of bytes may read what stood before that store, the choices being free (R288). -/
def lookTimes (c : Ctx) (s : State) (t : Team) (u : UnitSt) (spc : Space) (rlx : Bool) (fk w : Nat) (as : List Nat) :
    Option (List (Nat × Nat)) :=
  if !rlx then none else u.view.map fun v =>
    ((byteRuns c t spc w as).zipIdx).flatMap fun r =>
      let lo := v.floor spc r.1
      r.1.map fun a => (a, lo + (freeAt s (fk + 64 * r.2)).toNat % (t.stores + 1 - lo))
/-- A byte as of a number: what the first store to it from there on found, or what stands there now. -/
def byteAsOf (c : Ctx) (t : Team) (spc : Space) (n a : Nat) (now : Byte) : Byte :=
  ((t.past.find? fun e => e.within c spc && e.addr == a && decide (n ≤ e.id)).map (·.old)).getD now

/-- Every store of its team so far happens before what the issuing unit does next. -/
def quietUnit (s : State) (c : Ctx) : Bool := ((unitAt s c.tid c.slot c.uid).map fun x => x.unit.view.isNone).getD true

/-- A load of team memory or of the sheaf's stack, whose cells are given. -/
def pastLoad (c : Ctx) (s : State) (t : Team) (spc : Space) (mem : List Host.Cell) (rlx : Bool) (fk w : Nat) (as : List Nat) :
    List Byte × State :=
  match unitAt s c.tid c.slot c.uid with
  | none => (readAt mem as, s)
  | some c1 =>
    if t.alone && quietUnit s c then (readAt mem as, s) else
    match lookTimes c s t c1.unit spc rlx fk w as with
    | some ns => (ns.map fun a => byteAsOf c t spc a.2 a.1 (byteAt mem a.1), look c s spc t.stores ns)
    | none => (readAt mem as, lookNow c s spc t.stores as)

/-- Load bytes of a space for the issuing sheaf, in elements of `w` bytes. -/
def loadOn (c : Ctx) (s : State) (spc : Space) (rlx : Bool) (fk w : Nat) (as : List Nat) : List Byte × State :=
  match Tbl.find s.teams c.tid with
  | none => ([], s)
  | some t =>
    match spc with
    | .sh => pastLoad c s t .sh t.shared rlx fk w as
    | .stk => (match Tbl.find t.sheaves c.slot with
      | some sh => pastLoad c s t .stk sh.stack rlx fk w as
      | none => ([], s))
    | .sp =>
      let r := spLoad s c.core rlx fk as
      (r.1, if t.alone && quietUnit r.2 c then r.2 else lookNow c r.2 .sp t.stores as)

/-- The bytes of a space before a store, as the team's list of stores keeps them; those of the scratchpad are not looked up there,
since its older bytes are those of the cores' combining caches (R189). -/
def bytesBefore (c : Ctx) (t : Team) (spc : Space) (as : List Nat) : List Byte :=
  match spc with
  | .sh => readAt t.shared as
  | .stk => ((Tbl.find t.sheaves c.slot).map fun sh => readAt sh.stack as).getD []
  | .sp => []

/-- A store, in pieces of `w` bytes that are single-copy atomic (R191), is numbered among the team's: it is a released write at
the scopes `rel`. Bytes that every unit's next access comes after are dropped. -/
def noteStore (c : Ctx) (s : State) (spc : Space) (w : Nat) (rel : List Scope) (atom : Bool) (as : List Nat) : State :=
  match Tbl.find s.teams c.tid with
  | none => s
  | some t =>
    if t.alone && quietUnit s c then s else
    let olds := bytesBefore c t spc as
    let es := (upto as.length).map fun i =>
      (⟨spc, memSlot c spc, as.getD i 0, olds.getD i 0, t.stores + i / w, c.slot, rel, atom⟩ : PastByte)
    let n := t.stores + (as.length + w - 1) / w
    let known := (t.sheaves.flatMap fun sh => sh.2.units.filterMap fun u => u.2.view.map (·.since)).foldl Min.min t.stores
    lookNow c (modTeam s c.tid fun t => { t with stores := n, past := (t.past.filter fun e => decide (known ≤ e.id)) ++ es }) spc n as

/-- The instance that a scope gives one sheaf of a team holds another (R285). -/
def reaches (t : Team) (sc : Scope) (x y : Nat) : Bool :=
  let m := fun k => ((Tbl.find t.sheaves k).map fun sh => sh.role == .m).getD false
  match sc with
  | .sheaf => x == y
  | .swath => x == y || (x / 4 == y / 4 && m x && m y)
  | _ => true
/-- A released write and an acquire at a scope of the issuing sheaf's lie in each other's instances (R286). -/
def scopesMeet (c : Ctx) (t : Team) (sc : Scope) (e : PastByte) : Bool :=
  reaches t sc c.slot e.by' && e.rel.any fun r => reaches t r e.by' c.slot

/-- An acquire read bytes of a space: it synchronises with each released write that its scope meets, all of whose bytes it has read
with nothing but atomics after it, and what came before that write happens before what the unit does next (R288). A write of
another team or core is met at die scope or wider only. -/
def hear (c : Ctx) (s : State) (sc : Scope) (spc : Space) (as : List Nat) : State :=
  if spc = .sp && Scope.beyond sc then hearAll c s else
  match Tbl.find s.teams c.tid with
  | none => s
  | some t =>
    let whole := fun (e : PastByte) => t.past.all fun x =>
      (x.id != e.id || as.contains x.addr)
      && !(x.within c spc && decide (e.id < x.id) && !x.atom && t.past.any fun y => y.id == e.id && y.addr == x.addr)
    let n := (t.past.filter fun e => e.within c spc && as.contains e.addr && scopesMeet c t sc e && whole e).foldl (fun m (e : PastByte) => Max.max m (e.id + 1)) 0
    c.modUnit s fun u => { u with view := u.view.map fun v => v.learn n }
/-- A fence is an acquire of whatever its unit has read (R287): of every released write that its scope meets. -/
def hearFence (c : Ctx) (s : State) (sc : Scope) : State :=
  if Scope.beyond sc then hearAll c s else
  match Tbl.find s.teams c.tid with
  | none => s
  | some t =>
    let n := (t.past.filter (scopesMeet c t sc)).foldl (fun m (e : PastByte) => Max.max m (e.id + 1)) 0
    c.modUnit s fun u => { u with view := u.view.map fun v => v.learn n }

/-- Store bytes of a space for the issuing sheaf. -/
def storeOn (c : Ctx) (s : State) (spc : Space) (rlx : Bool) (fk : Nat) (as : List Nat) (bs : List Byte) : State :=
  let full := fullGranules as
  match spc with
  | .sh => modTeam s c.tid fun t =>
      { t with shared := writeAt t.shared as bs, sharedPz := t.sharedPz.filter fun g => !full.contains g }
  | .stk => c.modSheaf s fun sh =>
      { sh with stack := writeAt sh.stack as bs, stackPz := sh.stackPz.filter fun g => !full.contains g }
  | .sp => spStore s c.core rlx fk as bs

/-! ### Main memory (R206, R207, R464) -/

/-- Every byte of a physical range lies in one range of R206 and R464. -/
def physRange (a n : Nat) : Bool :=
  ((upto 4).any fun d => decide (d * 2 ^ 38 ≤ a) && decide (a + n ≤ d * 2 ^ 38 + 160000000000))
  || (decide (2 ^ 40 ≤ a) && decide (a + n ≤ 2 ^ 40 + 1500000000000))
  || (decide (2 ^ 50 ≤ a) && decide (a + n ≤ 2 ^ 51))
  || (decide (2 ^ 51 ≤ a) && decide (a + n ≤ 2 ^ 51 + 2 ^ 50))

/-- The range lies in the first or second tier. -/
def tierRange (a n : Nat) : Bool :=
  ((upto 4).any fun d => decide (d * 2 ^ 38 ≤ a) && decide (a + n ≤ d * 2 ^ 38 + 160000000000))
  || (decide (2 ^ 40 ≤ a) && decide (a + n ≤ 2 ^ 40 + 1500000000000))

/-- The die whose status entry counts a discard at an address (R464). -/
def discardDie (a : Nat) : Nat :=
  ((upto 4).find? fun d => decide (d * 2 ^ 38 ≤ a) && decide (a < d * 2 ^ 38 + 160000000000)).getD 0

/-- The place of a physical address: the two host ranges reach the same host memory (R464). -/
def physPlace (a : Nat) : Nat := if 2 ^ 50 ≤ a && a < 2 ^ 51 then a + 2 ^ 50 else a

/-- The address lies in the CXL.cache range, which nothing serves outside CXL mode (R464). -/
def cxlOff (s : State) (a : Nat) : Bool := !s.host.cxl && decide (2 ^ 50 ≤ a) && decide (a < 2 ^ 51)

/-- The device's access to a line of host memory, read or written, ends in a completion error or a timeout, which is free, or reaches the
CXL.cache range outside CXL mode (R464; log 3). -/
def hostFails (s : State) (wr : Bool) (a : Nat) : Bool :=
  decide (2 ^ 50 ≤ a) && (cxlOff s a || freeBit s (2 ^ 29 + (if wr then 2 ^ 21 else 0) + a / 64 % 2 ^ 20))

/-- The lines that a range touches. -/
def linesOf (a n : Nat) : List Nat := (upto ((a + n - 1) / 64 - a / 64 + 1)).map (a / 64 + ·)

/-- A byte of the range lies in a line that reads as poisoned (R207, R464). -/
def physPoisoned (s : State) (a n : Nat) : Bool :=
  let b := physPlace a
  decide (0 < n) && ((decide (2 ^ 50 ≤ a) && (linesOf a n).any fun l => hostFails s false (64 * l))
    || s.memPz.any fun l => decide (b / 64 ≤ l) && decide (l ≤ (b + n - 1) / 64))

/-- Main memory bytes. -/
def physRead (s : State) (a n : Nat) : List Byte := readBytes s.mem (physPlace a) n
/-- A little-endian number in main memory; bytes at an address of no range read 0 (DESIGN CHOICE, log 63). -/
def physNat (s : State) (a n : Nat) : Nat := leNat (physRead s a n)

/-- Count a discarded write (R385). -/
def countDiscard (s : State) (a : Nat) : State :=
  modDie s (discardDie a) fun d => { d with stat := bump d.stat 3 1 }

/-- Write within one line: a whole line clears its poison, part of a poisoned line is discarded (R207), and so is what cannot reach host
memory (R464). -/
def physLine (s : State) (a : Nat) (bs : List Byte) : State :=
  let b := physPlace a
  let l := b / 64
  if hostFails s true a then countDiscard s a
  else if s.memPz.contains l then
    if b % 64 = 0 && bs.length = 64 then { s with mem := writeBytes s.mem b bs, memPz := s.memPz.filter (· != l) }
    else countDiscard s a
  else { s with mem := writeBytes s.mem b bs }

/-- Write main memory, line by line. -/
def physWriteN : Nat → State → Nat → List Byte → State
  | 0, s, _, _ => s
  | n + 1, s, a, bs =>
    if bs = [] then s else
    let k := 64 - a % 64
    physWriteN n (physLine s a (bs.take k)) (a + k) (bs.drop k)

/-- Write main memory bytes (R207). -/
def physWrite (s : State) (a : Nat) (bs : List Byte) : State := physWriteN (bs.length / 64 + 2) s a bs

/-- A number as `n` little-endian bytes. -/
def toBytes (n x : Nat) : List Byte := (upto n).map fun i => BitVec.ofNat 8 (x / 256 ^ i)

/-- Poison the lines of a physical range (R231). -/
def physPoison (s : State) (a n : Nat) : State :=
  if n = 0 then s else
  let gone := (linesOf a n).filter fun l => hostFails s true (64 * l)
  let ls := ((linesOf a n).filter fun l => !gone.contains l).map fun l => physPlace (64 * l) / 64
  gone.foldl (fun s l => countDiscard s (64 * l)) { s with memPz := s.memPz ++ ls.filter fun l => !s.memPz.contains l }

/-- Bytes of host memory change, by the host or by a posted write of a completion record, which ends in no completion (R466; log 3). -/
def hostMemWrite (s : State) (a : Nat) (bs : List Byte) : State :=
  { s with mem := writeBytes s.mem a bs
           memPz := s.memPz.filter fun l => !(decide (a ≤ 64 * l) && decide (64 * l + 64 ≤ a + bs.length)) }

/-! ### Context descriptors (R384, R479) -/

/-- The physical address of a context's descriptor. -/
def descAddr (s : State) (asid : Nat) : Nat := s.cdbase.toNat + 256 * asid
/-- Reads of the descriptor meet an uncorrectable error: poison, or a place outside the two tiers (R479). -/
def descBad (s : State) (asid : Nat) : Bool :=
  physPoisoned s (descAddr s asid) 256 || !tierRange (descAddr s asid) 256
/-- A field of a descriptor. -/
def desc (s : State) (asid off n : Nat) : Nat := physNat s (descAddr s asid + off) n
/-- Write a 32-bit field of a descriptor. -/
def setDesc (s : State) (asid off v : Nat) : State := physWrite s (descAddr s asid + off) (toBytes 4 v)
/-- A window word of a die (R384): 0x020 scratchpad, 0x030 events, 0x040 groups, 0x050 queues, 0x060 launch control. -/
def descWin (s : State) (asid base die : Nat) : Word := BitVec.ofNat 32 (desc s asid (base + 4 * die) 4)

/-! ### Translation (R390 to R398) -/

/-- What an access needs of a leaf (R394). -/
inductive Need where
  | read | write | fetch | both
  deriving DecidableEq, Repr

/-- The end of a walk: a leaf and its level, a failure at an entry with its code (1 invalid, 2 malformed, 3 ECC), or a
descriptor that cannot be read. -/
inductive WalkEnd where
  | leaf (entry level : Nat)
  | fail (code entry level : Nat)
  | descErr
  deriving DecidableEq, Repr

/-- Index of a level (R392). -/
def walkIndex (va : Nat) : Nat → Nat
  | 0 => bits va 55 48
  | 1 => bits va 47 39
  | 2 => bits va 38 30
  | 3 => bits va 29 21
  | _ => bits va 20 16

/-- log2 of the page size of a leaf at a level. -/
def leafBits (level : Nat) : Nat := if level = 2 then 30 else if level = 3 then 21 else 16

/-- A valid entry is malformed (R393). -/
def entryBad (e level : Nat) : Bool :=
  let t := bitOf e 1
  bits e 63 52 != 0 || bits e 7 5 != 0 || (t && decide (level < 2)) || (!t && level == 4)
  || (if t then bits e (leafBits level - 1) 8 != 0
        || !physRange (bits e 51 8 * 256) (2 ^ leafBits level)
      else bits e 51 8 * 256 % (if level = 3 then 256 else 4096) != 0)

/-- A walk from level `level` at table `a` (R394). ENTRY of a walk that fails at an entry it cannot read is 0, whatever it read before,
and an entry at an address of no range reads as 0, which is invalid (DESIGN CHOICE, log 63). -/
def walkFrom (s : State) (va : Nat) : Nat → Nat → Nat → WalkEnd
  | 0, _, level => .fail 2 0 level
  | n + 1, a, level =>
    let ea := a + 8 * walkIndex va level
    if physPoisoned s ea 8 then .fail 3 0 level else
    let e := physNat s ea 8
    if !bitOf e 0 then .fail 1 e level
    else if entryBad e level then .fail 2 e level
    else if bitOf e 1 then .leaf e level
    else walkFrom s va n (bits e 51 8 * 256) (level + 1)

/-- A walk for a context and a virtual address (R392, R394). -/
def walk (s : State) (asid va : Nat) : WalkEnd :=
  if descBad s asid then .descErr else
  let b := desc s asid 0 8
  if b = 0 || b % 4096 ≠ 0 || bits b 63 52 ≠ 0 then .fail 2 0 0 else walkFrom s va 5 b 0

/-- A leaf grants what an access needs. -/
def leafGrants (e : Nat) : Need → Bool
  | .read => bitOf e 2
  | .write => bitOf e 3
  | .fetch => bitOf e 4
  | .both => bitOf e 2 && bitOf e 3

/-- The physical address that a leaf of `b` page bits gives. -/
def leafPa (e b va : Nat) : Nat := bits e 51 8 * 256 / 2 ^ b * 2 ^ b + va % 2 ^ b

/-- The result of a translation: an address, a cause (8 ECC, 9 XLATE, 10 XPERM), or an unreadable descriptor. -/
inductive Trans where
  | ok (pa : Nat)
  | fail (cause : Nat)
  | descErr
  deriving DecidableEq, Repr

/-- What the end of a walk gives an access. -/
def walkGives (va : Nat) (need : Need) : WalkEnd → Trans
  | .leaf e lv => if leafGrants e need then .ok (leafPa e (leafBits lv) va) else .fail 10
  | .fail 3 _ _ => .fail 8
  | .fail _ _ _ => .fail 9
  | .descErr => .descErr

/-- A translation by a fresh walk. -/
def transWalk (s : State) (asid va : Nat) (need : Need) : Trans := walkGives va need (walk s asid va)

/-- The port through which a core's fetch and its streamer translate; a die's other agents use its own number (R395). -/
def corePort (die core : Nat) : Nat := die + 4 * (core + 1)

/-- A copy of a leaf that serves a port for an address: in the core's TLB, or in the die's shared one (R395, R396). -/
def tlbFind (s : State) (port asid va : Nat) : Option TlbEntry :=
  s.tlb.find? fun t => t.die == port % 4 && (t.core.map fun k => decide (4 * (k + 1) ≤ port && port < 4 * (k + 2))).getD true
    && t.asid == asid && t.page == va / 2 ^ t.bits

/-- log2 of the bytes that a table entry of a level covers (R392). -/
def levelBits (level : Nat) : Nat := if level = 0 then 48 else if level = 1 then 39 else if level = 2 then 30 else 21
/-- The copies of table entries on an address's walk path that a die keeps (R396). -/
def walkCopies (s : State) (die asid va : Nat) : List WalkCopy :=
  s.walked.filter fun w => w.die == die && w.asid == asid && w.pre == va / 2 ^ levelBits w.level

/-- A translation by a walk, which may begin at a copy of a table entry, which one being free; XLATE and XPERM are what a walk
from `PTBASE` finds (R396). -/
def transMiss (s : State) (port asid va : Nat) (need : Need) : Trans :=
  let cs := walkCopies s (port % 4) asid va
  match cs[(freeAt s (2 ^ 28 + 2 ^ 20 + va / 65536 % 2 ^ 20)).toNat % (cs.length + 1)]? with
  | none => transWalk s asid va need
  | some w => match walkGives va need (walkFrom s va 5 w.table (w.level + 1)) with
    | .ok pa => .ok pa
    | .fail 8 => .fail 8
    | _ => transWalk s asid va need

/-- A translation through a port: by a copy of a leaf that grants the access, if the device uses it (a free choice), else by a
walk (R395, R396). -/
def translate (s : State) (port asid va : Nat) (need : Need) : Trans :=
  if 2 ^ 56 ≤ va then .fail 9 else
  match tlbFind s port asid va with
  | some t => if leafGrants t.leaf.toNat need && freeBit s (2 ^ 28 + va / 65536 % 2 ^ 20)
      then .ok (leafPa t.leaf.toNat t.bits va) else transMiss s port asid va need
  | none => transMiss s port asid va need

/-- The walkers of a die (R395). -/
def walkers : Nat := 128
/-- A request of a die for a page waits for a walk: no copy serves it, and a walk for its page is in progress, which it shares, or every
walker is busy (R395). -/
def walkerWaits (s : State) (port asid va : Nat) : Bool :=
  s.walking != [] && (tlbFind s port asid va).isNone
    && (decide (walkers ≤ (s.walking.filter fun w => w.die == port % 4).length)
      || s.walking.any fun w => w.die == port % 4 && w.asid == asid && w.page == va / 65536)

/-- The die's clock runs (R419, R422). -/
def clockRuns (d : Die) : Bool := !d.busy && d.power != .a3
/-- The middle die of a diagonal path (R406). -/
def middleDie (src dst : Nat) : Option Nat :=
  if src + dst = 3 then some (if src = 0 then 1 else if src = 3 then 2 else if src = 1 then 0 else 3) else none
/-- A die's access to a first tier crosses into a die whose clock is stopped, and waits there (R206, R406, R420). -/
def tierStopped (s : State) (die pa : Nat) : Bool :=
  let dst := pa / 2 ^ 38
  decide (dst < 4) && dst != die
    && (!clockRuns (dieOf s dst) || (middleDie die dst).any fun m => !clockRuns (dieOf s m))
/-- A page of virtual memory lies in such a tier. -/
def pageStopped (s : State) (port asid va : Nat) : Bool :=
  [Need.read, .write, .fetch].any fun need => match translate s port asid va need with
    | .ok pa => tierStopped s (port % 4) pa
    | _ => false

/-- The pieces of a virtual range that stay within 64 KiB pages: address and length. -/
def pagePieces : Nat → Nat → Nat → List (Nat × Nat)
  | 0, _, _ => []
  | f + 1, va, n =>
    if n = 0 then [] else
    let k := Min.min n (65536 - va % 65536)
    (va, k) :: pagePieces f (va + k) (n - k)

/-- An access to a range of virtual memory waits: for a walk (R395), or for a die that it must reach (R420). -/
def rangeWaits (s : State) (port asid va n : Nat) : Bool :=
  (s.walking != [] && (pagePieces (n / 65536 + 2) va n).any fun p => walkerWaits s port asid p.1)
  || ((s.dies.any fun d => !clockRuns d.2) && (pagePieces (n / 65536 + 2) va n).any fun p => pageStopped s port asid p.1)

/-- The outcome of an access to virtual memory: a value, a cause at an address, or an unreadable descriptor. -/
inductive VRes (α : Type) where
  | ok (x : α)
  | fail (cause va : Nat)
  | descErr

/-- Translate every piece of a virtual range: physical pieces in order. -/
def transPieces (s : State) (port asid : Nat) (need : Need) : List (Nat × Nat) → VRes (List (Nat × Nat))
  | [] => .ok []
  | (va, n) :: t =>
    match translate s port asid va need with
    | .fail c => .fail c va
    | .descErr => .descErr
    | .ok pa =>
      match transPieces s port asid need t with
      | .ok l => .ok ((pa, n) :: l)
      | .fail c a => .fail c a
      | .descErr => .descErr

/-- Translate a virtual range. -/
def transRange (s : State) (port asid va n : Nat) (need : Need) : VRes (List (Nat × Nat)) :=
  transPieces s port asid need (pagePieces (n / 65536 + 2) va n)

/-- Read a virtual range: an uncorrectable error gives cause 8 at its address. -/
def vread (s : State) (port asid va n : Nat) : VRes (List Byte) :=
  match transRange s port asid va n .read with
  | .fail c a => .fail c a
  | .descErr => .descErr
  | .ok ps =>
    match ps.find? fun p => physPoisoned s p.1 p.2 with
    | some _ => .fail 8 va
    | none => .ok (ps.flatMap fun p => physRead s p.1 p.2)

/-- Write bytes to physical pieces. -/
def writePieces (s : State) : List (Nat × Nat) → List Byte → State
  | [], _ => s
  | (pa, n) :: t, bs => writePieces (physWrite s pa (bs.take n)) t (bs.drop n)

/-- Write a virtual range. -/
def vwrite (s : State) (port asid va : Nat) (bs : List Byte) : VRes State :=
  match transRange s port asid va bs.length .write with
  | .fail c a => .fail c a
  | .descErr => .descErr
  | .ok ps => .ok (writePieces s ps bs)

end Sys2Proof.Machine
end

