-- ==== Sys2Proof/Machine/Control.lean ====
section
/-! DEFINITION. Event counters, the fault queue, host records, and the end of teams and contexts: the operations that
every agent shares. -/

namespace Sys2Proof.Machine

/-- A fresh identifier. -/
def fresh (s : State) : Nat × State := (s.nextId, { s with nextId := s.nextId + 1 })

/-! ### Event counters (R298 to R304) -/

/-- An event window word is usable (R298). -/
def evUsable (w : Word) : Bool :=
  let x := w.toNat
  bitOf x 31 && bits x 30 27 == 0 && bits x 15 10 == 0 && decide (1 ≤ bits x 26 16)
    && decide (bits x 9 0 + bits x 26 16 ≤ 1024)

/-- No counter value and no tag. -/
def Counter.zero : Counter := ⟨0, none⟩
/-- A counter by die × 1024 + number. -/
def counterAt (s : State) (ctr : Nat) : Counter := Tbl.get Counter.zero (dieOf s (ctr / 1024)).counters (ctr % 1024)

/-- Checks 1 and 2 of R300 on a name word against four event windows: the counter, or EVENT's subcode. -/
def nameCounter (win : List Word) (n : Word) : Except Nat Nat :=
  let x := n.toNat
  if bits x 31 26 ≠ 0 || bits x 23 10 ≠ 0 then .error 1 else
  let w := win.getD (bits x 25 24) 0
  if !evUsable w || decide (bits w.toNat 26 16 ≤ bits x 9 0) then .error 2
  else .ok (bits x 25 24 * 1024 + bits w.toNat 9 0 + bits x 9 0)

/-- The three checks of R300. -/
def nameCheck (s : State) (asid : Nat) (win : List Word) (n : Word) : Except Nat Nat :=
  match nameCounter win n with
  | .error e => .error e
  | .ok c => if (counterAt s c).tag = some asid then .ok c else .error 2

/-- The event windows of a context as its descriptor holds them. -/
def eventWindows (s : State) (asid : Nat) : List Word := (upto 4).map fun d => descWin s asid 0x30 d

/-- A counter value has reached a target (R301). -/
def reached (x y : Word) : Bool := decide (0 ≤ (x - y).toInt)

/-- Clear a bit of a sheaf's SSTAT. -/
def clearStat (sh : Sheaf) (i : Nat) : Sheaf :=
  { sh with sys := { sh.sys with sstat := sh.sys.sstat &&& ~~~ BitVec.ofNat 32 (2 ^ i) } }

/-- A registered continuation wakes (R304 to R306, R379): an acquire at device scope. -/
def wake (s : State) (r : EvReq) : State :=
  match unitAt s r.tid r.slot r.uid with
  | none => s
  | some c =>
    if c.unit.wait ≠ .susp r.id then s else
    let now := laneNow s (laneKey c.team c.sheaf)
    let s1 := c.modUnit s fun u => { u with pc := r.cont, wait := .ready, last := now, view := none }
    let s2 := if r.fc then c.modSheaf s1 (clearStat · 3) else s1
    dropClean (modTeam s2 r.tid fun t => { t with returning := t.returning || t.out }) c.core

/-- Every dependence of a card has reached its target, or a name fails R300 (R351). -/
def depsState (s : State) (c : Card) : Except Unit Bool :=
  let w := eventWindows s c.asid
  (upto (bits (leNat (c.card.drop 0x34 |>.take 4)) 4 2)).foldl (fun acc i =>
    match acc with
    | .error e => .error e
    | .ok b =>
      match nameCheck s c.asid w (BitVec.ofNat 32 (leNat (c.card.drop (0x40 + 8 * i) |>.take 4))) with
      | .error _ => .error ()
      | .ok k => .ok (b && reached (counterAt s k).value (BitVec.ofNat 32 (leNat (c.card.drop (0x44 + 8 * i) |>.take 4)))))
    (.ok true)

/-- A card's dependence names a counter, checks 1 and 2 of R300 passing. -/
def namesCounter (s : State) (ctr : Nat) (c : Card) : Bool :=
  let w := eventWindows s c.asid
  (upto (bits (leNat (c.card.drop 0x34 |>.take 4)) 4 2)).any fun i =>
    match nameCounter w (BitVec.ofNat 32 (leNat (c.card.drop (0x40 + 8 * i) |>.take 4))) with
    | .ok k => k == ctr
    | .error _ => false

/-- A check of the card at the head of its queue that is due, which is latched: one whose dependences are all reached stays eligible,
and one with a name that fails R300 is refused (R351). -/
def latchCard (s : State) (c : Card) : Card :=
  if !c.due || descBad s c.asid then c
  else if c.eligible || c.bad then { c with due := false } else
  match depsState s c with
  | .ok b => { c with due := false, eligible := b }
  | .error _ => { c with due := false, bad := true }

/-- Change the card at the head of every launch queue of the dies that a test holds of. -/
def modHeads (s : State) (p : Die → Bool) (f : Card → Card) : State :=
  { s with dies := s.dies.map fun d => (d.1, if !p d.2 then d.2 else { d.2 with queues := d.2.queues.map fun q =>
      (q.1, match q.2.cards with
        | c :: t => { q.2 with cards := f c :: t }
        | [] => q.2) }) }

/-- Make the checks of heads that are due, on the dies whose clock runs (R351, R419). -/
def latchHeads (s : State) : State := modHeads s clockRuns (latchCard s)
/-- A counter has been updated: a check of each head that names it falls due (R351). -/
def headsNaming (s : State) (ctr : Nat) : State :=
  modHeads s (fun _ => true) fun c => if !c.eligible && namesCounter s ctr c then { c with due := true } else c

/-- An update of a counter in its update order: waiters whose target it reaches wake (R301, R304). -/
def ctrUpdate (s : State) (ctr : Nat) (f : Word → Word) : State :=
  let die := ctr / 1024
  let c := counterAt s ctr
  let v := f c.value
  let hit := fun r : EvReq => r.ctr == ctr && reached v r.value
  let woken := (dieOf s die).susps.filter hit
  let s1 := modDie s die fun d =>
    { d with counters := Tbl.set Counter.zero d.counters (ctr % 1024) { c with value := v }
             susps := d.susps.filter fun r => !hit r }
  latchHeads (headsNaming (woken.foldl wake s1) ctr)

/-- Send an update that no unit waits for on its way from a die to a counter (R301, R327). -/
def sendAdd (s : State) (src ctr : Nat) (v : Word) : State :=
  { s with evReqs := s.evReqs ++ [⟨s.nextId, .add, ctr, v, 0, 0, 0, 0, false, src⟩], nextId := s.nextId + 1 }

/-- Source and destination die of a die-to-die queue, by its key (R408). -/
def dqSrc (k : Nat) : Nat := k / 64
def dqDst (k : Nat) : Nat := k / 16 % 4

/-- What set out as `id` from one die to another waits in the FIFO of a middle die whose clock is stopped (R406, R420). -/
def middleStopped (s : State) (src dst id : Nat) : Bool :=
  (middleDie src dst).any fun m => !clockRuns (dieOf s m) && decide ((dieOf s m).crossed ≤ id)

/-- A ballot request stands at its ballot array: its access has failed, or that of an earlier request to its record (R481). -/
def ballotThere (s : State) (r : BallotReq) : Bool :=
  r.stopped || match r.op with
    | .new .. => false
    | _ => ((Tbl.find (dieOf s r.die).groups (bits r.word.toNat 11 0)).map (·.stopped)).getD false

/-- A card's request stands at its queue: its read has failed, or the queue is full (R350). -/
def cardThere (s : State) (r : CardReq) : Bool :=
  r.stopped || (((Tbl.find (dieOf s r.die).queues r.queue).map fun q => decide (32 ≤ q.cards.length)).getD false && !r.isTry)

/-- What set out as `id` on the path from one die to another has not arrived: something that set out before it has not, a counter
update, a cancellation, a ballot request, a card, a packet or an entry of a die-to-die queue, or a middle die is stopped.  What enters one path
leaves it in order (R406, R420; log 14). -/
def pathAhead (s : State) (src dst id : Nat) : Bool :=
  src != dst
  && (middleStopped s src dst id
    || (s.evReqs.any fun r => decide (r.id < id) && r.src == src && r.ctr / 1024 == dst)
    || (s.cancels.any fun r => decide (r.id < id) && r.src == src && r.die == dst)
    || (s.ballots.any fun r => decide (r.id < id) && r.src == src && r.die == dst && !ballotThere s r)
    || (s.cardReqs.any fun r => decide (r.id < id) && r.origin == src && r.die == dst && !cardThere s r)
    || (s.packets.any fun p => p.leg.any fun l => decide (l.id < id) && l.src == src && l.dst == dst)
    || s.fifos.any fun f => f.2.any fun x => decide (x.id < id) && dqSrc x.queue == src && dqDst x.queue == dst)

/-- The die at which a packet is, or to which it goes: past its passage, at its port, or where its command is. -/
def packetDie (s : State) (p : Packet) : Option Nat :=
  match p.leg with
  | some l => some l.dst
  | none => if p.port < 24 then some (p.port / 6) else
    (s.nxCmds.find? fun n => n.parts.any fun x => x.tag == p.tag).map (·.die)

/-- The die that a packet is delivered to, and not only passes (R424, R434). -/
def packetWakes (p : Packet) : Option Nat :=
  match p.leg with
  | some l => if l.out = none then some l.dst else none
  | none => if p.port < 24 && p.nh ≤ p.hi then some (p.port / 6) else none

/-! ### Contexts (R388, R479) -/

/-- A completion record for the host's ring (R466). -/
def hostRecord (s : State) (card kind code reason : Nat) : State :=
  { s with host := { s.host with pending := s.host.pending ++ [⟨card, kind, code, reason⟩] } }

/-- Remove the translation copies of a context; the walks in progress finish, and no copy that they install stays (R401, R402,
R404). -/
def tlbDropAsid (s : State) (asid : Nat) : State :=
  { s with tlb := s.tlb.filter (·.asid != asid), walked := s.walked.filter (·.asid != asid), walking := [] }

/-- A plot has one child fewer (R354). -/
def childGone (s : State) : Option Nat → State
  | none => s
  | some p => modDie s (p / 4096) fun d =>
      { d with plots := Tbl.modify d.plots (p % 4096) fun q => { q with children := q.children - 1 } }

/-- Complete a launch for its launcher: a token, or a record for the host (R350, R466). -/
def tellLauncher (s : State) (addr code reason : Nat) : LaunchFrom → State
  | .unit t sl k => completeTok s t sl k code
  | .host => hostRecord s addr 1 code reason
  | .nobody => s

/-- Who waits for an accepted card: the host, the unit that launched a child or has yet to be told of its `post`, or nobody. -/
def cardFrom (c : Card) : LaunchFrom :=
  if c.host then .host else if c.parent.isSome || c.untold then .unit c.tid c.slot c.tk else .nobody

/-- A launcher of work that is discarded with its context sees CANCELLED (R360). -/
def cancelCard (s : State) (c : Card) : State := childGone (tellLauncher s c.addr 2 0 (cardFrom c)) c.parent

/-- Discard a request for a card (R350, R361). -/
def cancelReq (s : State) (r : CardReq) : State :=
  childGone (tellLauncher (modDie s r.die fun d => { d with launch := bump d.launch 3 1 }) r.addr 2 0 r.src) r.parent

/-- A request meets the teardown of a context: one that is read under it, or one from supervisor level for a queue that it owns
whose acceptance falls in the same cycle, which of these do being free (R361). -/
def meetsTeardown (s : State) (asid : Nat) (r : CardReq) : Bool :=
  r.asid == asid || (decide (4096 ≤ r.asid) && ((Tbl.find (dieOf s r.die).queues r.queue).bind (·.owner)) == some asid
    && freeBit s (2 ^ 27 + 2 ^ 22 + r.id % 2 ^ 20))

/-- Launch work of a context is discarded (R359 to R361, R346). -/
def resetLaunch (s : State) (asid : Nat) : State :=
  let s1 := (s.cardReqs.filter (meetsTeardown s asid)).foldl cancelReq
    { s with cardReqs := s.cardReqs.filter fun r => !meetsTeardown s asid r }
  s1.dies.foldl (fun s d =>
    let gone := d.2.queues.flatMap fun q => q.2.cards.filter (·.asid == asid)
    let lost := (d.2.plots.filter fun p => p.2.card.asid == asid).map fun p => p.2.card
    let s2 := (gone.filter (·.plot.isNone) ++ lost).foldl cancelCard s
    modDie s2 d.1 fun x =>
      { x with launch := bump x.launch 3 gone.length
               queues := x.queues.map fun q => (q.1,
                 { cards := q.2.cards.filter (·.asid != asid), owner := if q.2.owner = some asid then none else q.2.owner })
               reserve := match x.reserve with
                 | some r => if ((Tbl.find d.2.queues r.queue).bind fun q => q.cards.head?).any (·.asid == asid) then none else some r
                 | none => none
               plots := x.plots.filter fun p => p.2.card.asid != asid }) s1

/-- Every resource of a context but its launch work and its memory: teams, copies, engines, groups, waits (R388). -/
def resetTeams (s : State) (asid : Nat) : State :=
  let ids := (s.teams.filter fun t => t.2.asid == asid).map (·.1)
  let mine := fun tid => ids.contains tid
  let dead := fun k : Nat × Core => (k.2.engine.holder.map mine).getD false
  let group := fun w : Word => ((Tbl.find s.dies (bits w.toNat 13 12)).bind fun d => Tbl.find d.groups (bits w.toNat 11 0)).any (·.asid == asid)
  { s with
    teams := s.teams.filter fun t => t.2.asid != asid
    cores := s.cores.map fun k => (k.1, { k.2 with
      engine := if dead k then Engine.zero else k.2.engine
      streamer := k.2.streamer.filter (·.asid != asid) })
    dies := s.dies.map fun d => (d.1, { d.2 with
      gather := d.2.gather.filter (·.asid != asid)
      susps := d.2.susps.filter fun r => !mine r.tid
      counters := d.2.counters.map fun c => (c.1, if c.2.tag = some asid then { c.2 with tag := none } else c.2)
      groups := d.2.groups.filter fun g => g.2.asid != asid
      cancelled := d.2.cancelled.filter fun w => !group w
      spTag := d.2.spTag.filter fun t => t.2 != asid
      ftable := d.2.ftable.filter fun e => e.asid != asid
      posted := d.2.posted.map fun r => if r.asid = asid then { r with acted := true } else r
      toPost := d.2.toPost.filter fun r => r.asid != asid })
    evReqs := s.evReqs.filter fun r => !mine r.tid || r.op == .add || r.op == .set
    ballots := s.ballots.filter (·.asid != asid)
    cancels := s.cancels.filter (·.asid != asid)
    walks := s.walks.filter (·.asid != asid)
    stalls := Tbl.erase s.stalls asid
    dqs := s.dqs.map fun q => (q.1, if q.2.owner = some asid then { q.2 with stored := [], owner := none } else q.2)
    fifos := s.fifos.map fun f => (f.1, f.2.map fun x => if x.asid = asid then { x with drop := true } else x)
    nxCmds := s.nxCmds.filter fun n => n.asid != asid
    packets := s.packets.filter fun p => p.asid != asid || p.port != 31 }

/-- STOP set on every die and CSTATE 11 (R388). -/
def stopContext (s : State) (asid cstate : Nat) : State :=
  let s1 := (upto 4).foldl (fun s d =>
    let w := (descWin s asid 0x60 d).toNat
    setDesc s asid (0x60 + 4 * d) (w % 2 ^ 31 + 2 ^ 31)) s
  setDesc s1 asid 0x14 cstate

/-- The launch controls of a context show no resident team. -/
def clearRes (s : State) (asid : Nat) : State :=
  (upto 4).foldl (fun s d =>
    let w := (descWin s asid 0x60 d).toNat
    setDesc s asid (0x60 + 4 * d) (w / 2 ^ 18 * 2 ^ 18)) s

/-! ### The fault queue (R380, R381, R399) -/

/-- The code of a source (R381). -/
def Source.code : Source → Nat
  | .streamer => 1 | .gather => 2 | .silo => 3 | .swap => 4 | .launch => 5 | .ballot => 6 | .array => 7 | .timer => 8
  | .fabric => 9 | .device => 10

/-- A record with every field zero. -/
def FRec.zero : FRec := ⟨0, .device, 0, 0, false, 0, 0, 0, 0, 0, 0, 3, [], .none, false, .ring⟩

/-- The 32 words of a record with `n` commands attached, which word 20 counts (R381, R399). -/
def recordWords (die : Nat) (lost : Bool) (n : Nat) (r : FRec) : List Nat :=
  [r.seq, r.src.code * 2 ^ 24 + r.cause * 2 ^ 16 + r.sub * 2 ^ 8 + (if r.rst then 128 else 0) + (if lost then 64 else 0),
   die * 4096 + r.asid, r.team * 65536 + r.plot, r.token * 256 + r.slot, r.addr % 2 ^ 32, r.addr / 2 ^ 32, r.kind]
  ++ (upto 24).map fun i => (r.body.getD i 0).toNat + if i = 12 then n else 0

/-- Where the next record of a die goes, or what its source finds wanting (R380, R419). -/
def postPlace (s : State) (die : Nat) : Except PostWait Nat :=
  let d := dieOf s die
  let n := d.fqsize.toNat
  if !clockRuns d then .error .clock
  else if n = 0 || (d.fqhead - d.fqtail).toNat = n then .error .ring else
  let va := d.fqbase.toNat + 128 * (d.fqhead.toNat % n)
  if rangeWaits s die 0 va 128 then .error .walker else
  match translate s die 0 va .write with
  | .ok pa => .ok pa
  | _ => .error .page

/-- The walk of a record's page meets a descriptor 0 that cannot be read (R479). -/
def postBlind (s : State) (die : Nat) : Bool :=
  let d := dieOf s die
  match postPlace s die with
  | .error .page => (match translate s die 0 (d.fqbase.toNat + 128 * (d.fqhead.toNat % d.fqsize.toNat)) .write with
    | .descErr => true
    | _ => false)
  | _ => false

/-- The commands attached to the entry of a piece of work (R399). -/
def attachedTo (d : Die) (w : Stalled) : Nat := ((d.ftable.find? fun e => e.work.contains w).map (·.seen)).getD 0

/-- Write a record into the ring (R380). -/
def recordAt (s : State) (die pa : Nat) (r : FRec) : State :=
  let d := dieOf s die
  let r1 := { r with seq := d.fqhead.toNat }
  let s1 := physWrite s pa ((recordWords die d.lost (if r.rst then attachedTo d r.work else 0) r1).flatMap fun w => toBytes 4 w)
  modDie s1 die fun d =>
    { d with fqhead := d.fqhead + 1, lost := false
             posted := if r.rst then d.posted ++ [r1] else d.posted
             ftable := d.ftable.map fun e => if e.work.contains r.work && r.rst then { e with seq := r1.seq } else e }

/-- Post a record: it is written, and `f` follows. A source whose command stalls waits where it cannot post, any other drops it,
but where the die's clock is stopped, or a walker has yet to be free, every source waits (R380, R395, R419). -/
def postWith (f : State → Nat → State) (s : State) (die : Nat) (r : FRec) : State :=
  match postPlace s die with
  | .ok pa => f (recordAt s die pa r) die
  | .error w =>
    if r.rst || w == .clock || w == .walker then modDie s die fun d => { d with toPost := d.toPost ++ [{ r with why := w }] }
    else modDie s die fun d => { d with lost := true, stat := bump d.stat 2 1 }

/-- A forced reset of a context (R388, R404), posting its record with `p`: reason 0 teardown, 1 second deadline, 2 ECC,
3 double fault. -/
def resetWith (p : State → Nat → FRec → State) (s : State) (asid reason : Nat) : State :=
  let s1 := latchHeads (tlbDropAsid (resetTeams (resetLaunch s asid) asid) asid)
  let s2 := setDesc (clearRes s1 asid) asid 0xC 0
  let s3 := stopContext { s2 with preempts := s2.preempts.filter (·.asid != asid) } asid 3
  p s3 0 { FRec.zero with src := .device, cause := 53, asid := asid, body := [BitVec.ofNat 32 reason] }

/-- Every context is reset and the host is told (R372, R466). -/
def resetEvery (p : State → Nat → FRec → State) (s : State) (reason : Nat) : State :=
  hostRecord ((upto 4096).foldl (fun s a => resetWith p s a reason) s) 0 2 1 0

/-- The update of FQEVN's counter by a post (R380). A descriptor 0 that cannot be read resets every context (R479). -/
def postEvent (s : State) (die : Nat) : State :=
  let n := (dieOf s die).fqevn
  if n = 0 then s else
  if descBad s 0 then resetEvery (postWith fun s _ => s) s 2 else
  match nameCounter (eventWindows s 0) n with
  | .error _ => s
  | .ok k =>
    let s1 := if (counterAt s k).tag = some 0 then s else
      modDie s (k / 1024) fun d => { d with counters := Tbl.put d.counters (k % 1024) ⟨0, some 0⟩ }
    ctrUpdate s1 k (· + 1)

/-- Post a record (R380). A descriptor 0 that cannot be read resets every context (R479). -/
def post (s : State) (die : Nat) (r : FRec) : State :=
  let s1 := postWith postEvent s die r
  if postBlind s die then resetEvery (postWith fun s _ => s) s1 2 else s1

/-- The key of a record in the fault table (R399). -/
def entryOf (r : FRec) (e : FEntry) : Bool := e.asid == r.asid && e.page == r.addr / 65536 && e.kind == r.kind

/-- A failure attaches to an entry: word 20 of its record, if that stands in the ring, counts the attached commands seen so far (R399),
but where the ring's page cannot be written now (DEDUCED, log 59). -/
def attach (s : State) (die : Nat) (e : FEntry) (w : Stalled) : State :=
  let d := dieOf s die
  let n := d.fqsize.toNat
  let s1 := modDie s die fun d => { d with ftable := d.ftable.map fun x => if x = e then { x with work := x.work ++ [w], seen := x.seen + 1 } else x }
  match d.posted.find? fun r => r.seq == e.seq && e.work.contains r.work with
  | none => s1
  | some r =>
    if n = 0 || n < (d.fqhead - BitVec.ofNat 32 r.seq).toNat then s1 else
    match translate s die 0 (d.fqbase.toNat + 128 * (r.seq % n) + 80) .write with
    | .ok pa => physWrite s1 pa (toBytes 4 ((r.body.getD 12 0).toNat + e.seen + 1))
    | .descErr => resetEvery (postWith fun s _ => s) s1 2
    | .fail _ => s1

/-- A failed walk: attach to the entry of its key, or take an entry and post, or wait for one (R399). -/
def postFault (s : State) (die : Nat) (r : FRec) : State :=
  let d := dieOf s die
  match d.ftable.find? (entryOf r) with
  | some e => attach s die e r.work
  | none =>
    if 256 ≤ d.ftable.length then modDie s die fun d => { d with toPost := d.toPost ++ [{ r with why := .entry }] }
    else post (modDie s die fun d => { d with ftable := d.ftable ++ [⟨r.asid, r.addr / 65536, r.kind, 0, [r.work], 0⟩] }) die r

/-- The sources of a die that wait for what a test holds of try to post again, in order (R380). -/
def retryPosts (p : PostWait → Bool) (s : State) (die : Nat) : State :=
  ((dieOf s die).toPost.filter fun r => p r.why).foldl (fun s r => if r.why = .entry then postFault s die r else post s die r)
    (modDie s die fun d => { d with toPost := d.toPost.filter fun r => !p r.why })

/-- Fault-table entries of every die have been freed: the sources that wait for one try again (R380). -/
def retryEntries (s : State) : State := (upto 4).foldl (retryPosts (· == .entry)) s

/-- A forced reset of a context (R388). -/
def forcedReset (s : State) (asid reason : Nat) : State := retryEntries (resetWith post s asid reason)

/-- A double fault of context 0: every context is reset and the host is told (R372, R466). -/
def resetAll (s : State) (reason : Nat) : State := resetEvery post s reason

/-- A context's descriptor cannot be read: its context, or for context 0 every context, is reset (R479). -/
def descriptorError (s : State) (asid : Nat) : State :=
  if asid = 0 then resetAll s 2 else forcedReset s asid 2

/-- An uncorrectable error in on-chip memory ends the context that owns it, and is reported (R202): by a record of KIND read
that names the place in its array (log 55). -/
def eccReset (s : State) (die asid addr : Nat) : State :=
  post (forcedReset s asid 2) die { FRec.zero with src := .array, cause := 8, asid := asid, addr := addr, kind := 0 }

/-- A field of a descriptor is written, or its context is reset where that cannot be (R479). -/
def putDesc (s : State) (asid off v : Nat) : State := if descBad s asid then descriptorError s asid else setDesc s asid off v

/-! ### Teams (R157, R234, R354) -/

/-- An on-chip address lies in team shared memory (R208). -/
def inShared (a : Word) : Bool := a.extractLsb' 30 2 == 0
/-- A copy or log append reads or writes its team's shared memory (R234). -/
def CopyCmd.shares (c : CopyCmd) : Bool :=
  match c.kind with
  | .blkMm | .redMm _ | .fillMm => false
  | .gat _ | .sct _ => [3, 5].any fun i => (c.layout.getD i 0).getLsbD 31 && inShared (c.layout.getD (i - 1) 0)
  | _ => inShared c.a
/-- The team's copies and log appends that a test holds of. -/
def hasCopy (s : State) (tid : Nat) (p : CopyCmd → Bool) : Bool :=
  s.cores.any (fun c => c.2.streamer.any fun x => x.tid == tid && p x) || s.dies.any fun d => d.2.gather.any fun x => x.tid == tid && p x
/-- A copy, fabric command or log append that reads or writes the team's shared memory is queued or in progress (R234, R310). -/
def teamBusy (s : State) (tid : Nat) : Bool :=
  hasCopy s tid CopyCmd.shares || s.nxCmds.any fun n => n.tid == tid && n.loc.getLsbD 63 && inShared (lowWord n.loc)

/-- Change the RES field of a context's launch control on a die (R357). -/
def addRes (s : State) (asid die : Nat) (up : Bool) : State :=
  let w := (descWin s asid 0x60 die).toNat
  let r := if up then bits w 17 0 + 1 else bits w 17 0 - 1
  putDesc s asid (0x60 + 4 * die) (w / 2 ^ 18 * 2 ^ 18 + r % 2 ^ 18)

/-- A team of a die holds a matrix engine in this period of SBAL (R462). -/
def engineTaken (s : State) (die : Nat) : State := modDie s die fun d => { d with held := true }

/-- The engine of a team that has ended is zeroed and released once its queue is empty (R240). -/
def releaseEngine (s : State) (t : Team) (tid : Nat) : State :=
  let k := coreKey t.die t.core
  let e := (coreOf s k).engine
  if e.holder = some tid && e.queue = [] && e.job0.state ≠ .rerunning && e.job1.state ≠ .rerunning then
    modCore s k fun c => { c with engine := Engine.zero }
  else s

/-- Send those of a team's counts whose tag a test holds of to the member entries (R336). -/
def sendCounts (s : State) (tid : Nat) (p : Word → Bool) : State :=
  match Tbl.find s.teams tid with
  | none => s
  | some t =>
    let mine := fun (a : Nat × List Nat) => p (BitVec.ofNat 32 a.1)
    let s1 := (t.acct.filter mine).foldl (fun s a =>
      { s with ballots := s.ballots ++ [⟨s.nextId, .account a.2, bits a.1 13 12, BitVec.ofNat 32 a.1, t.asid, tid, 0, 0, false, t.die, 0⟩]
               nextId := s.nextId + 1 }) s
    modTeam s1 tid fun t => { t with acct := t.acct.filter fun a => !mine a }

/-- Send a team's accounting to the member entries: when it ends or swaps out, and with its last commands (R336). -/
def sendAccounts (s : State) (tid : Nat) : State := sendCounts s tid fun _ => true

/-- A draining team's granules are zeroed and released with its last command on its shared memory: it is resident no longer
(R182, R234, R357). -/
def freeTeam (s : State) (tid : Nat) (t : Team) : State :=
  if t.freed || teamBusy s tid then s else
  let s1 := modTeam s tid fun t => { t with freed := true, shared := [], sharedPz := [] }
  if t.out then s1 else addRes s1 t.asid t.die false

/-- A team that has ended drains; the last of its commands to finish takes it away, with its last accounts (R234, R336). -/
def reapTeam (s : State) (tid : Nat) : State :=
  match Tbl.find s.teams tid with
  | none => s
  | some t =>
    if !t.ended then s else
    let s1 := freeTeam (releaseEngine s t tid) tid t
    if hasCopy s1 tid (fun _ => true) || s1.nxCmds.any (·.tid == tid) || (coreOf s1 (coreKey t.die t.core)).engine.holder == some tid then s1 else
    let s2 := sendAccounts s1 tid
    { s2 with teams := Tbl.erase s2.teams tid }

/-- A team gives up its silo pages (R173, R175). -/
def dropSilo (s : State) (t : Team) : State :=
  if t.pages = [] then s
  else putDesc { s with stalls := Tbl.erase s.stalls t.asid } t.asid 0xC (desc s t.asid 0xC 4 - t.pages.length)

/-- A team ends (R157): its merged stores are written back, its accounts are sent, its plot is told. -/
def endTeam (s : State) (tid : Nat) : State :=
  match Tbl.find s.teams tid with
  | none => s
  | some t =>
    if t.ended then s else
    let s1 := sendAccounts (dropSilo (flushCore s (coreKey t.die t.core)) t) tid
    let s2 := modTeam s1 tid fun t => { t with ended := true, sheaves := [], levels := [], pages := [], hold := .none }
    reapTeam (modDie s2 (t.plot / 4096) fun d => { d with plots := Tbl.modify d.plots (t.plot % 4096) fun p =>
      { p with ended := p.ended + 1, faulted := p.faulted || t.faulted, cancelled := p.cancelled || t.cancelled } }) tid

end Sys2Proof.Machine
end

