-- ==== Sys2Proof/Machine/Units.lean ====
section
/-! DEFINITION. Units, split records and the ends of threads, sheaves and teams (R77 to R87, R104, R331). -/

namespace Sys2Proof.Machine

/-- The fences of either list. -/
def joinScopes (a b : List Scope) : List Scope := a ++ b.filter fun x => !a.contains x

/-- A unit that has not issued yet. One that a record makes, a side that is released or the merged unit, enters the pending set
(DESIGN CHOICE: R83 does not say which set; log 51). -/
def newUnit (mask : BitVec 16) (pc : Word) (inner : Option Nat) (age last : Nat) : UnitSt :=
  ⟨mask, pc, inner, age, false, last, .ready, [], [], [], [], none⟩

/-- The places of a lane that a sheaf takes: one for each unit, and one for itself where it is idle (R77, R157). -/
def sheafSlots (sh : Sheaf) : Nat := if sh.retired then 0 else Max.max 1 sh.units.length

/-- The units of a lane, counting sheaves and fragments together (R77). -/
def laneUnits (s : State) (k : Nat) : List (Nat × Nat × Nat × UnitSt) :=
  s.teams.flatMap fun t => if t.2.out then [] else t.2.sheaves.flatMap fun sh =>
    if laneKey t.2 sh.2 = k then sh.2.units.map fun u => (t.1, sh.1, u.1, u.2) else []

/-- The places taken of a lane's 24 (R77). -/
def laneSlots (s : State) (k : Nat) : Nat :=
  (s.teams.map fun t => if t.2.out then 0 else (t.2.sheaves.map fun sh => if laneKey t.2 sh.2 = k then sheafSlots sh.2 else 0).sum).sum

/-- The lowest-numbered split record that is free (R82). -/
def freeRecord (sh : Sheaf) : Option Nat := (upto 16).find? fun i => (Tbl.find sh.splits i).isNone

/-- A member of a record is lost; a record whose count reaches 0 is settled (R83). `nid` names the next unit. -/
def memberLost (now : Nat) : Nat → Sheaf → Option Nat → Nat → Sheaf × Nat
  | 0, sh, _, nid => (sh, nid)
  | _ + 1, sh, none, nid => (sh, nid)
  | f + 1, sh, some rid, nid =>
    match Tbl.find sh.splits rid with
    | none => (sh, nid)
    | some r =>
      if 1 < r.live then ({ sh with splits := Tbl.put sh.splits rid { r with live := r.live - 1 } }, nid) else
      match r.parked with
      | p :: ps =>
        let sh1 := { sh with splits := Tbl.put sh.splits rid { r with live := 1, parked := ps } }
        let inner := p.inner.getD rid
        if p.mask = 0 then memberLost now f sh1 (some inner) nid else
        ({ sh1 with units := Tbl.put sh1.units nid { newUnit p.mask p.pc (some inner) r.age now with
             path := p.path, fenced := joinScopes p.fenced r.fenced } }, nid + 1)
      | [] =>
        if r.arrived ≠ 0 then
          ({ sh with splits := Tbl.erase sh.splits rid
                     units := Tbl.put sh.units nid { newUnit r.arrived (r.jaddr + 4) r.parent r.age now with
                       path := r.path, fenced := r.fenced } }, nid + 1)
        else memberLost now f { sh with splits := Tbl.erase sh.splits rid } r.parent nid

/-- A record learns which fences a member of it has passed (R86, R287). -/
def noteFence (sh : Sheaf) (uid : Nat) (inner : Option Nat) : Sheaf :=
  match inner, (Tbl.find sh.units uid).map (·.fenced) with
  | some _, some [] | none, _ | _, none => sh
  | some rid, some fs => { sh with splits := Tbl.modify sh.splits rid fun r => { r with fenced := joinScopes r.fenced fs } }

/-- A unit ceases to exist. -/
def dropUnit (now : Nat) (sh : Sheaf) (uid : Nat) (inner : Option Nat) (nid : Nat) : Sheaf × Nat :=
  let sh1 := noteFence sh uid inner
  memberLost now 34 { sh1 with units := Tbl.erase sh1.units uid } inner nid

/-- Threads leave a unit's mask; a unit whose mask empties ceases to exist (R87). -/
def dropThreads (now : Nat) (sh : Sheaf) (uid : Nat) (gone : BitVec 16) (nid : Nat) : Sheaf × Nat :=
  match Tbl.find sh.units uid with
  | none => (sh, nid)
  | some u =>
    let m := u.mask &&& ~~~ gone
    if m = 0 then dropUnit now sh uid u.inner nid
    else ({ sh with units := Tbl.put sh.units uid { u with mask := m } }, nid)

/-- The sheaf has no live thread. -/
def sheafDone (sh : Sheaf) : Bool := sh.units.isEmpty && sh.splits.isEmpty

/-- A sheaf without a live thread retires, or is idle in a sowing team (R83, R157). -/
def closeSheaf (s : State) (tid slot : Nat) : State :=
  modTeam s tid fun t =>
    { t with
      sheaves := Tbl.modify t.sheaves slot fun sh =>
        if sheafDone sh && !t.sowing then { sh with retired := true } else sh }

/-- Every sheaf of the team is without a live thread. -/
def teamIdle (t : Team) : Bool := t.sheaves.all fun sh => sheafDone sh.2

/-- A team ends when its last sheaf retires, or, sowing, when every sheaf is idle and the silo is empty (R157). -/
def closeTeam (s : State) (tid : Nat) : State :=
  match Tbl.find s.teams tid with
  | none => s
  | some t => if teamIdle t && t.levels.isEmpty then endTeam s tid else s

/-- The lane cycle at which a sheaf stands. -/
def sheafNow (s : State) (tid slot : Nat) : Nat :=
  match Tbl.find s.teams tid with
  | none => 0
  | some t => match Tbl.find t.sheaves slot with
    | none => 0
    | some sh => laneNow s (laneKey t sh)

/-- Change a sheaf by an operation that may make a unit. -/
def modUnits (s : State) (tid slot : Nat) (f : Nat → Sheaf → Nat → Sheaf × Nat) : State :=
  match Tbl.find s.teams tid with
  | none => s
  | some t => match Tbl.find t.sheaves slot with
    | none => s
    | some sh =>
      let r := f (sheafNow s tid slot) sh s.nextId
      modSheaf { s with nextId := r.2 } tid slot fun _ => r.1

/-- Threads of a unit end (R87, R104). -/
def endThreads (s : State) (tid slot uid : Nat) (gone : BitVec 16) : State :=
  closeTeam (closeSheaf (modUnits s tid slot fun now sh n => dropThreads now sh uid gone n) tid slot) tid

/-! ### Cancellation points (R330, R331) -/

/-- A tag word names a member that is cancelled at a die. -/
def isCancelled (s : State) (die : Nat) (tag : Word) : Bool :=
  tag.getLsbD 31 && (dieOf s die).cancelled.contains tag

/-- The threads of a mask whose member is cancelled. -/
def cancelledIn (s : State) (die : Nat) (sh : Sheaf) (m : BitVec 16) : BitVec 16 :=
  maskOf ((positions m).filter fun p => isCancelled s die (threadAt sh p).tag)

/-- Threads end at a cancellation point: each adds to TEND (R336). -/
def endCancelled (s : State) (tid slot uid : Nat) (gone : BitVec 16) : State :=
  match Tbl.find s.teams tid with
  | none => s
  | some t =>
    match Tbl.find t.sheaves slot with
    | none => s
    | some sh =>
      endThreads (modTeam s tid fun t => (positions gone).foldl (fun t p => charge (threadAt sh p).tag 6 1 t)
        { t with cancelled := true }) tid slot uid gone

/-- The threads of a unit that end at a cancellation point: its cancelled threads, but in a supervisor handler none, since
they end at their next point after the return (R389). -/
def goneAt (c : Ctx) : BitVec 16 :=
  if c.sheaf.trapped = some c.uid then 0 else cancelledIn c.st c.team.die c.sheaf c.unit.mask

/-- A unit passes a cancellation point: its cancelled threads end. -/
def cancelPoint (s : State) (tid slot uid : Nat) : State :=
  match unitAt s tid slot uid with
  | none => s
  | some c => if goneAt c = 0 then s else endCancelled s tid slot uid (goneAt c)

/-- The issuing unit passes the cancellation point that its word is; where no thread of it is left, its lane has been held by the
word all the same (R80, R331). -/
def passPoint (c : Ctx) (s : State) : State :=
  cancelPoint (if goneAt c = c.unit.mask then chargeCycles c s 1 [c.tag] else s) c.tid c.slot c.uid

/-! ### Splits and joins (R84, R85) -/

/-- `join j` on the issuing unit with a matching record (R84): a record opens with a jaddr above every PC. -/
def arriveJoin (now : Nat) (sh : Sheaf) (uid : Nat) (u : UnitSt) (rid : Nat) (nid : Nat) : Sheaf × Nat :=
  match Tbl.find sh.splits rid with
  | none => (sh, nid)
  | some r =>
    let r1 := { r with arrived := r.arrived ||| u.mask
                       jaddr := if u.pc.toNat < r.jaddr.toNat then u.pc else r.jaddr }
    dropUnit now { sh with splits := Tbl.put sh.splits rid r1 } uid (some rid) nid

/-- The record of a split by `bv` with identifier `j` (R85 step 1): none where SPLIT is raised. -/
def splitRecord (sh : Sheaf) (u : UnitSt) (j : Nat) (serial : Bool) : Option (Nat × Split) :=
  let own := match u.inner with
    | some rid => match Tbl.find sh.splits rid with
      | some r => if r.id = j then some (rid, { r with live := if serial then r.live else r.live + 1 }) else none
      | none => none
    | none => none
  match own with
  | some x => some x
  | none => (freeRecord sh).map fun rid => (rid, ⟨j, u.inner, if serial then 1 else 2, 0, BitVec.allOnes 32, [], u.age, u.path, u.fenced⟩)

/-- A dividing `bv` (R85): taken threads at `target`, the rest at `next`. None where SPLIT is raised. -/
def splitUnit (full : Bool) (room : Bool) (sh : Sheaf) (uid : Nat) (u : UnitSt) (j : Nat) (taken : BitVec 16)
    (target next : Word) (nid : Nat) : Option (Sheaf × Nat) :=
  match splitRecord sh u j full with
  | none => none
  | some (rid, r) =>
    let rest := u.mask &&& ~~~ taken
    if full then
      if 15 ≤ r.parked.length then none else
      some ({ sh with splits := Tbl.put sh.splits rid { r with parked := r.parked ++ [⟨rest, next, .fresh, u.path ++ [false], u.fenced, none⟩] }
                      units := Tbl.put sh.units uid { u with mask := taken, pc := target, inner := some rid, path := u.path ++ [true] } }, nid)
    else
      some ({ sh with splits := Tbl.put sh.splits rid r
                      units := Tbl.put (Tbl.put sh.units uid { u with mask := rest, pc := next, inner := some rid, path := u.path ++ [false] }) nid
                        { u with mask := taken, pc := target, inner := some rid, path := u.path ++ [true], active := room } }, nid + 1)

end Sys2Proof.Machine
end

