-- ==== Sys2Proof/Machine/Ops.lean ====
section
/-! DEFINITION. Taking a supervisor trap and returning from one, and what every word passes at its issue: the checks of
R44 that depend on the sheaf, its token waits, and the meeting of a swath. -/

namespace Sys2Proof.Machine

/-- What each meaning answers. -/
abbrev Res := Host.Outcome State Fault Refusal

/-! ### Supervisor traps (R369 to R374) -/

/-- What a trap records (R369, R370). -/
structure TrapInfo where
  cause : Nat
  sub   : Nat
  cls   : Nat
  info  : Word
  mask  : BitVec 16
  sum   : DWord
  addr  : Nat
  epc   : Word
  deriving DecidableEq, Repr

/-- The sheaf's system registers and state after trap entry (R372 step 3). -/
def enterTrap (uid : Nat) (base : DWord) (t : TrapInfo) (sh : Sheaf) : Sheaf :=
  let pl : Word := if sh.level = .user then 0 else 1
  { sh with
    sys := { sh.sys with
      sepc := t.epc
      scause := BitVec.ofNat 32 (t.cls * 2 ^ 16 + t.sub * 2 ^ 8 + t.cause)
      sinfo := t.info
      smask := t.mask.setWidth 32
      ssum := t.sum
      saddr := BitVec.ofNat 64 t.addr
      sstat := (sh.sys.sstat &&& 0xFFFFFFFC) ||| pl ||| 2 }
    level := .supervisor
    trapped := some uid
    svFetch := true
    svAt := base
    units := Tbl.modify sh.units uid fun u => { u with pc := BitVec.ofNat 32 (256 * t.cls), wait := .ready, wins := [] } }

/-- A unit takes a supervisor trap; a trap inside a trap is a double fault (R372). -/
def takeTrap (c : Ctx) (s : State) (t : TrapInfo) : State :=
  if c.sheaf.sys.sstat.getLsbD 1 then
    (if c.team.asid = 0 then resetAll s 3 else forcedReset s c.team.asid 3)
  else c.modSheaf s (enterTrap c.uid s.svbase t)

/-- A decode-class trap at the unit's word: SINFO holds its first parcel (R370). -/
def decodeTrap (c : Ctx) (s : State) (cause sub : Nat) (parcel : Word) : State :=
  takeTrap c s ⟨cause, sub, 0, parcel, c.unit.mask, BitVec.ofNat 64 (2 ^ cause), 0, c.unit.pc⟩

/-- An execution-class trap of a U-word or an E-word. -/
def raiseExec (c : Ctx) (s : State) (cause sub addr : Nat) : State :=
  takeTrap c s ⟨cause, sub, 1, 0, c.unit.mask, BitVec.ofNat 64 (2 ^ cause), addr, c.unit.pc⟩

/-- An execution-class trap of a lane word: the faulting threads in rank order with their causes and addresses; the
first is reported (R369). -/
def laneTrap (c : Ctx) (s : State) (fs : List (Nat × Nat × Nat)) : State :=
  match fs with
  | [] => s
  | (p, cause, addr) :: _ =>
    takeTrap c s ⟨cause, 0, 1, BitVec.ofNat 32 p, maskOf (fs.map (·.1)),
      fs.foldl (fun m f => m ||| BitVec.ofNat 64 (2 ^ f.2.1)) 0, addr, c.unit.pc⟩

/-- A call-class trap (R375). -/
def callTrap (c : Ctx) (s : State) (cause : Nat) (imm epc : Word) : State :=
  takeTrap c s ⟨cause, 0, 2, imm, c.unit.mask, BitVec.ofNat 64 (2 ^ cause), 0, epc⟩

/-- The sheaf after the return from a supervisor trap: level PL, ST clear, the team's own code base and ASID, every
unit free to issue (R373, R374). -/
def leaveTrap (sh : Sheaf) : Sheaf :=
  { sh with
    level := if sh.sys.sstat.getLsbD 0 then .supervisor else .user
    sys := { sh.sys with sstat := sh.sys.sstat &&& 0xFFFFFFFD }
    trapped := none
    svFetch := false }

/-! ### The checks of R44 that depend on the sheaf -/

/-- The vector registers of a pair's second half. -/
def pairRegs (p : PairOp) : List Nat := [p.vd.toNat, p.va.toNat, p.vb.toNat]
/-- The vector registers of operands (R123, R37). -/
def srcARegs : SrcA → List Nat
  | .reg v => [v.toNat] | .special _ => []
/-- The vector registers of a second source. -/
def srcBRegs : SrcB → List Nat
  | .reg v => [v.toNat] | .imm _ => []
/-- The vector registers of a two-source operation. -/
def binRegs : Bin → List Nat
  | .one a b => srcARegs a ++ srcBRegs b
  | .pair a b p => a.toNat :: b.toNat :: pairRegs p
/-- The vector registers of a one-source operation. -/
def unRegs : Un → List Nat
  | .one a => srcARegs a
  | .pair a p => a.toNat :: pairRegs p
/-- The vector registers of a floating operation. -/
def fbinRegs : FBin → List Nat
  | .one a b _ => [a.toNat, b.toNat]
  | .pair a b p => a.toNat :: b.toNat :: pairRegs p
/-- The vector registers of `fmin` and `fmax`. -/
def fselRegs : FSel → List Nat
  | .one a b => [a.toNat, b.toNat]
  | .pair a b p => a.toNat :: b.toNat :: pairRegs p
/-- The vector registers of a fused operation. -/
def ftriRegs : FTri → List Nat
  | .one a b c _ => [a.toNat, b.toNat, c.toNat]
  | .pair a b p => a.toNat :: b.toNat :: pairRegs p

/-- The vector registers that a word names, ranges by their last register (R41, R44 check 7). -/
def vregs : Instr → List Nat
  | .add _ d x | .sub _ d x | .mul _ d x | .mulh _ _ d x | .and _ d x | .or _ d x | .xor _ d x | .andn _ d x
  | .shl _ d x | .shr _ d x | .sra _ d x | .rot _ d x | .min _ _ d x | .max _ _ d x => d.toNat :: binRegs x
  | .mov _ d x | .not _ d x | .abs _ d x | .neg _ d x | .clz _ d x | .popc _ d x | .brev _ d x => d.toNat :: unRegs x
  | .movi _ d _ => [d.toNat]
  | .mad _ d a b c => [d.toNat, a.toNat, c.toNat] ++ srcBRegs b
  | .sad _ _ d a b c => [d.toNat, a.toNat, c.toNat] ++ srcBRegs b
  | .dot4 _ _ _ d a b c => [d.toNat, a.toNat, c.toNat] ++ srcBRegs b
  | .bfx _ _ d a _ _ => [d.toNat, a.toNat]
  | .bfi _ d a b _ _ => [d.toNat, a.toNat, b.toNat]
  | .sel _ d a b _ _ => [d.toNat, a.toNat] ++ srcBRegs b
  | .cmp _ _ _ _ a b => a.toNat :: srcBRegs b
  | .div _ _ d a b | .rem _ _ d a b => [d.toNat, a.toNat] ++ srcBRegs b
  | .fadd _ d x | .fsub _ d x | .fmul _ d x | .badd2 _ d x | .bmul2 _ d x => d.toNat :: fbinRegs x
  | .fmin _ d x | .fmax _ d x => d.toNat :: fselRegs x
  | .ffma _ d x | .bfma2 _ d x | .bfma2V2 _ d x => d.toNat :: ftriRegs x
  | .fcmp _ _ _ a b => [a.toNat, b.toNat]
  | .fclass _ _ d a => [d.toNat, a.toNat]
  | .frcp _ _ d a | .fsqrt _ _ d a | .frnd _ _ d a => [d.toNat, a.toNat]
  | .frsq _ d a | .fex2 _ d a | .flg2 _ d a | .fsin _ d a | .fcos _ d a | .ftanh _ d a => [d.toNat, a.toNat]
  | .fcvt _ _ _ _ _ d a => [d.toNat, a.toNat]
  | .shfl _ _ _ d a b => [d.toNat, a.toNat] ++ srcBRegs b
  | .bal _ w d _ _ => if w then [d.toNat, d.toNat + 1] else [d.toNat]
  | .scan _ _ _ _ d a | .red _ _ _ d a => [d.toNat, a.toNat]
  | .cx _ _ _ d a b _ _ => [d.toNat, a.toNat] ++ srcBRegs b
  | .meq _ w d a => if w then [d.toNat, d.toNat + 1, a.toNat] else [d.toNat, a.toNat]
  | .bmAnd _ d _ a b => [d.toNat, a.toNat, b.toNat]
  | .bmRank _ d a b c => [d.toNat, a.toNat, c.toNat] ++ srcBRegs b
  | .bmSel _ d a b => [d.toNat, a.toNat] ++ srcBRegs b
  | .isect _ _ _ d a b c _ => [d.toNat, a.toNat, b.toNat, c.toNat]
  | .sow _ a | .sowSg _ a => [a.toNat]
  | .sowQ _ d a => [d.toNat, d.toNat + 1, a.toNat]
  | .v2s _ _ a => [a.toNat]
  | .s2v _ d _ => [d.toNat]
  | .bdGet _ d _ => [d.toNat]
  | .bdSet _ _ _ a => [a.toNat]
  | .ld _ _ _ n d a _ | .st _ _ _ n d a _ => [d.toNat + n.num - 1, a.toNat]
  | .atom _ _ _ _ d a b c _ => [d.toNat, a.toNat, b.toNat, c.toNat]
  | .mxRunV _ _ _ v _ => [v.toNat + 31]
  | .mxCmatPerm _ _ _ v => [v.toNat]
  | .mxDrain _ _ _ _ _ _ _ y _ => [y.toNat]
  | _ => []

/-- The tile or bound index that a word names (R239). -/
def tileOf : Instr → Option Nat
  | .bdGet _ _ (.tile i) | .bdSet _ _ (.tile i) _ | .bdClr _ (.tile i) => some i.toNat
  | .cpTenLdBnd _ _ _ _ _ i | .cpTenStBnd _ _ _ _ _ i => some i.toNat
  | .mxRun _ _ i _ _ | .mxRunV _ _ i _ _ | .mxCmatId _ _ i | .mxCmatTr _ _ i | .mxCmatPerm _ _ i _
  | .mxCmatSum _ _ i | .mxDrain _ _ i _ _ _ _ _ _ | .mxZero _ i | .mxBeg _ i _ | .mxRedo _ _ i _ => some i.toNat
  | _ => none

/-- Check 7 for the role's allotment and the team's tiles. -/
def regsOk (c : Ctx) (i : Instr) : Bool :=
  (vregs i).all (fun r => decide (r < c.sheaf.allot))
    && (c.team.tiles == 0 || (tileOf i).all fun t => decide (t < c.team.tiles))

/-- The sheaf belongs to a swath: the slots of role M always form swaths (R88). -/
def inSwath (sh : Sheaf) : Bool := sh.role == .m
/-- The sheaf may issue copies and fabric commands (R209). -/
def copyRole (c : Ctx) : Bool := if c.team.hasC then c.sheaf.role == .c else c.sheaf.role == .g
/-- The sheaf may issue matrix commands (R239, R241). -/
def matrixRole (c : Ctx) : Bool := mayCommand c.team c.sheaf

/-- Check 8: the sheaf's role may issue the word. -/
def roleOk (c : Ctx) : Instr → Bool
  | .shfl _ _ sw _ _ _ | .bal _ sw _ _ _ | .scan _ _ _ sw _ _ | .red _ _ sw _ _ | .cx _ _ sw _ _ _ _ _
  | .vany _ sw _ _ _ | .vall _ sw _ _ _ | .meq _ sw _ _ => !sw || inSwath c.sheaf
  | .sow .. | .sowSg .. | .sowQ .. => c.team.sowing
  | .bdGet .. | .bdSet .. | .bdClr .. => matrixRole c
  | .cpBlkLd .. | .cpBlkSt .. | .cpBlkMm .. | .cpTenLd .. | .cpTenSt .. | .cpRed .. | .cpFillOc .. | .cpFillMm ..
  | .cpGat .. | .cpSct .. => copyRole c
  | .cpTenLdBnd .. | .cpTenStBnd .. | .cpTenLdBnda .. | .cpTenLdBndw .. => copyRole c && c.team.tiles != 0
  | .mxLdw .. | .mxFlip .. | .mxRun .. | .mxRunV .. | .mxCmatId .. | .mxCmatTr .. | .mxCmatPerm .. | .mxCmatSum ..
  | .mxDrain .. | .mxZero .. | .mxFence .. | .mxWait .. | .mxBeg .. | .mxRedo .. => matrixRole c
  | .barSwath => inSwath c.sheaf
  | .lnch .. | .lnchTry .. => c.slot == 0
  | .nxPut .. | .nxGet .. | .nxAtom .. | .nxSig .. | .nxProbe .. => copyRole c
  | _ => true

/-- The lowest level that may read a system register (R367): 0 user, 1 supervisor, 2 monitor. -/
def readLevel (n : Nat) : Nat :=
  if n = 0x31 then 2 else if n = 5 || n = 6 || n = 0x1D || 0x20 ≤ n then 1 else 0
/-- The lowest level that may write a system register: 2 monitor. -/
def writeLevel (n : Nat) : Nat :=
  if n = 0x31 || n = 0x32 then 2 else if n = 4 || 0x20 ≤ n then 1 else 0

/-- A sheaf's level as a number. -/
def levelNum : Level → Nat
  | .user => 0 | .supervisor => 1 | .monitor => 2

/-- Check 9: the level may issue the word. `eret` makes its own check (R373, R377). -/
def privOk (c : Ctx) : Instr → Bool
  | .eretFc .. | .idle | .tlbInvPage .. | .tlbInvAsid _ | .tlbInvAll | .tlbSync | .pgProbe .. | .nxTopo .. | .nxTree .. =>
    c.sheaf.level != .user
  | .srGet _ r _ => decide (readLevel r.toNat ≤ levelNum c.sheaf.level)
  | .srSet _ r _ => decide (writeLevel r.toNat ≤ levelNum c.sheaf.level)
  | _ => true

/-- The header of an L-word. -/
def hdrOf : Instr → Option Hdr
  | .add h _ _ | .sub h _ _ | .mul h _ _ | .mulh h _ _ _ | .and h _ _ | .or h _ _ | .xor h _ _ | .andn h _ _
  | .shl h _ _ | .shr h _ _ | .sra h _ _ | .rot h _ _ | .min h _ _ _ | .max h _ _ _ | .mov h _ _ | .not h _ _
  | .abs h _ _ | .neg h _ _ | .clz h _ _ | .popc h _ _ | .brev h _ _ | .movi h _ _ | .mad h _ _ _ _
  | .sad h _ _ _ _ _ | .dot4 h _ _ _ _ _ _ | .bfx h _ _ _ _ _ | .bfi h _ _ _ _ _ | .sel h _ _ _ _ _
  | .cmp h _ _ _ _ _ | .div h _ _ _ _ | .rem h _ _ _ _ | .fadd h _ _ | .fsub h _ _ | .fmul h _ _ | .fmin h _ _
  | .fmax h _ _ | .ffma h _ _ | .fcmp h _ _ _ _ | .fclass h _ _ _ | .frcp h _ _ _ | .frsq h _ _ | .fsqrt h _ _ _
  | .fex2 h _ _ | .flg2 h _ _ | .fsin h _ _ | .fcos h _ _ | .ftanh h _ _ | .fcvt h _ _ _ _ _ _ | .frnd h _ _ _
  | .badd2 h _ _ | .bmul2 h _ _ | .bfma2 h _ _ | .bfma2V2 h _ _ | .shfl h _ _ _ _ _ | .bal h _ _ _ _
  | .scan h _ _ _ _ _ | .red h _ _ _ _ | .cx h _ _ _ _ _ _ _ | .vany h _ _ _ _ | .vall h _ _ _ _ | .meq h _ _ _
  | .bmAnd h _ _ _ _ | .bmRank h _ _ _ _ | .bmSel h _ _ _ | .isect h _ _ _ _ _ _ _ | .sow h _ | .sowSg h _
  | .sowQ h _ _ | .v2s h _ _ | .s2v h _ _ | .bdGet h _ _ | .bdSet h _ _ _ | .bdClr h _ | .ld h _ _ _ _ _ _
  | .st h _ _ _ _ _ _ | .atom h _ _ _ _ _ _ _ _ | .fence h _ => some h
  | _ => none

/-- The uniform fields of a word that may run ahead of a value on its way, since it reaches no memory and no other agent, and
neither divides, merges nor ends its unit; none of every other word (R94, R303; log 14). -/
def runsAhead : Instr → Option (List SReg)
  | .sAdd d a b | .sSub d a b | .sMul d a b | .sMulhI32 d a b | .sMulhN32 d a b | .sAnd d a b | .sOr d a b | .sXor d a b
  | .sShl d a b | .sShr d a b | .sSra d a b | .sMinI32 d a b | .sMinN32 d a b | .sMaxI32 d a b | .sMaxN32 d a b
  | .sSel d a b _ _ => some [d, a, b]
  | .sAddImm d a _ | .sSubImm d a _ | .sMulImm d a _ | .sMulhI32Imm d a _ | .sMulhN32Imm d a _ | .sAndImm d a _ | .sOrImm d a _
  | .sXorImm d a _ | .sShlImm d a _ | .sShrImm d a _ | .sSraImm d a _ | .sMinI32Imm d a _ | .sMinN32Imm d a _
  | .sMaxI32Imm d a _ | .sMaxN32Imm d a _ | .sAddi d a _ | .sBfx d a _ _ | .sMov d a | .sPopc d a | .sClz d a => some [d, a]
  | .sCmpI32 _ _ a b | .sCmpN32 _ _ a b => some [a, b]
  | .sCmpI32Imm _ _ a _ | .sCmpN32Imm _ _ a _ | .ret a | .jr a | .loop a _ => some [a]
  | .sMovSpecial d _ | .sMovi d _ | .sLui d _ | .call d _ => some [d]
  | .sQop .. | .br _ | .bc .. | .nop => some []
  | .v2s _ d _ => some [d]
  | .s2v _ _ a => some [a]
  | .add .. | .sub .. | .mul .. | .mulh .. | .and .. | .or .. | .xor .. | .andn .. | .shl .. | .shr .. | .sra .. | .rot ..
  | .min .. | .max .. | .mov .. | .not .. | .abs .. | .neg .. | .clz .. | .popc .. | .brev .. | .movi .. | .mad .. | .sad ..
  | .dot4 .. | .bfx .. | .bfi .. | .sel .. | .cmp .. | .div .. | .rem .. | .fadd .. | .fsub .. | .fmul .. | .fmin .. | .fmax ..
  | .ffma .. | .fcmp .. | .fclass .. | .frcp .. | .frsq .. | .fsqrt .. | .fex2 .. | .flg2 .. | .fsin .. | .fcos .. | .ftanh ..
  | .fcvt .. | .frnd .. | .badd2 .. | .bmul2 .. | .bfma2 .. | .bfma2V2 .. | .bmAnd .. | .bmRank .. | .bmSel .. | .isect .. => some []
  | .shfl _ _ sw _ _ _ | .bal _ sw _ _ _ | .scan _ _ _ sw _ _ | .red _ _ sw _ _ | .cx _ _ sw _ _ _ _ _
  | .vany _ sw _ _ _ | .vall _ sw _ _ _ | .meq _ sw _ _ => if sw then none else some []
  | _ => none

/-- A value on its way keeps the word from issuing: the word may not run ahead of it, or names its register outside the
lookahead (R94). -/
def awaitHolds (c : Ctx) (i : Instr) (a : Await) : Bool :=
  match runsAhead i with
  | none => true
  | some fs => a.left == 0 && fs.any fun f => fieldKey c.sheaf f == .s a.dst
/-- The first value on its way that the unit's word waits for. -/
def awaited (c : Ctx) (i : Instr) : Option Await := c.unit.awaits.find? (awaitHolds c i)

/-- A word has waited for complete tokens, be it a command that names one: the writes of their commands are acquired, and their
reports to its unit stand, as do those to a unit that is no more (R113, R292, R443; log 40). -/
def acquired (c : Ctx) (s : State) (mask : Nat) : State :=
  if mask = 0 then s else
  dropClean (c.modSheaf (hearAll c s) fun sh =>
    dropReports (fun r => r.done && bitOf mask r.tk && (r.uid == c.uid || (Tbl.find sh.units r.uid).isNone)) sh) c.core

/-- A wait mask, `tk.wait` or `mx.wait` has waited for complete tokens: their commands release their registers as well (R247). -/
def waitedFor (c : Ctx) (s : State) (mask : Nat) : State :=
  if mask = 0 then s else
  let cmds := (coreOf s c.core).engine.queue.map (·.id)
  let done := fun h : Held => bitOf mask h.tk && !cmds.contains h.cmd
  c.modSheaf (acquired c s mask) fun sh => { sh with held := sh.held.filter fun h => !done h, spoilt := sh.spoilt.filter fun h => !done h }

/-- What a word passes at its issue: the checks 7 to 9 of R44, in order, the values on their way (R94), and the token waits of
its header (R31). -/
def issue (i : Instr) (s : State) (k : Ctx → Res) : Res :=
  match ctxOf s with
  | none => .refused .noIssuingUnit
  | some c =>
    let parcel := (encode c.team.ver i).headD 0
    if !regsOk c i then .next (decodeTrap c s 1 7 parcel)
    else if !roleOk c i then .next (decodeTrap c s 2 0 parcel)
    else if !privOk c i then .next (decodeTrap c s 3 0 parcel)
    else match awaited c i with
    | some a => .next (waitAt c s (.reply a.id))
    | none =>
      let m := ((hdrOf i).map (·.wait.toNat)).getD 0
      if tokensPending c.sheaf m then .next (waitAt c s (.tokens m))
      else if m = 0 then k c
      else
        let s1 := waitedFor c s m
        match unitAt s1 c.tid c.slot c.uid with
        | none => .refused .noIssuingUnit
        | some c1 => k c1

/-- The unit's word after it: `w` parcels further. -/
def Ctx.next (c : Ctx) (w : Nat) : Word := c.unit.pc + BitVec.ofNat 32 (4 * w)

/-! ### Swaths (R88 to R90) -/

/-- The slots of a sheaf's swath. -/
def swathSlots (slot : Nat) : List Nat := (upto 4).map fun i => slot / 4 * 4 + i

/-- Every unit of the sheaves of a swath. -/
def swathUnits (s : State) (tid slot : Nat) : List Ctx :=
  match Tbl.find s.teams tid with
  | none => []
  | some t => (swathSlots slot).flatMap fun sl =>
    match Tbl.find t.sheaves sl with
    | none => []
    | some sh => sh.units.map fun u => ⟨s, tid, sl, u.1, t, sh, u.2⟩

/-- A sheaf of the swath has retired. -/
def swathRetired (s : State) (tid slot : Nat) : Bool :=
  match Tbl.find s.teams tid with
  | none => true
  | some t => (swathSlots slot).any fun sl => ((Tbl.find t.sheaves sl).map (·.retired)).getD true

/-- Of two paths of one sheaf, the first keeps to the fall-through side where they part (R92). -/
def pathBefore : List Bool → List Bool → Bool
  | [], _ => true
  | _ :: _, [] => false
  | a :: s, b :: t => if a == b then pathBefore s t else !a

/-- A unit comes before another in the age order: of equal ages, the fall-through side before the taken side (R92). -/
def UnitSt.older (u w : UnitSt) : Bool := decide (u.age < w.age) || (u.age == w.age && pathBefore u.path w.path)

/-- The oldest of a list of units (R92). -/
def oldest : List Ctx → Option Ctx
  | [] => none
  | c :: t => match oldest t with
    | none => some c
    | some d => if c.unit.older d.unit then some c else some d

/-- Units by their sheaves. -/
def bySheaf (us : List Ctx) : List (List Ctx) :=
  (us.map (·.slot)).eraseDups.map fun sl => us.filter fun c => c.slot == sl

/-- The unit that raises a cause for its sheaf's units: their oldest; in a sheaf that handles a trap, only the unit that
handles it, since the others wait for the return and take theirs then (R372). -/
def raiser (us : List Ctx) : Option Ctx :=
  oldest (us.filter fun c => c.sheaf.trapped == none || c.sheaf.trapped == some c.uid)

/-- A unit waits at an L-word that its team or its swath meets at. -/
def Wait.atLane : Wait → Bool
  | .round _ | .swath .lane => true
  | _ => false
/-- SINFO of an execution-class fault of the word that a unit waits at: of an L-word, the position of its lowest-ranked thread
(R369, R370). -/
def waitInfo (c : Ctx) : Word :=
  if c.unit.wait.atLane then BitVec.ofNat 32 ((byRank c.sheaf (positions c.unit.mask)).headD 0) else 0

/-- One execution-class trap in each sheaf of these units, by its oldest; the others stop before their words (R372). -/
def trapEach (s : State) (us : List Ctx) (cause sub : Nat) : State :=
  (bySheaf us).foldl (fun s mine =>
    let s1 := mine.foldl (fun s c => c.modUnit s fun u => { u with wait := .ready }) s
    match raiser mine with
    | none => s1
    | some c => match unitAt s1 c.tid c.slot c.uid with
      | none => s1
      | some c1 => takeTrap c1 s1 ⟨cause, sub, 1, waitInfo c, c1.unit.mask, BitVec.ofNat 64 (2 ^ cause), 0, c1.unit.pc⟩) s

/-- A unit waits for its swath. -/
def Wait.isSwath : Wait → Bool
  | .swath _ => true
  | _ => false

/-- Where a unit stands: its code offset, in a handler apart from the program's (R79, R372). -/
def Ctx.place (c : Ctx) : Bool × Word := (c.sheaf.trapped == some c.uid, c.unit.pc)

/-- SWATH is raised in every unit of a swath that waits at a collective word, where R90 says so. -/
def checkSwath (s : State) (tid slot : Nat) : State :=
  let us := swathUnits s tid slot
  let ws := us.filter fun c => c.unit.wait.isSwath
  let stuck := us.all (fun c => c.unit.wait.isSwath) && ws.any fun c => c.place != (ws.headD c).place
  if ws.isEmpty then s
  else if swathRetired s tid slot || stuck then trapEach s ws 13 0 else s

/-- Something other than its own word keeps a unit from issuing: its team is not there or is stopped, its sheaf has retired or
handles a trap (R372, R387). -/
def Ctx.stopped (c : Ctx) : Bool :=
  c.team.out || c.team.ended || c.team.imageHold || (c.team.halted && !c.sheaf.sys.sstat.getLsbD 1) || c.sheaf.retired
  || (c.sheaf.trapped.map fun f => f != c.uid).getD false

/-- The units of a swath may pass the collective word at which one of them stands: all stand there, and no value is on its way to
any of them (R89, R91, R94). -/
def meetAt (d : Ctx) (us : List Ctx) : Bool := us.all fun u => u.place == d.place && u.unit.awaits.isEmpty

/-- A unit waits for its swath at a word that is pending: all of the swath stands there, ready (R89). -/
def swathPending (s : State) (d : Ctx) : Bool :=
  let us := swathUnits s d.tid d.slot
  d.unit.wait.isSwath && meetAt d us && us.all fun u => !u.stopped

/-- A lane is reserved: a word of a swath is pending on it (R89). -/
def laneReserved (s : State) (k : Nat) : Bool :=
  (laneUnits s k).any fun x => x.2.2.2.wait.isSwath && ((unitAt s x.1 x.2.1 x.2.2.1).map (swathPending s)).getD false

/-- An older unit of a unit's lane waits at the pending word of another swath, which takes the lane first (R89). -/
def yieldsTo (s : State) (us : List Ctx) (u : Ctx) : Bool :=
  (laneUnits s (laneKey u.team u.sheaf)).any fun x =>
    x.2.2.2.wait.isSwath && !us.any (fun m => m.tid == x.1 && m.slot == x.2.1)
      && x.2.2.2.older u.unit && ((unitAt s x.1 x.2.1 x.2.2.1).map (swathPending s)).getD false

/-- A swath-collective word: it takes effect when every unit of the four sheaves is at its offset with no value on its way, for all
of them; until then, and while an older swath's word is pending on its lanes, the unit waits for its swath (R89, R90). -/
def collective (w : SwathWord) (c : Ctx) (k : List Ctx → Res) : Res :=
  let us := swathUnits c.st c.tid c.slot
  if !swathRetired c.st c.tid c.slot && meetAt c us && !(us.any fun u => yieldsTo c.st us u) then k us
  else .next (checkSwath (waitAt c c.st (.swath w)) c.tid c.slot)

/-- The lanes of a swath at the issue of its word, which is in one cycle: that at which the last of them is free (R89). -/
def alignLanes (s : State) (us : List Ctx) : State :=
  let ks := us.map fun u => laneKey u.team u.sheaf
  let now := ks.foldl (fun m k => Max.max m (laneNow s k)) 0
  ks.foldl (fun s k => { s with lanes := Tbl.put s.lanes k { Tbl.get Lane.zero s.lanes k with cycles := now } }) s

/-- The threads of a unit for which an L-word's predicate holds (R80). -/
def activeOf (c : Ctx) (h : Hdr) : List Nat :=
  byRank c.sheaf ((positions c.unit.mask).filter fun p => rdP c p h.pred != h.neg)

end Sys2Proof.Machine
end

