-- ==== Sys2Proof/Machine/Operands.lean ====
section
/-! DEFINITION. Operand forms: special operands, lane and uniform sources, and the shapes of words that compute a
register from registers (R111, R112, R117, R123, R131). -/

namespace Sys2Proof.Machine

/-- A special operand's value for a thread (R111). -/
def specialVal (c : Ctx) (x : Special) (pos : Nat) : Word :=
  match x with
  | .ord => (threadAt c.sheaf pos).ord
  | .rank => BitVec.ofNat 32 (threadAt c.sheaf pos).rank
  | .rbase => BitVec.ofNat 32 (bits (threadAt c.sheaf pos).rank 47 32)
  | .pos => BitVec.ofNat 32 pos
  | .lane => BitVec.ofNat 32 c.sheaf.lane
  | .sheaf => BitVec.ofNat 32 c.slot
  | .team => BitVec.ofNat 32 c.team.index
  | .core => BitVec.ofNat 32 c.team.core
  | .die => BitVec.ofNat 32 c.team.die

/-- The first source of a lane operation (R123). -/
def rdA (c : Ctx) (pos : Nat) : SrcA → Word
  | .reg v => rdV c pos v
  | .special x => specialVal c x pos

/-- The second source of a lane operation: a register, or the immediate sign-extended (R123). -/
def rdB (c : Ctx) (pos : Nat) : SrcB → Word
  | .reg v => rdV c pos v
  | .imm i => i.signExtend 32

/-- The sign-extended immediate of a uniform operation (R117). -/
def uImm (i : BitVec 11) : Word := i.signExtend 32

/-- A U-word that computes from its unit's registers: the writes, then the next word. -/
def uniformOp (i : Instr) (s : State) (f : Ctx → List (RegKey × Word)) : Res :=
  issue i s fun c => .next (retire c (commit c c.st 0 (f c)) (c.next 1))

/-- A U-word that writes one uniform register. -/
def uniformTo (i : Instr) (sd : SReg) (s : State) (f : Ctx → Word) : Res :=
  uniformOp i s fun c => [(fieldKey c.sheaf sd, f c)]

/-- An L-word of `w` parcels that computes each active thread's registers from its own (R80, R123). -/
def laneOp (i : Instr) (h : Hdr) (w : Nat) (s : State) (f : Ctx → Nat → List (RegKey × Word)) : Res :=
  issue i s fun c =>
    let ps := activeOf c h
    .next (retireLane c (commit c c.st h.la.toNat (ps.flatMap (f c))) w ps)

/-- A single L-word that writes one vector register of each active thread. -/
def laneTo (i : Instr) (h : Hdr) (vd : VReg) (s : State) (f : Ctx → Nat → Word) : Res :=
  laneOp i h 3 s fun c p => [(.v p vd.toNat, f c p)]

/-- Registers written by an E-word's issue. -/
def eWord (i : Instr) (la : BitVec 4) (s : State) (f : Ctx → List (RegKey × Word)) : Res :=
  issue i s fun c => .next (retire c (commit c c.st la.toNat (f c)) (c.next 2))

end Sys2Proof.Machine
end

