-- ==== Sys2Proof/Machine/Flags.lean ====
section
/-! DEFINITION. Conditions and predicates: the comparisons of R30, R118, R127 and R136, and predicate operations. -/

namespace Sys2Proof.Machine

/-- A condition on two integers (R30). -/
def condInt (cc : Cond) (x y : Int) : Bool :=
  match cc with
  | .eq => x == y | .ne => x != y | .lt => decide (x < y) | .le => decide (x ≤ y) | .gt => decide (y < x)
  | .ge => decide (y ≤ x)

/-- An integer read signed or unsigned. -/
def readSgn (g : Sgn) (w : Word) : Int :=
  match g with
  | .i32 => w.toInt
  | .n32 => w.toNat

/-- `cmp` and `s.cmp` (R118, R127). -/
def condWord (cc : Cond) (g : Sgn) (a b : Word) : Bool := condInt cc (readSgn g a) (readSgn g b)

/-- `fcmp`: with a NaN, only `ne` holds; −0 equals +0 (R136). -/
def condFloat (cc : Cond) (a b : Word) : Bool :=
  if isNan32 a || isNan32 b then cc == .ne else condInt cc (ckey a) (ckey b)

/-- `s.qop` (R118). -/
def qopVal (o : QOp) (a b : Bool) : Bool :=
  match o with
  | .and => a && b | .or => a || b | .xor => a != b | .andn => a && !b | .not => !a

end Sys2Proof.Machine
end

