-- ==== Sys2Proof/Machine/Uniform.lean ====
section
/-! DEFINITION. The arithmetic shared by uniform and lane words (R117, R124 to R128, R134, R135, R141), and the uniform
words that compute registers or reach memory (R117 to R120, R199, R200). -/

namespace Sys2Proof.Machine

/-! ### One evaluator for the class-A operations -/

/-- A packed BF16 operation (R141). -/
def bf16x2 (rm : Rm) (f : FVal → FVal → FVal → FVal) (a b c : Word) : Word :=
  let h := fun i => BitVec.ofNat 16 (encR .bf16 false rm (f (val .bf16 (bits a.toNat (16 * i + 15) (16 * i)))
    (val .bf16 (bits b.toNat (16 * i + 15) (16 * i))) (val .bf16 (bits c.toNat (16 * i + 15) (16 * i)))))
  h 1 ++ h 0

/-- The lesser or greater of two words (R117). -/
def pickInt (max : Bool) (g : Sgn) (a b : Word) : Word :=
  if (if max then decide (readSgn g a < readSgn g b) else decide (readSgn g b < readSgn g a)) then b else a

/-- f(a, b) of R117, g(a) of R124, and the floating results of R134, R135 and R141; `c` is the third source. -/
def classA (rm : Rm) (op : ClassA) (a b c : Word) : Word :=
  match op with
  | .add => a + b
  | .sub => a - b
  | .mul => a * b
  | .mulh .i32 => wrap (a.toInt * b.toInt / 2 ^ 32)
  | .mulh .n32 => BitVec.ofNat 32 (a.toNat * b.toNat / 2 ^ 32)
  | .and => a &&& b
  | .or => a ||| b
  | .xor => a ^^^ b
  | .andn => a &&& ~~~ b
  | .shl => if 32 ≤ b.toNat then 0 else BitVec.ofNat 32 (a.toNat * 2 ^ b.toNat)
  | .shr => if 32 ≤ b.toNat then 0 else BitVec.ofNat 32 (a.toNat / 2 ^ b.toNat)
  | .sra => wrap (a.toInt / 2 ^ Min.min b.toNat 31)
  | .rot => BitVec.ofNat 32 (a.toNat * 2 ^ (b.toNat % 32)) ||| BitVec.ofNat 32 (a.toNat / 2 ^ (32 - b.toNat % 32))
  | .min g => pickInt false g a b
  | .max g => pickInt true g a b
  | .mov => a
  | .not => ~~~ a
  | .abs => wrap a.toInt.natAbs
  | .neg => wrap (-a.toInt)
  | .clz => BitVec.ofNat 32 (clz a)
  | .popc => BitVec.ofNat 32 (popc a)
  | .brev => brev a
  | .fadd => enc32 rm (FVal.add rm (val32 a) (val32 b))
  | .fsub => enc32 rm (FVal.add rm (val32 a) (FVal.negate (val32 b)))
  | .fmul => enc32 rm (FVal.mul (val32 a) (val32 b))
  | .fmin => fpick false a b
  | .fmax => fpick true a b
  | .ffma => enc32 rm (FVal.fma rm (val32 a) (val32 b) (val32 c))
  | .badd2 => bf16x2 rm (fun x y _ => FVal.add rm x y) a b c
  | .bmul2 => bf16x2 rm (fun x y _ => FVal.mul x y) a b c
  | .bfma2 => bf16x2 rm (FVal.fma rm) a b c

/-! ### Uniform arithmetic (R117 to R120) -/

/-- A two-source uniform operation on registers (R117). -/
def uniBin (i : Instr) (op : ClassA) (sd sa sb : SReg) (s : State) : Res :=
  uniformTo i sd s fun c => classA .ne op (rdS c sa) (rdS c sb) 0
/-- A two-source uniform operation on a register and an immediate (R117). -/
def uniImm (i : Instr) (op : ClassA) (sd sa : SReg) (imm : BitVec 11) (s : State) : Res :=
  uniformTo i sd s fun c => classA .ne op (rdS c sa) (uImm imm) 0

/-- `s.add` (R117). -/
def execSAdd (sd sa sb : SReg) (s : State) : Res := uniBin (.sAdd sd sa sb) .add sd sa sb s
/-- `s.add` with an immediate (R117). -/
def execSAddImm (sd sa : SReg) (imm : BitVec 11) (s : State) : Res := uniImm (.sAddImm sd sa imm) .add sd sa imm s
/-- `s.sub` (R117). -/
def execSSub (sd sa sb : SReg) (s : State) : Res := uniBin (.sSub sd sa sb) .sub sd sa sb s
/-- `s.sub` with an immediate (R117). -/
def execSSubImm (sd sa : SReg) (imm : BitVec 11) (s : State) : Res := uniImm (.sSubImm sd sa imm) .sub sd sa imm s
/-- `s.mul` (R117). -/
def execSMul (sd sa sb : SReg) (s : State) : Res := uniBin (.sMul sd sa sb) .mul sd sa sb s
/-- `s.mul` with an immediate (R117). -/
def execSMulImm (sd sa : SReg) (imm : BitVec 11) (s : State) : Res := uniImm (.sMulImm sd sa imm) .mul sd sa imm s
/-- `s.mulh.i32` (R117). -/
def execSMulhI32 (sd sa sb : SReg) (s : State) : Res := uniBin (.sMulhI32 sd sa sb) (.mulh .i32) sd sa sb s
/-- `s.mulh.i32` with an immediate (R117). -/
def execSMulhI32Imm (sd sa : SReg) (imm : BitVec 11) (s : State) : Res := uniImm (.sMulhI32Imm sd sa imm) (.mulh .i32) sd sa imm s
/-- `s.mulh.n32` (R117). -/
def execSMulhN32 (sd sa sb : SReg) (s : State) : Res := uniBin (.sMulhN32 sd sa sb) (.mulh .n32) sd sa sb s
/-- `s.mulh.n32` with an immediate (R117). -/
def execSMulhN32Imm (sd sa : SReg) (imm : BitVec 11) (s : State) : Res := uniImm (.sMulhN32Imm sd sa imm) (.mulh .n32) sd sa imm s
/-- `s.and` (R117). -/
def execSAnd (sd sa sb : SReg) (s : State) : Res := uniBin (.sAnd sd sa sb) .and sd sa sb s
/-- `s.and` with an immediate (R117). -/
def execSAndImm (sd sa : SReg) (imm : BitVec 11) (s : State) : Res := uniImm (.sAndImm sd sa imm) .and sd sa imm s
/-- `s.or` (R117). -/
def execSOr (sd sa sb : SReg) (s : State) : Res := uniBin (.sOr sd sa sb) .or sd sa sb s
/-- `s.or` with an immediate (R117). -/
def execSOrImm (sd sa : SReg) (imm : BitVec 11) (s : State) : Res := uniImm (.sOrImm sd sa imm) .or sd sa imm s
/-- `s.xor` (R117). -/
def execSXor (sd sa sb : SReg) (s : State) : Res := uniBin (.sXor sd sa sb) .xor sd sa sb s
/-- `s.xor` with an immediate (R117). -/
def execSXorImm (sd sa : SReg) (imm : BitVec 11) (s : State) : Res := uniImm (.sXorImm sd sa imm) .xor sd sa imm s
/-- `s.shl` (R117). -/
def execSShl (sd sa sb : SReg) (s : State) : Res := uniBin (.sShl sd sa sb) .shl sd sa sb s
/-- `s.shl` with an immediate (R117). -/
def execSShlImm (sd sa : SReg) (imm : BitVec 11) (s : State) : Res := uniImm (.sShlImm sd sa imm) .shl sd sa imm s
/-- `s.shr` (R117). -/
def execSShr (sd sa sb : SReg) (s : State) : Res := uniBin (.sShr sd sa sb) .shr sd sa sb s
/-- `s.shr` with an immediate (R117). -/
def execSShrImm (sd sa : SReg) (imm : BitVec 11) (s : State) : Res := uniImm (.sShrImm sd sa imm) .shr sd sa imm s
/-- `s.sra` (R117). -/
def execSSra (sd sa sb : SReg) (s : State) : Res := uniBin (.sSra sd sa sb) .sra sd sa sb s
/-- `s.sra` with an immediate (R117). -/
def execSSraImm (sd sa : SReg) (imm : BitVec 11) (s : State) : Res := uniImm (.sSraImm sd sa imm) .sra sd sa imm s
/-- `s.min.i32` (R117). -/
def execSMinI32 (sd sa sb : SReg) (s : State) : Res := uniBin (.sMinI32 sd sa sb) (.min .i32) sd sa sb s
/-- `s.min.i32` with an immediate (R117). -/
def execSMinI32Imm (sd sa : SReg) (imm : BitVec 11) (s : State) : Res := uniImm (.sMinI32Imm sd sa imm) (.min .i32) sd sa imm s
/-- `s.min.n32` (R117). -/
def execSMinN32 (sd sa sb : SReg) (s : State) : Res := uniBin (.sMinN32 sd sa sb) (.min .n32) sd sa sb s
/-- `s.min.n32` with an immediate (R117). -/
def execSMinN32Imm (sd sa : SReg) (imm : BitVec 11) (s : State) : Res := uniImm (.sMinN32Imm sd sa imm) (.min .n32) sd sa imm s
/-- `s.max.i32` (R117). -/
def execSMaxI32 (sd sa sb : SReg) (s : State) : Res := uniBin (.sMaxI32 sd sa sb) (.max .i32) sd sa sb s
/-- `s.max.i32` with an immediate (R117). -/
def execSMaxI32Imm (sd sa : SReg) (imm : BitVec 11) (s : State) : Res := uniImm (.sMaxI32Imm sd sa imm) (.max .i32) sd sa imm s
/-- `s.max.n32` (R117). -/
def execSMaxN32 (sd sa sb : SReg) (s : State) : Res := uniBin (.sMaxN32 sd sa sb) (.max .n32) sd sa sb s
/-- `s.max.n32` with an immediate (R117). -/
def execSMaxN32Imm (sd sa : SReg) (imm : BitVec 11) (s : State) : Res := uniImm (.sMaxN32Imm sd sa imm) (.max .n32) sd sa imm s

/-- A write of one uniform predicate. -/
def uniPred (i : Instr) (qd : Ix3) (s : State) (f : Ctx → Bool) : Res :=
  uniformOp i s fun c => [(.q qd.toNat, ofBool (f c))]

/-- `s.cmp.cc.i32` (R118). -/
def execSCmpI32 (cc : Cond) (qd : Ix3) (sa sb : SReg) (s : State) : Res :=
  uniPred (.sCmpI32 cc qd sa sb) qd s fun c => condWord cc .i32 (rdS c sa) (rdS c sb)
/-- `s.cmp.cc.i32` with an immediate (R118). -/
def execSCmpI32Imm (cc : Cond) (qd : Ix3) (sa : SReg) (imm : BitVec 11) (s : State) : Res :=
  uniPred (.sCmpI32Imm cc qd sa imm) qd s fun c => condWord cc .i32 (rdS c sa) (uImm imm)
/-- `s.cmp.cc.n32` (R118). -/
def execSCmpN32 (cc : Cond) (qd : Ix3) (sa sb : SReg) (s : State) : Res :=
  uniPred (.sCmpN32 cc qd sa sb) qd s fun c => condWord cc .n32 (rdS c sa) (rdS c sb)
/-- `s.cmp.cc.n32` with an immediate (R118). -/
def execSCmpN32Imm (cc : Cond) (qd : Ix3) (sa : SReg) (imm : BitVec 11) (s : State) : Res :=
  uniPred (.sCmpN32Imm cc qd sa imm) qd s fun c => condWord cc .n32 (rdS c sa) (uImm imm)
/-- `s.sel` (R118). -/
def execSSel (sd sa sb : SReg) (neg : Bool) (q : Ix3) (s : State) : Res :=
  uniformTo (.sSel sd sa sb neg q) sd s fun c => if rdQ c q != neg then rdS c sa else rdS c sb
/-- `s.mov` of a register (R119). -/
def execSMov (sd sa : SReg) (s : State) : Res := uniformTo (.sMov sd sa) sd s fun c => rdS c sa
/-- `s.mov` of a special operand: a per-thread one at the lowest position of the mask (R112, R119). -/
def execSMovSpecial (sd : SReg) (x : Special) (s : State) : Res :=
  uniformTo (.sMovSpecial sd x) sd s fun c => specialVal c x ((positions c.unit.mask).headD 0)
/-- `s.addi` (R120). -/
def execSAddi (sd sa : SReg) (imm : BitVec 12) (s : State) : Res :=
  uniformTo (.sAddi sd sa imm) sd s fun c => rdS c sa + imm.signExtend 32
/-- `s.bfx` (R119). -/
def execSBfx (sd sa : SReg) (width : BitVec 6) (pos : BitVec 5) (s : State) : Res :=
  uniformTo (.sBfx sd sa width pos) sd s fun c =>
    BitVec.ofNat 32 ((rdS c sa).toNat / 2 ^ pos.toNat % 2 ^ Min.min width.toNat (32 - pos.toNat))
/-- `s.popc` (R119). -/
def execSPopc (sd sa : SReg) (s : State) : Res := uniformTo (.sPopc sd sa) sd s fun c => BitVec.ofNat 32 (popc (rdS c sa))
/-- `s.clz` (R119). -/
def execSClz (sd sa : SReg) (s : State) : Res := uniformTo (.sClz sd sa) sd s fun c => BitVec.ofNat 32 (clz (rdS c sa))
/-- `s.qop` (R118). -/
def execSQop (op : QOp) (qd qa qb : Ix3) (s : State) : Res :=
  uniPred (.sQop op qd qa qb) qd s fun c => qopVal op (rdQ c qa) (rdQ c qb)
/-- `s.movi` (R120). -/
def execSMovi (sd : SReg) (imm : BitVec 20) (s : State) : Res := uniformTo (.sMovi sd imm) sd s fun _ => imm.signExtend 32
/-- `s.lui` (R120). -/
def execSLui (sd : SReg) (imm : BitVec 20) (s : State) : Res := uniformTo (.sLui sd imm) sd s fun _ => imm ++ (0 : BitVec 12)
/-- `nop` (R105). -/
def execNop (s : State) : Res := uniformOp .nop s fun _ => []

/-! ### Uniform memory (R199, R200) -/

/-- Bytes of an access type. -/
def utyBytes : UTy → Nat
  | .b32 => 4 | .i8 | .n8 => 1 | .i16 | .n16 => 2 | .w64 => 8
/-- The offset that a uniform access forms (R185, R199). -/
def uAddr (c : Ctx) (spc : Space) (sa : SReg) (off : Nat) : Nat :=
  (rdS c sa).toNat + off + (if spc = .stk then (readReg c (.s 47)).toNat else 0)
/-- The registers that a loaded value of a type writes (R200). -/
def uLoadRegs (c : Ctx) (ty : UTy) (sd : SReg) (x : Nat) : List (RegKey × Word) :=
  match ty with
  | .b32 | .n8 | .n16 => [(fieldKey c.sheaf sd, BitVec.ofNat 32 x)]
  | .i8 => [(fieldKey c.sheaf sd, wrap (sext x 8))]
  | .i16 => [(fieldKey c.sheaf sd, wrap (sext x 16))]
  | .w64 => [(fieldKey c.sheaf sd, BitVec.ofNat 32 x), (fieldKey c.sheaf (sd + 1), BitVec.ofNat 32 (x / 2 ^ 32))]
/-- A uniform access: its checks, then what it does at its bytes (R190, R200). -/
def uAccess (i : Instr) (spc : Space) (sa : SReg) (off n : Nat) (wr rd : Bool) (s : State)
    (k : Ctx → List Nat → State × List (RegKey × Word)) : Res :=
  issue i s fun c =>
    let a := uAddr c spc sa off
    match accessCause c spc none a n wr rd with
    | some cause => .next (raiseExec c c.st cause 0 a)
    | none =>
      let r := k c (rawAddrs c spc none a n)
      .next (retire c (commit c r.1 0 r.2) (c.next 1))

/-- A store of a U-word, noted for the other units of its team (R288): after fences of its unit it is a release at their scopes,
and at team scope it sets the release directory (R287, R290). -/
def uniformStore (c : Ctx) (s : State) (spc : Space) (rlx : Bool) (fk : Nat) (as : List Nat) (bs : List Byte) : State :=
  let s1 := if spc = .sp && c.unit.fenced.contains .team then dirSet s c.core (as.headD 0 / 64) else s
  storeOn c (noteStore c s1 spc as.length c.unit.fenced (!rlx) as) spc rlx fk as bs

/-- `s.ld` (R200). -/
def execSLd (ty : UTy) (spc : Space) (sd sa : SReg) (off : BitVec 7) (s : State) : Res :=
  uAccess (.sLd ty spc sd sa off) spc sa off.toNat (utyBytes ty) false true s fun c as =>
    let r := loadOn c c.st spc true (2 ^ 26) as.length as
    (r.2, uLoadRegs c ty sd (leNat r.1))
/-- `s.st` (R200). -/
def execSSt (ty : UTy) (spc : Space) (sd sa : SReg) (off : BitVec 7) (s : State) : Res :=
  uAccess (.sSt ty spc sd sa off) spc sa off.toNat (utyBytes ty) true false s fun c as =>
    (uniformStore c c.st spc true (2 ^ 26) as (toBytes (utyBytes ty) (rdPair c sd).toNat), [])

/-- The new value of an atomic operation on `w` bits (R197, R200). -/
def atomNew (op : AOp) (g : Bool) (w old b new : Nat) : Nat :=
  let lt := fun x y => if g then decide (sext x w < sext y w) else decide (x < y)
  match op with
  | .add => (old + b) % 2 ^ w
  | .min => if lt b old then b else old
  | .max => if lt old b then b else old
  | .and => Nat.land old b
  | .or => Nat.lor old b
  | .xor => Nat.xor old b
  | .exch => b
  | .cas => if old = b then new else old

/-- One read-modify-write; a `cas` that finds a mismatch writes nothing (R197). -/
def atomAt (c : Ctx) (s : State) (spc : Space) (as : List Nat) (op : AOp) (g : Bool) (b new : Nat) : Nat × State :=
  let r := loadOn c s spc false 0 as.length as
  let old := leNat r.1
  if op = .cas && old != b then (old, r.2)
  else (old, uniformStore c r.2 spc false 0 as (toBytes as.length (atomNew op g (8 * as.length) old b new)))

/-- `s.atom` (R200). -/
def execSAtom (op : AOp) (wide : Bool) (spc : Space) (sd sa : SReg) (s : State) : Res :=
  uAccess (.sAtom op wide spc sd sa) spc sa 0 (if wide then 8 else 4) true true s fun c as =>
    let r := if wide then atomAt c c.st spc as op true (rdPair c sd).toNat (rdPair c (sd + 2)).toNat
      else atomAt c c.st spc as op true (rdS c sd).toNat (rdSk c sd 1).toNat
    (r.2, uLoadRegs c (if wide then .w64 else .b32) sd r.1)

end Sys2Proof.Machine
end

