-- ==== Sys2Proof/Machine/LaneInt.lean ====
section
/-! DEFINITION. The lane integer instructions, alone or in pairs, and the moves between uniform and lane registers
(R122 to R130). -/

namespace Sys2Proof.Machine

/-- The second operation of a pair, for one thread: its third source is its destination (R37, R38). -/
def pairWrite (c : Ctx) (p : PairOp) (t : Nat) : RegKey × Word :=
  (.v t p.vd.toNat, classA .ne p.op (rdV c t p.va) (rdV c t p.vb) (rdV c t p.vd))

/-- A two-source integer operation, alone or first in a pair (R123, R124, R38). -/
def laneBin (i : Instr) (h : Hdr) (op : ClassA) (vd : VReg) (x : Bin) (s : State) : Res :=
  match x with
  | .one a b => laneTo i h vd s fun c t => classA .ne op (rdA c t a) (rdB c t b) 0
  | .pair a b p => laneOp i h 3 s fun c t => [(.v t vd.toNat, classA .ne op (rdV c t a) (rdV c t b) 0), pairWrite c p t]

/-- A one-source integer operation, alone or first in a pair (R124, R38). -/
def laneUn (i : Instr) (h : Hdr) (op : ClassA) (vd : VReg) (x : Un) (s : State) : Res :=
  match x with
  | .one a => laneTo i h vd s fun c t => classA .ne op (rdA c t a) 0 0
  | .pair a p => laneOp i h 3 s fun c t => [(.v t vd.toNat, classA .ne op (rdV c t a) 0 0), pairWrite c p t]

/-- `add` (R117, R124). -/
def execAdd (h : Hdr) (vd : VReg) (x : Bin) (s : State) : Res := laneBin (.add h vd x) h .add vd x s
/-- `sub` (R117, R124). -/
def execSub (h : Hdr) (vd : VReg) (x : Bin) (s : State) : Res := laneBin (.sub h vd x) h .sub vd x s
/-- `mul` (R117, R124). -/
def execMul (h : Hdr) (vd : VReg) (x : Bin) (s : State) : Res := laneBin (.mul h vd x) h .mul vd x s
/-- `mulh` (R117, R124). -/
def execMulh (h : Hdr) (g : Sgn) (vd : VReg) (x : Bin) (s : State) : Res := laneBin (.mulh h g vd x) h (.mulh g) vd x s
/-- `and` (R117, R124). -/
def execAnd (h : Hdr) (vd : VReg) (x : Bin) (s : State) : Res := laneBin (.and h vd x) h .and vd x s
/-- `or` (R117, R124). -/
def execOr (h : Hdr) (vd : VReg) (x : Bin) (s : State) : Res := laneBin (.or h vd x) h .or vd x s
/-- `xor` (R117, R124). -/
def execXor (h : Hdr) (vd : VReg) (x : Bin) (s : State) : Res := laneBin (.xor h vd x) h .xor vd x s
/-- `andn` (R117, R124). -/
def execAndn (h : Hdr) (vd : VReg) (x : Bin) (s : State) : Res := laneBin (.andn h vd x) h .andn vd x s
/-- `shl` (R117, R124). -/
def execShl (h : Hdr) (vd : VReg) (x : Bin) (s : State) : Res := laneBin (.shl h vd x) h .shl vd x s
/-- `shr` (R117, R124). -/
def execShr (h : Hdr) (vd : VReg) (x : Bin) (s : State) : Res := laneBin (.shr h vd x) h .shr vd x s
/-- `sra` (R117, R124). -/
def execSra (h : Hdr) (vd : VReg) (x : Bin) (s : State) : Res := laneBin (.sra h vd x) h .sra vd x s
/-- `rot` (R117, R124). -/
def execRot (h : Hdr) (vd : VReg) (x : Bin) (s : State) : Res := laneBin (.rot h vd x) h .rot vd x s
/-- `min` (R117, R124). -/
def execMin (h : Hdr) (g : Sgn) (vd : VReg) (x : Bin) (s : State) : Res := laneBin (.min h g vd x) h (.min g) vd x s
/-- `max` (R117, R124). -/
def execMax (h : Hdr) (g : Sgn) (vd : VReg) (x : Bin) (s : State) : Res := laneBin (.max h g vd x) h (.max g) vd x s
/-- `mov` (R124). -/
def execMov (h : Hdr) (vd : VReg) (x : Un) (s : State) : Res := laneUn (.mov h vd x) h .mov vd x s
/-- `not` (R124). -/
def execNot (h : Hdr) (vd : VReg) (x : Un) (s : State) : Res := laneUn (.not h vd x) h .not vd x s
/-- `abs` (R124). -/
def execAbs (h : Hdr) (vd : VReg) (x : Un) (s : State) : Res := laneUn (.abs h vd x) h .abs vd x s
/-- `neg` (R124). -/
def execNeg (h : Hdr) (vd : VReg) (x : Un) (s : State) : Res := laneUn (.neg h vd x) h .neg vd x s
/-- `clz` (R124). -/
def execClz (h : Hdr) (vd : VReg) (x : Un) (s : State) : Res := laneUn (.clz h vd x) h .clz vd x s
/-- `popc` (R124). -/
def execPopc (h : Hdr) (vd : VReg) (x : Un) (s : State) : Res := laneUn (.popc h vd x) h .popc vd x s
/-- `brev` (R124). -/
def execBrev (h : Hdr) (vd : VReg) (x : Un) (s : State) : Res := laneUn (.brev h vd x) h .brev vd x s

/-- `movi` (R129). -/
def execMovi (h : Hdr) (vd : VReg) (imm : Word) (s : State) : Res := laneTo (.movi h vd imm) h vd s fun _ _ => imm
/-- `mad` (R125). -/
def execMad (h : Hdr) (vd va : VReg) (b : SrcB) (vc : VReg) (s : State) : Res :=
  laneTo (.mad h vd va b vc) h vd s fun c t => rdV c t va * rdB c t b + rdV c t vc

/-- Byte i of a word, read signed or unsigned (R125). -/
def byteOf (g : Sgn) (w : Word) (i : Nat) : Int :=
  match g with
  | .i32 => sext (bits w.toNat (8 * i + 7) (8 * i)) 8
  | .n32 => bits w.toNat (8 * i + 7) (8 * i)
/-- `sad` over four bytes (R125). -/
def sadOf (g : Sgn) (a b c : Word) : Word :=
  BitVec.ofNat 32 (c.toNat + ((upto 4).map fun i => (byteOf g a i - byteOf g b i).natAbs).sum)
/-- `dot4` over four bytes (R125). -/
def dot4Of (g : Sgn) (sat : Bool) (a b c : Word) : Word :=
  let d := readSgn g c + ((upto 4).map fun i => byteOf g a i * byteOf g b i).sum
  wrap (if !sat then d else match g with
    | .i32 => Machine.sat d (-2 ^ 31) (2 ^ 31 - 1)
    | .n32 => Machine.sat d 0 (2 ^ 32 - 1))
/-- `sad` (R125). -/
def execSad (h : Hdr) (g : Sgn) (vd va : VReg) (b : SrcB) (vc : VReg) (s : State) : Res :=
  laneTo (.sad h g vd va b vc) h vd s fun c t => sadOf g (rdV c t va) (rdB c t b) (rdV c t vc)
/-- `dot4` (R125). -/
def execDot4 (h : Hdr) (g : Sgn) (sat : Bool) (vd va : VReg) (b : SrcB) (vc : VReg) (s : State) : Res :=
  laneTo (.dot4 h g sat vd va b vc) h vd s fun c t => dot4Of g sat (rdV c t va) (rdB c t b) (rdV c t vc)

/-- The width of a field that fits above a position (R126). -/
def fieldWidth (pos : BitVec 5) (width : BitVec 6) : Nat := Min.min width.toNat (32 - pos.toNat)
/-- `bfx` on a word (R126). -/
def bfxOf (g : Sgn) (pos : BitVec 5) (width : BitVec 6) (a : Word) : Word :=
  let w := fieldWidth pos width
  let f := a.toNat / 2 ^ pos.toNat % 2 ^ w
  match g with
  | .i32 => wrap (sext f w)
  | .n32 => BitVec.ofNat 32 f
/-- `bfi` on two words (R126). -/
def bfiOf (pos : BitVec 5) (width : BitVec 6) (a b : Word) : Word :=
  let w := fieldWidth pos width
  let m : Word := BitVec.ofNat 32 ((2 ^ w - 1) * 2 ^ pos.toNat)
  (a &&& ~~~ m) ||| BitVec.ofNat 32 (b.toNat % 2 ^ w * 2 ^ pos.toNat)
/-- `bfx` (R126). -/
def execBfx (h : Hdr) (g : Sgn) (vd va : VReg) (pos : BitVec 5) (width : BitVec 6) (s : State) : Res :=
  laneTo (.bfx h g vd va pos width) h vd s fun c t => bfxOf g pos width (rdV c t va)
/-- `bfi` (R126). -/
def execBfi (h : Hdr) (vd va vb : VReg) (pos : BitVec 5) (width : BitVec 6) (s : State) : Res :=
  laneTo (.bfi h vd va vb pos width) h vd s fun c t => bfiOf pos width (rdV c t va) (rdV c t vb)
/-- `sel` (R127). -/
def execSel (h : Hdr) (vd va : VReg) (b : SrcB) (neg : Bool) (p : Ix3) (s : State) : Res :=
  laneTo (.sel h vd va b neg p) h vd s fun c t => if rdP c t p != neg then rdV c t va else rdB c t b
/-- `cmp` (R127). -/
def execCmp (h : Hdr) (g : Sgn) (cc : Cond) (pd : Ix3) (va : VReg) (b : SrcB) (s : State) : Res :=
  laneOp (.cmp h g cc pd va b) h 3 s fun c t => [(.p t pd.toNat, ofBool (condWord cc g (rdV c t va) (rdB c t b)))]

/-- The quotient of R128: all ones for a zero divisor. -/
def divOf (g : Sgn) (a b : Word) : Word :=
  if readSgn g b = 0 then wrap (-1) else wrap ((readSgn g a).tdiv (readSgn g b))
/-- The remainder of R128: the dividend for a zero divisor. -/
def remOf (g : Sgn) (a b : Word) : Word :=
  if readSgn g b = 0 then a else wrap ((readSgn g a).tmod (readSgn g b))
/-- `div` (R128). -/
def execDiv (h : Hdr) (g : Sgn) (vd va : VReg) (b : SrcB) (s : State) : Res :=
  laneTo (.div h g vd va b) h vd s fun c t => divOf g (rdV c t va) (rdB c t b)
/-- `rem` (R128). -/
def execRem (h : Hdr) (g : Sgn) (vd va : VReg) (b : SrcB) (s : State) : Res :=
  laneTo (.rem h g vd va b) h vd s fun c t => remOf g (rdV c t va) (rdB c t b)

/-! ### Moves (R122) -/

/-- `v2s`: the active thread at the lowest position gives the value; with none, nothing is written. -/
def execV2s (h : Hdr) (sd : SReg) (va : VReg) (s : State) : Res :=
  issue (.v2s h sd va) s fun c =>
    let ps := activeOf c h
    let low := (upto 16).find? fun p => ps.contains p
    let ws := match low with
      | some p => [(fieldKey c.sheaf sd, rdV c p va)]
      | none => []
    .next (retireLane c (commit c c.st h.la.toNat ws) 3 ps)
/-- `s2v`. -/
def execS2v (h : Hdr) (vd : VReg) (sa : SReg) (s : State) : Res := laneTo (.s2v h vd sa) h vd s fun c _ => rdS c sa

end Sys2Proof.Machine
end

