-- ==== Sys2Proof/Machine/LaneFloat.lean ====
section
/-! DEFINITION. The lane floating-point instructions (R131 to R143). -/

namespace Sys2Proof.Machine

/-- A two-source floating operation, alone or first in a pair; in a pair it rounds to nearest even (R37, R134). -/
def laneFBin (i : Instr) (h : Hdr) (op : ClassA) (vd : VReg) (x : FBin) (s : State) : Res :=
  match x with
  | .one a b rm => laneTo i h vd s fun c t => classA rm op (rdV c t a) (rdV c t b) 0
  | .pair a b p => laneOp i h 3 s fun c t => [(.v t vd.toNat, classA .ne op (rdV c t a) (rdV c t b) 0), pairWrite c p t]
/-- `fmin` and `fmax`, alone or first in a pair (R135). -/
def laneFSel (i : Instr) (h : Hdr) (op : ClassA) (vd : VReg) (x : FSel) (s : State) : Res :=
  match x with
  | .one a b => laneTo i h vd s fun c t => classA .ne op (rdV c t a) (rdV c t b) 0
  | .pair a b p => laneOp i h 3 s fun c t => [(.v t vd.toNat, classA .ne op (rdV c t a) (rdV c t b) 0), pairWrite c p t]
/-- A fused operation; in a pair its addend is its destination (R37, R134, R141). -/
def laneFTri (i : Instr) (h : Hdr) (op : ClassA) (vd : VReg) (x : FTri) (s : State) : Res :=
  match x with
  | .one a b z rm => laneTo i h vd s fun c t => classA rm op (rdV c t a) (rdV c t b) (rdV c t z)
  | .pair a b p => laneOp i h 3 s fun c t => [(.v t vd.toNat, classA .ne op (rdV c t a) (rdV c t b) (rdV c t vd)), pairWrite c p t]

/-- `fadd` (R134). -/
def execFadd (h : Hdr) (vd : VReg) (x : FBin) (s : State) : Res := laneFBin (.fadd h vd x) h .fadd vd x s
/-- `fsub` (R134). -/
def execFsub (h : Hdr) (vd : VReg) (x : FBin) (s : State) : Res := laneFBin (.fsub h vd x) h .fsub vd x s
/-- `fmul` (R134). -/
def execFmul (h : Hdr) (vd : VReg) (x : FBin) (s : State) : Res := laneFBin (.fmul h vd x) h .fmul vd x s
/-- `fmin` (R135). -/
def execFmin (h : Hdr) (vd : VReg) (x : FSel) (s : State) : Res := laneFSel (.fmin h vd x) h .fmin vd x s
/-- `fmax` (R135). -/
def execFmax (h : Hdr) (vd : VReg) (x : FSel) (s : State) : Res := laneFSel (.fmax h vd x) h .fmax vd x s
/-- `ffma` (R134). -/
def execFfma (h : Hdr) (vd : VReg) (x : FTri) (s : State) : Res := laneFTri (.ffma h vd x) h .ffma vd x s
/-- `badd2` (R141). -/
def execBadd2 (h : Hdr) (vd : VReg) (x : FBin) (s : State) : Res := laneFBin (.badd2 h vd x) h .badd2 vd x s
/-- `bmul2` (R141). -/
def execBmul2 (h : Hdr) (vd : VReg) (x : FBin) (s : State) : Res := laneFBin (.bmul2 h vd x) h .bmul2 vd x s
/-- `bfma2` (R141). -/
def execBfma2 (h : Hdr) (vd : VReg) (x : FTri) (s : State) : Res := laneFTri (.bfma2 h vd x) h .bfma2 vd x s
/-- `bfma2` at its version 2 code (R43, R141). -/
def execBfma2V2 (h : Hdr) (vd : VReg) (x : FTri) (s : State) : Res := laneFTri (.bfma2V2 h vd x) h .bfma2 vd x s
/-- `fcmp` (R136). -/
def execFcmp (h : Hdr) (cc : Cond) (pd : Ix3) (va vb : VReg) (s : State) : Res :=
  laneOp (.fcmp h cc pd va vb) h 3 s fun c t => [(.p t pd.toNat, ofBool (condFloat cc (rdV c t va) (rdV c t vb)))]
/-- `fclass` (R137). -/
def execFclass (h : Hdr) (f : FFmt) (vd va : VReg) (s : State) : Res :=
  laneTo (.fclass h f vd va) h vd s fun c t => fclassOf f (rdV c t va)
/-- `frcp` (R138, R139). -/
def execFrcp (h : Hdr) (rm : Rm) (vd va : VReg) (s : State) : Res :=
  laneTo (.frcp h rm vd va) h vd s fun c t => frcpOf rm (rdV c t va)
/-- `fsqrt` (R138, R139). -/
def execFsqrt (h : Hdr) (rm : Rm) (vd va : VReg) (s : State) : Res :=
  laneTo (.fsqrt h rm vd va) h vd s fun c t => fsqrtOf rm (rdV c t va)
/-- `frnd` (R140). -/
def execFrnd (h : Hdr) (rm : Rm) (vd va : VReg) (s : State) : Res :=
  laneTo (.frnd h rm vd va) h vd s fun c t => frndOf rm (rdV c t va)
/-- `frsq` (R138, R139). -/
def execFrsq (h : Hdr) (vd va : VReg) (s : State) : Res :=
  laneTo (.frsq h vd va) h vd s fun c t => frsqOf (rdV c t va)
/-- `fex2` (R138, R139). -/
def execFex2 (h : Hdr) (vd va : VReg) (s : State) : Res :=
  laneTo (.fex2 h vd va) h vd s fun c t => fex2Of (rdV c t va)
/-- `flg2` (R138, R139). -/
def execFlg2 (h : Hdr) (vd va : VReg) (s : State) : Res :=
  laneTo (.flg2 h vd va) h vd s fun c t => flg2Of (rdV c t va)
/-- `fsin` (R138, R139). -/
def execFsin (h : Hdr) (vd va : VReg) (s : State) : Res :=
  laneTo (.fsin h vd va) h vd s fun c t => ftrigOf false (rdV c t va)
/-- `fcos` (R138, R139). -/
def execFcos (h : Hdr) (vd va : VReg) (s : State) : Res :=
  laneTo (.fcos h vd va) h vd s fun c t => ftrigOf true (rdV c t va)
/-- `ftanh` (R138, R139). -/
def execFtanh (h : Hdr) (vd va : VReg) (s : State) : Res :=
  laneTo (.ftanh h vd va) h vd s fun c t => ftanhOf (rdV c t va)
/-- `fcvt` (R142, R143). -/
def execFcvt (h : Hdr) (sat : Bool) (rm : Rm) (dst src : Fmt) (vd va : VReg) (s : State) : Res :=
  laneTo (.fcvt h sat rm dst src vd va) h vd s fun c t => fcvtOf sat rm dst src (rdV c t va)

end Sys2Proof.Machine
end

