-- ==== Sys2Proof/Machine/Cross.lean ====
section
/-! DEFINITION. The cross-thread and bitmap instructions (R144 to R155). -/

namespace Sys2Proof.Machine

/-- A participant of a cross-thread word: its unit, its position and its virtual position (R144, R145). -/
structure Part where
  unit : Ctx
  pos  : Nat
  vp   : Nat
  deriving DecidableEq, Repr

/-- Insert a participant in ascending virtual position. -/
def insertPart (p : Part) : List Part → List Part
  | [] => [p]
  | q :: t => if p.vp ≤ q.vp then p :: q :: t else q :: insertPart p t

/-- The participants of a word in ascending virtual position (R145). -/
def partsOf (h : Hdr) (sw : Bool) (us : List Ctx) : List Part :=
  (us.flatMap fun u => (activeOf u h).map fun p =>
    (⟨u, p, (if sw then 16 * (u.slot % 4) else 0) + virtualPos u.sheaf p⟩ : Part)).foldr insertPart []

/-- The participant at a virtual position. -/
def partAt (ps : List Part) (y : Nat) : Option Part := ps.find? fun p => p.vp == y

/-- The end of a cross-thread word in each of its units. Each sheaf's lane is held for as many cycles as the sheaf has active
threads (R80, R89). -/
def retireParts (s : State) (us : List Ctx) (h : Hdr) : State :=
  let s1 := (bySheaf us).foldl (fun s g => match oldest g with
    | none => s
    | some u =>
      let tags := g.flatMap fun c => (activeOf c h).map fun p => (threadAt c.sheaf p).tag
      chargeCycles u s (Max.max 1 tags.length) tags) (alignLanes s us)
  us.foldl (fun s u => advance u s (u.unit.pc + 12)) s1

/-- A cross-thread word: every participant's sources are read before any destination is written (R145). -/
def crossOp (i : Instr) (h : Hdr) (sw : Bool) (s : State) (f : List Part → Part → List (RegKey × Word)) : Res :=
  issue i s fun c =>
    let go := fun (s : State) (us : List Ctx) =>
      let ps := partsOf h sw us
      retireParts (us.foldl (fun s u =>
        commit u s h.la.toNat ((ps.filter fun p => p.unit.slot == u.slot && p.unit.uid == u.uid).flatMap (f ps))) s) us h
    if !sw then .next (go c.st [c]) else
    collective .lane c fun us =>
      if us.any fun u => tokensPending u.sheaf h.wait.toNat then .next (waitAt c c.st (.tokens h.wait.toNat))
      else
        let s1 := us.foldl (fun s u => waitedFor u s h.wait.toNat) c.st
        .next (go s1 (us.filterMap fun u => unitAt s1 u.tid u.slot u.uid))

/-- A cross-thread word that writes one vector register of each participant. -/
def crossTo (i : Instr) (h : Hdr) (sw : Bool) (vd : VReg) (s : State) (f : List Part → Part → Word) : Res :=
  crossOp i h sw s fun ps p => [(.v p.pos vd.toNat, f ps p)]

/-- The number of virtual positions at a scope (R145). -/
def scopeWidth (sw : Bool) : Nat := if sw then 64 else 16

/-- The source position of `shfl` (R147). -/
def shflFrom (m : ShMode) (x d : Nat) : Int :=
  match m with
  | .idx => d
  | .up => (x : Int) - d
  | .down => x + d
  | .xor => (Nat.xor x d : Nat)

/-- The participant at a position within the scope. -/
def partIn (ps : List Part) (sw : Bool) (y : Int) : Option Part :=
  if 0 ≤ y && decide (y < scopeWidth sw) then partAt ps y.toNat else none

/-- `shfl` (R147). -/
def execShfl (h : Hdr) (m : ShMode) (sw : Bool) (vd va : VReg) (b : SrcB) (s : State) : Res :=
  crossTo (.shfl h m sw vd va b) h sw vd s fun ps p =>
    let q := (partIn ps sw (shflFrom m p.vp (rdB p.unit p.pos b).toNat)).getD p
    rdV q.unit q.pos va

/-- A mask over virtual positions. -/
def partMask (ps : List Part) (f : Part → Bool) : Nat := ps.foldl (fun m p => if f p then m + 2 ^ p.vp else m) 0
/-- The registers that a mask is written to (R148). -/
def maskRegs (sw : Bool) (vd : VReg) (p : Part) (m : Nat) : List (RegKey × Word) :=
  (.v p.pos vd.toNat, BitVec.ofNat 32 m) :: (if sw then [(.v p.pos (vd.toNat + 1), BitVec.ofNat 32 (m / 2 ^ 32))] else [])

/-- `bal` (R148). -/
def execBal (h : Hdr) (sw : Bool) (vd : VReg) (neg : Bool) (p : Ix3) (s : State) : Res :=
  crossOp (.bal h sw vd neg p) h sw s fun ps t => maskRegs sw vd t (partMask ps fun u => rdP u.unit u.pos p != neg)
/-- `meq` (R148). -/
def execMeq (h : Hdr) (sw : Bool) (vd va : VReg) (s : State) : Res :=
  crossOp (.meq h sw vd va) h sw s fun ps t =>
    maskRegs sw vd t (partMask ps fun u => rdV u.unit u.pos va == rdV t.unit t.pos va)
/-- `vany` (R149). -/
def execVany (h : Hdr) (sw : Bool) (pd : Ix3) (neg : Bool) (p : Ix3) (s : State) : Res :=
  crossOp (.vany h sw pd neg p) h sw s fun ps t =>
    [(.p t.pos pd.toNat, ofBool (ps.any fun u => rdP u.unit u.pos p != neg))]
/-- `vall` (R149). -/
def execVall (h : Hdr) (sw : Bool) (pd : Ix3) (neg : Bool) (p : Ix3) (s : State) : Res :=
  crossOp (.vall h sw pd neg p) h sw s fun ps t =>
    [(.p t.pos pd.toNat, ofBool (ps.all fun u => rdP u.unit u.pos p != neg))]

/-- One combining step of `scan` and `red` (R150). -/
def scanStep (op : ScanOp) (x y : Word) : Word :=
  match op with
  | .addi | .addn => x + y
  | .addf => classA .ne .fadd x y 0
  | .mini => classA .ne (.min .i32) x y 0
  | .minn => classA .ne (.min .n32) x y 0
  | .minf => classA .ne .fmin x y 0
  | .maxi => classA .ne (.max .i32) x y 0
  | .maxn => classA .ne (.max .n32) x y 0
  | .maxf => classA .ne .fmax x y 0
  | .and => x &&& y
  | .or => x ||| y
  | .xor => x ^^^ y
/-- The identity of an exclusive `scan` (R150). -/
def scanIdentity : ScanOp → Word
  | .addi | .addn | .addf | .maxn | .or | .xor => 0
  | .mini => 0x7FFFFFFF
  | .minn | .and => 0xFFFFFFFF
  | .minf => 0x7F800000
  | .maxi => 0x80000000
  | .maxf => 0xFF800000
/-- The combined value of participants in ascending virtual position: none of no participant (R150). -/
def combine (op : ScanOp) (va : VReg) (ps : List Part) : Option Word :=
  ps.foldl (fun acc p => some (match acc with
    | none => rdV p.unit p.pos va
    | some x => scanStep op x (rdV p.unit p.pos va))) none
/-- `scan` (R150). -/
def execScan (h : Hdr) (op : ScanOp) (ex : Bool) (sw : Bool) (vd va : VReg) (s : State) : Res :=
  crossTo (.scan h op ex sw vd va) h sw vd s fun ps t =>
    (combine op va (ps.filter fun p => decide (p.vp < t.vp) || (!ex && p.vp == t.vp))).getD (scanIdentity op)
/-- `red` (R150). -/
def execRed (h : Hdr) (op : ScanOp) (sw : Bool) (vd va : VReg) (s : State) : Res :=
  crossTo (.red h op sw vd va) h sw vd s fun ps _ => (combine op va ps).getD 0

/-- The sort key of `cx` (R151). -/
def cxKey (ty : CxTy) (w : Word) : Int :=
  match ty with
  | .i32 => w.toInt
  | .n32 => w.toNat
  | .f32 => fkey w
/-- `cx` (R151). -/
def execCx (h : Hdr) (ty : CxTy) (sw : Bool) (vd va : VReg) (b : SrcB) (neg : Bool) (p : Ix3) (s : State) : Res :=
  crossTo (.cx h ty sw vd va b neg p) h sw vd s fun ps t =>
    match partIn ps sw (Nat.xor t.vp (rdB t.unit t.pos b).toNat : Nat) with
    | none => rdV t.unit t.pos va
    | some u =>
      let low := if t.vp < u.vp then t else u
      let high := if t.vp < u.vp then u else t
      let x := rdV low.unit low.pos va
      let y := rdV high.unit high.pos va
      let swap := decide (cxKey ty y < cxKey ty x)
      let lo := if swap then y else x
      let hi := if swap then x else y
      if (t.vp == low.vp) == (rdP low.unit low.pos p != neg) then hi else lo

/-! ### Bitmap helpers (R152 to R154) -/

/-- `bm.and` (R152). -/
def execBmAnd (h : Hdr) (vd : VReg) (p : Ix3) (va vb : VReg) (s : State) : Res :=
  laneOp (.bmAnd h vd p va vb) h 3 s fun c t =>
    let r := rdV c t va &&& rdV c t vb
    [(.v t vd.toNat, r), (.p t p.toNat, ofBool (r != 0))]
/-- `bm.rank` (R152). -/
def execBmRank (h : Hdr) (vd va : VReg) (b : SrcB) (vc : VReg) (s : State) : Res :=
  laneTo (.bmRank h vd va b vc) h vd s fun c t =>
    rdV c t vc + BitVec.ofNat 32 (popBelow (rdV c t va).toNat (Min.min (rdB c t b).toNat 32))
/-- `bm.sel` (R152). -/
def execBmSel (h : Hdr) (vd va : VReg) (b : SrcB) (s : State) : Res :=
  laneTo (.bmSel h vd va b) h vd s fun c t => BitVec.ofNat 32 (selBit (rdV c t va).toNat (rdB c t b).toNat 32)

/-- The offsets of the bytes that `isect` reads for a thread (R154). -/
def isectOffs (c : Ctx) (t : Nat) (va vb vc : VReg) (imm : BitVec 16) : List Int :=
  let a := rdV c t va
  let m := (a &&& rdV c t vb).toNat
  let base : Int := (rdV c t vc).toNat + imm.toInt
  (upto (Min.min 4 (popBelow m 32))).map fun i => base + popBelow a.toNat (selBit m i 32)
/-- `isect` (R153, R154). -/
def execIsect (h : Hdr) (g : Sgn) (sp : Bool) (vd va vb vc : VReg) (imm : BitVec 16) (s : State) : Res :=
  issue (.isect h g sp vd va vb vc imm) s fun c =>
    let spc := if sp then Space.sp else .sh
    let ps := activeOf c h
    let bad := ps.filterMap fun t => (isectOffs c t va vb vc imm).findSome? fun a =>
      (accessCause c spc (some t) a 1 false true).map fun x => (t, x, wrapN a 64)
    if bad ≠ [] then .next (laneTrap c c.st bad) else
    let r := ps.foldl (fun (st : State × List (RegKey × Word)) t =>
      let one := (isectOffs c t va vb vc imm).foldl (fun (st : State × List Byte) a =>
        let l := loadOn c st.1 spc true (2 ^ 26 + 4 * t + st.2.length) 1 (rawAddrs c spc (some t) a.toNat 1)
        (l.2, st.2 ++ l.1)) (st.1, [])
      (one.1, st.2 ++ [(.v t vd.toNat, BitVec.ofNat 32 (leNat one.2))])) (c.st, [])
    .next (retireLane c (commit c r.1 h.la.toNat r.2) 3 ps)

end Sys2Proof.Machine
end

