-- ==== Sys2Proof/Machine/LaneMem.lean ====
section
/-! DEFINITION. Lane loads, stores and atomics, and the fence (R190 to R198, R287 to R290). -/

namespace Sys2Proof.Machine

/-- Bytes of a lane access type (R194). -/
def ltyBytes : LTy → Nat
  | .b32 => 4 | .i16 | .n16 => 2 | .i8 | .n8 => 1

/-- A loaded element as its register holds it (R196). -/
def ltyValue (ty : LTy) (x : Nat) : Word :=
  match ty with
  | .i16 => wrap (sext x 16)
  | .i8 => wrap (sext x 8)
  | _ => BitVec.ofNat 32 x

/-- The offset that a thread's access forms (R185, R196). -/
def laneAddr (c : Ctx) (spc : Space) (va : VReg) (off : Int) (t : Nat) : Int :=
  (rdV c t va).toNat + off + (if spc = .stk then ((readReg c (.s 47)).toNat : Int) else 0)

/-- The access's order makes it an acquire. -/
def isAcq : Order → Bool
  | .acq | .ar => true | _ => false
/-- The access's order makes it a release. -/
def isRel : Order → Bool
  | .rel | .ar => true | _ => false

/-- A lane memory word: its threads' checks, its release and acquire points around the accesses in rank order (R190,
R196, R287, R289). -/
def laneAccess (i : Instr) (h : Hdr) (a : Acc) (va : VReg) (off : Int) (n : Nat) (wr rd : Bool) (s : State)
    (k : Ctx → State → Nat → Nat → State × List (RegKey × Word)) : Res :=
  issue i s fun c =>
    let ps := activeOf c h
    let addr := laneAddr c a.space va off
    let bad := ps.filterMap fun t => (accessCause c a.space (some t) (addr t) n wr rd).map fun x => (t, x, wrapN (addr t) 64)
    if bad ≠ [] then .next (laneTrap c c.st bad) else
    let s0 := if isRel a.order && !ps.isEmpty then releaseAt c.st c.core a.scope else c.st
    let r := ps.foldl (fun (st : State × List (RegKey × Word)) t =>
      let s1 := if a.rmt then promote st.1 c.core (rawAddr c a.space (some t) (addr t).toNat / 64) else st.1
      let x := k c s1 t (addr t).toNat
      (x.1, st.2 ++ x.2)) (s0, [])
    let s2 := if isAcq a.order && !ps.isEmpty then acquireAt r.1 c.core a.scope else r.1
    .next (retireLane c (commit c s2 h.la.toNat r.2) 3 ps)

/-- `ld` (R196). -/
def execLd (h : Hdr) (a : Acc) (ty : LTy) (n : Cnt) (vd va : VReg) (off : BitVec 16) (s : State) : Res :=
  let w := ltyBytes ty
  laneAccess (.ld h a ty n vd va off) h a va off.toInt (w * n.num) false true s fun c s t x =>
    let as := rawAddrs c a.space (some t) x (w * n.num)
    let r := loadOn c s a.space (a.order == .rlx) (2 ^ 26 + t) w as
    (if isAcq a.order then hear c r.2 a.scope a.space as else r.2, (upto n.num).map fun j => (.v t (vd.toNat + j), ltyValue ty (leNat ((r.1.drop (w * j)).take w))))

/-- The scopes at which a lane store is a released write: its own, and those of the fences before it (R287). -/
def relScopes (c : Ctx) (a : Acc) : List Scope := (if isRel a.order then [a.scope] else []) ++ c.unit.fenced

/-- A store of a lane word, in pieces of `w` bytes: a byte that the matrix engine may read is noted (R246), and so is the store for the
other units of its team (R288); a team-scope release sets the release directory (R290). -/
def laneStore (c : Ctx) (s : State) (a : Acc) (w : Nat) (atom : Bool) (fk : Nat) (as : List Nat) (bs : List Byte) : State :=
  let s1 := if a.space = .stk then s else noteBytes c s (a.space == .sp) as
  let s2 := if a.space = .sp && (relScopes c a).contains .team then dirSet s1 c.core (as.headD 0 / 64) else s1
  storeOn c (noteStore c s2 a.space w (relScopes c a) atom as) a.space (a.order == .rlx && !atom) fk as bs

/-- `st` (R196). -/
def execSt (h : Hdr) (a : Acc) (ty : LTy) (n : Cnt) (vd va : VReg) (off : BitVec 16) (s : State) : Res :=
  let w := ltyBytes ty
  laneAccess (.st h a ty n vd va off) h a va off.toInt (w * n.num) true false s fun c s t x =>
    let bs := (upto n.num).flatMap fun j => toBytes w (readReg c (.v t (vd.toNat + j))).toNat
    (laneStore c s a w false (2 ^ 26 + t) (rawAddrs c a.space (some t) x (w * n.num)) bs, [])

/-- `atom` (R197). -/
def execAtom (h : Hdr) (op : AOp) (a : Acc) (g : Sgn) (vd va vb vc : VReg) (off : BitVec 13) (s : State) : Res :=
  laneAccess (.atom h op a g vd va vb vc off) h a va off.toInt 4 true true s fun c s t x =>
    let as := rawAddrs c a.space (some t) x 4
    let r := loadOn c s a.space false 0 4 as
    let old := leNat r.1
    let b := (rdV c t vb).toNat
    let s0 := if isAcq a.order then hear c r.2 a.scope a.space as else r.2
    let s1 := if op = .cas && old != b then s0 else
      laneStore c s0 a 4 true 0 as (toBytes 4 (atomNew op (g == .i32) 32 old b (rdV c t vc).toNat))
    (s1, [(.v t vd.toNat, BitVec.ofNat 32 old)])

/-- `fence` (R198, R287, R289): once for its unit, if a thread is active. -/
def execFence (h : Hdr) (sc : Scope) (s : State) : Res :=
  issue (.fence h sc) s fun c =>
    let ps := activeOf c h
    let s1 := if ps.isEmpty then c.st else
      c.modUnit (hearFence c (acquireAt (releaseAt c.st c.core sc) c.core sc) sc) fun u => { u with fenced := joinScopes u.fenced [sc] }
    .next (retireLane c s1 3 ps)

end Sys2Proof.Machine
end

