-- ==== Sys2Proof/Machine/Passes.lean ====
section
/-! DEFINITION. One pass of the matrix engine on a row, and the bound arithmetic (R57, R67 to R76, R250 to R265, R274). -/

namespace Sys2Proof.Machine

/-! ### Bounds (R56, R57) -/

/-- A BND16 code is finite. -/
def bndFinite (b : BitVec 16) : Bool := decide (b.toNat ≤ 0xFEFF)
/-- A BND16 code is unbounded. -/
def bndUnbounded (b : BitVec 16) : Bool := b == 0xFFFF
/-- A BND16 code reads as invalid. -/
def bndInvalid (b : BitVec 16) : Bool := !bndFinite b && !bndUnbounded b
/-- The format of BND16's finite codes (R49). -/
def bndFmt : FloatFmt := ⟨17, 8, -126, 0xFEFF, none, 0xFF00⟩
/-- The value of a finite bound. -/
def bndVal (b : BitVec 16) : FVal := finOf bndFmt false b.toNat
/-- `round_up(x, BND16)` of a non-negative value; a NaN makes it invalid, an overflow unbounded. -/
def bndUp : FVal → BitVec 16
  | .nan => 0xFF00
  | .inf _ => 0xFFFF
  | .fin _ m e =>
    let c := roundCode bndFmt .up false m e
    if c ≤ 0xFEFF then BitVec.ofNat 16 c else 0xFFFF
/-- A bound raised by an exact amount (R57, R262 step 3). -/
def bndAdd (b : BitVec 16) (d : FVal) : BitVec 16 :=
  if bndInvalid b then 0xFF00 else if bndUnbounded b then 0xFFFF else bndUp (FVal.add .ne (bndVal b) d)
/-- A bound as a row holds it: reserved codes read as invalid. -/
def bndRead (b : BitVec 16) : BitVec 16 := if bndInvalid b then 0xFF00 else b
/-- The larger of two bounds (R57). -/
def bndMax (a b : BitVec 16) : BitVec 16 :=
  if bndInvalid a || bndInvalid b then 0xFF00 else if b.toNat ≤ a.toNat then a else b

/-! ### Exact values -/

/-- Positive zero. -/
def fz : FVal := .fin false 0 0
/-- The magnitude of a value. -/
def FVal.mag : FVal → FVal
  | .nan => .nan
  | .inf _ => .inf false
  | .fin _ m e => .fin false m e
/-- A value is a NaN. -/
def FVal.isNan : FVal → Bool
  | .nan => true | _ => false
/-- A value is an infinity. -/
def FVal.isInf : FVal → Bool
  | .inf _ => true | _ => false
/-- x < y for finite values. -/
def finLt (x y : FVal) : Bool :=
  match FVal.add .ne x y.negate with
  | .fin neg m _ => neg && m != 0
  | _ => false
/-- The largest magnitude of finite values; +0 for none. -/
def maxMag (l : List FVal) : FVal := l.foldl (fun a x => if finLt a x.mag then x.mag else a) fz
/-- The exact sum of values (R73); a zero sum is +0. -/
def sumExact (l : List FVal) : FVal :=
  match l.foldl (FVal.add .ne) fz with
  | .fin neg m e => if m = 0 then fz else .fin neg m e
  | x => x
/-- Half an ulp of a finite value in a format (R63). -/
def halfUlp (F : FloatFmt) : FVal → FVal
  | .fin _ m e => .fin false 1 ((if m = 0 then F.emin else Max.max ((bitLen m : Int) - 1 + e) F.emin) - F.mant - 1)
  | _ => fz
/-- Twice a value. -/
def twice (x : FVal) : FVal := FVal.mul x (.fin false 1 1)
/-- A power of two. -/
def pow2 (e : Int) : FVal := .fin false 1 e

/-! ### Formats and scales (R67 to R72) -/

/-- The fields of a format descriptor: kind, lblk, fmt. -/
def dKind (d : Word) : Nat := bits d.toNat 23 16
/-- log2 of the block length. -/
def dLblk (d : Word) : Nat := bits d.toNat 15 8
/-- The element format code. -/
def dFmt (d : Word) : Nat := bits d.toNat 7 0

/-- The class of an element format (R69). -/
def fmtClass (f : Nat) : Nat := if f = 3 then 2 else f
/-- K of a pass (R69). -/
def kOf (f : Nat) : Nat := if f = 1 then 64 else if f = 4 then 256 else 128

/-- A half of a format block is legal (R67 to R69). -/
def halfOk (d sc : Word) : Bool :=
  let k := dKind d
  let l := dLblk d
  bits d.toNat 31 24 == 0 && decide (bits sc.toNat 31 30 ≤ 1) &&
  (match dFmt d with
   | 1 => k == 2 && l == 0
   | 2 | 3 => (k == 0 && l == 7) || (k == 1 && decide (4 ≤ l) && decide (l ≤ 7)) || (k == 2 && l == 0)
   | 4 => k == 1 && l == 4
   | 12 => (k == 0 && l == 7) || (k == 2 && l == 0)
   | _ => false)

/-- Bytes of scales that a half reads (R70); `w` for the W half. -/
def scaleBytes (d : Word) (w : Bool) : Nat :=
  if dKind d = 0 then (if w then 4 else 256)
  else if dKind d = 1 then 64 * (kOf (dFmt d) / 2 ^ dLblk d) else 0

/-- The element codes of packed bytes (R48). -/
def elemCodes (f : Nat) : List Byte → List Nat
  | [] => []
  | b :: t =>
    if f = 4 then b.toNat % 16 :: b.toNat / 16 :: elemCodes f t
    else if f = 1 then (match t with
      | c :: t' => (b.toNat + 256 * c.toNat) :: elemCodes f t'
      | [] => [b.toNat])
    else b.toNat :: elemCodes f t

/-- The value of an element code. -/
def elemVal (f code : Nat) : FVal :=
  if f = 12 then ofIntVal (sext code 8) else
  val (if f = 1 then .bf16 else if f = 2 then .e4m3 else if f = 3 then .e5m2 else .e2m1) code

/-- The value of an E8M0 code (R55). -/
def e8Val (c : Nat) : FVal := if c % 256 = 255 then .nan else .fin false 1 ((c % 256 : Nat) - 127)

/-- The scale value of block `k / L` among a row's or column's codes; 1 where the kind is not E8M0. -/
def blockScale (kind lblk : Nat) (codes : List Nat) (k : Nat) : FVal :=
  if kind = 1 then e8Val (codes.getD (k / 2 ^ lblk) 255) else .fin false 1 0

/-- Values of a row of elements with their block scales. -/
def scaledRow (f kind lblk : Nat) (codes scales : List Nat) : List FVal :=
  codes.mapIdx fun k c => FVal.mul (elemVal f c) (blockScale kind lblk scales k)

/-- The columns of a plane: for each column its elements with their scales. -/
def planeCols (p : Plane) : List (List FVal) :=
  let codes := elemCodes p.fmt p.tile
  let rows := (upto (kOf p.fmt)).map fun k => codes.drop (64 * k) |>.take 64
  let nb := kOf p.fmt / 2 ^ p.lblk
  (upto 64).map fun j =>
    scaledRow p.fmt p.kind p.lblk (rows.map fun r => r.getD j 0) (p.scales.drop (nb * j) |>.take nb)

/-- The FP32 scale of a half; 1.0 where its kind is not FP32. -/
def fScale (kind : Nat) (w : Nat) : FVal := if kind = 0 then val .f32 w else .fin false 1 0

/-! ### One pass on one row -/

/-- What a pass brings to a row: products by column, the FP32 scales, and how it sums. -/
structure RowIn where
  prods : List (List FVal)
  fa    : FVal
  fw    : FVal
  bf16  : Bool
  ints  : Bool
  deriving DecidableEq, Repr

/-- Pairwise sums with rounding (R75). -/
def treeLevel : List FVal → List FVal
  | a :: b :: t => rne32 (FVal.add .ne a b) :: treeLevel t
  | l => l
/-- The tree of R75 over rounded products. -/
def treeSum : Nat → List FVal → FVal
  | 0, l => l.headD fz
  | n + 1, l => treeSum n (treeLevel l)

/-- The promotion of a column: S, t, the new word, whether a level-0 product is infinite, whether an integer wraps. -/
structure ColOut where
  s    : FVal
  t    : FVal
  word : Word
  inf0 : Bool
  wrap : Bool
  deriving DecidableEq, Repr

/-- A pass on one column (R73 to R75). -/
def passCol (x : RowIn) (prods : List FVal) (acc : Word) : ColOut :=
  if x.bf16 then
    let l0 := prods.map rne32
    let t := treeSum 6 l0
    ⟨t, t, enc32 .ne (FVal.add .ne (val32 acc) t), l0.any FVal.isInf, false⟩
  else
    let s := sumExact prods
    if x.ints then
      match s with
      | .fin neg m e =>
        let n := alignInt neg m e 0 + acc.toInt
        ⟨s, fz, wrap n, false, decide (n < -(2 ^ 31)) || decide (2 ^ 31 ≤ n)⟩
      | _ => ⟨s, fz, acc, false, false⟩
    else
      let c := rne32 (FVal.mul x.fa x.fw)
      let t := rne32 (FVal.mul s c)
      ⟨s, t, enc32 .ne (FVal.add .ne (val32 acc) t), false, false⟩

/-- A widened pass on one column's pair (R274): the new pair and t. A special value stands in h alone. -/
def passWide (x : RowIn) (prods : List FVal) (h l : FVal) : FVal × FVal × FVal :=
  let th_tl : FVal × FVal :=
    if x.bf16 then (treeSum 6 (prods.map rne32), fz)
    else
      let p := FVal.mul x.fa x.fw
      let ch := rne32 p
      let cl := rne32 (FVal.add .ne p ch.negate)
      let y := FVal.mul (sumExact prods) (FVal.add .ne ch cl)
      let th := rne32 y
      (th, rne32 (FVal.add .ne y th.negate))
  let s := FVal.add .ne (FVal.add .ne h l) (FVal.add .ne th_tl.1 th_tl.2)
  let h1 := rne32 s
  (h1, if h1.isNan || h1.isInf then fz else rne32 (FVal.add .ne s h1.negate), th_tl.1)

/-- The value of a word as the pass reads it. -/
def wordVal (ints : Bool) (w : Word) : FVal := if ints then ofIntVal w.toInt else val32 w

/-- What R262 to R264 need of a row beyond its words. -/
structure RowBound where
  eA    : BitVec 16
  eW    : BitVec 16
  /-- Σ |a|, Σ |a| × its scales, the largest A and W scale magnitudes, the plane's largest magnitude, K. -/
  rA    : FVal
  rBar  : FVal
  sigA  : FVal
  sigW  : FVal
  wmax  : FVal
  k     : Nat
  deriving DecidableEq, Repr

/-- Δ_op (R264); a term with an operand bound of 0 is 0. -/
def deltaOp (b : RowBound) : FVal :=
  if b.eA = 0 && b.eW = 0 then fz else
  let kk := ofIntVal b.k
  let ea := FVal.mul (bndVal b.eA) b.sigA
  let ew := FVal.mul (bndVal b.eW) b.sigW
  let part := fun (on : Bool) (v : FVal) => if on then v else fz
  FVal.add .ne (FVal.add .ne (part (b.eA != 0) (FVal.mul (FVal.mul ea kk) (FVal.mul b.wmax b.sigW)))
    (part (b.eW != 0) (FVal.mul b.rBar ew))) (part (b.eA != 0 && b.eW != 0) (FVal.mul (FVal.mul kk ea) ew))

/-- Δ_pass (R263). -/
def deltaPass (x : RowIn) (b : RowBound) (outs : List ColOut) : FVal :=
  let F := fmtOf .f32
  let m := maxMag (outs.map fun o => wordVal x.ints o.word)
  if x.ints then fz
  else if x.bf16 then
    FVal.add .ne (halfUlp F m)
      (FVal.add .ne (FVal.mul (FVal.mul (.fin false 6 (-24)) b.rA) b.wmax) (pow2 (-144)))
  else
    let p := FVal.mul x.fa x.fw
    let c := rne32 p
    let exact := match FVal.add .ne p c.negate with
      | .fin _ 0 _ => true
      | _ => false
    let eps := if exact then fz else halfUlp F c
    FVal.add .ne (FVal.add .ne (halfUlp F m) (halfUlp F (maxMag (outs.map (·.t)))))
      (FVal.mul eps (maxMag (outs.map (·.s))))

/-- Δ_pass of a widened pass (R263). -/
def deltaWide (m t : FVal) : FVal := FVal.add .ne (FVal.mul (pow2 (-44)) (FVal.add .ne t m)) (pow2 (-148))

/-- R262: the row's new bound. -/
def rowBound (bound : BitVec 16) (b : RowBound) (nanWord infWord inf0 wraps : Bool) (delta : FVal) : BitVec 16 :=
  if nanWord || bndInvalid b.eA || bndInvalid b.eW || bndInvalid bound then 0xFF00
  else if infWord || inf0 || wraps || bndUnbounded b.eA || bndUnbounded b.eW || bndUnbounded bound then 0xFFFF
  else bndAdd bound (FVal.add .ne delta (deltaOp b))

/-- A pass on a row: the new words and the new bound. -/
def passRow (x : RowIn) (b : RowBound) (acc : List Word) (bound : BitVec 16) : List Word × BitVec 16 :=
  let outs := (x.prods.zip acc).map fun pa => passCol x pa.1 pa.2
  let vals := outs.map fun o => wordVal x.ints o.word
  (outs.map (·.word),
   rowBound bound b (vals.any FVal.isNan) (vals.any FVal.isInf || outs.any fun o => o.t.isInf) (outs.any (·.inf0))
     (outs.any (·.wrap)) (deltaPass x b outs))

/-- A widened pass on a row of pairs (R273, R274); integers are added as in R74. -/
def passRowWide (x : RowIn) (b : RowBound) (hl : List (FVal × FVal)) (bound : BitVec 16) : List (FVal × FVal) × BitVec 16 :=
  if x.ints then
    let outs := (x.prods.zip hl).map fun pa => FVal.add .ne pa.2.1 (sumExact pa.1)
    let wrapped := outs.map fun v => match v with
      | .fin neg m e => ofIntVal (wrap (alignInt neg m e 0)).toInt
      | y => y
    (wrapped.map fun v => (v, fz),
     rowBound bound b false false false (outs != wrapped) (deltaWide (maxMag wrapped) fz))
  else
    let outs := (x.prods.zip hl).map fun pa => passWide x pa.1 pa.2.1 pa.2.2
    let hs := outs.map (·.1)
    (outs.map fun o => (o.1, o.2.1),
     rowBound bound b (hs.any FVal.isNan) (hs.any FVal.isInf || outs.any fun o => o.2.2.isInf)
       (x.bf16 && x.prods.any fun p => (p.map rne32).any FVal.isInf) false
       (deltaWide (maxMag hs) (maxMag (outs.map fun o => o.2.2))))

end Sys2Proof.Machine
end

