-- ==== Sys2Proof/Machine/Engine.lean ====
section
/-! DEFINITION. The matrix engine at work: operands with held and unfenced writes, passes, drains, jobs and re-runs
(R238 to R279). -/

namespace Sys2Proof.Machine

/-! ### Operand reads (R246, R247) -/

/-- What a command reads where unfenced writes stand: the value before any of them, or the value now, the free choice being
numbered `n` (R246). -/
def eitherOf {α : Type} (s : State) (n : Nat) (olds : List α) (now : α) : α :=
  olds.getD ((freeAt s n).toNat % (olds.length + 1)) now

/-- A space of an on-chip address (R208): none where the code is reserved. -/
def ocSpace (a : Word) : Option Space :=
  if bits a.toNat 31 30 = 0 then some .sh else if bits a.toNat 31 30 = 1 then some .sp else none
/-- The offset of an on-chip address. -/
def ocOff (a : Word) : Nat := bits a.toNat 29 0

/-- Bytes of team memory or of the scratchpad window as an engine of the core reads them. Bytes of a segment that another
context has taken since the issue are free values: the spec forbids that they be that context's, and gives no other (R188,
R204; log 52). -/
def onchipBytes (s : State) (t : Team) (a : Word) (n : Nat) : List Byte :=
  match ocSpace a with
  | some .sp =>
    let b := spBase t.spWin + ocOff a
    if spOwned s t.die t.asid b n then (upto n).map fun i => coreSees s (coreKey t.die t.core) (b + i)
    else (upto n).map fun i =>
      if spMine s t.die t.asid (b + i) then coreSees s (coreKey t.die t.core) (b + i)
      else (freeAt s (2 ^ 31 + 2 ^ 30 + b + i)).setWidth 8
  | _ => readBytes t.shared (ocOff a) n

/-- The bytes that a matrix command reads: with no fence between, a byte reads as before or after each of its sheaves' own
writes (R246). -/
def operandBytes (s : State) (t : Team) (cmd : MxCmd) (a : Word) (n : Nat) : List Byte :=
  let isSp := ocSpace a == some .sp
  let base := if isSp then spBase t.spWin + ocOff a else ocOff a
  let near := cmd.looseB.filter fun l => l.sp == isSp && decide (base ≤ l.addr) && decide (l.addr < base + n)
  if near = [] then onchipBytes s t a n else
  (onchipBytes s t a n).mapIdx fun i b =>
    eitherOf s (2 ^ 29 + base + i) ((near.filter fun l => l.addr == base + i).map (·.old)) b

/-- The first byte of a range that meets an uncorrectable error, in the team's window or in the die's scratchpad. -/
def operandError (s : State) (t : Team) (a : Word) (n : Nat) : Option Nat :=
  let isSp := ocSpace a == some .sp
  let base := if isSp then spBase t.spWin + ocOff a else ocOff a
  let pz := if isSp then (corePoison s (coreKey t.die t.core)).filter fun g => spMine s t.die t.asid (8 * g) else t.sharedPz
  if pz = [] then none else ((upto n).map (base + ·)).find? fun b => pz.contains (b / 8)

/-- The sheaf slot and position that own a row of a command. -/
def rowOwner (cmd : MxCmd) (row : Nat) : Nat × Nat := (cmd.slots.getD ((row - cmd.base) / 16) 64, row % 16)

/-- A vector register that a command reads: unspecified if a lane word wrote it while held (R247), before or after an
unfenced write (R246). -/
def operandReg (s : State) (t : Team) (cmd : MxCmd) (row r : Nat) : Word :=
  let (slot, pos) := rowOwner cmd row
  match Tbl.find t.sheaves slot with
  | none => 0
  | some sh =>
    let key := RegKey.v pos r
    if sh.spoilt.any fun h => h.cmd == cmd.id && h.key == key then (freeAt s (2 ^ 30 + slot * 2 ^ 14 + keyCode key)).setWidth 32
    else eitherOf s (2 ^ 30 + slot * 2 ^ 14 + keyCode key)
      ((cmd.loose.filter fun l => l.1 == slot && l.2.key == key).map (·.2.old)) (readKey sh key)

/-! ### Tiles -/

/-- The 64 words of a tile's row. -/
def tileRow (e : Engine) (tile row : Nat) : List Word := (upto 64).map fun j => Tbl.get 0 e.tiles (tile * 4096 + row * 64 + j)
/-- Write a tile's row. -/
def setTileRow (e : Engine) (tile row : Nat) (ws : List Word) : Engine :=
  { e with tiles := (ws.mapIdx fun j w => (j, w)).foldl (fun t jw => Tbl.set 0 t (tile * 4096 + row * 64 + jw.1) jw.2) e.tiles }
/-- The bound row of a tile. -/
def boundRow (e : Engine) (tile row : Nat) : BitVec 16 := Tbl.get 0 e.bounds (tile * 64 + row)
/-- Write a bound row. -/
def setBound (e : Engine) (tile row : Nat) (b : BitVec 16) : Engine := { e with bounds := Tbl.set 0 e.bounds (tile * 64 + row) b }
/-- The rows of a row mask. -/
def rowList (m : BitVec 64) : List Nat := maskList m.toNat 64

/-! ### Passes -/

/-- A stationary tile as `mx.ldw` captures it (R248). -/
def loadPlane (s : State) (t : Team) (e : Engine) (cmd : MxCmd) (addr d sc : Word) : Plane :=
  let tile := operandBytes s t cmd addr 8192
  let sb := operandBytes s t cmd sc (scaleBytes d true)
  let vals := (elemCodes (dFmt d) tile).map (elemVal (dFmt d))
  let big := maxMag (vals.filter fun v => !v.isNan && !v.isInf)
  let me : Nat × Int := match big with
    | .fin _ m x => (m, x)
    | _ => (0, 0)
  { fmt := dFmt d, kind := dKind d, lblk := dLblk d, tile := tile
    scales := if dKind d = 0 then [leNat sb] else sb.map (·.toNat)
    maxM := me.1, maxE := me.2, maxInf := vals.any FVal.isInf
    eW := (upto 128).foldl (fun b i => bndMax b (Tbl.get 0 e.wBuf i)) 0 }

/-- The largest E8M0 scale of a list of codes; 1 where the kind is not E8M0. -/
def bigScale (kind : Nat) (codes : List Nat) : FVal :=
  if kind = 1 then maxMag ((codes.filter (· ≠ 255)).map e8Val) else .fin false 1 0

/-- What the plane brings to a row's bound. -/
def planeBound (p : Plane) : RowBound :=
  { eA := 0, eW := p.eW, rA := fz, rBar := fz, sigA := .fin false 1 0
    sigW := FVal.mul (if p.kind = 0 then (val .f32 (p.scales.headD 0)).mag else .fin false 1 0) (bigScale p.kind p.scales)
    wmax := if p.maxInf then .inf false else .fin false p.maxM p.maxE, k := kOf p.fmt }

/-- A streamed row's pass: its elements, its scale half `d sc`, its A-buffer entry (R245, R250, R262). -/
def streamRow (p : Plane) (cols : List (List FVal)) (f kind lblk : Nat) (codes scales : List Nat) (eA : BitVec 16) :
    RowIn × RowBound :=
  let a := scaledRow f kind lblk codes (if kind = 1 then scales else [])
  let fa := if kind = 0 then val .f32 (scales.headD 0) else .fin false 1 0
  let raw := codes.map fun c => (elemVal f c).mag
  let sum := fun l => sumExact l
  let b := planeBound p
  ({ prods := cols.map fun c => (a.zip c).map fun ac => FVal.mul ac.1 ac.2
     fa := fa, fw := fScale p.kind (p.scales.headD 0), bf16 := p.fmt == 1
     ints := p.fmt == 12 && kind == 2 && p.kind == 2 },
   { b with eA := eA, rA := sum raw, rBar := FVal.mul (sum (a.map FVal.mag)) fa.mag
            sigA := FVal.mul fa.mag (bigScale kind scales) })

/-- A constant row's pass (R251): kind 0 `.id`, 1 `.tr`, 2 `.perm` of index `x`, 3 `.sum`. -/
def constRow (p : Plane) (cols : List (List FVal)) (kind row x : Nat) : RowIn × RowBound :=
  let one : FVal := .fin false 1 0
  let prods : List (List FVal) := match kind with
    | 0 => cols.map fun (c : List FVal) => [c.getD row fz]
    | 1 => (cols.getD row []).take 64 |>.map fun v => [v]
    | 2 => cols.map fun (c : List FVal) => if x < kOf p.fmt then [c.getD x fz] else []
    | _ => cols
  let n := if kind = 3 then kOf p.fmt else if kind = 2 && decide (kOf p.fmt ≤ x) then 0 else 1
  let b := planeBound p
  ({ prods := prods.map fun l => if l = [] && p.fmt = 1 then [fz] else l
     fa := one, fw := fScale p.kind (p.scales.headD 0), bf16 := p.fmt == 1
     ints := p.fmt == 12 && p.kind == 2 },
   { b with rA := ofIntVal n, rBar := ofIntVal n })

/-- The pass of a command on one of its rows, against a plane. -/
def rowPass (s : State) (t : Team) (cmd : MxCmd) (p : Plane) (cols : List (List FVal)) (aBuf : Tbl (BitVec 16)) (row : Nat) :
    RowIn × RowBound :=
  let scalesOf := fun (d sc : Word) =>
    if dKind d = 0 then [leNat (operandBytes s t cmd (sc + BitVec.ofNat 32 (4 * row)) 4)]
    else
      let nb := scaleBytes d false / 64
      (operandBytes s t cmd (sc + BitVec.ofNat 32 (nb * row)) nb).map (·.toNat)
  match cmd.op with
  | .run _ a d sc =>
    streamRow p cols (dFmt d) (dKind d) (dLblk d)
      (elemCodes (dFmt d) (operandBytes s t cmd (a + BitVec.ofNat 32 (128 * row)) 128)) (scalesOf d sc) (Tbl.get 0 aBuf row)
  | .runV _ vx d sc =>
    let bs := (upto 32).flatMap fun i => toBytes 4 (operandReg s t cmd row (vx + i)).toNat
    streamRow p cols (dFmt d) (dKind d) (dLblk d) (elemCodes (dFmt d) bs) (scalesOf d sc) (Tbl.get 0 aBuf row)
  | .cmatId _ => constRow p cols 0 row 0
  | .cmatTr _ => constRow p cols 1 row 0
  | .cmatPerm _ vx => constRow p cols 2 row ((operandReg s t cmd row vx).toNat % 256)
  | _ => constRow p cols 3 row 0

/-- The tile of a pass. -/
def passTile : MxOp → Option Nat
  | .run i _ _ _ | .runV i _ _ _ | .cmatId i | .cmatTr i | .cmatPerm i _ | .cmatSum i => some i
  | _ => none

/-- Perform a pass (R250, R251, R262). -/
def doPass (s : State) (t : Team) (cmd : MxCmd) (e : Engine) (tile : Nat) : Engine :=
  match e.active with
  | none => e
  | some p =>
    let cols := planeCols p
    (rowList cmd.rows).foldl (fun e row =>
      let (x, b) := rowPass s t cmd p cols e.aBuf row
      let r := passRow x b (tileRow e tile row) (boundRow e tile row)
      setBound (setTileRow e tile row r.1) tile row r.2) e

/-! ### Drains (R252, R265) -/

/-- Elements per register of a drain format. -/
def drainElems : Fmt → Nat
  | .flt .f32 | .int .i32 => 1
  | .flt .bf16 => 2
  | .flt .e2m1 => 8
  | _ => 4

/-- A drained element's code. -/
def drainOne (f : Fmt) (sat : Bool) (rm : Rm) (w : Word) : Nat :=
  match f with
  | .flt .f32 => if isNan32 w then nan32.toNat else w.toNat
  | .flt g => encR g sat rm (val32 w)
  | .int .i8 => (wrapN (Machine.sat w.toInt (-128) 127) 8)
  | .int _ => w.toNat

/-- A drained register. -/
def drainReg (f : Fmt) (sat : Bool) (rm : Rm) (ws : List Word) : Word :=
  BitVec.ofNat 32 ((ws.map (drainOne f sat rm)).foldr (fun c acc => c + acc * 2 ^ (32 / drainElems f)) 0)

/-- The row's bound after a drain (R265). -/
def drainBound (f : Fmt) (sat : Bool) (rm : Rm) (ws : List Word) (b : BitVec 16) : BitVec 16 :=
  match f with
  | .flt .f32 | .int .i32 => b
  | .int _ => if ws.any fun w => decide (w.toInt < -128) || decide (127 < w.toInt) then (if bndInvalid b then 0xFF00 else 0xFFFF) else b
  | .flt g =>
    let xs := ws.map val32
    let F := fmtOf g
    let wide := xs.any fun x => match x with
      | .nan => false
      | .inf _ => true
      | .fin neg m e => decide (F.max < roundCode F rm neg m e)
    let ys := ws.map fun w => val g (encR g sat rm (val32 w))
    if xs.any FVal.isNan || ys.any FVal.isNan then 0xFF00
    else if wide then (if bndInvalid b then 0xFF00 else 0xFFFF)
    else
      let d := maxMag (xs ++ ys)
      bndAdd b (if rm = .ne then halfUlp F d else twice (halfUlp F d))

/-- Perform a drain: the bound rows, and the registers of the rows' threads (R252, R265). A destination that a lane word
wrote while it was held is left unspecified (R247). -/
def doDrain (s : State) (cmd : MxCmd) (k : Nat) (tile : Nat) (f : Fmt) (sat : Bool) (rm : Rm) (vx vy c0 : Nat) : State :=
  let n := vy - vx + 1
  let el := drainElems f
  (rowList cmd.rows).foldl (fun s row =>
    let e := (coreOf s k).engine
    let ws := (tileRow e tile row).drop c0 |>.take (n * el)
    let s1 := modCore s k fun c => { c with engine := setBound c.engine tile row (drainBound f sat rm ws (boundRow e tile row)) }
    let (slot, pos) := rowOwner cmd row
    modSheaf s1 cmd.tid slot fun sh => (upto n).foldl (fun sh m =>
      let key := RegKey.v pos (vx + m)
      let w := if sh.spoilt.any fun h => h.cmd == cmd.id && h.key == key then
          (freeAt s (2 ^ 30 + slot * 2 ^ 14 + keyCode key)).setWidth 32
        else drainReg f sat rm (ws.drop (m * el) |>.take el)
      writeKey sh key w) sh) s

/-! ### Jobs (R270 to R279) -/

/-- A job's slot. -/
def jobOf (e : Engine) (n : Nat) : Job := if n = 0 then e.job0 else e.job1
/-- Change a job's slot. -/
def setJob (e : Engine) (n : Nat) (j : Job) : Engine := if n = 0 then { e with job0 := j } else { e with job1 := j }
/-- A command that the log of a job on a tile holds (R271). -/
def logged (tile : Nat) : MxOp → Bool
  | .ldw .. | .flip => true
  | .zero i => i == tile
  | op => passTile op == some tile

/-- The engine reaches `mx.beg`: the checkpoint (R270). -/
def checkpoint (e : Engine) (n tile : Nat) : Engine :=
  setJob e n { jobOf e n with
    words := e.tiles.filter fun w => w.1 / 4096 == tile
    bounds := e.bounds.filter fun b => b.1 / 64 == tile
    active := e.active, shadow := e.shadow, log := [] }

/-- A job's log takes a command that issued while the job was open (R271). -/
def logs (j : Job) (cmd : MxCmd) : Bool :=
  ((j.state == .opened && !j.lost) || ((j.state == .rerunning || j.state == .held || j.lost) && decide (cmd.id < j.mark)))
    && j.slots == cmd.slots && logged j.tile cmd.op

/-- A command that is performed is logged in the jobs that were open when it issued (R271). -/
def logCmd (cmd : MxCmd) (e : Engine) (n : Nat) : Engine :=
  let j := jobOf e n
  if logs j cmd then setJob e n { j with log := j.log ++ [⟨cmd, e.aBuf⟩] } else e

/-- A job waits for a re-run that its own `mx.wait` asked for (R272). -/
def Job.tripped (j : Job) : Bool := j.state == .rerunning && j.redoTk.isNone
/-- The re-runs that a command waits for, since it issued after them (R76, R272). -/
def behindReRun (e : Engine) (id : Nat) : Bool := (upto 2).any fun n => (jobOf e n).tripped && decide ((jobOf e n).mark ≤ id)
/-- A re-run may proceed: every command and every other re-run before it is done (R76, R242, R280). -/
def reRunDue (e : Engine) (n : Nat) : Bool :=
  let j := jobOf e n
  j.tripped && e.queue.all (fun c => decide (j.mark ≤ c.id))
    && !(upto 2).any fun m => (jobOf e m).tripped && decide ((jobOf e m).mark < j.mark)

/-- A row during a re-run: its pairs, and whether they are integers. -/
structure WideRow where
  ints : Bool
  hl   : List (FVal × FVal)
  deriving DecidableEq, Repr

/-- The words of a row during a re-run (R273 step 4). -/
def wideWords (r : WideRow) : List Word :=
  r.hl.map fun p => if r.ints then (match p.1 with
      | .fin neg m e => wrap (alignInt neg m e 0)
      | _ => 0)
    else enc32 .ne (FVal.add .ne p.1 p.2)
/-- A row of words as pairs. -/
def widen (ints : Bool) (ws : List Word) : WideRow := ⟨ints, ws.map fun w => (wordVal ints w, fz)⟩

/-- A logged command as a re-run performs it: it reads what stands then (R273 step 2, R274). -/
def LogEntry.afresh (s : State) (l : LogEntry) : LogEntry := { l with cmd := { l.cmd with id := s.nextId, loose := [], looseB := [] } }

/-- One logged command of a re-run, on the engine's planes and on the rows held wide. -/
def redoOne (s : State) (t : Team) (st : Engine × Tbl WideRow × Tbl (BitVec 16)) (l : LogEntry) :
    Engine × Tbl WideRow × Tbl (BitVec 16) :=
  let (e, rows, bounds) := st
  match l.cmd.op with
  | .ldw a d sc => ({ e with shadow := some (loadPlane s t e l.cmd a d sc) }, rows, bounds)
  | .flip => ({ e with active := e.shadow, shadow := e.active }, rows, bounds)
  | .zero _ =>
    ((rowList l.cmd.rows).foldl (fun st row =>
      if (Tbl.find rows row).isSome then
        (Tbl.put st.1 row (widen false (List.replicate 64 0)), Tbl.put st.2 row 0) else st) (rows, bounds)
      |> fun st => (e, st.1, st.2))
  | _ =>
    match e.active with
    | none => (e, rows, bounds)
    | some p =>
      let cols := planeCols p
      ((rowList l.cmd.rows).foldl (fun st row =>
        let (x, b) := rowPass s t l.cmd p cols l.aBuf row
        let r := (Tbl.find st.1 row).getD (widen x.ints (List.replicate 64 0))
        let r1 := if r.ints = x.ints then r else widen x.ints (wideWords r)
        let out := passRowWide x b r1.hl (Tbl.get 0 st.2 row)
        (Tbl.put st.1 row ⟨x.ints, out.1⟩, Tbl.put st.2 row out.2)) (rows, bounds)
        |> fun st => (e, st.1, st.2))

/-- A re-run of a job, whole (R273). -/
def reRun (s : State) (t : Team) (e : Engine) (n : Nat) : Engine :=
  let j := jobOf e n
  let rows := (rowList j.rows).map fun r =>
    (r, widen true ((upto 64).map fun c => Tbl.get 0 j.words (j.tile * 4096 + r * 64 + c)))
  let bounds := (rowList j.rows).map fun r => (r, Tbl.get 0 j.bounds (j.tile * 64 + r))
  let (e1, ws, bs) := (j.log.map (LogEntry.afresh s)).foldl (redoOne s t) ({ e with active := j.active, shadow := j.shadow }, rows, bounds)
  ws.foldl (fun e rw =>
    let words := wideWords rw.2
    let m := maxMag ((words.map (wordVal rw.2.ints)).filter fun v => !v.isNan && !v.isInf)
    setBound (setTileRow e j.tile rw.1 words) j.tile rw.1 (bndAdd (Tbl.get 0 bs rw.1) (halfUlp (fmtOf .f32) m))) e1

/-- The rows of a job that trip (R269). -/
def tripRows (e : Engine) (j : Job) : BitVec 64 :=
  let tauNan := decide (0x7F800000 < j.tau.toNat)
  let tau := val32 j.tau
  (rowList j.rows).foldl (fun m row =>
    let b := boundRow e j.tile row
    let vs := (tileRow e j.tile row).map (wordVal (j.ints.getLsbD row))
    let mx := maxMag vs
    let lt := fun x y => match x, y with
      | .fin .., FVal.inf _ => false
      | x, y => finLt x y
    let tau' : FVal := if tauNan then .inf false else tau
    let zero := match mx with
      | .fin _ 0 _ => true
      | _ => false
    let trip := !bndFinite b || vs.any FVal.isNan || vs.any FVal.isInf
      || (match tau' with
          | .inf _ => false
          | _ => if zero then lt tau' (bndVal b) else lt (FVal.mul tau' mx) (bndVal b))
    if trip then m ||| BitVec.ofNat 64 (2 ^ row) else m) 0

/-- FT bit 16 + I is set in every sheaf of the swath (R268, R272). -/
def setFT (s : State) (tid : Nat) (slots : List Nat) (tile : Nat) : State :=
  slots.foldl (fun s sl => modSheaf s tid sl fun sh =>
    { sh with sys := { sh.sys with bmode := sh.sys.bmode ||| BitVec.ofNat 32 (2 ^ (16 + tile)) } }) s

/-- Commands of an abandoned job are in the queue. -/
def queuedFor (e : Engine) (j : Job) : Bool := e.queue.any fun c => c.slots == j.slots && decide (c.id < j.mark)

/-- A sheaf has no live thread, or has retired. -/
def Sheaf.quit (sh : Sheaf) : Bool := sh.retired || sheafDone sh

/-- A job whose swath's threads have all ended is abandoned, and its slot is free once its commands are complete; a held slot, when the
swath has retired (R277, R278). -/
def abandonJobs (s : State) (tid : Nat) : State :=
  match Tbl.find s.teams tid with
  | none => s
  | some t =>
    if t.tiles = 0 then s else
    let gone := fun j : Job => j.slots.all fun sl =>
      ((Tbl.find t.sheaves sl).map fun sh => if j.state = .held then sh.retired else sh.quit).getD true
    modCore s (coreKey t.die t.core) fun c => (upto 2).foldl (fun c n =>
      let j0 := jobOf c.engine n
      let j := if j0.state = .opened && !j0.lost && gone j0 then { j0 with lost := true, mark := s.nextId } else j0
      if c.engine.holder ≠ some tid then c
      else if (j.state = .held && gone j) || (j.lost && !queuedFor c.engine j) then { c with engine := setJob c.engine n Job.zero }
      else { c with engine := setJob c.engine n j }) c

/-- The active plane has no scales. -/
def planeNone (e : Engine) : Bool := (e.active.map fun p => p.kind == 2).getD false
/-- Open jobs on a tile note how the last pass of its rows reads their words (R74, R260). -/
def markInts (ints : Bool) (tile : Nat) (rows : BitVec 64) (e : Engine) : Engine :=
  (upto 2).foldl (fun e n =>
    if (jobOf e n).state = .opened && (jobOf e n).tile = tile then setJob e n { jobOf e n with
      ints := if ints then (jobOf e n).ints ||| rows else (jobOf e n).ints &&& ~~~rows } else e) e

/-! ### Performing a command (R242) -/

/-- What a command does to the engine and to registers. -/
def doCmd (s : State) (k : Nat) (t : Team) (cmd : MxCmd) : State :=
  let setE := fun (s : State) (f : Engine → Engine) => modCore s k fun c => { c with engine := f c.engine }
  match cmd.op with
  | .ldw a d sc => modTeam (setE s fun e => { e with shadow := some (loadPlane s t e cmd a d sc) }) cmd.tid fun t => count 16 1 (count 18 32 t)
  | .flip => setE s fun e => { e with active := e.shadow, shadow := e.active }
  | .zero i => setE s fun e => (rowList cmd.rows).foldl (fun e r => setBound (setTileRow e i r (List.replicate 64 0)) i r 0) e
  | .drain i f sat rm vx vy c0 => modTeam (doDrain s cmd k i f sat rm vx vy c0) cmd.tid (count 17 1)
  | .beg i n => setE s fun e => checkpoint e n i
  | .redo _ n =>
    modTeam (setE s fun e =>
      let e1 := reRun s t e n
      let j := jobOf e1 n
      { setJob e1 n Job.zero with redone := e1.redone ++ [{ Job.zero with
          tile := j.tile, tau := j.tau, slots := cmd.slots, rows := j.rows, ints := j.ints, redoTk := cmd.tk }] }) cmd.tid fun t =>
        count 24 (256 * ((jobOf (coreOf s k).engine n).log.filter fun l => (passTile l.cmd.op).isSome).length) t
  | .run i _ d _ | .runV i _ d _ =>
    modTeam (setE s fun e => markInts (dFmt d == 12 && dKind d == 2 && planeNone e) i cmd.rows (doPass s t cmd e i)) cmd.tid
      fun t => charge cmd.tag 2 1 (count 14 1 (count 18 64 t))
  | .cmatId i | .cmatTr i | .cmatPerm i _ | .cmatSum i =>
    modTeam (setE s fun e => markInts (planeNone e && (e.active.map fun p => p.fmt == 12).getD false) i cmd.rows (doPass s t cmd e i))
      cmd.tid fun t => charge cmd.tag 2 1 (count 15 1 (count 18 64 t))

/-- The bytes that an operation reads, by on-chip address and length. -/
def opReads : MxOp → List (Word × Nat)
  | .ldw a d sc => [(a, 8192), (sc, scaleBytes d true)]
  | .run _ a d sc => [(a, 8192), (sc, scaleBytes d false)]
  | .runV _ _ d sc => [(sc, scaleBytes d false)]
  | _ => []
/-- The bytes that a re-run of a job reads. -/
def jobReads (j : Job) : List (Word × Nat) := j.log.flatMap fun l => opReads l.cmd.op
/-- The bytes that a command reads. -/
def cmdReads (e : Engine) (cmd : MxCmd) : List (Word × Nat) :=
  match cmd.op with
  | .redo _ n => jobReads (jobOf e n)
  | op => opReads op
/-- The first byte of ranges that meets an uncorrectable error (R202, R244). -/
def readsError (s : State) (t : Team) (rs : List (Word × Nat)) : Option Nat := rs.findSome? fun r => operandError s t r.1 r.2

/-- The engine performs the head of its queue, unless that waits for a re-run: its effect, then its token completes in every
sheaf that issued it (R241, R242). An uncorrectable error in what it reads ends the context (R202, R244). -/
def performHead (s : State) (k : Nat) : State :=
  match (coreOf s k).engine.queue with
  | [] => s
  | cmd :: rest =>
    if behindReRun (coreOf s k).engine cmd.id then s else
    match Tbl.find s.teams cmd.tid with
    | none => modCore s k fun c => { c with engine := { c.engine with queue := rest } }
    | some t =>
      match readsError s t (cmdReads (coreOf s k).engine cmd) with
      | some a => eccReset s t.die t.asid a
      | none =>
      let s1 := modCore s k fun c => { c with engine := logCmd cmd (logCmd cmd c.engine 0) 1 }
      let s2 := doCmd s1 k t cmd
      let s3 := modCore s2 k fun c => { c with engine := { c.engine with queue := rest } }
      let s4 := cmd.slots.foldl (fun s sl =>
        let s1 := modSheaf s cmd.tid sl fun sh => { sh with spoilt := sh.spoilt.filter fun h => h.cmd != cmd.id }
        match cmd.tk with
        | some tk => completeTok s1 cmd.tid sl tk 0
        | none => s1) s3
      reapTeam (abandonJobs s4 cmd.tid) cmd.tid

end Sys2Proof.Machine
end

