-- ==== Sys2Proof/Machine/Matrix.lean ====
section
/-! DEFINITION. The matrix commands, the bound instructions, and the engine's events (R241 to R279). -/

namespace Sys2Proof.Machine

/-- A matrix word issues for its swath, or for a G sheaf alone (R241). -/
def mxGroup (i : Instr) (s : State) (k : Ctx → List Ctx → Res) : Res :=
  issue i s fun c => if inSwath c.sheaf then collective .matrix c (k c) else k c [c]

/-- The sheaf on lane 4q, whose uniform operands are read (R241). -/
def leadCtx (c : Ctx) (us : List Ctx) : Ctx := if inSwath c.sheaf then (us.find? fun u => u.slot % 4 == 0).getD c else c
/-- The sheaves that issue a command, lead first. -/
def mxSlots (c : Ctx) : List Nat := if inSwath c.sheaf then swathSlots c.slot else [c.slot]
/-- The row of position 0 of the first sheaf (R241). -/
def mxBase (c : Ctx) : Nat := if inSwath c.sheaf then 0 else 16 * (c.sheaf.lane % 4)
/-- The row that a thread owns (R88, R241). -/
def rowOf (c : Ctx) (pos : Nat) : Nat := (if inSwath c.sheaf then 16 * (c.slot % 4) else 16 * (c.sheaf.lane % 4)) + pos
/-- The participating rows of units. -/
def mxRows (us : List Ctx) : BitVec 64 :=
  us.foldl (fun m u => (positions u.unit.mask).foldl (fun m p => m ||| BitVec.ofNat 64 (2 ^ rowOf u p)) m) 0
/-- The tag of a swath-collective word (R318). -/
def mxTag (us : List Ctx) : Word :=
  ((us.filter fun u => u.unit.mask != 0).foldl (fun best u =>
    match best with
    | none => some u
    | some b =>
      let r := fun x : Ctx => (threadAt x.sheaf ((byRank x.sheaf (positions x.unit.mask)).headD 0)).rank
      if r u < r b then some u else some b) none).elim 0 (·.tag)

/-- Every unit of a swath-collective E-word continues after it. Each sheaf's lane is held for one cycle, charged to the word's
tag (R80, R89, R318, R336). -/
def retireAll (s : State) (us : List Ctx) : State :=
  let s1 := (bySheaf us).foldl (fun s g => match oldest g with
    | none => s
    | some u => chargeCycles u s 1 [mxTag us]) (alignLanes s us)
  us.foldl (fun s u => match unitAt s u.tid u.slot u.uid with
    | none => s
    | some c => advance c s (c.next 2)) s1

/-- The engine that a unit's team holds. -/
def engineOf (c : Ctx) : Engine := (coreOf c.st c.core).engine

/-- The element formats of the active and the shadow plane after a command. -/
def planeStep (e : Engine) (p : Option Nat × Option Nat) (op : MxOp) : Option Nat × Option Nat :=
  match op with
  | .ldw _ d _ => (p.1, some (dFmt d))
  | .flip => (p.2, p.1)
  | .redo _ n =>
    let j := jobOf e n
    (j.log.map (·.cmd) ++ e.queue.filter (logs j)).foldl (fun q c => match c.op with
      | .ldw _ d _ => (q.1, some (dFmt d))
      | .flip => (q.2, q.1)
      | _ => q) (j.active.map (·.fmt), j.shadow.map (·.fmt))
  | _ => p
/-- The operations that the engine has yet to perform, in order, each with its number: commands, and the re-runs that stand
before later ones (R76, R242). -/
def pendingOps (e : Engine) : List (Nat × MxOp) :=
  (upto 2).foldl (fun l n =>
    let j := jobOf e n
    if j.tripped then (l.filter fun x => decide (x.1 < j.mark)) ++ (j.mark, .redo j.tile n) :: l.filter fun x => decide (j.mark ≤ x.1)
    else l) (e.queue.map fun c => (c.id, c.op))
/-- The planes as they stand after every earlier command (R244 check 2). -/
def planesAt (e : Engine) : Option Nat × Option Nat :=
  (pendingOps e).foldl (fun p c => planeStep e p c.2) (e.active.map (·.fmt), e.shadow.map (·.fmt))

/-- A range that a command reads lies in its view (R244 check 4). -/
def rangeIn (c : Ctx) (a : Word) (n : Nat) : Bool :=
  n == 0 || match ocSpace a with
  | some .sh => decide (ocOff a + n ≤ c.team.window)
  | some .sp => decide (ocOff a + n ≤ spLen c.team.spWin)
      && spOwned c.st c.team.die c.team.asid (spBase c.team.spWin + ocOff a) n
  | _ => false

/-- The checks of R244 that read a half: FORMAT, PLANE, ALIGN, WINDOW, in order, as cause and subcode. -/
def halfCheck (c : Ctx) (a : Option Word) (d sc : Word) (w : Bool) : Option (Nat × Nat) :=
  let p := (planesAt (engineOf c)).1
  if !halfOk d sc || (!w && (p.map fun f => fmtClass f != fmtClass (dFmt d)).getD false) then some (16, 0)
  else if !w && p.isNone then some (17, 1)
  else if (a.map fun x => ocOff x % 128 != 0).getD false || (dKind d == 0 && ocOff sc % 4 != 0) then some (4, 0)
  else if !((a.map fun x => rangeIn c x 8192).getD true) || !rangeIn c sc (scaleBytes d w) then some (5, 0)
  else none

/-- A command meets the rules of open jobs (R271). -/
def jobClash (e : Engine) (slots : List Nat) (op : MxOp) : Bool :=
  (upto 2).any fun n =>
    let j := jobOf e n
    j.state == .opened && (
      if j.slots = slots && !j.lost then logged j.tile op && decide (16 ≤ j.pend)
      else (match op with
        | .ldw .. | .flip => true
        | _ => passTile op == some j.tile))

/-- An issued command as the open jobs of its swath count it (R271, R272). -/
def jobCount (slots : List Nat) (rows : BitVec 64) (tk : Option Nat) (op : MxOp) (e : Engine) : Engine :=
  (upto 2).foldl (fun e n =>
    let j := jobOf e n
    if j.state = .opened && j.slots = slots && !j.lost && logged j.tile op then
      setJob e n { j with pend := j.pend + 1
                          rows := if (passTile op).isSome then j.rows ||| rows else j.rows
                          lastTk := if (passTile op).isSome then tk else j.lastTk }
    else e) e

/-- Issue a command into the engine's queue: token and room waits, the checks, then the command with what it captures
(R241 to R247). -/
def mxIssue (i : Instr) (s : State) (tk : Option Ix3) (regs : List Nat) (drain : Bool)
    (op : Ctx → MxOp) (check : Ctx → Option (Nat × Nat)) : Res :=
  mxGroup i s fun c us =>
    let l := leadCtx c us
    let e := engineOf c
    let tkn := tk.map (·.toNat)
    if (tkn.map fun t => us.any fun u => (tokAt u.sheaf t).pending).getD false then
      .next (waitAt c c.st (.tokens (2 ^ (tkn.getD 0))))
    else if 16 ≤ e.queue.length then .next (waitAt c c.st (.room .engine))
    else match check l with
      | some (cause, sub) => .next (trapEach c.st us cause sub)
      | none =>
        let o := op l
        let slots := mxSlots c
        if jobClash e slots o then .next (trapEach c.st us 17 3) else
        let rows := mxRows us
        let (id, s1) := fresh (match tkn with
          | some t => us.foldl (fun s u => acquired u s (2 ^ t)) c.st
          | none => c.st)
        let cmd : MxCmd := ⟨id, o, c.tid, slots, mxBase c, rows, tkn, mxTag us,
          us.flatMap (fun u => u.sheaf.loose.map fun x => (u.slot, x)), us.flatMap fun u => u.sheaf.looseB⟩
        let s2 := modCore s1 c.core fun k => { k with engine :=
          { jobCount slots rows tkn o k.engine with queue := k.engine.queue ++ [cmd] } }
        let s3 := us.foldl (fun s u => u.modSheaf s fun sh =>
          let sh1 := match tkn with
            | some t => setTok sh t ⟨true, 0⟩
            | none => sh
          { sh1 with held := sh1.held ++ (positions u.unit.mask).flatMap fun p =>
              regs.map fun r => ⟨id, tkn.getD 0, .v p r, drain⟩ }) s2
        .next (retireAll s3 us)

/-- `mx.ldw` (R248). -/
def execMxLdw (la : BitVec 4) (w f : SReg) (s : State) : Res :=
  mxIssue (.mxLdw la w f) s none [] false (fun l => .ldw (rdS l w) (rdSk l f 2) (rdSk l f 3))
    fun l => halfCheck l (some (rdS l w)) (rdSk l f 2) (rdSk l f 3) true

/-- `mx.flip` (R249). -/
def execMxFlip (la : BitVec 4) (s : State) : Res := mxIssue (.mxFlip la) s none [] false (fun _ => .flip) fun _ => none

/-- `mx.run` (R250). -/
def execMxRun (la : BitVec 4) (tk i : Ix3) (a f : SReg) (s : State) : Res :=
  mxIssue (.mxRun la tk i a f) s (some tk) [] false (fun l => .run i.toNat (rdS l a) (rdSk l f 0) (rdSk l f 1))
    fun l => halfCheck l (some (rdS l a)) (rdSk l f 0) (rdSk l f 1) false

/-- `mx.run.v` (R245, R250). -/
def execMxRunV (la : BitVec 4) (tk i : Ix3) (vx : VReg) (f : SReg) (s : State) : Res :=
  mxIssue (.mxRunV la tk i vx f) s (some tk) ((upto 32).map (vx.toNat + ·)) false
    (fun l => .runV i.toNat vx.toNat (rdSk l f 0) (rdSk l f 1))
    fun l => halfCheck l none (rdSk l f 0) (rdSk l f 1) false

/-- `mx.cmat` needs a filled active plane (R244 check 2). -/
def planeCheck (c : Ctx) : Option (Nat × Nat) := if (planesAt (engineOf c)).1.isNone then some (17, 1) else none

/-- `mx.cmat.id` (R251). -/
def execMxCmatId (la : BitVec 4) (tk i : Ix3) (s : State) : Res :=
  mxIssue (.mxCmatId la tk i) s (some tk) [] false (fun _ => .cmatId i.toNat) planeCheck
/-- `mx.cmat.tr` (R251). -/
def execMxCmatTr (la : BitVec 4) (tk i : Ix3) (s : State) : Res :=
  mxIssue (.mxCmatTr la tk i) s (some tk) [] false (fun _ => .cmatTr i.toNat) planeCheck
/-- `mx.cmat.perm` (R251). -/
def execMxCmatPerm (la : BitVec 4) (tk i : Ix3) (vx : VReg) (s : State) : Res :=
  mxIssue (.mxCmatPerm la tk i vx) s (some tk) [vx.toNat] false (fun _ => .cmatPerm i.toNat vx.toNat) planeCheck
/-- `mx.cmat.sum` (R251). -/
def execMxCmatSum (la : BitVec 4) (tk i : Ix3) (s : State) : Res :=
  mxIssue (.mxCmatSum la tk i) s (some tk) [] false (fun _ => .cmatSum i.toNat) planeCheck

/-- `mx.drain` (R252). -/
def execMxDrain (la : BitVec 4) (tk i : Ix3) (fmt : Fmt) (sat : Bool) (rm : Rm) (vx vy : VReg) (cb : SReg) (s : State) : Res :=
  let n := vy.toNat - vx.toNat + 1
  mxIssue (.mxDrain la tk i fmt sat rm vx vy cb) s (some tk) ((upto n).map (vx.toNat + ·)) true
    (fun l => .drain i.toNat fmt sat rm vx.toNat vy.toNat (rdS l cb).toNat)
    fun l =>
      let c0 := (rdS l cb).toNat
      if c0 % drainElems fmt ≠ 0 then some (4, 0)
      else if 64 < c0 + n * drainElems fmt then some (17, 2) else none

/-- `mx.zero` (R253). -/
def execMxZero (la : BitVec 4) (i : Ix3) (s : State) : Res :=
  mxIssue (.mxZero la i) s none [] false (fun _ => .zero i.toNat) fun _ => none

/-- `mx.fence` (R254): every earlier lane write is done when it issues, and later commands see it. -/
def execMxFence (la : BitVec 4) (s : State) : Res :=
  mxGroup (.mxFence la) s fun c us =>
    .next (retireAll (us.foldl (fun s u => u.modSheaf s fun sh => { sh with loose := [], looseB := [] }) c.st) us)

/-- `mx.beg` (R270). -/
def execMxBeg (la : BitVec 4) (i : Ix3) (n : Bool) (s : State) : Res :=
  mxGroup (.mxBeg la i n) s fun c us =>
    let e := engineOf c
    let sn := if n then 1 else 0
    let l := leadCtx c us
    if 16 ≤ e.queue.length then .next (waitAt c c.st (.room .engine))
    else if (jobOf e sn).state != .free || (upto 2).any fun m => (jobOf e m).state == .opened && (jobOf e m).tile == i.toNat then
      .next (trapEach c.st us 17 3)
    else
      let (id, s1) := fresh c.st
      let j : Job := { Job.zero with
        state := .opened, tile := i.toNat, tau := l.sheaf.sys.bthr &&& 0x7FFFFFFF
        mode := bits l.sheaf.sys.bmode.toNat 1 0, slots := mxSlots c, base := mxBase c }
      let cmd : MxCmd := ⟨id, .beg i.toNat sn, c.tid, mxSlots c, mxBase c, mxRows us, none, mxTag us, [], []⟩
      let s2 := modCore s1 c.core fun k => { k with engine := { setJob k.engine sn j with queue := k.engine.queue ++ [cmd] } }
      .next (retireAll (modTeam s2 c.tid (count 19 1)) us)

/-- `mx.redo` (R276). -/
def execMxRedo (la : BitVec 4) (tk i : Ix3) (n : Bool) (s : State) : Res :=
  mxGroup (.mxRedo la tk i n) s fun c us =>
    let e := engineOf c
    let sn := if n then 1 else 0
    let j := jobOf e sn
    if us.any fun u => (tokAt u.sheaf tk.toNat).pending then .next (waitAt c c.st (.tokens (2 ^ tk.toNat)))
    else if 16 ≤ e.queue.length then .next (waitAt c c.st (.room .engine))
    else if j.state != .held || j.tile != i.toNat then .next (trapEach c.st us 17 3)
    else
      let (id, s1) := fresh (us.foldl (fun s u => acquired u s (2 ^ tk.toNat)) c.st)
      let cmd : MxCmd := ⟨id, .redo i.toNat sn, c.tid, mxSlots c, mxBase c, mxRows us, some tk.toNat, mxTag us, [], []⟩
      let s2 := modCore s1 c.core fun k => { k with engine :=
        { setJob k.engine sn { j with state := .rerunning, redoTk := some tk.toNat } with queue := k.engine.queue ++ [cmd] } }
      let s3 := us.foldl (fun s u => u.modSheaf s fun sh => setTok sh tk.toNat ⟨true, 0⟩) s2
      .next (retireAll (modTeam s3 c.tid (count 23 1)) us)

/-! ### `mx.wait` and the end of a job (R255, R272, R275, R376) -/

/-- The unit of each sheaf that takes a bound trap: the oldest at the word (R376). -/
def trapUnits (us : List Ctx) : List Ctx :=
  ((us.map (·.slot)).eraseDups).filterMap fun sl => oldest (us.filter fun u => u.slot == sl)

/-- A bound trap in every sheaf of the swath (R275, R376). -/
def boundTrap (s : State) (us : List Ctx) (v : Word) (tile slot : Nat) (rows : BitVec 64) : State :=
  (trapUnits us).foldl (fun s u =>
    let s1 := u.modSheaf s fun sh => { sh with sys := { sh.sys with
      uepc := u.unit.pc
      ucause := BitVec.ofNat 32 (40 + tile * 2 ^ 8 + slot * 2 ^ 11)
      urows := rows
      sstat := sh.sys.sstat ||| 4 } }
    u.modUnit s1 fun x => { x with pc := v, wait := .ready, wins := [] }) s

/-- The units wait at their word while the re-run of a job proceeds (R272). -/
def waitAll (s : State) (us : List Ctx) (n : Nat) : State := us.foldl (fun s u => waitAt u s (.room (.job n))) s

/-- The job that a complete token ends, in a slot (R272). -/
def endingJob (e : Engine) (slots : List Nat) (tk : Nat) : Option (Nat × Job) :=
  ((upto 2).map fun n => (n, jobOf e n)).find? fun p =>
    p.2.slots == slots && !p.2.lost && p.2.lastTk == some tk && (p.2.state == .opened || p.2.tripped)

/-- The wait on a token of `mx.redo` makes the trip check of each re-run that it stands for: a trip sets FT in the sheaves of the waiting
swath (R276; log 57). -/
def endRedo (s : State) (c : Ctx) (tk : Nat) : State :=
  let e := (coreOf s c.core).engine
  let mine := fun j : Job => j.slots == mxSlots c && j.redoTk == some tk
  (e.redone.filter mine).foldl (fun s j =>
    let trips := tripRows e j
    if trips = 0 then s
    else setFT (modTeam s c.tid fun t => count 20 (popBelow trips.toNat 64) t) c.tid j.slots j.tile)
    (if e.redone.any mine then modCore s c.core fun k => { k with engine := { k.engine with redone := k.engine.redone.filter fun j => !mine j } } else s)

/-- The units that stand at the ending `mx.wait`: those of its swath, or of a G sheaf alone the issuing one and those that
wait at the word (R376). -/
def atWait (c : Ctx) (us : List Ctx) : List Ctx :=
  if inSwath c.sheaf then us else
  us ++ (c.sheaf.units.filter fun u => u.1 != c.uid && u.2.pc == c.unit.pc && u.2.wait != .ready && c.sheaf.trapped != some u.1).map
    fun u => { c with uid := u.1, unit := u.2 }

/-- What a job's end does at its `mx.wait` of lookahead `la` (R272, R376): the state, and whether the wait completes. -/
def endJob (la : BitVec 4) (s : State) (c : Ctx) (us : List Ctx) (n : Nat) (j : Job) : State × Bool :=
  let e := (coreOf s c.core).engine
  let setJ := fun (s : State) (j : Job) => modCore s c.core fun k => { k with engine := setJob k.engine n j }
  if j.state = .rerunning then (waitAll s us n, false)
  else
    let trips := if j.mode = 0 then 0 else tripRows e j
    let cnt := fun (s : State) => modTeam s c.tid (count 20 (popBelow trips.toNat 64))
    if trips = 0 then (setJ s Job.zero, true)
    else if j.mode = 1 then (setJ (setFT (cnt s) c.tid j.slots j.tile) Job.zero, true)
    else
      let (mark, s) := fresh s
      let reissue := (waitAll (setJ (modTeam (cnt s) c.tid (count 21 1)) { j with state := .rerunning, mark := mark }) us n, false)
      if j.mode = 2 then reissue else
      let l := leadCtx c us
      let v := l.sheaf.sys.utvec
      if v = 0 then reissue
      else if us.any fun u => u.sheaf.sys.sstat.getLsbD 2 then (setJ (setFT (cnt s) c.tid j.slots j.tile) Job.zero, true)
      else
        let s1 := waitAll (setJ (cnt s) { j with state := .held, mark := mark }) us n
        if v.extractLsb' 0 2 ≠ 0 then
          (match oldest ((atWait c us).filter fun u => u.slot == l.slot) with
           | some u => match unitAt s1 u.tid u.slot u.uid with
             | some u1 => decodeTrap u1 s1 1 8 ((encode u1.team.ver (.mxWait la (BitVec.ofNat 3 (j.lastTk.getD 0)))).headD 0)
             | none => s1
           | none => s1, false)
        else (boundTrap (modTeam s1 c.tid (count 22 1)) (atWait c us) v j.tile n trips, false)

/-- The jobs that a wait ends, one after another until one traps or is run again (R272): the state, and whether the wait
completes. -/
def endJobs (la : BitVec 4) (c : Ctx) (us : List Ctx) (tk : Nat) : Nat → State → State × Bool
  | 0, s => (s, true)
  | f + 1, s =>
    match endingJob (coreOf s c.core).engine (mxSlots c) tk with
    | none => (s, true)
    | some (n, j) =>
      let r := endJob la s c us n j
      if r.2 then endJobs la c us tk f r.1 else r

/-- `mx.wait` (R255). -/
def execMxWait (la : BitVec 4) (tk : Ix3) (s : State) : Res :=
  mxGroup (.mxWait la tk) s fun c us =>
    let t := tk.toNat
    if us.any fun u => (tokAt u.sheaf t).pending then .next (waitAt c c.st (.tokens (2 ^ t)))
    else
      let s1 := us.foldl (fun s u => endWins u (waitedFor u s (2 ^ t))) c.st
      let r := endJobs la c us t 3 (endRedo s1 c t)
      .next (if r.2 then retireAll r.1 us else r.1)

/-! ### Bound instructions (R266, R267) -/

/-- A command in the engine's queue names a tile (R247). -/
def tilePending (e : Engine) (tile : Nat) : Bool :=
  e.queue.any fun c => match c.op with
    | .zero i | .drain i _ _ _ _ _ _ | .beg i _ | .redo i _ => i == tile
    | op => passTile op == some tile

/-- The unspecified value of a bound row in this step: no reserved code, which the device never writes (R56). -/
def freeBound (c : Ctx) (row : Nat) : BitVec 16 := bndRead ((freeAt c.st (2 ^ 27 + row)).setWidth 16)
/-- A bound row as `bd` words read it: unspecified for a tile that a pending command names (R247). -/
def bdRow (c : Ctx) (e : Engine) (x : BdSrc) (row : Nat) : BitVec 16 :=
  match x with
  | .tile i => if tilePending e i.toNat then freeBound c row else boundRow e i.toNat row
  | .a => Tbl.get 0 e.aBuf row
  | .w => Tbl.get 0 e.wBuf row
/-- A bound row written by a `bd` word. -/
def bdPut (c : Ctx) (x : BdSrc) (row : Nat) (b : BitVec 16) (e : Engine) : Engine :=
  match x with
  | .tile i => setBound e i.toNat row (if tilePending e i.toNat then freeBound c row else b)
  | .a => { e with aBuf := Tbl.set 0 e.aBuf row b }
  | .w => { e with wBuf := Tbl.set 0 e.wBuf row b }

/-- `bd.get` (R267). -/
def execBdGet (h : Hdr) (vd : VReg) (x : BdSrc) (s : State) : Res :=
  laneTo (.bdGet h vd x) h vd s fun c p =>
    let e := engineOf c
    let r := rowOf c p
    match x with
    | .w => bdRow c e .w (r + 64) ++ bdRow c e .w r
    | y => (bdRow c e y r).setWidth 32

/-- A `bd` word that writes rows of the engine. -/
def bdWrite (i : Instr) (h : Hdr) (s : State) (f : Ctx → Engine → Nat → Engine) : Res :=
  issue i s fun c =>
    let ps := activeOf c h
    .next (retireLane c (modCore c.st c.core fun k => { k with engine := ps.foldl (f c) k.engine }) 3 ps)

/-- `bd.set` (R267). -/
def execBdSet (h : Hdr) (mx : Bool) (x : BdSrc) (va : VReg) (s : State) : Res :=
  bdWrite (.bdSet h mx x va) h s fun c e p =>
    let w := rdV c p va
    let one := fun (e : Engine) (row : Nat) (n : BitVec 16) =>
      bdPut c x row (if mx then bndMax (bdRow c e x row) (bndRead n) else bndRead n) e
    let e1 := one e (rowOf c p) (w.extractLsb' 0 16)
    if x = .w then one e1 (rowOf c p + 64) (w.extractLsb' 16 16) else e1

/-- `bd.clr` (R267). -/
def execBdClr (h : Hdr) (x : BdSrc) (s : State) : Res :=
  bdWrite (.bdClr h x) h s fun c e p =>
    let e1 := bdPut c x (rowOf c p) 0 e
    if x = .w then bdPut c x (rowOf c p + 64) 0 e1 else e1

/-! ### Events -/

/-- MATRIX_COMMAND_PERFORM (R242): nothing where the queue is empty. -/
def execMatrixCommandPerform (die core : Nat) (s : State) : Res := .next (performHead s (coreKey die core))

/-- JOB_RE_RUN (R272, R273): a tripped job is run again once the commands before its `mx.wait` are performed, checked again,
and its slot is freed. -/
def execJobReRun (die core slot : Nat) (s : State) : Res :=
  let k := coreKey die core
  let e := (coreOf s k).engine
  let n := slot % 2
  let j := jobOf e n
  match e.holder.bind fun t => (Tbl.find s.teams t).map fun x => (t, x) with
  | none => .next s
  | some (tid, t) =>
    if !reRunDue e n then .next s else
    match readsError s t (jobReads j) with
    | some a => .next (eccReset s die t.asid a)
    | none =>
    let e1 := reRun s t e n
    let trips := tripRows e1 j
    let passes := (j.log.filter fun l => (passTile l.cmd.op).isSome).length
    let s1 := modCore s k fun c => { c with engine := setJob e1 n Job.zero }
    let s2 := modTeam s1 tid fun t => count 20 (popBelow trips.toNat 64) (count 24 (256 * passes) t)
    .next (if trips = 0 then s2 else setFT s2 tid j.slots j.tile)

end Sys2Proof.Machine
end

