-- ==== Sys2Proof/Machine/Rounds.lean ====
section
/-! DEFINITION. Rounds of sowing teams, the silo, and barriers (R156 to R179, R307 to R309): arrivals, what completes or
fails when a unit arrives or a thread ends, and the round instructions. -/

namespace Sys2Proof.Machine

/-- Every unit of a team. -/
def teamUnits (s : State) (tid : Nat) : List Ctx :=
  match Tbl.find s.teams tid with
  | none => []
  | some t => t.sheaves.flatMap fun sh => sh.2.units.map fun u => ⟨s, tid, sh.1, u.1, t, sh.2, u.2⟩

/-- The parked sides of a sheaf that have threads. -/
def sidesOf (sh : Sheaf) : List Side := sh.splits.flatMap fun r => r.2.parked.filter fun p => p.mask != 0
/-- Change every parked side of a sheaf. -/
def modSides (sh : Sheaf) (f : Side → Side) : Sheaf :=
  { sh with splits := sh.splits.map fun r => (r.1, { r.2 with parked := r.2.parked.map f }) }
/-- Change every sheaf of a team. -/
def modSheaves (s : State) (tid : Nat) (f : Nat → Sheaf → Sheaf) : State :=
  modTeam s tid fun t => { t with sheaves := t.sheaves.map fun sh => (sh.1, f sh.1 sh.2) }

/-- A parked side has yet to arrive for a unit that arrives: it has yet to run, or, where the unit arrives at a round word, it stands
at a barrier (R159, R307; log 21). -/
def Parked.yet (side how : Parked) : Bool :=
  match side with
  | .fresh => true
  | .atBar _ => how == .atSow || how == .atSowQ
  | _ => false

/-- The nearest record, from one upward through its parents, that holds a parked side that has yet to arrive; and its oldest
such side. -/
def freshAbove (how : Parked) (sh : Sheaf) : Nat → Option Nat → Option (Nat × Split × Side)
  | 0, _ => none
  | _ + 1, none => none
  | f + 1, some rid =>
    match Tbl.find sh.splits rid with
    | none => none
    | some r =>
      match r.parked.find? fun p => p.arrived.yet how && p.mask != 0 with
      | some p => some (rid, r, p)
      | none => freshAbove how sh f r.parent

/-- The record that parks a unit that changes places with a side of record `o`: from the unit's own upward, the first with
another member that runs, or else `o` itself (log 21). -/
def parkRecord (sh : Sheaf) (o : Nat) : Nat → Nat → Nat
  | 0, rid => rid
  | f + 1, rid =>
    if rid = o then o else
    match Tbl.find sh.splits rid with
    | some r => if 1 < r.live then rid else match r.parent with
      | some q => parkRecord sh o f q
      | none => rid
    | none => rid

/-- An arriving unit changes places with the oldest parked side of its record that has not arrived, or where its record has
none of the nearest record above it that has one, so that no round or barrier waits on a side that serialisation holds back
(R159, R307; log 21). A unit parked by another record than its own keeps its own as `Side.inner`, and the counts of running
members follow. -/
def sideSwap (how : Parked) (uid : Nat) (now : Nat) (sh : Sheaf) (nid : Nat) : Sheaf × Nat :=
  match Tbl.find sh.units uid with
  | none => (sh, nid)
  | some u =>
    match u.inner, freshAbove how sh 17 u.inner with
    | some rid, some (o, r, p) =>
      let a := parkRecord sh o 17 rid
      let mine : Side := ⟨u.mask, u.pc, how, u.path, u.fenced, if a = rid then none else some rid⟩
      let freed := Tbl.put sh.splits o { r with parked := r.parked.erase p, live := if a = o then r.live else r.live + 1 }
      ({ sh with
         splits := Tbl.modify freed a fun x =>
           { x with parked := x.parked ++ [mine], live := if a = o then x.live else x.live - 1 }
         units := Tbl.put (Tbl.erase sh.units uid) nid { newUnit p.mask p.pc (some (p.inner.getD o)) r.age now with
           path := p.path, fenced := joinScopes p.fenced r.fenced } }, nid + 1)
    | _, _ => (sh, nid)

/-! ### Barriers (R307, R308) -/

/-- A unit, or a side that arrived, is held at a round word. -/
def atRound : Wait → Bool
  | .round _ => true | _ => false
/-- A unit waits at a team or gang barrier. -/
def atBar : Wait → Bool
  | .barTeam | .barGang => true | _ => false

/-- Where a unit that waits at a round word or a barrier stands as a side would. -/
def parkedAt : Wait → Option Parked
  | .round w => some (if w.kind = .sowQ then .atSowQ else .atSow)
  | .barTeam => some (.atBar false)
  | .barGang => some (.atBar true)
  | _ => none

/-- A side that was parked after the units of its sheaf had arrived, and that none of them can let go on any more, changes places
with one of them (R159, R307; log 21). -/
def freeSides (s : State) (tid : Nat) : State :=
  match Tbl.find s.teams tid with
  | none => s
  | some t => t.sheaves.foldl (fun s x =>
      if x.2.splits = [] || !(x.2.units.all fun u => (parkedAt u.2.wait).isSome) then s else
      match x.2.units.findSome? fun u => (parkedAt u.2.wait).bind fun how => (freshAbove how x.2 17 u.2.inner).map fun _ => (how, u.1) with
      | some (how, uid) => modUnits s tid x.1 fun now sh n => sideSwap how uid now sh n
      | none => s) s

/-- Every waiting unit of a team raises a cause; sides that arrived run again, and no round is held (R160, R308). -/
def failTeam (s : State) (tid : Nat) (us : List Ctx) (cause sub : Nat) : State :=
  trapEach (modSheaves (modTeam s tid fun t => { t with hold := .none }) tid fun _ sh => modSides sh fun p => { p with arrived := .fresh })
    us cause sub

/-- The units of a completed barrier continue; sides that arrived at it will (R307). At die scope they leave it with an acquire
(R289, R291). -/
def passBarrier (gang : Bool) (s : State) (tid : Nat) : State :=
  let s0 := match Tbl.find s.teams tid with
    | some t => if gang then dropClean s (coreKey t.die t.core) else s
    | none => s
  let s1 := (teamUnits s tid).foldl (fun s c => match unitAt s c.tid c.slot c.uid with
    | none => s
    | some c1 => advance c1 (hearAll c1 s) (c1.next 2)) s0
  modTeam (modSheaves s1 tid fun _ sh => modSides sh fun p =>
    if p.arrived = .atBar gang then { p with pc := p.pc + 8, arrived := .fresh } else p) tid (count 26 1)

/-- The teams of a team's gang that have not ended. -/
def gangOf (s : State) (t : Team) : List Nat :=
  (s.teams.filter fun x => x.2.plot == t.plot && x.2.gang == t.gang && !x.2.ended).map (·.1)

/-- A gang's barrier completes, or fails as MIXED, when every live unit of the gang has arrived (R307, R308). -/
def settleGang (s : State) (t : Team) : State :=
  let ids := gangOf s t
  let us := ids.flatMap (teamUnits s)
  let out := ids.any fun i => ((Tbl.find s.teams i).map (·.out)).getD true
  if us.isEmpty || out then s
  else if us.all fun c => c.unit.wait == .barGang then ids.foldl (passBarrier true) s
  else if us.all (fun c => c.unit.wait == .barGang || atRound c.unit.wait) && us.any (fun c => c.unit.wait == .barGang) then
    ids.foldl (fun s i => failTeam s i (teamUnits s i) 15 1) s
  else s

/-- Teams at `bar.gang` whose gang can now complete, or cannot any more, go on (R307 to R309). -/
def gangsGoOn (s : State) : State :=
  (s.teams.filter fun t => t.2.sheaves.any fun sh => sh.2.units.any fun u => u.2.wait == .barGang).foldl (fun s t =>
    if (teamUnits s t.1).any fun c => c.unit.wait == .barGang then settleGang s t.2 else s) s

/-- A team is ended for a fault: its plot retires FAULTED, and its gang goes on without it (R174, R307, R354, R383). -/
def endFaulted (s : State) (tid : Nat) : State :=
  gangsGoOn (endTeam (modTeam s tid fun t => { t with faulted := true }) tid)

/-! ### The threads of a round (R158, R161) -/

/-- An arrived thread: its place, its registers, its count and whether it is active. -/
structure Arrived where
  slot : Nat
  pos  : Nat
  th   : Thread
  n    : Nat
  act  : Bool
  deriving DecidableEq, Repr

/-- Insert in ascending rank. -/
def insertArrived (a : Arrived) : List Arrived → List Arrived
  | [] => [a]
  | b :: t => if a.th.rank ≤ b.th.rank then a :: b :: t else b :: insertArrived a t

/-- A unit's context at a sheaf with a given mask, no window open: as R158 reads an arrived thread's registers. -/
def arrivedCtx (s : State) (tid slot : Nat) (t : Team) (sh : Sheaf) (m : BitVec 16) (pc : Word) : Ctx :=
  ⟨s, tid, slot, 0, t, sh, newUnit m pc none 0 0⟩

/-- The units of a team and its arrived sides, each as a context. -/
def arrivedUnits (s : State) (tid : Nat) (t : Team) : List Ctx :=
  t.sheaves.flatMap fun sh =>
    (sh.2.units.map fun u => arrivedCtx s tid sh.1 t sh.2 u.2.mask u.2.pc)
    ++ (sidesOf sh.2).map fun p => arrivedCtx s tid sh.1 t sh.2 p.mask p.pc

/-- The arrived threads in ascending rank; an inactive one counts `off` (R158). -/
def arrivedThreads (us : List Ctx) (w : RoundWord) (off : Nat) : List Arrived :=
  (us.flatMap fun c => (positions c.unit.mask).map fun p =>
    let act := rdP c p (BitVec.ofNat 3 w.pred) != w.neg
    (⟨c.slot, p, threadAt c.sheaf p, if act then (readReg c (.v p w.va)).toNat else off, act⟩ : Arrived)).foldr
    insertArrived []

/-- The exclusive prefix sums of counts. -/
def prefixes : Nat → List Arrived → List (Arrived × Nat)
  | _, [] => []
  | p, a :: t => (a, p) :: prefixes (p + a.n) t

/-! ### The silo (R166 to R175) -/

/-- Bytes of a silo record (R168). -/
def recBytes (t : Team) : Nat := 32 + 32 * ((t.live + 7) / 8)
/-- Round up to a multiple of 65,536. -/
def up64k (n : Nat) : Nat := (n + 65535) / 65536 * 65536
/-- The address of a team's silo region (R170). -/
def siloAddr (t : Team) : Nat := t.siloBase + t.index * up64k (4096 + 16 * t.capacity * recBytes t)
/-- The offset above the silo's records. -/
def siloTop (t : Team) : Nat := if t.levels = [] then 4096 else t.top
/-- The pages that hold the header, if the silo holds a record, and the records below an offset (R173). -/
def siloPages (top : Nat) : List Nat := if top ≤ 4096 then [] else upto ((top - 1) / 65536 + 1)

/-- A silo record's words (R168). -/
def siloRecord (t : Team) (a : Arrived) (sg : Bool) (base first last : Nat) (rpc : Word) (r : Nat) : List Nat :=
  let tagged := a.th.tag.getLsbD 31
  [base % 2 ^ 32,
   (if tagged then 2 ^ 24 else 0) + (if tagged && sg then 2 ^ 23 else 0) + a.th.p.toNat % 128 * 2 ^ 16 + base / 2 ^ 32 % 2 ^ 16,
   first, last, rpc.toNat, r, a.th.tag.toNat, 0]
  ++ (upto (8 * ((t.live + 7) / 8))).map fun i => if i < t.live then (Tbl.get 0 a.th.v i).toNat else 0

/-- A member's tag word (R317). -/
def tagWith (w : Word) (m : Nat) : Word :=
  BitVec.ofNat 32 (w.toNat / 2 ^ 31 * 2 ^ 31 + m % 64 * 2 ^ 25 + w.toNat % 2 ^ 25)
/-- The tags that a silo record carries: its parent's, or of one spilled by `sow.sg` those of its ordinals (R163, R168, R316). -/
def spillTags (tag : Word) (sg : Bool) (first last : Nat) : List Word :=
  if sg && tag.getLsbD 31 then (upto (last + 1 - first)).map fun k => tagWith tag (first + k) else [tag]

/-- Write virtual memory whose mapping has been checked. -/
def vput (s : State) (t : Team) (va : Nat) (bs : List Byte) : State :=
  match vwrite s t.die t.asid va bs with
  | .ok s1 => s1
  | _ => s

/-- The first spill of a team lays out the header of its silo: nothing below a level's entry and no round total is there
(R170). -/
def siloLayout (s : State) (t : Team) : State :=
  if t.floorOk then s else vput s t (siloAddr t + 0x200) (List.replicate 0xE00 0)

/-- Write the header of a team's silo: depth, floor, top and levels (R170). -/
def siloHeader (s : State) (tid : Nat) : State :=
  match Tbl.find s.teams tid with
  | none => s
  | some t =>
    let a := siloAddr t
    let s1 := vput s t a ([t.levels.length, t.floor, siloTop t, if t.floorOk then 1 else 0].flatMap (toBytes 4))
    vput s1 t (a + 0x100) (t.levels.flatMap fun l => [l.first, l.count, l.round, l.pc.toNat].flatMap (toBytes 4))

/-- The silo pages of a team become those below its top, or none; INUSE follows (R173), whose descriptor cannot be read or written
only with its context reset (R479). -/
def settlePages (s : State) (tid : Nat) : State :=
  match Tbl.find s.teams tid with
  | none => s
  | some t =>
    let ps := if t.levels = [] then [] else siloPages (siloTop t)
    if ps.length ≠ t.pages.length && descBad s t.asid then descriptorError s t.asid else
    let use := desc s t.asid 0xC 4 + ps.length - t.pages.length
    let s1 := if ps.length = t.pages.length then s else setDesc s t.asid 0xC use
    let s2 := if ps.length < t.pages.length then { s1 with stalls := Tbl.erase s1.stalls t.asid } else s1
    modTeam s2 tid fun t => { t with
      pages := ps, counters := Tbl.set 0 t.counters 8 (Max.max (Tbl.get 0 t.counters 8) ps.length) }

/-- A fault record of the harrow for a team: its round waits for the supervisor, but an uncorrectable error is not restartable and
ends the team (R174, R398). -/
def siloFault (s : State) (tid : Nat) (t : Team) (cause va kind : Nat) : State :=
  let r : FRec := { FRec.zero with
    src := .silo, cause := cause, asid := t.asid, team := t.index, plot := t.plot % 4096, addr := va, kind := kind }
  if cause = 8 then endFaulted (post s t.die r) tid
  else modTeam (postFault s t.die { r with rst := true, work := .siloRound tid }) tid fun t => { t with hold := .fault }

/-! ### Placement (R162, R172) -/

/-- A survivor before its placement. -/
structure Survivor where
  v    : Tbl Word
  p    : BitVec 8
  rank : Nat
  ord  : Nat
  tag  : Word
  deriving DecidableEq, Repr

/-- A sheaf receives the survivors of its slice, or is idle (R162). What matrix commands note of its registers stays with their
positions (DESIGN CHOICE: R247 speaks of no round between a command and its wait; log 67). -/
def placeSheaf (now nid : Nat) (pc : Word) (mine : List Survivor) (sh : Sheaf) : Sheaf :=
  { sh with
    threads := mine.mapIdx fun i x => (i, ⟨x.v, x.p, BitVec.ofNat 32 x.ord, x.rank, x.tag⟩)
    remap := mine.mapIdx fun i _ => (i, i)
    splits := []
    units := if mine = [] then [] else [(nid, newUnit (BitVec.ofNat 16 (2 ^ mine.length - 1)) pc none sh.age now)] }

/-- The harrow places a slice: its survivors by slice index, every sheaf's unit at `pc` (R162). -/
def placeSlice (s : State) (tid : Nat) (pc : Word) (xs : List Survivor) : State :=
  let s1 := modSheaves s tid fun slot sh =>
    placeSheaf (sheafNow s tid slot) (s.nextId + slot) pc (xs.drop (16 * slot) |>.take 16) sh
  modTeam { s1 with nextId := s1.nextId + 64 } tid (count 3 xs.length)

/-! ### A round takes place or fails (R158 to R164) -/

/-- What a `sow` round needs and does, before its checks. -/
structure Plan where
  r      : Nat
  base   : Nat
  total  : Nat
  rows   : List (Arrived × Nat)
  spill  : List (Arrived × Nat)
  entry  : Bool
  deriving DecidableEq, Repr

/-- The plan of a round (R161). The harrow keeps the depth, levels, floor and totals of its silo and writes them to the header; it
does not read them back from there (log 54). -/
def planRound (t : Team) (arr : List Arrived) : Plan :=
  let rows := prefixes 0 arr
  let r := t.round + 1
  { r := r, base := Tbl.get 0 t.totals r, total := (arr.map (·.n)).sum, rows := rows
    spill := rows.filter fun a => decide (0 < a.1.n) && decide (t.capacity < a.2 + a.1.n)
    entry := t.levels != [] }

/-- The subcode of a failing `sow` round, in R160's order. -/
def planFault (t : Team) (sg : Bool) (p : Plan) : Option Nat :=
  if 2 ^ 48 < p.base + p.total then some 3
  else if p.spill ≠ [] && decide (16 ≤ t.levels.length) then some 4
  else if p.entry && decide (t.floor + 256 < p.r) then some 5
  else if sg && p.rows.any (fun a => a.1.th.tag.getLsbD 31 && decide (bits a.1.th.tag.toNat 24 19 + 1 < a.1.n)) then some 6
  else none

/-- The ordinals of a parent that are resident, as survivors (R161 to R163). -/
def residents (t : Team) (sg : Bool) (p : Plan) : List Survivor :=
  p.rows.flatMap fun a => (upto (Min.min a.1.n (t.capacity - a.2))).map fun o =>
    ⟨a.1.th.v, a.1.th.p, p.base + a.2 + o, o,
     if sg && a.1.th.tag.getLsbD 31 then tagWith a.1.th.tag o else a.1.th.tag⟩

/-- The first page, of those that a round writes, that is not mapped writable. -/
def siloUnmapped (s : State) (t : Team) (pages : List Nat) : Option (Nat × Trans) :=
  (pages.map fun p => (siloAddr t + 65536 * p, translate s t.die t.asid (siloAddr t + 65536 * p) .write)).find? fun x =>
    match x.2 with
    | .ok _ => false
    | _ => true

/-- The pages that a round writes: the header's, and those of the records it pushes (R174). -/
def planPages (t : Team) (p : Plan) : List Nat :=
  let top := siloTop t
  if p.spill = [] then (if p.entry then [0] else [])
  else 0 :: ((siloPages (top + p.spill.length * recBytes t)).filter fun n => n != 0 && decide (top / 65536 ≤ n))

/-- The pool has no room for the pages that a round would add (R173, R174). -/
def poolShort (s : State) (t : Team) (pages : List Nat) : Bool :=
  let new := pages.filter fun n => !t.pages.contains n
  new != [] && decide (desc s t.asid 8 4 < desc s t.asid 0xC 4 + new.length)

/-- The records of a spilling round are pushed in descending rank (R167). -/
def pushSpill (s : State) (tid : Nat) (t : Team) (sg : Bool) (p : Plan) (rpc : Word) : State :=
  let top := siloTop t
  let out := p.spill.reverse
  let s1 := (out.zipIdx).foldl (fun s x =>
    vput s t (siloAddr t + top + x.2 * recBytes t)
      ((siloRecord t x.1.1 sg (p.base + x.1.2) (t.capacity - x.1.2) (x.1.1.n - 1) rpc p.r).flatMap (toBytes 4))) (siloLayout s t)
  modTeam s1 tid fun t =>
    let t1 := count 4 (p.total - t.capacity) (count 5 out.length t)
    { t1 with
      floorOk := true, floor := if t.floorOk then t.floor else p.r
      top := top + out.length * recBytes t
      levels := t.levels ++ [⟨top, out.length, p.r, rpc, out.map fun x => spillTags x.1.th.tag sg (t.capacity - x.2) (x.1.n - 1)⟩]
      counters := Tbl.set 0 t1.counters 7 (Max.max (Tbl.get 0 t1.counters 7) (t.levels.length + 1)) }

/-- A `sow` round that takes place (R161 to R169). One that leaves no thread and no record ends its team (R157).
A total of 2^48 is written with its bit 48 (log 54). -/
def doRound (s : State) (tid : Nat) (t : Team) (sg : Bool) (p : Plan) (rpc : Word) : State :=
  let s1 := if p.spill = [] then s else pushSpill s tid t sg p rpc
  let s2 := if !p.entry then s1 else
    let v := p.base + p.total
    modTeam (vput s1 t (siloAddr t + 0x800 + 8 * (p.r - t.floor - 1)) (toBytes 8 (2 ^ 63 + v))) tid fun t =>
      { t with totals := Tbl.put t.totals p.r v }
  let s3 := if p.spill = [] then s2 else settlePages (siloHeader s2 tid) tid
  closeTeam (placeSlice (modTeam s3 tid fun t => { count 2 1 t with round := p.r, hold := .none }) tid rpc (residents t sg p)) tid

/-- A `sow` round: its failures, its pool and mapping checks, then its effect (R160, R161, R174). -/
def sowRound (s : State) (tid : Nat) (t : Team) (w : RoundWord) (us : List Ctx) (pc : Word) : State :=
  let arr := arrivedThreads us w 1
  let sg := w.kind == .sowSg
  let p := planRound t arr
  match planFault t sg p with
  | some sub => failTeam s tid (teamUnits s tid) 14 sub
  | none =>
    let pages := planPages t p
    if pages ≠ [] && descBad s t.asid then descriptorError s t.asid
    else if pages.any fun p => rangeWaits s t.die t.asid (siloAddr t + 65536 * p) 1 then
      modTeam s tid fun t => { t with hold := .walker }
    else if poolShort s t pages then
      modTeam s tid fun t => { t with hold := .pool }
    else match siloUnmapped s t pages with
    | some (va, .fail cause) => siloFault s tid t cause va 1
    | some (_, _) => descriptorError s t.asid
    | none => doRound s tid t sg p (pc + 12)

/-- A `sow.q` round: prefixes and total, saturated; every unit continues after its word (R166). Its writes are writes of a lane
word like any other (R246, R247). -/
def sowqRound (s : State) (tid : Nat) (w : RoundWord) (us : List Ctx) : State :=
  let arr := arrivedThreads us w 0
  let tot := (arr.map (·.n)).sum
  let cap := fun n => BitVec.ofNat 32 (Min.min n 0xFFFFFFFF)
  let s1 := (prefixes 0 arr).foldl (fun s x =>
    if !x.1.act then s else
    [(w.vd, cap x.2), (w.vd + 1, cap tot)].foldl (fun s v => modTeam s tid fun t =>
      let fv := freeAt s (x.1.slot * 2 ^ 14 + keyCode (.v x.1.pos v.1))
      { t with sheaves := Tbl.modify t.sheaves x.1.slot fun sh => writeNoted (mayCommand t sh) fv sh (.v x.1.pos v.1) v.2 }) s) (modTeam s tid (count 2 1))
  modSheaves s1 tid fun slot sh => modSides
    { sh with units := sh.units.map fun u =>
        (u.1, { u.2 with pc := u.2.pc + 12, wait := .ready, wins := [], last := sheafNow s1 tid slot, view := none }) }
    fun p => if p.arrived = .atSowQ then { p with pc := p.pc + 12, arrived := .fresh } else p

/-- The round of a team whose live threads have all arrived (R158, R160). -/
def tryRound (s : State) (tid : Nat) (t : Team) : State :=
  let us := teamUnits s tid
  let all := arrivedUnits s tid t
  let held := t.sheaves.any fun sh => sh.2.splits.any fun r => r.2.arrived != 0
  match us with
  | [] => s
  | u :: _ =>
    match u.unit.wait with
    | .round w =>
      if !held && all.any (fun c => c.unit.pc != u.unit.pc) then failTeam s tid us 14 1
      else if held then failTeam s tid us 14 2
      else if w.kind = .sowQ then sowqRound s tid w all
      else sowRound s tid t w all u.unit.pc
    | _ => s

/-- What the waiting units of a team now complete or fail at: a round, a barrier of its own (R158, R160, R307, R308). -/
def settleTeam (s : State) (tid : Nat) : State :=
  match Tbl.find s.teams tid with
  | none => s
  | some t =>
    if t.out || t.ended || t.hold == .fault then s else
    let us := teamUnits s tid
    let sides := t.sheaves.flatMap fun sh => sidesOf sh.2
    if us.isEmpty then modTeam s tid fun t => { t with hold := .none }
    else if us.all (fun c => atRound c.unit.wait) && sides.all (fun p => p.arrived == .atSow || p.arrived == .atSowQ) then
      tryRound s tid t
    else if us.all (fun c => atRound c.unit.wait || atBar c.unit.wait) && us.any (fun c => atBar c.unit.wait) then
      if us.any fun c => atRound c.unit.wait then failTeam s tid us 15 1
      else if us.all fun c => c.unit.wait == .barTeam then passBarrier false s tid
      else s
    else s

/-- After a unit has arrived, ended or lost threads: its swath, its jobs, its team and its gang settle. A round that can take place
does so before a gang at a barrier is looked at (R158 before R308; DESIGN CHOICE, log 21). -/
def settle (s : State) (tid slot : Nat) : State :=
  gangsGoOn (settleTeam (freeSides (abandonJobs (checkSwath s tid slot) tid) tid) tid)

/-! ### Arrivals -/

/-- The lane cycles of a word at which a unit arrives, which it has issued, with no window open (R80, R94, R99, R307). -/
def chargeArrival (c0 : Ctx) (s : State) (w : Wait) : State :=
  let c : Ctx := { c0 with unit := { c0.unit with wins := [] } }
  match w with
  | .round x =>
    let ps := (positions c.unit.mask).filter fun p => rdP c p (BitVec.ofNat 3 x.pred) != x.neg
    chargeCycles c s (Max.max 1 ps.length) (ps.map fun p => (threadAt c.sheaf p).tag)
  | _ => chargeCycles c s 1 [c.tag]

/-- A unit arrives at a word that its team meets at, which ends its windows: cancelled threads end there (R176, R309), the
rest wait, changing places with a parked side (R159, R307). A `bar.gang` is a release at die scope (R291). A round word reads its
registers with no window open (R94; log 51). -/
def arrive (c : Ctx) (w : Wait) (how : Parked) (cancels : Bool) : State :=
  let s1 := chargeArrival c (endWins c c.st) w
  let s2 := if cancels then cancelPoint s1 c.tid c.slot c.uid else s1
  let s3 := match unitAt s2 c.tid c.slot c.uid with
    | none => s2
    | some c1 =>
      let s4 := if w = .barGang then flushCore s2 c1.core else s2
      modUnits (waitAt c1 s4 w) c.tid c.slot fun now sh n => sideSwap how c.uid now sh n
  settle s3 c.tid c.slot

/-- A word that is a cancellation point at its issue: where it fails a check, its unit's cancelled threads end first (R389). -/
def issuePoint (i : Instr) (s : State) (k : Ctx → Res) : Res :=
  match ctxOf s with
  | none => .refused .noIssuingUnit
  | some c =>
    if (regsOk c i && roleOk c i) || goneAt c = 0 then issue i s k else
    let s1 := passPoint c s
    match unitAt s1 c.tid c.slot c.uid with
    | none => .next (settle s1 c.tid c.slot)
    | some _ => issue i s1 k

/-- `sow` (R158 to R166). -/
def execSow (h : Hdr) (va : VReg) (s : State) : Res :=
  issuePoint (.sow h va) s fun c => .next (arrive c (.round ⟨.sow, va.toNat, 0, h.pred.toNat, h.neg⟩) .atSow true)
/-- `sow.sg` (R163, R166). -/
def execSowSg (h : Hdr) (va : VReg) (s : State) : Res :=
  issuePoint (.sowSg h va) s fun c => .next (arrive c (.round ⟨.sowSg, va.toNat, 0, h.pred.toNat, h.neg⟩) .atSow true)
/-- `sow.q` (R166). -/
def execSowQ (h : Hdr) (vd va : VReg) (s : State) : Res :=
  issue (.sowQ h vd va) s fun c => .next (arrive c (.round ⟨.sowQ, va.toNat, vd.toNat, h.pred.toNat, h.neg⟩) .atSowQ false)

/-- `bar.team` (R307 to R309). -/
def execBarTeam (s : State) : Res := issue .barTeam s fun c => .next (arrive c .barTeam (.atBar false) true)
/-- `bar.gang` (R307 to R309). -/
def execBarGang (s : State) : Res := issue .barGang s fun c => .next (arrive c .barGang (.atBar true) true)
/-- `bar.swath`: a collective word, a cancellation point (R307, R309). -/
def execBarSwath (s : State) : Res :=
  issuePoint .barSwath s fun c =>
    let s1 := passPoint c (endWins c c.st)
    match unitAt s1 c.tid c.slot c.uid with
    | none => .next (settle s1 c.tid c.slot)
    | some c1 => collective .bar c1 fun us =>
      let s2 := us.foldl (fun s u => passPoint { u with st := s } (endWins u s)) s1
      let s3 := modTeam (us.foldl (fun s u => hearAll u s) (retireAll s2 us)) c.tid (count 26 1)
      .next (if us.all fun u => goneAt u == 0 then s3 else settle s3 c.tid c.slot)

/-! ### Events of the harrow -/

/-- A round suspended on the pool, or for a walker, is tried again, but that of a team that is swapped out only after its return (R174,
R177, R395). -/
def retryRound (s : State) (tid : Nat) : State :=
  match Tbl.find s.teams tid with
  | some t => if (t.hold = .pool || t.hold = .walker) && !t.out then settle (modTeam s tid fun t => { t with hold := .none }) tid 0 else s
  | none => s

/-- The rounds of teams that a test holds of, suspended on the pool on dies whose clock runs, are tried again (R174, R480). -/
def retryRounds (s : State) (p : Team → Bool) : State :=
  ((s.teams.filter fun t => t.2.hold == .pool && p t.2 && clockRuns (dieOf s t.2.die)).map (·.1)).foldl retryRound s

/-- SOW_ROUND_RETRY (R174). -/
def execSowRoundRetry (tid : Nat) (s : State) : Res :=
  .next (retryRound s tid)

/-- A silo record as read back (R168). -/
def recSurvivor (t : Team) (bs : List Byte) (o : Nat) : Survivor :=
  let w := fun i => leNat ((bs.drop (4 * i)).take 4)
  let tag := w 6
  { v := ((upto t.live).map fun i => (i, BitVec.ofNat 32 (w (8 + i)))).filter fun x => x.2 != 0
    p := BitVec.ofNat 8 (bits (w 1) 22 16), rank := w 0 + bits (w 1) 15 0 * 2 ^ 32 + o, ord := o
    tag := if !bitOf (w 1) 24 then 0
      else if bitOf (w 1) 23 then tagWith (BitVec.ofNat 32 tag) o
      else BitVec.ofNat 32 tag }

/-- The ordinals from a record that are drawn, and the ordinals gone through: those of cancelled members are dropped
(R172, R176). -/
def drawOrds (s : State) (t : Team) (bs : List Byte) (room : Nat) : List Nat × Nat :=
  let w := fun i => leNat ((bs.drop (4 * i)).take 4)
  let n := w 3 + 1 - w 2
  if bitOf (w 1) 24 && !bitOf (w 1) 23 && isCancelled s t.die (BitVec.ofNat 32 (w 6)) then ([], n)
  else if bitOf (w 1) 23 then
    (upto (Min.min n 64)).foldl (fun st i =>
      if room ≤ st.1.length then st
      else if isCancelled s t.die (recSurvivor t bs (w 2 + i)).tag then (st.1, st.2 + 1)
      else (st.1 ++ [w 2 + i], st.2 + 1)) ([], 0)
  else ((upto (Min.min n room)).map (w 2 + ·), Min.min n room)

/-- What drawing a level came to: the survivors, the records left, and the ordinals gone through of the last of these. -/
inductive Draw where
  | ok (s : State) (xs : List Survivor) (left part : Nat)
  | fail (cause va kind : Nat)
  | descErr
  deriving DecidableEq, Repr

/-- Draw a level's records from the top (R172): `n` records remain. A record counts as drawn when it is drawn in full (R178;
log 23). -/
def drawLevel (tid : Nat) (t : Team) (first : Nat) : Nat → State → List Survivor → Draw
  | 0, s, xs => .ok s xs 0 0
  | n + 1, s, xs =>
    if t.capacity ≤ xs.length then .ok s xs (n + 1) 0 else
    let va := siloAddr t + first + n * recBytes t
    match vread s t.die t.asid va (recBytes t) with
    | .fail c a => .fail c a 0
    | .descErr => .descErr
    | .ok bs =>
      let d := drawOrds s t bs (t.capacity - xs.length)
      let w := fun i => leNat ((bs.drop (4 * i)).take 4)
      let ys := xs ++ d.1.map (recSurvivor t bs)
      if w 3 + 1 - w 2 ≤ d.2 then drawLevel tid t first n (modTeam s tid (count 6 1)) ys
      else match vwrite s t.die t.asid (va + 8) (toBytes 4 (w 2 + d.2)) with
        | .ok s1 => .ok s1 ys (n + 1) d.2
        | .fail c a => .fail c a 1
        | .descErr => .descErr

/-- The reads of a resumption wait (R395, R420). -/
def siloWaits (s : State) (t : Team) : Bool :=
  rangeWaits s t.die t.asid (siloAddr t) 1
    || (t.levels.getLast?.map fun l => rangeWaits s t.die t.asid (siloAddr t + l.first) (l.count * recBytes t)).getD false

/-- A level of which records are left, so many ordinals of the last being gone. -/
def SiloLevel.drawn (l : SiloLevel) (left part : Nat) : SiloLevel :=
  let ts := l.tags.take left
  { l with count := left, tags := ts.dropLast ++ (ts.drop (left - 1)).map fun x => if 1 < x.length then x.drop part else x }

/-- The harrow resumes the top level of a team whose live threads have all ended (R172, R174, R176). A page that it writes, the
header's or that of a record drawn in part, is checked as one that it reads, and the team's resumption waits on the record
(log 54). -/
def resumeSilo (s : State) (tid : Nat) : State :=
  match Tbl.find s.teams tid with
  | none => s
  | some t =>
    if t.out || t.ended || t.hold == .fault || !teamIdle t || siloWaits s t then s else
    match t.levels.getLast? with
    | none => s
    | some l =>
      let drawn := match translate s t.die t.asid (siloAddr t) .write with
        | .ok _ => drawLevel tid t l.first l.count s []
        | .fail c => .fail c (siloAddr t) 1
        | .descErr => .descErr
      match drawn with
      | .descErr => descriptorError s t.asid
      | .fail c va kind => siloFault s tid t c va kind
      | .ok s1 xs left part =>
        let s2 := modTeam s1 tid fun t => { t with
          round := l.round
          top := l.first + left * recBytes t
          levels := t.levels.dropLast ++ (if left = 0 then [] else [l.drawn left part]) }
        let s3 := settlePages (siloHeader s2 tid) tid
        let s4 := placeSlice s3 tid l.pc xs
        if xs = [] then gangsGoOn (closeTeam s4 tid) else s4

/-- SILO_RESUMPTION (R172). -/
def execSiloResumption (tid : Nat) (s : State) : Res := .next (resumeSilo s tid)

end Sys2Proof.Machine
end

