-- ==== Sys2Proof/Machine/ControlFlow.lean ====
section
/-! DEFINITION. Control flow: branches, splits, joins, ends, and words that are no instruction (R79, R84, R85, R100 to R106,
R374, R398). -/

namespace Sys2Proof.Machine

/-- The target of an offset in parcels (R101). -/
def target (c : Ctx) (off : Int) : Word := c.unit.pc + BitVec.ofInt 32 (4 * off)

/-- A unit continues at a branch's new PC: a taken backward branch is a cancellation point (R106). -/
def branchTo (c : Ctx) (s : State) (pc : Word) : State :=
  let s1 := retire c s pc
  if decide (pc.toNat ≤ c.unit.pc.toNat) && goneAt c != 0 then
    settle (cancelPoint s1 c.tid c.slot c.uid) c.tid c.slot
  else s1

/-- `br` (R101). -/
def execBr (off : BitVec 20) (s : State) : Res :=
  issue (.br off) s fun c => .next (branchTo c c.st (target c off.toInt))
/-- `bc` (R101). -/
def execBc (neg : Bool) (q : Ix3) (off : BitVec 20) (s : State) : Res :=
  issue (.bc neg q off) s fun c =>
    .next (if rdQ c q != neg then branchTo c c.st (target c off.toInt) else retire c c.st (c.next 1))
/-- `call` (R101). -/
def execCall (sd : SReg) (off : BitVec 20) (s : State) : Res :=
  issue (.call sd off) s fun c =>
    .next (branchTo c (commit c c.st 0 [(fieldKey c.sheaf sd, c.next 1)]) (target c off.toInt))
/-- `loop` (R101). -/
def execLoop (sc : SReg) (off : BitVec 20) (s : State) : Res :=
  issue (.loop sc off) s fun c =>
    let n := rdS c sc - 1
    let s1 := commit c c.st 0 [(fieldKey c.sheaf sc, n)]
    .next (if n ≠ 0 then branchTo c s1 (target c off.toInt) else retire c s1 (c.next 1))

/-- A branch to the offset in a register (R102). -/
def jump (i : Instr) (sa : SReg) (s : State) : Res :=
  issue i s fun c =>
    let a := rdS c sa
    .next (if a.toNat % 4 ≠ 0 then decodeTrap c c.st 1 8 ((encode c.team.ver i).headD 0) else branchTo c c.st a)
/-- `jr` (R102). -/
def execJr (sa : SReg) (s : State) : Res := jump (.jr sa) sa s
/-- `ret` (R102). -/
def execRet (sa : SReg) (s : State) : Res := jump (.ret sa) sa s

/-- `end` (R104); in a supervisor trap it also returns from it, and the threads count as ended after a fault (R374). -/
def execEndw (s : State) : Res :=
  issue .endw s fun c =>
    let s1 := endWins c (chargeCycles c c.st 1 [c.tag])
    let s2 := if c.sheaf.level != .user && c.sheaf.sys.sstat.getLsbD 1 then
        modTeam (c.modSheaf s1 leaveTrap) c.tid fun t => { t with faulted := true }
      else s1
    .next (settle (endThreads s2 c.tid c.slot c.uid c.unit.mask) c.tid c.slot)

/-- `join` (R84). -/
def execJoin (j : BitVec 4) (s : State) : Res :=
  issue (.join j) s fun c =>
    let s1 := endWins c c.st
    match c.unit.inner.bind fun rid => (Tbl.find c.sheaf.splits rid).map fun r => (rid, r) with
    | some (rid, r) =>
      .next (if r.id = j.toNat then
          settle (modUnits (chargeCycles c s1 1 [c.tag]) c.tid c.slot fun now sh n => arriveJoin now sh c.uid c.unit rid n) c.tid c.slot
        else retire c s1 (c.next 1))
    | none => .next (retire c s1 (c.next 1))

/-- The lane of the issuing unit holds as many units as it can (R85 step 3, R99). -/
def laneFull (c : Ctx) : Bool := decide (24 ≤ laneSlots c.st (laneKey c.team c.sheaf))
/-- The active set of the issuing unit's lane has room (R91). -/
def activeRoom (c : Ctx) : Bool :=
  decide (((laneUnits c.st (laneKey c.team c.sheaf)).filter fun u => u.2.2.2.active).length < 8)

/-- The split of a dividing `bv` (R85) with the taken side's cancellation point (R106): none where SPLIT is raised. -/
def divideUnit (c : Ctx) (s1 : State) (j : Nat) (t : BitVec 16) (tgt : Word) : Option State :=
  (splitUnit (laneFull c) (activeRoom c) c.sheaf c.uid c.unit j t tgt (c.next 1) s1.nextId).map fun (sh, n) =>
    let s2 := chargeCycles c s1 1 [c.tag]
    let now := laneNow s2 (laneKey c.team c.sheaf)
    let sh1 := { sh with units := sh.units.map fun u =>
      if u.1 = c.uid || u.1 = s1.nextId then (u.1, { u.2 with wait := .ready, last := now }) else u }
    let s3 := c.modSheaf { s2 with nextId := n } fun _ => sh1
    let s4 := if laneFull c then modTeam s3 c.tid (count 1 1) else s3
    let taken := if laneFull c then c.uid else s1.nextId
    if tgt.toNat ≤ c.unit.pc.toNat && c.sheaf.trapped != some c.uid then settle (cancelPoint s4 c.tid c.slot taken) c.tid c.slot
    else s4

/-- A `bv` that divides its unit (R85). Where there is no room for its record or its side, cancelled threads that take a
backward one end first (R389): the rest goes on at the next word if no taker is left, and else SPLIT is raised. -/
def divide (c : Ctx) (s1 : State) (j : Nat) (t : BitVec 16) (tgt : Word) : State :=
  match divideUnit c s1 j t tgt with
  | some s2 => s2
  | none =>
    let g := if tgt.toNat ≤ c.unit.pc.toNat then goneAt c &&& t else 0
    let s2 := if g = 0 then s1 else endCancelled s1 c.tid c.slot c.uid g
    match unitAt s2 c.tid c.slot c.uid with
    | none => s2
    | some c1 => if g = t then retire c1 s2 (c1.next 1) else raiseExec c1 s2 12 0 0

/-- `bv` (R85, R103). It ends every window, and reads its predicate with none open (R94; log 51). -/
def execBv (neg : Bool) (p : Ix3) (j : BitVec 4) (off : BitVec 16) (s : State) : Res :=
  issue (.bv neg p j off) s fun c0 =>
    let c : Ctx := { c0 with unit := { c0.unit with wins := [] } }
    let s1 := endWins c c.st
    let t := maskOf ((positions c.unit.mask).filter fun x => rdP c x p != neg)
    let tgt := target c off.toInt
    .next (if t = 0 then retire c s1 (c.next 1)
      else if t = c.unit.mask then retire c s1 tgt
      else divide c s1 j.toNat t tgt)

/-- A word that fails a check of R44 before it is an instruction. -/
def execIllegalWord (f : DecFault) (parcel : Word) (s : State) : Res :=
  match ctxOf s with
  | none => .refused .noIssuingUnit
  | some c =>
    let sub := match f with
      | .kind => 1 | .pageEnd => 2 | .opcode => 3 | .pair => 4 | .field => 5 | .modifier => 6 | .register => 7
    .next (decodeTrap c c.st 1 sub parcel)

/-- A fetch that fails (R79, R398): its virtual address is reported. -/
def execFetchFault (k : FetchCause) (addr : Nat) (s : State) : Res :=
  match ctxOf s with
  | none => .refused .noIssuingUnit
  | some c =>
    let cause := match k with
      | .translation => 9 | .permission => 10 | .accessError => 8
    .next (raiseExec c c.st cause 0 addr)

end Sys2Proof.Machine
end

