-- ==== Sys2Proof/Machine/Waiting.lean ====
section
/-! DEFINITION. Event counters and suspension (R298 to R306), and the wait of a fault continuation (R379). -/

namespace Sys2Proof.Machine

/-- A word that names a counter: R300's checks, with the counter for what follows. -/
def withCounter (c : Ctx) (n : Word) (k : Nat → State) : State :=
  match nameCheck c.st c.team.asid c.team.evWin n with
  | .error sub => raiseExec c c.st 19 sub 0
  | .ok ctr => k ctr

/-- Send a unit's request on its way to a counter (R301, R303). -/
def sendEv (c : Ctx) (s : State) (op : EvOp) (ctr : Nat) (v cont : Word) (fc : Bool) : State :=
  { s with evReqs := s.evReqs ++ [⟨s.nextId, op, ctr, v, c.tid, c.slot, c.uid, cont, fc, c.team.die⟩], nextId := s.nextId + 1 }

/-- `ev.add` (R303): a release at device scope. -/
def execEvAdd (la : BitVec 4) (sn sv : SReg) (s : State) : Res :=
  issue (.evAdd la sn sv) s fun c => .next (withCounter c (rdS c sn) fun k =>
    retire c (sendEv c (flushCore c.st c.core) .add k (rdS c sv) 0 false) (c.next 2))
/-- `ev.set` (R303): a release at device scope. -/
def execEvSet (la : BitVec 4) (sn sv : SReg) (s : State) : Res :=
  issue (.evSet la sn sv) s fun c => .next (withCounter c (rdS c sn) fun k =>
    retire c (sendEv c (flushCore c.st c.core) .set k (rdS c sv) 0 false) (c.next 2))
/-- `ev.add.ret` (R303): a release and, as its value arrives, an acquire; words that may run ahead of the value do. -/
def execEvAddRet (la : BitVec 4) (sd sn sv : SReg) (s : State) : Res :=
  issue (.evAddRet la sd sn sv) s fun c => .next (withCounter c (rdS c sn) fun k =>
    retire c (awaitReply c (sendEv c (flushCore c.st c.core) .addRet k (rdS c sv) 0 false) c.st.nextId sd la) (c.next 2))
/-- `ev.get` (R303): an acquire as its value arrives; words that may run ahead of the value do. -/
def execEvGet (la : BitVec 4) (sd sn : SReg) (s : State) : Res :=
  issue (.evGet la sd sn) s fun c => .next (withCounter c (rdS c sn) fun k =>
    retire c (awaitReply c (sendEv c c.st .get k 0 0 false) c.st.nextId sd la) (c.next 2))

/-- A unit waits for a counter to reach a target: the request goes out, and the unit leaves the active set, for no set under
CONT and for the pending set under SWAP (R304, R305). -/
def suspendOn (c : Ctx) (s : State) (ctr : Nat) (y cont : Word) (fc : Bool) : State :=
  leaveSet c (sendEv c (endWins c s) .susp ctr y cont fc) (.susp s.nextId)

/-- `susp` (R304, R306): a cancellation point before its checks (R389). It ends every window, and reads its own registers
with none open (R94; log 51). -/
def execSusp (sn st sc : SReg) (s : State) : Res :=
  issue (.susp sn st sc) s fun c0 =>
    let s1 := passPoint c0 (endWins c0 c0.st)
    match unitAt s1 c0.tid c0.slot c0.uid with
    | none => .next (settle s1 c0.tid c0.slot)
    | some c => .next (withCounter c (rdS c sn) fun k =>
        if (rdS c sc).toNat % 4 ≠ 0 then decodeTrap c c.st 1 8 ((encode c.team.ver (.susp sn st sc)).headD 0)
        else suspendOn c (chargeCycles c c.st 1 [c0.tag]) k (rdS c st) (rdS c sc) false)

/-- The wait of a fault continuation begins: FEVN is checked, then as `susp FEVN, FTGT, FRET`; a failure abandons the
continuation (R379). -/
def fcWait (c0 : Ctx) (s : State) : State :=
  let s1 := cancelPoint s c0.tid c0.slot c0.uid
  match unitAt s1 c0.tid c0.slot c0.uid with
  | none => settle s1 c0.tid c0.slot
  | some c =>
    let r := c.sheaf.sys
    match nameCheck s1 c.team.asid c.team.evWin r.fevn with
    | .ok k => suspendOn c s1 k r.ftgt r.fret true
    | .error sub =>
      let s2 := c.modSheaf s1 (clearStat · 3)
      match unitAt s2 c.tid c.slot c.uid with
      | none => s2
      | some c1 => takeTrap c1 s2 ⟨19, sub, 1, 0, c1.unit.mask, BitVec.ofNat 64 (2 ^ 19), 0, r.fret⟩

/-- The value of a request comes too late for its register: another unit has written that since, or the same unit, inside the
lookahead, so that either value may stay (R86, R95). -/
def tooLate (c : Ctx) (id : Nat) : Bool :=
  match c.sheaf.overtaken.find? fun o => o.1 == id with
  | none => false
  | some o => o.2 != c.uid || freeBit c.st (2 ^ 27 + 2 ^ 23)

/-- A value arrives at its unit: its register is written, unless a later word has written it, an acquire at device scope, and a
word that waited for it may issue. Requests for the register that set out before this one come before it (R86). -/
def replyTo (s : State) (tid slot uid id : Nat) (v : Word) : State :=
  match unitAt s tid slot uid with
  | none => s
  | some c =>
    match c.unit.awaits.find? fun a => a.id == id with
    | none => s
    | some a =>
      let put := fun sh => if tooLate c id then sh else overtake uid (fun i => decide (i < id)) (.s a.dst) (putOne c 0 sh (.s a.dst, v))
      c.modUnit (c.modSheaf (dropClean s c.core) fun sh => { put sh with overtaken := (put sh).overtaken.filter fun o => o.1 != id }) fun u =>
        { u with view := none, awaits := u.awaits.filter (fun x => x.id != id), wait := if u.wait = .reply id then .ready else u.wait }

/-- A request reaches its counter (R301, R303, R304). -/
def reachCounter (s : State) (r : EvReq) : State :=
  let v := (counterAt s r.ctr).value
  match r.op with
  | .add => ctrUpdate s r.ctr (· + r.value)
  | .set => ctrUpdate s r.ctr fun _ => r.value
  | .addRet => replyTo (ctrUpdate s r.ctr (· + r.value)) r.tid r.slot r.uid r.id v
  | .get => replyTo s r.tid r.slot r.uid r.id v
  | .susp =>
    let s1 := modDie s (r.ctr / 1024) fun d => { d with susps := d.susps ++ [r] }
    if reached v r.value then wake (modDie s (r.ctr / 1024) fun d => { d with susps := d.susps.filter fun x => x.id != r.id }) r
    else modTeam s1 r.tid (count 25 1)

/-- An earlier request of the same unit to the same counter, or what set out earlier on the same path between dies, comes first
(R303, R406). -/
def evBlocked (s : State) (ix : Nat) (r : EvReq) : Bool :=
  pathAhead s r.src (r.ctr / 1024) r.id || (s.evReqs.take ix).any fun q => q.ctr == r.ctr && q.tid == r.tid && q.slot == r.slot && q.uid == r.uid

/-- EVENT_COUNTER_UPDATE: a request reaches its counter. -/
def execEventCounterUpdate (ix : Nat) (s : State) : Res :=
  .next (match s.evReqs[ix]? with
    | none => s
    | some r => if evBlocked s ix r then s else reachCounter { s with evReqs := dropAt s.evReqs ix } r)

end Sys2Proof.Machine
end

