-- ==== Sys2Proof/Machine/Copies.lean ====
section
/-! DEFINITION. Copy commands: their issue and checks (R208 to R214), tokens and rings (R224 to R227), and the work of
the streamers and the gather engines (R215 to R223, R228 to R234). -/

namespace Sys2Proof.Machine

/-! ### Issue (R209 to R214) -/

/-- Bits 63 to 56 of a main address are zero. -/
def mainOk (d : DWord) : Bool := decide (d.toNat < 2 ^ 56)
/-- R212 check 5 on an on-chip range: WINDOW or PERM; an empty range passes (R215). -/
def ocRange (c : Ctx) (a : Word) (n : Nat) (wr : Bool) : Option (Nat × Nat) :=
  if n = 0 then none
  else if !rangeIn c a n then some (5, 0)
  else if wr && ocSpace a == some .sp && !spWR c.team.spWin then some (7, 0) else none
/-- The first of a list of checks that fails, as a cause and a subcode. -/
def firstFail (l : List (Bool × Nat × Nat)) : Option (Nat × Nat) := (l.find? fun x => x.1).map (·.2)

/-- The first failing check, or else the next ones. -/
def andThen (a : Option (Nat × Nat)) (b : Option (Nat × Nat)) : Option (Nat × Nat) := if a.isSome then a else b

/-- Twice the element width of a layout format in bytes: 0 where it is reserved (R216). -/
def fmtHalves (f : Nat) : Nat :=
  match f with
  | 0 | 8 => 8 | 1 => 4 | 2 | 3 | 12 => 2 | 4 => 1 | _ => 0

/-- The fields of a tensor layout record (R216). -/
structure Layout where
  base : Nat
  outer : Nat
  inner : Nat
  stride : Nat
  pitch : Nat
  half : Nat
  boxOuter : Nat
  boxInner : Nat
  orgOuter : Nat
  orgInner : Nat
  sidecar : Nat
  deriving DecidableEq, Repr

/-- Bytes of a number of elements. -/
def Layout.bytes (l : Layout) (n : Nat) : Nat := (n * l.half + 1) / 2

/-- A layout record read. -/
def layoutOf (r : List Word) : Layout :=
  let w := fun i => (r.getD i 0).toNat
  let l : Layout := ⟨w 0 + w 1 * 2 ^ 32, bits (w 2) 31 16, bits (w 2) 15 0, w 3, bits (w 4) 31 16, fmtHalves (bits (w 4) 7 0),
    bits (w 5) 31 16, bits (w 5) 15 0, bits (w 6) 31 16, bits (w 6) 15 0, w 7⟩
  if l.pitch = 0 then { l with pitch := l.bytes l.boxInner } else l

/-- A layout record meets R216; `bnd` is the most box rows of a form that moves bounds, 0 for a plain form. -/
def layoutOk (r : List Word) (bnd : Nat) : Bool :=
  let l := layoutOf r
  l.half != 0 && decide (l.base < 2 ^ 56) && bits ((r.getD 4 0).toNat) 15 8 == 0 && l.base % 4 == 0 && l.outer != 0 && l.inner != 0 && l.boxOuter != 0
    && l.boxInner != 0 && l.stride % 4 == 0 && decide (l.bytes l.inner ≤ l.stride)
    && bits ((r.getD 4 0).toNat) 31 16 % 4 == 0 && decide (l.bytes l.boxInner ≤ l.pitch)
    && l.sidecar % 2 == 0 && (l.half != 1 || (l.inner % 2 == 0 && l.boxInner % 2 == 0 && l.orgInner % 2 == 0))
    && (bnd == 0 || (l.sidecar != 0 && decide (l.boxOuter ≤ bnd)))

/-- The on-chip bytes from the first to the last of a box (R217). -/
def boxSpan (l : Layout) : Nat := (l.boxOuter - 1) * l.pitch + l.bytes l.boxInner

/-- Eight consecutive uniform registers. -/
def rdEight (c : Ctx) (f : SReg) : List Word := (upto 8).map fun k => rdSk c f k

/-- A descriptor's copy address is on-chip (R208). -/
def isChip (d : DWord) : Bool := d.getLsbD 63
/-- A pair of a captured descriptor. -/
def descPair (r : List Word) (k : Nat) : DWord := pair (r.getD k 0) (r.getD (k + 1) 0)

/-- The checks of a gather or scatter descriptor in R212's order (R221). R221's text names a misaligned data address without
saying the alignment, which is taken to be that of the elements, min(Z, 4) (log 53). -/
def gatCheck (c : Ctx) (r : List Word) (z : Nat) (scatter : Bool) : Option (Nat × Nat) :=
  let Z := 2 ^ z
  let il := descPair r 2
  let da := descPair r 4
  let n := (r.getD 6 0).toNat
  let bad := fun d : DWord => if isChip d then false else !mainOk d
  let rsv := fun d : DWord => isChip d && bits d.toNat 62 32 != 0
  let spc := fun d : DWord => isChip d && (ocSpace (lowWord d)).isNone
  andThen
    (firstFail [
      (!mainOk (descPair r 0) || bad il || bad da, 11, 0),
      (spc il || spc da, 18, 1),
      (rsv il || rsv da || decide (1048576 < n) || (descPair r 0).toNat % Min.min Z 4 != 0 || (r.getD 7 0).toNat % Min.min Z 4 != 0
        || il.toNat % 4 != 0 || da.toNat % Min.min Z 4 != 0, 18, 3)])
    (andThen (if isChip il then ocRange c (lowWord il) (4 * n) false else none)
      (if isChip da then ocRange c (lowWord da) (Z * n) (!scatter) else none))

/-- The key of a ring slot. -/
def ringKey (r : Ring) : Option Nat := if r.use then some (16 * r.ring.toNat + r.slot.toNat) else none
/-- A ring slot: empty, unsealed, none outstanding when unlisted (R226). -/
def ringAt (t : Team) (k : Nat) : RingSt := Tbl.get ⟨false, false, 0⟩ t.rings k
/-- Set a ring slot. -/
def setRing (t : Team) (k : Nat) (r : RingSt) : Team := { t with rings := Tbl.set ⟨false, false, 0⟩ t.rings k r }
/-- A sealed slot with no copy outstanding inverts its phase (R227). -/
def turnRing (r : RingSt) : RingSt := if r.se && r.oc == 0 then { r with ph := !r.ph, se := false } else r

/-- What a copy command carries besides what every command does. -/
structure CopyArgs where
  kind : CopyKind
  gather : Bool
  a : Word
  b : DWord
  b2 : DWord
  n : Nat
  layout : List Word
  rows : List (BitVec 16)
  check : Option (Nat × Nat)

/-- Put a command into its engine's queue. -/
def enqueueCopy (c : Ctx) (s : State) (gather : Bool) (x : CopyCmd) : State :=
  if gather then modDie s c.team.die fun d => { d with gather := d.gather ++ [x] }
  else modCore s c.core fun k => { k with streamer := k.streamer ++ [x] }

/-- The queue that a command enters has no room (R214). -/
def copyFull (c : Ctx) (gather : Bool) : Bool :=
  if gather then decide (256 ≤ (dieOf c.st c.team.die).gather.length) else decide (32 ≤ (coreOf c.st c.core).streamer.length)

/-- Issue a copy command: token, room and ring waits, the checks of R212, then the command with what it captures (R213,
R214, R226). -/
def cpIssue (i : Instr) (tk : Ix3) (ring : Ring) (s : State) (f : Ctx → CopyArgs) : Res :=
  issue i s fun c =>
    let k := tk.toNat
    let x := f c
    if (tokAt c.sheaf k).pending then .next (waitAt c c.st (.tokens (2 ^ k)))
    else if copyFull c x.gather || ((ringKey ring).map fun r => decide (255 ≤ (ringAt c.team r).oc)).getD false then
      .next (waitAt c c.st (.room (.copy x.gather (ringKey ring))))
    else match x.check with
    | some (cause, sub) => .next (raiseExec c c.st cause sub 0)
    | none =>
      let ps := encode c.team.ver i
      let (id, s1) := fresh (flushCore (acquired c c.st (2 ^ k)) c.core)
      let cmd : CopyCmd := ⟨id, x.kind, c.tid, c.slot, k, ringKey ring, c.team.asid, c.tag, x.a, x.b, x.b2, x.n, x.layout, x.rows,
        ps.headD 0, ps.getD 1 0, 0, false, none, false, false, none, [], 0, false⟩
      let s2 := c.modSheaf (enqueueCopy c s1 x.gather cmd) fun sh => setTok sh k ⟨true, 0⟩
      let s3 := modTeam s2 c.tid fun t =>
        let t1 := count 9 1 t
        match ringKey ring with
        | some r => setRing t1 r { ringAt t1 r with oc := (ringAt t1 r).oc + 1 }
        | none => t1
      .next (retire c s3 (c.next 2))

/-- The arguments of a copy between on-chip and main memory (R212, R215, R219). -/
def chipArgs (kind : CopyKind) (c : Ctx) (oc m n : SReg) (load : Bool) : CopyArgs :=
  let a := rdS c oc
  let b := rdPair c m
  let len := (rdS c n).toNat
  ⟨kind, false, a, b, 0, len, [], [],
    andThen (firstFail [(!mainOk b, 11, 0), ((ocSpace a).isNone, 18, 1),
      (ocOff a % 4 != 0 || b.toNat % 4 != 0 || len % 4 != 0, 4, 0)]) (ocRange c a len load)⟩
/-- The arguments of a copy from main to main memory. -/
def mainArgs (kind : CopyKind) (c : Ctx) (src dst n : SReg) : CopyArgs :=
  let len := (rdS c n).toNat
  ⟨kind, false, rdS c src, rdPair c dst, rdPair c src, len, [], [],
    firstFail [(!mainOk (rdPair c src) || !mainOk (rdPair c dst), 11, 0),
      ((rdPair c src).toNat % 4 != 0 || (rdPair c dst).toNat % 4 != 0 || len % 4 != 0, 4, 0)]⟩
/-- The arguments of a tensor copy (R216 to R218). -/
def tenArgs (kind : CopyKind) (c : Ctx) (oc l : SReg) (load : Bool) (bnd : Nat) (rows : List (BitVec 16)) : CopyArgs :=
  let a := rdS c oc
  let r := rdEight c l
  ⟨kind, false, a, 0, 0, 0, r, rows,
    andThen (firstFail [((ocSpace a).isNone, 18, 1), (!layoutOk r bnd, 18, 2),
      (ocOff a % 4 != 0, 4, 0)]) (ocRange c a (boxSpan (layoutOf r)) load)⟩

/-- `cp.blk.ld` (R215). -/
def execCpBlkLd (la : BitVec 4) (tk : Ix3) (r : Ring) (oc m n : SReg) (s : State) : Res :=
  cpIssue (.cpBlkLd la tk r oc m n) tk r s fun c => chipArgs .blkLd c oc m n true
/-- `cp.blk.st` (R215). -/
def execCpBlkSt (la : BitVec 4) (tk : Ix3) (r : Ring) (oc m n : SReg) (s : State) : Res :=
  cpIssue (.cpBlkSt la tk r oc m n) tk r s fun c => chipArgs .blkSt c oc m n false
/-- `cp.blk.mm` (R215). -/
def execCpBlkMm (la : BitVec 4) (tk : Ix3) (r : Ring) (src dst n : SReg) (s : State) : Res :=
  cpIssue (.cpBlkMm la tk r src dst n) tk r s fun c => mainArgs .blkMm c src dst n
/-- `cp.ten.ld` (R217). -/
def execCpTenLd (la : BitVec 4) (tk : Ix3) (r : Ring) (oc l : SReg) (s : State) : Res :=
  cpIssue (.cpTenLd la tk r oc l) tk r s fun c => tenArgs .tenLd c oc l true 0 []
/-- `cp.ten.st` (R217). -/
def execCpTenSt (la : BitVec 4) (tk : Ix3) (r : Ring) (oc l : SReg) (s : State) : Res :=
  cpIssue (.cpTenSt la tk r oc l) tk r s fun c => tenArgs .tenSt c oc l false 0 []
/-- `cp.ten.ld.bnd` (R218). -/
def execCpTenLdBnd (la : BitVec 4) (tk : Ix3) (r : Ring) (oc l : SReg) (i : Ix3) (s : State) : Res :=
  cpIssue (.cpTenLdBnd la tk r oc l i) tk r s fun c => tenArgs (.tenLdBnd i.toNat) c oc l true 64 []
/-- `cp.ten.st.bnd` (R218): the bound rows are captured. -/
def execCpTenStBnd (la : BitVec 4) (tk : Ix3) (r : Ring) (oc l : SReg) (i : Ix3) (s : State) : Res :=
  cpIssue (.cpTenStBnd la tk r oc l i) tk r s fun c =>
    tenArgs (.tenStBnd i.toNat) c oc l false 64 ((upto 64).map (boundRow (coreOf c.st c.core).engine i.toNat))
/-- `cp.ten.ld.bnda` (R218). -/
def execCpTenLdBnda (la : BitVec 4) (tk : Ix3) (r : Ring) (oc l : SReg) (s : State) : Res :=
  cpIssue (.cpTenLdBnda la tk r oc l) tk r s fun c => tenArgs .tenLdBnda c oc l true 64 []
/-- `cp.ten.ld.bndw` (R218). -/
def execCpTenLdBndw (la : BitVec 4) (tk : Ix3) (r : Ring) (oc l : SReg) (s : State) : Res :=
  cpIssue (.cpTenLdBndw la tk r oc l) tk r s fun c => tenArgs .tenLdBndw c oc l true 128 []
/-- `cp.red` (R219). -/
def execCpRed (la : BitVec 4) (tk : Ix3) (r : Ring) (dir : BitVec 2) (op : RedOp) (ea eb n : SReg) (s : State) : Res :=
  cpIssue (.cpRed la tk r dir op ea eb n) tk r s fun c =>
    if dir = 0 then chipArgs (.redLd op) c ea eb n true
    else if dir = 1 then chipArgs (.redSt op) c ea eb n false
    else mainArgs (.redMm op) c ea eb n
/-- `cp.fill.oc` (R220). -/
def execCpFillOc (la : BitVec 4) (tk : Ix3) (r : Ring) (oc pat n : SReg) (s : State) : Res :=
  cpIssue (.cpFillOc la tk r oc pat n) tk r s fun c =>
    let a := rdS c oc
    let len := (rdS c n).toNat
    ⟨.fillOc, false, a, pair (rdS c pat) 0, 0, len, [], [],
      andThen (firstFail [((ocSpace a).isNone, 18, 1), (ocOff a % 4 != 0 || len % 4 != 0, 4, 0)]) (ocRange c a len true)⟩
/-- `cp.fill.mm` (R220). -/
def execCpFillMm (la : BitVec 4) (tk : Ix3) (r : Ring) (pat m n : SReg) (s : State) : Res :=
  cpIssue (.cpFillMm la tk r pat m n) tk r s fun c =>
    let b := rdPair c m
    let len := (rdS c n).toNat
    ⟨.fillMm, false, rdS c pat, b, 0, len, [], [],
      firstFail [(!mainOk b, 11, 0), (b.toNat % 4 != 0 || len % 4 != 0, 4, 0)]⟩
/-- `cp.gat` (R221). -/
def execCpGat (la : BitVec 4) (tk : Ix3) (r : Ring) (z : Ix3) (d lim : SReg) (s : State) : Res :=
  cpIssue (.cpGat la tk r z d lim) tk r s fun c =>
    ⟨.gat z.toNat, true, rdS c d, 0, 0, (rdS c lim).toNat, rdEight c d, [], gatCheck c (rdEight c d) z.toNat false⟩
/-- `cp.sct` (R221). -/
def execCpSct (la : BitVec 4) (tk : Ix3) (r : Ring) (z : Ix3) (d lim : SReg) (s : State) : Res :=
  cpIssue (.cpSct la tk r z d lim) tk r s fun c =>
    ⟨.sct z.toNat, true, rdS c d, 0, 0, (rdS c lim).toNat, rdEight c d, [], gatCheck c (rdEight c d) z.toNat true⟩

/-! ### Tokens and rings (R225 to R227) -/

/-- A word that waits until every token of a mask is complete (R225). -/
def tokenWait (i : Instr) (mask : BitVec 8) (s : State) (k : Ctx → State → State) : Res :=
  issue i s fun c =>
    if tokensPending c.sheaf mask.toNat then .next (waitAt c c.st (.tokens mask.toNat))
    else .next (retire c (k c (waitedFor c c.st mask.toNat)) (c.next 2))
/-- `tk.wait` (R225). -/
def execTkWait (la : BitVec 4) (mask : BitVec 8) (s : State) : Res := tokenWait (.tkWait la mask) mask s fun _ s => s
/-- `tk.wait.st` (R225). -/
def execTkWaitSt (la : BitVec 4) (sd : SReg) (mask : BitVec 8) (s : State) : Res :=
  tokenWait (.tkWaitSt la sd mask) mask s fun c s =>
    commit c s la.toNat [(fieldKey c.sheaf sd,
      BitVec.ofNat 32 (((maskList mask.toNat 8).map fun k => (tokAt c.sheaf k).status * 16 ^ k).sum))]

/-- The slot that an `rg` word names (R227). -/
def slotKey (c : Ctx) (r : RingSlot) : Nat :=
  16 * r.ring.toNat + (r.slot.toNat + (if r.dyn then (rdS c r.ea).toNat % 16 else 0)) % 16
/-- `rg.acq`: an acquire at team scope once the slot has its phase (R227), which sees the writes of the copies counted there,
those to the scratchpad past the core's clean lines among them (R229, R292). -/
def ringAcquire (i : Instr) (r : RingSlot) (full : Bool) (s : State) : Res :=
  issue i s fun c =>
    let k := slotKey c r
    .next (if (ringAt c.team k).ph == full then retire c (hearAll c (dropClean c.st c.core)) (c.next 2) else waitAt c c.st (.ring (k / 16) (k % 16) full))
/-- `rg.acq.empty` (R227). -/
def execRgAcqEmpty (la : BitVec 4) (r : RingSlot) (s : State) : Res := ringAcquire (.rgAcqEmpty la r) r false s
/-- `rg.acq.full` (R227). -/
def execRgAcqFull (la : BitVec 4) (r : RingSlot) (s : State) : Res := ringAcquire (.rgAcqFull la r) r true s
/-- `rg.rel` (R227). -/
def execRgRel (la : BitVec 4) (r : RingSlot) (s : State) : Res :=
  issue (.rgRel la r) s fun c =>
    let k := slotKey c r
    .next (retire c (modTeam c.st c.tid fun t => setRing t k (turnRing { ringAt t k with se := true })) (c.next 2))

/-! ### The work of a copy as pieces (R215 to R220, R228) -/

/-- Where a piece's bytes come from. -/
inductive Src where
  | main (va : Nat)
  | chip (a : Word)
  | zero
  | pat (w : Word)
  | imm (bs : List Byte)
  deriving DecidableEq, Repr

/-- A piece of a copy: its destination, an on-chip offset or a virtual address, and its source. -/
structure Piece where
  dst : Nat
  len : Nat
  src : Src
  deriving DecidableEq, Repr

/-- A source `d` bytes further. -/
def Src.shift (d : Nat) : Src → Src
  | .main va => .main (va + d)
  | .chip a => .chip (a + BitVec.ofNat 32 d)
  | .zero => .zero
  | .pat w => .pat w
  | .imm bs => .imm (bs.drop d)

/-- The destination is in main memory. -/
def dstMain : CopyKind → Bool
  | .blkSt | .blkMm | .tenSt | .tenStBnd _ | .redSt _ | .redMm _ | .fillMm => true
  | _ => false
/-- The combining operation of a `cp.red`. -/
def redOpOf : CopyKind → Option RedOp
  | .redLd o | .redSt o | .redMm o => some o
  | _ => none

/-- Box rows and the tensor rows they fall on, with the bytes of each inside the tensor (R217). -/
def boxRows (l : Layout) : List (Nat × Nat × Nat) :=
  (upto l.boxOuter).map fun i =>
    let y := l.orgOuter + i
    (i, y, if y < l.outer then l.bytes (Min.min l.boxInner (l.inner - l.orgInner)) else 0)

/-- The pieces of a copy in ascending destination (R215, R217 to R220). -/
def piecesOf (c : CopyCmd) : List Piece :=
  let l := layoutOf c.layout
  let load := (boxRows l).flatMap fun r =>
    let o := ocOff c.a + r.1 * l.pitch
    (if r.2.2 = 0 then [] else [⟨o, r.2.2, .main (l.base + r.2.1 * l.stride + l.orgInner * l.half / 2)⟩])
    ++ if r.2.2 < l.bytes l.boxInner then [⟨o + r.2.2, l.bytes l.boxInner - r.2.2, .zero⟩] else []
  let store := (boxRows l).flatMap fun r =>
    if r.2.2 = 0 then [] else [⟨l.base + r.2.1 * l.stride + l.orgInner * l.half / 2, r.2.2, .chip (c.a + BitVec.ofNat 32 (r.1 * l.pitch))⟩]
  match c.kind with
  | .blkLd | .redLd _ => [⟨ocOff c.a, c.n, .main c.b.toNat⟩]
  | .blkSt | .redSt _ => [⟨c.b.toNat, c.n, .chip c.a⟩]
  | .blkMm | .redMm _ => [⟨c.b.toNat, c.n, .main c.b2.toNat⟩]
  | .fillOc => [⟨ocOff c.a, c.n, .pat (lowWord c.b)⟩]
  | .fillMm => [⟨c.b.toNat, c.n, .pat c.a⟩]
  | .tenLd | .tenLdBnd _ | .tenLdBnda | .tenLdBndw => load
  | .tenSt => store
  | .tenStBnd _ =>
    store ++ (boxRows l).filterMap fun r =>
      if r.2.1 < l.outer then some ⟨l.base + l.sidecar + 2 * r.2.1, 2, .imm (toBytes 2 (c.rows.getD r.1 0).toNat)⟩ else none
  | _ => []

/-- Insert a block number in ascending order, once. -/
def insertBlock (b : Nat) : List Nat → List Nat
  | [] => [b]
  | x :: t => if b < x then b :: x :: t else if b = x then x :: t else x :: insertBlock b t

/-- The 4,096-byte destination blocks of a command in ascending order: its chunks (R228). -/
def blocksOf (ps : List Piece) : List Nat :=
  (ps.filter fun p => p.len != 0).foldr (fun p l =>
    ((upto ((p.dst + p.len - 1) / 4096 - p.dst / 4096 + 1)).map (p.dst / 4096 + ·)).foldr insertBlock l) []

/-- The part of a piece that lies in a block. -/
def clip (b : Nat) (p : Piece) : Option Piece :=
  let lo := Max.max p.dst (4096 * b)
  let hi := Min.min (p.dst + p.len) (4096 * b + 4096)
  if lo < hi then some ⟨lo, hi - lo, p.src.shift (lo - p.dst)⟩ else none

/-- A read or a translation of a copy: a value, a failed walk at an address, or an unreadable descriptor. -/
inductive Got (α : Type) where
  | ok (x : α)
  | fail (cause va kind : Nat)
  | descErr

/-- The pieces of a virtual range as an engine finds them: length and physical address, none where the walk meets an
uncorrectable error in a table entry (R398). -/
def walkPieces (s : State) (port asid : Nat) (need : Need) (kind : Nat) : List (Nat × Nat) → Got (List (Nat × Option Nat))
  | [] => .ok []
  | (va, n) :: t =>
    let rest := fun (x : Option Nat) => match walkPieces s port asid need kind t with
      | .ok l => Got.ok ((n, x) :: l)
      | .fail c a z => .fail c a z
      | .descErr => .descErr
    match translate s port asid va need with
    | .ok pa => rest (some pa)
    | .fail c => if c = 8 then rest none else .fail c va kind
    | .descErr => .descErr

/-- The pieces of a range of `n` bytes. -/
def walkRange (s : State) (port asid : Nat) (need : Need) (kind va n : Nat) : Got (List (Nat × Option Nat)) :=
  walkPieces s port asid need kind (pagePieces (n / 65536 + 2) va n)

/-- The place of every byte of pieces: none where there is no address. -/
def placesOf (ps : List (Nat × Option Nat)) : List (Option Nat) :=
  ps.flatMap fun p => (upto p.1).map fun i => p.2.map (physPlace · + i)

/-- The bytes at pieces, and the first index that meets an uncorrectable error (R231). -/
def readPieces (s : State) (ps : List (Nat × Option Nat)) : List Byte × Option Nat :=
  (ps.flatMap fun p => match p.2 with
    | some pa => physRead s pa p.1
    | none => List.replicate p.1 0,
   (ps.flatMap fun p => (upto p.1).map fun i => (p.2.map fun pa => physPoisoned s (pa + i) 1).getD true).findIdx? id)

/-- Main memory bytes for a copy, and the first index that meets an uncorrectable error (R231). -/
def readMain (s : State) (port asid va n : Nat) : Got (List Byte × Option Nat) :=
  match walkRange s port asid .read 0 va n with
  | .ok ps => .ok (readPieces s ps)
  | .fail c a z => .fail c a z
  | .descErr => .descErr

/-- On-chip bytes for a copy, and the first index that meets an uncorrectable error. -/
def readChip (s : State) (t : Team) (a : Word) (n : Nat) : List Byte × Option Nat :=
  let base := if ocSpace a = some .sp then spBase t.spWin + ocOff a else ocOff a
  let pz := if ocSpace a = some .sp then corePoison s (coreKey t.die t.core) else t.sharedPz
  (onchipBytes s t a n, if pz = [] then none else (upto n).find? fun i => pz.contains ((base + i) / 8))

/-- Main memory bytes for a copy read as if whole before any write: bytes that the command has overwritten are as it saved
them (R215). -/
def readOver (s : State) (port : Nat) (c : CopyCmd) (saved : List Host.Cell) (va n : Nat) : Got (List Byte × Option Nat) :=
  match walkRange s port c.asid .read 0 va n with
  | .ok ps =>
    let now := readPieces s ps
    let at_ := placesOf ps
    let kept := fun a : Option Nat => a.bind (Tbl.find saved)
    let flags := (at_.zip (ps.flatMap fun p => (upto p.1).map fun i => (p.2.map fun pa => physPoisoned s (pa + i) 1).getD true)).map
      fun x => if (kept x.1).isSome then (x.1.map c.bufPz.contains).getD false else x.2
    .ok ((at_.zip now.1).map fun x => (kept x.1).getD x.2, flags.findIdx? id)
  | .fail x y z => .fail x y z
  | .descErr => .descErr

/-- The port of a team's core, whose streamer its copies and log appends use (R395). -/
def Team.port (t : Team) : Nat := corePort t.die t.core

/-- The source bytes of a piece. -/
def readPiece (s : State) (t : Team) (c : CopyCmd) (p : Piece) : Got (List Byte × Option Nat) :=
  match p.src with
  | .main va =>
    match c.buf with
    | none => readMain s t.port c.asid va p.len
    | some saved => readOver s t.port c saved va p.len
  | .chip a => .ok (readChip s t a p.len)
  | .zero => .ok (List.replicate p.len 0, none)
  | .pat w => .ok ((upto p.len).map fun i => BitVec.ofNat 8 (w.toNat / 256 ^ ((p.dst + i) % 4)), none)
  | .imm bs => .ok (bs.take p.len, none)

/-- The physical pieces of a destination (R228): none on-chip. -/
def dstPieces (s : State) (t : Team) (c : CopyCmd) (p : Piece) : Got (List (Nat × Nat)) :=
  if !dstMain c.kind then .ok [] else
  match transRange s t.port c.asid p.dst p.len (if (redOpOf c.kind).isSome then .both else .write) with
  | .ok ps => .ok ps
  | .fail cause a => .fail cause a 1
  | .descErr => .descErr

/-- The first destination byte that a combine cannot read: a read of a poisoned line is an uncorrectable error (R207, R219). -/
def dstBad (s : State) (t : Team) (c : CopyCmd) (p : Piece) (ph : List (Nat × Nat)) : Option Nat :=
  if (redOpOf c.kind).isNone then none
  else if dstMain c.kind then (ph.flatMap fun q => (upto q.2).map fun i => physPoisoned s (q.1 + i) 1).findIdx? id
  else (readChip s t (c.a + BitVec.ofNat 32 (p.dst - ocOff c.a)) p.len).2

/-- Everything a chunk needs before it writes; `own` says that the destination's read fails before the source's. -/
structure Ready where
  piece : Piece
  bytes : List Byte
  bad   : Option Nat
  own   : Bool
  phys  : List (Nat × Nat)
  deriving DecidableEq, Repr

/-- A piece with its source's bytes and both its errors. -/
def readyOf (p : Piece) (bytes : List Byte) (src dst : Option Nat) (ph : List (Nat × Nat)) : Ready :=
  match src, dst with
  | none, some d => ⟨p, bytes, some d, true, ph⟩
  | some x, some d => if d < x then ⟨p, bytes, some d, true, ph⟩ else ⟨p, bytes, some x, false, ph⟩
  | x, none => ⟨p, bytes, x, false, ph⟩

/-- All source reads and translations of a chunk, before any of its writes (R228). -/
def readyChunk (s : State) (t : Team) (c : CopyCmd) : List Piece → Got (List Ready)
  | [] => .ok []
  | p :: rest =>
    match readPiece s t c p with
    | .fail x y z => .fail x y z
    | .descErr => .descErr
    | .ok b =>
      match dstPieces s t c p with
      | .fail x y z => .fail x y z
      | .descErr => .descErr
      | .ok ph =>
        match readyChunk s t c rest with
        | .ok l => .ok (readyOf p b.1 b.2 (dstBad s t c p ph) ph :: l)
        | .fail x y z => .fail x y z
        | .descErr => .descErr

/-- A command's store over bytes that a unit may not have seen stored counts as a store after those, released at no scope; any other
byte it stores is read as it stands (R288; log 2). -/
def copiedOver (t : Team) (off n : Nat) : List PastByte :=
  ((t.past.filter fun e => e.space == .sh && decide (off ≤ e.addr) && decide (e.addr < off + n)).map (·.addr)).eraseDups.map fun a =>
    ⟨.sh, 0, a, byteAt t.shared a, t.stores, 64, [], false⟩

/-- Store bytes on-chip for a command, clearing the poison of granules written in full. DESIGN CHOICE (log 52): R202 speaks of
stores only, so that a command's write of part of a poisoned granule stores its bytes, leaves the poison and reports nothing. Bytes of a segment that another context
has taken since the issue are not written (R188, R204; log 52). -/
def writeChip (s : State) (tid : Nat) (t : Team) (a : Word) (off : Nat) (bs : List Byte) : State :=
  if ocSpace a = some .sp then
    (let as := (upto bs.length).map (spBase t.spWin + off + ·)
     let own := (as.zip bs).filter fun x => spMine s t.die t.asid x.1
     spWrite s t.die (own.map (·.1)) (own.map (·.2)))
  else
    let full := fullGranules ((upto bs.length).map (off + ·))
    modTeam s tid fun t =>
      { t with shared := writeBytes t.shared off bs
               stores := t.stores + 1
               past := t.past ++ copiedOver t off bs.length
               sharedPz := if t.sharedPz = [] then [] else t.sharedPz.filter fun g => !full.contains g }

/-- Poison the granules that on-chip bytes cover (R231). -/
def poisonChip (s : State) (tid : Nat) (t : Team) (a : Word) (off n : Nat) : State :=
  let gs := fun base => ((upto n).map fun i => (base + i) / 8).eraseDups
  if ocSpace a = some .sp then
    modDie s t.die fun d => { d with spPz := d.spPz ++ (gs (spBase t.spWin + off)).filter fun g => !d.spPz.contains g && spMine s t.die t.asid (8 * g) }
  else modTeam s tid fun t => { t with sharedPz := t.sharedPz ++ (gs off).filter fun g => !t.sharedPz.contains g }

/-- One combine of `cp.red` on a word (R219). -/
def redWord (op : RedOp) (d x : Word) : Word :=
  match op with
  | .addf32 => classA .ne .fadd d x 0
  | .addbf16 => classA .ne .badd2 d x 0
  | .addi32 => d + x
  | .minf32 => classA .ne .fmin d x 0
  | .maxf32 => classA .ne .fmax d x 0
  | .mini32 => classA .ne (.min .i32) d x 0
  | .maxi32 => classA .ne (.max .i32) d x 0

/-- Combine bytes word by word. -/
def redBytes (op : RedOp) (d x : List Byte) : List Byte :=
  (upto (x.length / 4)).flatMap fun i =>
    toBytes 4 (redWord op (BitVec.ofNat 32 (leNat (d.drop (4 * i) |>.take 4))) (BitVec.ofNat 32 (leNat (x.drop (4 * i) |>.take 4)))).toNat

/-- The first `n` bytes of physical pieces. -/
def takePieces : List (Nat × Nat) → Nat → List (Nat × Nat)
  | [], _ => []
  | (a, k) :: t, n => if n = 0 then [] else (a, Min.min n k) :: takePieces t (n - Min.min n k)

/-- Write one piece: data below `stop` bytes, poison from there (R228, R231). -/
def writePiece (s : State) (tid : Nat) (t : Team) (c : CopyCmd) (r : Ready) (stop : Nat) : State :=
  let k := Min.min stop r.piece.len
  let bs := r.bytes.take k
  if dstMain c.kind then
    let now := r.phys.flatMap fun p => physRead s p.1 p.2
    let out := match redOpOf c.kind with
      | some op => redBytes op now bs
      | none => bs
    let s1 := writePieces s (takePieces r.phys k) out
    if k = r.piece.len then s1 else
    (r.phys.foldl (fun (st : State × Nat) p =>
      let skip := Min.min st.2 p.2
      (physPoison st.1 (p.1 + skip) (p.2 - skip), st.2 - skip)) (s1, k)).1
  else
    let out := match redOpOf c.kind with
      | some op => redBytes op (onchipBytes s t (c.a + BitVec.ofNat 32 (r.piece.dst - ocOff c.a)) k) bs
      | none => bs
    let s1 := writeChip s tid t c.a r.piece.dst out
    if k = r.piece.len then s1 else poisonChip s1 tid t c.a (r.piece.dst + k) (r.piece.len - k)

/-! ### Faults, completion and cancellation (R224, R230 to R235) -/

/-- The key of a core's streamer, or of a die's gather engine. -/
structure EngineKey where
  gather : Bool
  die  : Nat
  core : Nat
  deriving DecidableEq, Repr

/-- An engine's queue. -/
def queueOf (s : State) (k : EngineKey) : List CopyCmd :=
  if k.gather then (dieOf s k.die).gather else (coreOf s (coreKey k.die k.core)).streamer
/-- Change an engine's queue. -/
def modQueue (s : State) (k : EngineKey) (f : List CopyCmd → List CopyCmd) : State :=
  if k.gather then modDie s k.die fun d => { d with gather := f d.gather }
  else modCore s (coreKey k.die k.core) fun c => { c with streamer := f c.streamer }
/-- Replace a command in its queue. -/
def putCmd (s : State) (k : EngineKey) (c : CopyCmd) : State := modQueue s k fun l => l.map fun x => if x.id = c.id then c else x

/-- The fault record of a copy (R230, R381). -/
def copyRec (k : EngineKey) (t : Team) (c : CopyCmd) (cause addr kind : Nat) (rst : Bool) : FRec :=
  { FRec.zero with
    src := if k.gather then .gather else .streamer
    cause := cause, rst := rst, asid := c.asid, team := t.index, plot := t.plot % 4096, token := c.tk, slot := c.slot
    addr := addr, kind := kind
    body := [c.parcel0, c.parcel1, BitVec.ofNat 32 c.progress, BitVec.ofNat 32 c.n]
      ++ (if c.layout = [] then [c.a, lowWord c.b, highWord c.b] else c.layout)
    work := if !rst then .none else if k.gather then .gatherCmd k.die c.id else .copy k.die k.core c.id }

/-- A command completes: token, ring slot, count, and its team if it waited for it (R113, R224, R227, R234, R235). -/
def finishCopy (s : State) (k : EngineKey) (c : CopyCmd) (status : Nat) : State :=
  let s1 := completeTok (modQueue s k fun l => l.filter fun x => x.id != c.id) c.tid c.slot c.tk status
  let s2 := modTeam s1 c.tid fun t =>
    let t1 := if status = 0 then t else count 13 1 t
    match c.ring with
    | none => t1
    | some r => setRing t1 r (turnRing { ringAt t1 r with oc := (ringAt t1 r).oc - 1 })
  reapTeam s2 c.tid

/-- A translation or permission fault stops a command before any write of its chunk (R230). -/
def stopCopy (s : State) (k : EngineKey) (t : Team) (c : CopyCmd) (cause va kind : Nat) : State :=
  if cause = 8 then finishCopy (post s k.die (copyRec k t c 8 va kind false)) k c 1
  else postFault (putCmd s k { c with stopped := true }) k.die (copyRec k t c cause va kind true)

/-- The command that an engine works on: the first with no stopped command of its team at or before it (R228, R230). -/
def pickCmd : List CopyCmd → List Nat → Option CopyCmd
  | [], _ => none
  | c :: t, held => if c.stopped || held.contains c.tid then pickCmd t (c.tid :: held) else some c

/-- A cancelled command's record is withdrawn (R233). One with others attached to its entry stays for the first of them (log 59);
an entry with none left is freed, and the sources that wait for one try again (R380, R399). -/
def withdraw (s : State) (die : Nat) (w : Stalled) : State :=
  let heir := ((dieOf s die).ftable.find? fun e => e.work.contains w).bind fun e => (e.work.filter (· != w)).head?
  let pass := fun r : FRec => if r.work ≠ w then r else match heir with
    | some h => { r with work := h }
    | none => { r with acted := true }
  retryPosts (· == .entry) (modDie s die fun d =>
    { d with posted := d.posted.map pass
             toPost := (d.toPost.map pass).filter fun r => r.work != w
             ftable := (d.ftable.map fun e => { e with work := e.work.filter (· != w) }).filter fun e => e.work != [] }) die

/-- A copy of a cancelled member completes CANCELLED (R233). -/
def cancelCopy (s : State) (k : EngineKey) (c : CopyCmd) : State :=
  let s1 := withdraw s k.die (if k.gather then .gatherCmd k.die c.id else .copy k.die k.core c.id)
  finishCopy (modTeam s1 c.tid (charge c.tag 5 1)) k c 2

/-- Sidecar entries that a bound form loads, by box row, and the first address that meets an error (R218). -/
def sidecarRows (s : State) (t : Team) (c : CopyCmd) : Got (List (Nat × BitVec 16) × Option Nat) :=
  let l := layoutOf c.layout
  (boxRows l).foldl (fun acc r =>
    match acc with
    | .ok (xs, bad) =>
      if l.outer ≤ r.2.1 then .ok (xs ++ [(r.1, 0)], bad)
      else (match readMain s t.port c.asid (l.base + l.sidecar + 2 * r.2.1) 2 with
        | .ok (bs, e) => .ok (xs ++ [(r.1, BitVec.ofNat 16 (leNat bs))],
            match bad with
            | some a => some a
            | none => e.map (l.base + l.sidecar + 2 * r.2.1 + ·))
        | .fail x y z => .fail x y z
        | .descErr => .descErr)
    | e => e) (.ok ([], none))

/-- A command that names a tile has its token pending (R218). -/
def tokenPending (e : Engine) (tile : Nat) : Bool :=
  tilePending { e with queue := e.queue.filter fun c => c.tk.isSome } tile

/-- Change the engine that holds a team's matrix state: its core's, or the one saved with it while it is out (R240); none where
the team has given it up. -/
def modTeamEngine (s : State) (tid : Nat) (t : Team) (f : Engine → Engine) : State :=
  let ck := coreKey t.die t.core
  if t.out then modTeam s tid fun t => { t with saved := t.saved.map f }
  else if (coreOf s ck).engine.holder = some tid then modCore s ck fun x => { x with engine := f x.engine }
  else s

/-- The last act of a bound-loading form that met no error: its sidecar entries are read and written, after the data (R218). -/
def loadBounds (s : State) (k : EngineKey) (t : Team) (c : CopyCmd) : State :=
  let l := layoutOf c.layout
  if (boxRows l).any fun r => decide (r.2.1 < l.outer) && rangeWaits s t.port c.asid (l.base + l.sidecar + 2 * r.2.1) 2 then s else
  match sidecarRows s t c with
  | .descErr => descriptorError s c.asid
  | .fail cause va kind => stopCopy s k t c cause va kind
  | .ok (rows, bad) =>
    let s1 := modTeam s c.tid (count 10 (2 * (rows.filter fun r => decide (l.orgOuter + r.1 < l.outer)).length))
    let setE := modTeamEngine s1 c.tid t
    match bad with
    | some a => finishCopy (post s1 k.die (copyRec k t c 8 a 0 false)) k c 1
    | none =>
      match c.kind with
      | .tenLdBnd i =>
        let e := (coreOf s (coreKey t.die t.core)).engine
        if !t.out && e.holder == some c.tid && tokenPending e i then finishCopy s1 k c 4
        else finishCopy (setE fun e => rows.foldl (fun e r => setBound e i r.1 r.2) e) k c 0
      | .tenLdBnda => finishCopy (setE fun e => { e with aBuf := rows.foldl (fun b r => Tbl.set 0 b r.1 r.2) e.aBuf }) k c 0
      | _ => finishCopy (setE fun e => { e with wBuf := rows.foldl (fun b r => Tbl.set 0 b r.1 r.2) e.wBuf }) k c 0

/-- The form loads bounds. -/
def loadsBounds : CopyKind → Bool
  | .tenLdBnd _ | .tenLdBnda | .tenLdBndw => true
  | _ => false

/-- The physical ranges of the source that a main-to-main command has yet to read after a chunk, as places. -/
def laterSource (s : State) (t : Team) (c : CopyCmd) (rs : List Ready) : List (Nat × Nat) :=
  let next := c.b2.toNat + (rs.foldl (fun m r => Max.max m (r.piece.dst + r.piece.len)) 0 - c.b.toNat)
  let n := c.b2.toNat + c.n - next
  (pagePieces (n / 65536 + 2) next n).flatMap fun p => match transRange s t.port c.asid p.1 p.2 .read with
    | .ok ps => ps.map fun q => (physPlace q.1, q.2)
    | _ => []

/-- The bytes of the source still to be read that a chunk is about to overwrite: place, and physical address. -/
def overwritten (s : State) (t : Team) (c : CopyCmd) (rs : List Ready) : List (Nat × Nat) :=
  match c.kind with
  | .blkMm | .redMm _ =>
    let later := laterSource s t c rs
    (rs.flatMap fun r => r.phys.flatMap fun p => (upto p.2).map fun i => (physPlace (p.1 + i), p.1 + i)).filter fun x =>
      later.any fun q => decide (q.1 ≤ x.1) && decide (x.1 < q.1 + q.2)
  | _ => []

/-- The command after a chunk: its progress, the source bytes it must keep (R215), and a new error (R231). -/
def afterChunk (s : State) (c : CopyCmd) (over_ : List (Nat × Nat)) (low : Option Nat) : CopyCmd :=
  let fresh := over_.filter fun x => (Tbl.find (c.buf.getD []) x.1).isNone
  { c with
    progress := c.progress + 1
    poison := low
    buf := match c.kind with
      | .blkMm | .redMm _ => some (fresh.foldl (fun b x => Tbl.put b x.1 (byteAt s.mem x.1)) (c.buf.getD []))
      | _ => none
    bufPz := c.bufPz ++ (fresh.filter fun x => physPoisoned s x.2 1).map (·.1) }

/-- The first destination line, or on-chip granule, that meets an error in a chunk (R231). -/
def badLine (c : CopyCmd) (rs : List Ready) : Option Nat :=
  let w := if dstMain c.kind then 64 else 8
  let l := rs.filterMap fun r => r.bad.map fun i => (r.piece.dst + i) / w * w
  match c.poison with
  | some p => some p
  | none => l.foldl (fun m x => some (match m with
    | none => x
    | some y => Min.min x y)) none

/-- The address of the first byte of a chunk whose read meets an error: 0 on-chip (R381). -/
def badAddr (main : Bool) (rs : List Ready) : Nat :=
  ((rs.find? fun r => r.bad.isSome).map fun r =>
    if r.own then (if main then r.piece.dst + r.bad.getD 0 else 0) else match r.piece.src with
    | .main va => va + r.bad.getD 0
    | _ => 0).getD 0

/-- Perform a chunk's writes. -/
def doChunk (s : State) (k : EngineKey) (t : Team) (c : CopyCmd) (rs : List Ready) : State :=
  let low := badLine c rs
  let s1 := rs.foldl (fun s r => writePiece s c.tid t c r ((low.map (· - r.piece.dst)).getD r.piece.len)) s
  let nb := (rs.map fun r => r.piece.len).sum
  let rd := (rs.map fun r => match r.piece.src with
    | .main _ | .chip _ => r.piece.len
    | _ => 0).sum
  let s2 := modTeam s1 c.tid fun t => charge c.tag 1 nb (count 11 nb (count 10 rd t))
  let s3 := if low.isSome && c.poison.isNone then post s2 k.die (copyRec k t c 8 (badAddr (dstMain c.kind) rs) 0 false) else s2
  putCmd s3 k (afterChunk s c (overwritten s t c rs) low)

/-- A piece waits for a walker at its source or destination (R395). -/
def pieceWaits (s : State) (t : Team) (c : CopyCmd) (p : Piece) : Bool :=
  (match p.src with
   | .main va => rangeWaits s t.port c.asid va p.len
   | _ => false) || (dstMain c.kind && rangeWaits s t.port c.asid p.dst p.len)

/-- The head command of a streamer performs its next chunk, or completes (R228). -/
def copyStep (s : State) (k : EngineKey) (t : Team) (c : CopyCmd) : State :=
  let ps := piecesOf c
  match (blocksOf ps)[c.progress]? with
  | none => if c.poison.isSome then finishCopy s k c 1 else if loadsBounds c.kind then loadBounds s k t c else finishCopy s k c 0
  | some b =>
    let now := ps.filterMap (clip b)
    if now.any (pieceWaits s t c) then s else
    match readyChunk s t c now with
    | .descErr => descriptorError s c.asid
    | .fail cause va kind => stopCopy s k t c cause va kind
    | .ok rs => doChunk s k t c rs

/-- What a streamer or gather engine does next: nothing where it has no command it may work on. -/
def engineStep (s : State) (k : EngineKey) (f : Team → CopyCmd → State) : State :=
  match pickCmd (queueOf s k) [] with
  | none => s
  | some c =>
    match Tbl.find s.teams c.tid with
    | none => modQueue s k fun l => l.filter fun x => x.id != c.id
    | some t =>
      match c.kind with
      | .log _ => s
      | _ => if isCancelled s k.die c.tag then cancelCopy s k c else f t c

/-- COPY_CHUNK. -/
def execCopyChunk (die core : Nat) (s : State) : Res :=
  let k : EngineKey := ⟨false, die, core⟩
  .next (engineStep s k fun t c => copyStep s k t c)

/-! ### Gather and scatter (R221 to R223) -/

/-- The pieces of a copy address of a gather command: none to find where it is on-chip. -/
def copyWalk (s : State) (t : Team) (c : CopyCmd) (d : DWord) (off n : Nat) (need : Need) (kind : Nat) :
    Got (List (Nat × Option Nat)) :=
  if isChip d then .ok [] else walkRange s t.die c.asid need kind (d.toNat + off) n

/-- Bytes at a copy address whose pieces are known, and the first index that meets an error. -/
def copyRead (s : State) (t : Team) (d : DWord) (off n : Nat) (ps : List (Nat × Option Nat)) : List Byte × Option Nat :=
  if isChip d then readChip s t (lowWord d + BitVec.ofNat 32 off) n else readPieces s ps

/-- A place for every byte at a copy address: on-chip bytes stand above every place in main memory. -/
def copyPlaces (t : Team) (d : DWord) (off n : Nat) (ps : List (Nat × Option Nat)) : List (Option Nat) :=
  if isChip d then
    (let a := lowWord d
     let base := if ocSpace a = some .sp then 2 ^ 60 + 2 ^ 40 + spBase t.spWin + ocOff a else 2 ^ 60 + ocOff a
     (upto n).map fun i => some (base + off + i))
  else placesOf ps

/-- Write at a copy address: bytes, or poison where none (R231). -/
def copyWrite (s : State) (tid : Nat) (t : Team) (d : DWord) (off n : Nat) (ps : List (Nat × Option Nat)) (bs : Option (List Byte)) :
    State :=
  if isChip d then
    (let a := lowWord d
     match bs with
     | some b => writeChip s tid t a (ocOff a + off) b
     | none => poisonChip s tid t a (ocOff a + off) n)
  else (ps.foldl (fun (st : State × Nat) p =>
    ((match p.2, bs with
      | none, _ => st.1
      | some pa, some b => physWrite st.1 pa ((b.drop st.2).take p.1)
      | some pa, none => physPoison st.1 pa p.1), st.2 + p.1)) (s, 0)).1

/-- The first byte of pieces whose walk met an error. -/
def lostPiece (ps : List (Nat × Option Nat)) : Option Nat := (placesOf ps).findIdx? (·.isNone)

/-- The element range of a batch. -/
def batchOf (c : CopyCmd) : List Nat :=
  let n := (c.layout.getD 6 0).toNat
  (upto (Min.min 4096 (n - 4096 * c.progress))).map (4096 * c.progress + ·)

/-- The address of an index: none where it is out of range (R221). -/
def elemAddr (c : CopyCmd) (Z k : Nat) : Option Nat :=
  let a := (descPair c.layout 0).toNat + k * (c.layout.getD 7 0).toNat
  if c.n ≤ k || 2 ^ 56 < a + Z then none else some a

/-- An element of a batch with its translations: its place in the list, its address if in range, the address at which its
index met an error, and the pieces of its index, of its address and of its slot of the packed array. -/
structure Elem where
  e    : Nat
  addr : Option Nat
  lost : Option Nat
  list : List (Nat × Option Nat)
  elem : List (Nat × Option Nat)
  pack : List (Nat × Option Nat)
  deriving DecidableEq, Repr

/-- The translation of an index's address, as the batch makes it (R222). -/
def elemWalk (s : State) (t : Team) (c : CopyCmd) (Z : Nat) (scatter : Bool) (a : Option Nat) : Got (List (Nat × Option Nat)) :=
  match a with
  | none => .ok []
  | some a => walkRange s t.die c.asid (if scatter then .write else .read) (if scatter then 1 else 0) a Z

/-- The byte at a place of `copyPlaces` meets an uncorrectable error (R202, R207). -/
def placePoisoned (s : State) (t : Team) (a : Nat) : Bool :=
  if a < 2 ^ 60 then s.memPz.contains (a / 64)
  else if a < 2 ^ 60 + 2 ^ 40 then t.sharedPz.contains ((a - 2 ^ 60) / 8)
  else (corePoison s (coreKey t.die t.core)).contains ((a - 2 ^ 60 - 2 ^ 40) / 8)

/-- Words of a command's list or packed array that it has overwritten itself: where it has overwritten all of one, the bytes
from before the command or those now, which of them being free; where it has overwritten part, those from before, so that no
value mixes the two (R223). A byte meets an error if it did where it stands or stood (R232). -/
def ownOverwrite (s : State) (t : Team) (c : CopyCmd) (fk : Nat) (at_ : List (Option Nat)) (now : List Byte × Option Nat) :
    List Byte × Option Nat :=
  let saved := c.buf.getD []
  if saved = [] then now else
  let kept := at_.map fun a => a.bind (Tbl.find saved)
  if kept.all (·.isNone) || (kept.all (·.isSome) && freeBit s fk) then now else
  let bad := fun (a : Option Nat) (i : Nat) => match a.bind (Tbl.find saved) with
    | some _ => (a.map c.bufPz.contains).getD false
    | none => now.2 == some i || (a.map (placePoisoned s t)).getD true
  ((kept.zip now.1).map fun x => x.1.getD x.2, at_.zipIdx.findIdx? fun x => bad x.1 x.2)

/-- The translations of a batch in order, before any of its accesses (R222): its list, then for each element its slot of the
packed array and the address of its index. -/
def batchElems (s : State) (t : Team) (c : CopyCmd) (Z : Nat) (scatter : Bool) : List Nat → Got (List Elem)
  | [] => .ok []
  | e :: es =>
    let dl := descPair c.layout 2
    let da := descPair c.layout 4
    match copyWalk s t c dl (4 * e) 4 .read 0 with
    | .fail x y z => .fail x y z
    | .descErr => .descErr
    | .ok pl =>
      let w := ownOverwrite s t c (2 ^ 31 + 2 * e) (copyPlaces t dl (4 * e) 4 pl) (copyRead s t dl (4 * e) 4 pl)
      let lost := w.2.map fun i => if isChip dl then 0 else dl.toNat + 4 * e + i
      let a := if lost.isSome then none else elemAddr c Z (leNat w.1)
      match copyWalk s t c da (e * Z) Z (if scatter then .read else .write) (if scatter then 0 else 1) with
      | .fail x y z => .fail x y z
      | .descErr => .descErr
      | .ok pp =>
        match elemWalk s t c Z scatter a with
        | .fail x y z => .fail x y z
        | .descErr => .descErr
        | .ok pe =>
          match batchElems s t c Z scatter es with
          | .ok l => .ok (⟨e, a, lost, pl, pe, pp⟩ :: l)
          | x => x

/-- Where a batch stands: the state, the command with the bytes it has saved, whether an element was out of range, the first
address that met an error, and the bytes read and written (R235). -/
structure Batch where
  st  : State
  cmd : CopyCmd
  bad : Bool
  err : Option Nat
  rd  : Nat
  wr  : Nat
  deriving DecidableEq, Repr

/-- The places of a command's list, and of a scatter's packed array, as runs: place and length (R223). -/
def watchRuns (s : State) (t : Team) (c : CopyCmd) (Z : Nat) (scatter : Bool) : List (Nat × Nat) :=
  let n := (c.layout.getD 6 0).toNat
  let runs := fun (d : DWord) (len : Nat) =>
    if isChip d then (match copyPlaces t d 0 1 [] with
      | [some p] => [(p, len)]
      | _ => [])
    else (pagePieces (len / 65536 + 2) d.toNat len).filterMap fun p => match translate s t.die c.asid p.1 .read with
      | .ok pa => some (physPlace pa, p.2)
      | _ => none
  runs (descPair c.layout 2) (4 * n) ++ if scatter then runs (descPair c.layout 4) (Z * n) else []

/-- A command saves bytes of its list or its packed array that it is about to overwrite (R223). -/
def saveOver (runs : List (Nat × Nat)) (at_ : List (Option Nat)) (now : List Byte) (bad : Nat → Bool) (c : CopyCmd) : CopyCmd :=
  let own := fun a : Nat => runs.any fun r => decide (r.1 ≤ a) && decide (a < r.1 + r.2)
  let xs := (at_.zip now).filterMap fun x => x.1.bind fun a =>
    if own a && (Tbl.find (c.buf.getD []) a).isNone then some (a, x.2) else none
  if xs = [] then c else
  { c with buf := some (xs.foldl (fun b x => Tbl.put b x.1 x.2) (c.buf.getD []))
           bufPz := c.bufPz ++ (xs.map (·.1)).filter bad }

/-- Write an element's destination, saving what of the command's own list or array it overwrites. -/
def putElem (runs : List (Nat × Nat)) (t : Team) (d : DWord) (off n : Nat) (ps : List (Nat × Option Nat)) (bs : Option (List Byte))
    (b : Batch) : Batch :=
  let now := copyRead b.st t d off n ps
  { b with
    cmd := saveOver runs (copyPlaces t d off n ps) now.1 (placePoisoned b.st t) b.cmd
    st := copyWrite b.st b.cmd.tid t d off n ps bs
    wr := b.wr + n }

/-- An error at an element: the first one's address is kept (R231). -/
def noteErr (a : Option Nat) (b : Batch) : Batch := { b with err := if b.err.isSome then b.err else a }

/-- The index of an element when its turn comes, if the engine reads it again then: as the command has left it by then, and
translated as everything of the batch was (R223). One that has no translation, or meets an error, is not read again (log 53). -/
def turnOf (s0 : State) (t : Team) (Z : Nat) (scatter : Bool) (x : Elem) (b : Batch) : Option Nat × List (Nat × Option Nat) :=
  if b.cmd.buf.isNone || !freeBit s0 (2 ^ 31 + 2 * x.e + 1) then (x.addr, x.elem) else
  let dl := descPair b.cmd.layout 2
  match ownOverwrite s0 t b.cmd (2 ^ 31 + 2 * x.e) (copyPlaces t dl (4 * x.e) 4 x.list) (copyRead b.st t dl (4 * x.e) 4 x.list) with
  | (bs, none) =>
    let a := elemAddr b.cmd Z (leNat bs)
    (match elemWalk s0 t b.cmd Z scatter a with
     | .ok ps => (a, ps)
     | _ => (x.addr, x.elem))
  | _ => (x.addr, x.elem)

/-- One element (R221). An element whose index or source meets an error has its destination poisoned, if that is known, and
one whose destination's walk meets an error is not written (R231, R398). -/
def gatherOne (s0 : State) (runs : List (Nat × Nat)) (t0 : Team) (Z : Nat) (scatter : Bool) (b : Batch) (x : Elem) : Batch :=
  let t := (Tbl.find b.st.teams b.cmd.tid).getD t0
  let da := descPair b.cmd.layout 4
  let off := x.e * Z
  let at_ := fun (d : DWord) (o : Nat) (i : Option Nat) => i.map fun i => if isChip d then 0 else d.toNat + o + i
  match x.lost with
  | some a => noteErr (some a) (if scatter then b else putElem runs t da off Z x.pack none b)
  | none =>
    let (addr, ps) := turnOf s0 t Z scatter x b
    match addr with
    | none =>
      let b1 := { b with bad := true }
      if scatter then b1 else
        noteErr (at_ da off (lostPiece x.pack)) (putElem runs t da off Z x.pack (some (List.replicate Z 0)) b1)
    | some a =>
      let ad := BitVec.ofNat 64 a
      let b1 := { b with rd := b.rd + Z }
      if scatter then
        (let src := ownOverwrite s0 t b.cmd (2 ^ 31 + 2 ^ 22 + x.e) (copyPlaces t da off Z x.pack) (copyRead b.st t da off Z x.pack)
         noteErr (at_ ad 0 (lostPiece ps)) (noteErr (at_ da off src.2)
           (putElem runs t ad 0 Z ps (if src.2.isSome then none else some src.1) b1)))
      else
        let src := copyRead b.st t ad 0 Z ps
        noteErr (at_ da off (lostPiece x.pack)) (noteErr (at_ ad 0 src.2)
          (putElem runs t da off Z x.pack (if src.2.isSome then none else some src.1) b1))

/-- A batch: every translation first, then its elements in list order, so that the highest list index wins (R222), once every page it needs
can be translated (R395). A command with both an error and an index out of range completes SRC_ERROR (log 53). Of source bytes read it
counts those of each element in range, and not those of its index list (R235; DESIGN CHOICE, log 53). -/
def batchStep (s : State) (k : EngineKey) (t : Team) (c : CopyCmd) (z : Nat) (scatter : Bool) : State :=
  let Z := 2 ^ z
  let es := batchOf c
  if es = [] then finishCopy s k c (if c.err then 1 else if c.bad then 3 else 0) else
  let waits := fun (d : DWord) w => !isChip d && rangeWaits s t.die c.asid (d.toNat + es.headD 0 * w) (es.length * w)
  if waits (descPair c.layout 2) 4 || waits (descPair c.layout 4) Z then s else
  match batchElems s t c Z scatter es with
  | .descErr => descriptorError s c.asid
  | .fail cause va kind => if rangeWaits s t.die c.asid va 1 then s else stopCopy s k t c cause va kind
  | .ok xs =>
    if xs.any fun x => (x.addr.map fun a => rangeWaits s t.die c.asid a Z).getD false then s else
    let r := xs.foldl (gatherOne s (watchRuns s t c Z scatter) t Z scatter) ⟨s, c, false, none, 0, 0⟩
    let s1 := modTeam r.st c.tid fun t => charge c.tag 1 r.wr (count 11 r.wr (count 10 r.rd t))
    let s2 := if r.err.isSome && !c.err then post s1 k.die (copyRec k t c 8 (r.err.getD 0) 0 false) else s1
    putCmd s2 k { r.cmd with progress := c.progress + 1, bad := c.bad || r.bad, err := c.err || r.err.isSome }

/-- GATHER_BATCH. -/
def execGatherBatch (die : Nat) (s : State) : Res :=
  let k : EngineKey := ⟨true, die, 0⟩
  .next (engineStep s k fun t c =>
    match c.kind with
    | .gat z => batchStep s k t c z false
    | .sct z => batchStep s k t c z true
    | _ => s)

end Sys2Proof.Machine
end

