-- ==== Sys2Proof/Machine/Siblings.lean ====
section
/-! DEFINITION. Sibling groups: the ballot arrays, votes, decisions and frees (R315 to R329, R481), accounting (R336), and
the release of pages (R334, R335). -/

namespace Sys2Proof.Machine

/-! ### Tag words and their checks (R315, R317, R322) -/

/-- Member, member count less 1, home die and record of a tag word (R317). -/
def tagMem (w : Word) : Nat := bits w.toNat 30 25
/-- NM1 of a tag word. -/
def tagNm1 (w : Word) : Nat := bits w.toNat 24 19
/-- DIE of a tag word. -/
def tagDie (w : Word) : Nat := bits w.toNat 13 12
/-- IDX of a tag word. -/
def tagIdx (w : Word) : Nat := bits w.toNat 11 0
/-- The handle of a new group: the tag word of member 0. -/
def handleOf (n die idx : Nat) : Word := BitVec.ofNat 32 (2 ^ 31 + (n - 1) % 64 * 2 ^ 19 + die % 4 * 2 ^ 12 + idx % 4096)

/-- A group window word is usable (R315). -/
def grUsable (w : Word) : Bool :=
  let x := w.toNat
  bitOf x 31 && bits x 30 29 == 0 && bits x 15 12 == 0 && decide (1 ≤ bits x 28 16) && decide (bits x 11 0 + bits x 28 16 ≤ 4096)
/-- A group window contains a record. -/
def grHolds (w : Word) (i : Nat) : Bool :=
  grUsable w && decide (bits w.toNat 11 0 ≤ i) && decide (i < bits w.toNat 11 0 + bits w.toNat 28 16)
/-- A group's record. -/
def groupAt (s : State) (die idx : Nat) : Option Group := Tbl.find (dieOf s die).groups idx
/-- Change a group's record. -/
def modGroup (s : State) (die idx : Nat) (f : Group → Group) : State :=
  modDie s die fun d => { d with groups := Tbl.modify d.groups idx f }

/-- The checks of R322 on a tag word, as SG's subcode. -/
def groupCheck (s : State) (asid : Nat) (w : Word) (join : Bool) : Option Nat :=
  if !w.getLsbD 31 || bits w.toNat 18 14 != 0 || decide (tagNm1 w < tagMem w) then some 1
  else if !grHolds (descWin s asid 0x40 (tagDie w)) (tagIdx w) then some 3
  else match groupAt s (tagDie w) (tagIdx w) with
  | none => some 4
  | some g =>
    if g.asid ≠ asid || g.n - 1 ≠ tagNm1 w then some 4
    else if join && g.state == .freed then some 4 else none

/-- A word that names a group: R322's checks, then what it does. -/
def withGroup (c : Ctx) (w : Word) (join : Bool) (k : Group → State) : State :=
  if descBad c.st c.team.asid then descriptorError c.st c.team.asid else
  match groupCheck c.st c.team.asid w join, groupAt c.st (tagDie w) (tagIdx w) with
  | none, some g => k g
  | some sub, _ => raiseExec c c.st 20 sub 0
  | none, none => c.st

/-! ### The state word (R328) -/

/-- Members that a test on their settlement holds for. -/
def settledBy (g : Group) (p : Settle → Bool) : Nat :=
  ((upto g.n).filter fun m => p (((Tbl.find g.settle m).map (·.1)).getD .none)).length
/-- The state word. -/
def stateWord (g : Group) : Word :=
  let st := match g.state with
    | .opened => 1 | .decided => 2 | .freed => 3
  BitVec.ofNat 32 (st * 2 ^ 30 + g.kind * 2 ^ 28 + g.win * 2 ^ 21 + settledBy g (· == .voted) * 2 ^ 14
    + settledBy g (· == .cancelled) * 2 ^ 7 + settledBy g (· != .none))

/-! ### Instructions (R321 to R329) -/

/-- Send a unit's request to a ballot array (R326). -/
def sendBallot (c : Ctx) (s : State) (op : BallotOp) (die : Nat) (w : Word) : State :=
  { s with ballots := s.ballots ++ [⟨s.nextId, op, die, w, c.team.asid, c.tid, c.slot, c.uid, false, c.team.die, 0⟩], nextId := s.nextId + 1 }

/-- The five checks of R323 on a parameter block. -/
def newCheck (c : Ctx) (w0 : Word) (area : DWord) (evn : Word) : Option (Nat × Nat) :=
  let x := w0.toNat
  let bad := bits x 30 18 != 0 || bits x 15 14 != 0 || bits x 7 6 != 0 || decide (bits x 5 0 < bits x 13 8)
    || (!bitOf x 31 && evn != 0)
  andThen (firstFail [(bad, 20, 5), (!mainOk area, 11, 0), (area.toNat % 4096 != 0, 4, 0)])
    (andThen (if !bitOf x 31 then none else match nameCheck c.st c.team.asid c.team.evWin evn with
        | .error sub => some (19, sub)
        | .ok _ => none)
      (if grUsable (descWin c.st c.team.asid 0x40 (bits x 17 16)) then none else some (20, 3)))

/-- `sg.new` (R323): the handle comes when the ballot array has answered. -/
def execSgNew (la : BitVec 4) (sd sp : SReg) (s : State) : Res :=
  issue (.sgNew la sd sp) s fun c =>
    let w0 := rdS c sp
    let area := pair (rdSk c sp 1) (rdSk c sp 2)
    let evn := rdSk c sp 3
    .next (if descBad c.st c.team.asid then descriptorError c.st c.team.asid else
      match newCheck c w0 area evn with
      | some (cause, sub) => raiseExec c c.st cause sub 0
      | none =>
        let die := bits w0.toNat 17 16
        let win := descWin c.st c.team.asid 0x40 die
        let ev := if bitOf w0.toNat 31 then (nameCheck c.st c.team.asid c.team.evWin evn).toOption else none
        retire c (awaitReply c (sendBallot c c.st (.new area.toNat (bits w0.toNat 5 0 + 1) (bits w0.toNat 13 8 + 1) ev) die win)
          c.st.nextId sd la) (c.next 2))

/-- Set the tag of every thread of the issuing unit's mask. -/
def retag (c : Ctx) (s : State) (w : Word) : State :=
  let f := fun (t : Nat × Thread) => if c.unit.mask.getLsbD t.1 then (t.1, { t.2 with tag := w }) else t
  c.modSheaf s fun sh => { sh with threads := sh.threads.map f }

/-- `sg.join` (R324). -/
def execSgJoin (la : BitVec 4) (st : SReg) (s : State) : Res :=
  issue (.sgJoin la st) s fun c => .next (withGroup c (rdS c st) true fun _ => retire c (retag c c.st (rdS c st)) (c.next 2))
/-- `sg.join.clr` (R324). -/
def execSgJoinClr (la : BitVec 4) (s : State) : Res :=
  issue (.sgJoinClr la) s fun c => .next (retire c (retag c c.st 0) (c.next 2))
/-- `sg.cpt` (R325): a cancellation point. -/
def execSgCpt (la : BitVec 4) (s : State) : Res :=
  issue (.sgCpt la) s fun c =>
    if goneAt c = 0 then .next (retire c c.st (c.next 2)) else
    let s1 := cancelPoint (chargeCycles c c.st 1 [c.tag]) c.tid c.slot c.uid
    .next (match unitAt s1 c.tid c.slot c.uid with
      | none => settle s1 c.tid c.slot
      | some c1 => settle (advance c1 s1 (c1.next 2)) c.tid c.slot)

/-- A vote or an abstention for the member of the unit's tag: a release at device scope; the status comes when the ballot
array has accepted it (R326). -/
def castVote (i : Instr) (la : BitVec 4) (sd : SReg) (s : State) (op : Ctx → BallotOp) : Res :=
  issue i s fun c =>
    let w := c.tag
    .next (if !w.getLsbD 31 then raiseExec c c.st 20 2 0 else
      withGroup c w false fun _ =>
        retire c (awaitReply c (sendBallot c (flushCore c.st c.core) (op c) (tagDie w) w) c.st.nextId sd la) (c.next 2))
/-- `sg.vote` (R326). -/
def execSgVote (la : BitVec 4) (sd dh : SReg) (s : State) : Res := castVote (.sgVote la sd dh) la sd s fun c => .vote (rdPair c dh)
/-- `sg.vote.abst` (R326). -/
def execSgVoteAbst (la : BitVec 4) (sd : SReg) (s : State) : Res := castVote (.sgVoteAbst la sd) la sd s fun _ => .abst

/-- A unit sent the request: accounts and held-back decisions are the device's own. -/
def BallotReq.ofUnit (r : BallotReq) : Bool :=
  match r.op with
  | .account _ | .decided => false
  | _ => true

/-- The unit has a request on its way, which is accepted first (R326). -/
def ballotAhead (c : Ctx) : Bool := c.st.ballots.any fun r => r.ofUnit && r.tid == c.tid && r.slot == c.slot && r.uid == c.uid

/-- The home die cannot answer a reading of a record yet: its clock is stopped (R337), or the record waits for an access to
its area (R481). -/
def statBlocked (s : State) (w : Word) : Bool :=
  !clockRuns (dieOf s (tagDie w)) || ((groupAt s (tagDie w) (tagIdx w)).map (·.stopped)).getD false

/-- The group that a `sg.stat` reads, after R322; a word that waits already has passed it, and keeps its operand (R66, R328). -/
def statGroup (c : Ctx) (w : Word) (k : Word → Group → State) : State :=
  match c.unit.wait with
  | .decision w0 => (match groupAt c.st (tagDie w0) (tagIdx w0) with
    | some g => k w0 g
    | none => c.st)
  | _ => withGroup c w false (k w)

/-- `sg.stat`: after R322, a reading of the record; one that shows a decision is an acquire (R328). -/
def groupStat (i : Instr) (la : BitVec 4) (sg : SReg) (s : State) (wait : Bool) (f : Ctx → Group → List (RegKey × Word)) : Res :=
  issue i s fun c => .next (
    if ballotAhead c then waitAt c c.st (.room .ballots) else
    statGroup c (rdS c sg) fun w g =>
      if (wait && g.state == .opened) || statBlocked c.st w then waitAt c c.st (.decision w)
      else retire c (commit c (hearAll c (dropClean c.st c.core)) la.toNat (f c g)) (c.next 2))
/-- `sg.stat.st` (R328). -/
def execSgStatSt (la : BitVec 4) (sd sg : SReg) (s : State) : Res :=
  groupStat (.sgStatSt la sd sg) la sg s false fun c g => [(fieldKey c.sheaf sd, stateWord g)]
/-- `sg.stat.hash` (R328). -/
def execSgStatHash (la : BitVec 4) (sd sg : SReg) (s : State) : Res :=
  groupStat (.sgStatHash la sd sg) la sg s false fun c g =>
    let h : DWord := if g.state = .decided then g.dhash else 0
    [(fieldKey c.sheaf sd, lowWord h), (fieldKey c.sheaf (sd + 1), highWord h)]
/-- `sg.stat.wait` (R328). -/
def execSgStatWait (la : BitVec 4) (sd sg : SReg) (s : State) : Res :=
  groupStat (.sgStatWait la sd sg) la sg s true fun c g => [(fieldKey c.sheaf sd, stateWord g)]
/-- `sg.free` (R329). -/
def execSgFree (la : BitVec 4) (sg : SReg) (s : State) : Res :=
  issue (.sgFree la sg) s fun c => .next (withGroup c (rdS c sg) false fun _ =>
    retire c (sendBallot c c.st .free (tagDie (rdS c sg)) (rdS c sg)) (c.next 2))

/-! ### Accesses to the group area (R319, R481) -/

/-- Writes to a group area: address and bytes. -/
abbrev AreaWrites := List (Nat × List Byte)

/-- The first write of a list that does not translate. -/
def areaFault (s : State) (die asid : Nat) (ws : AreaWrites) : Option (Nat × Option Nat) :=
  ws.findSome? fun w => match transRange s die asid w.1 w.2.length .write with
    | .ok _ => none
    | .fail 8 _ => none
    | .fail c va => some (va, some c)
    | .descErr => some (w.1, none)

/-- What becomes of writes made in order: all made, or the number of the one that failed with its address and cause, or an unreadable
descriptor. A walk that meets an uncorrectable error is reported and its write dropped. -/
inductive AreaEnd where
  | made (s : State)
  | failed (s : State) (i va cause : Nat)
  | descErr (s : State)

/-- Make writes in order, the first being the `i`-th. -/
def areaRun (die asid : Nat) (tag : Word) : Nat → AreaWrites → State → AreaEnd
  | _, [], s => .made s
  | i, w :: ws, s =>
    match vwrite s die asid w.1 w.2 with
    | .ok s1 => areaRun die asid tag (i + 1) ws s1
    | .fail 8 va => areaRun die asid tag (i + 1) ws
        (post s die { FRec.zero with src := .ballot, cause := 8, asid := asid, addr := va, kind := 1, body := [tag] })
    | .fail c va => .failed s i va c
    | .descErr => .descErr s

/-- Writes that translate, made. -/
def areaWrite (s : State) (die asid : Nat) (tag : Word) (ws : AreaWrites) : State :=
  match areaRun die asid tag 0 ws s with
  | .made s1 | .failed s1 .. | .descErr s1 => s1

/-- The entry of a member (R320). -/
def memberAddr (area m : Nat) : Nat := area + 0x100 + 64 * m
/-- MSEQ and MSET of a member. -/
def settleCode (x : Settle × Nat) : Nat :=
  x.2 % 256 * 4 + match x.1 with
    | .none => 0 | .voted => 1 | .abstained => 2 | .cancelled => 3

/-- The counts of a team added to the 48 bytes from 0x10 of a member's entry (R320, R336): ISSUE, COPYB, MXP, LOGR; DJOB, DCOPY, TEND,
PREL. -/
def addedCounts (old : List Byte) (row : List Nat) : List Byte :=
  ((upto 4).flatMap fun i => toBytes 8 (leNat ((old.drop (8 * i)).take 8) + row.getD i 0))
  ++ (upto 4).flatMap fun i => toBytes 4 (leNat ((old.drop (0x20 + 4 * i)).take 4) + row.getD (4 + i) 0)

/-! ### Acceptance (R323, R326, R327, R329) -/

/-- The lowest-numbered free record of a window. -/
def freeGroup (s : State) (die : Nat) (win : Word) : Option Nat :=
  ((upto (bits win.toNat 28 16)).map (bits win.toNat 11 0 + ·)).find? fun i => (groupAt s die i).isNone

/-- The hash counts after a vote. -/
def addHash (h : DWord) (seq : Nat) : List HashCount → List HashCount
  | [] => [⟨h, 1, seq⟩]
  | x :: t => if x.hash = h then { x with count := x.count + 1 } :: t else x :: addHash h seq t

/-- The winner by plurality: the largest count, then the earliest first vote (R327). -/
def plurality : List HashCount → Option HashCount
  | [] => none
  | x :: t => match plurality t with
    | none => some x
    | some y => if y.count < x.count || (x.count = y.count && x.first < y.first) then some x else some y

/-- The decision of an open group, where R327 gives one: kind, hash, votes. -/
def decisionOf (g : Group) : Option (Nat × DWord × Nat) :=
  match g.hashes.find? fun x => decide (g.q ≤ x.count) with
  | some x => some (1, x.hash, x.count)
  | none =>
    if settledBy g (· != .none) < g.n then none else
    match plurality g.hashes with
    | some x => some (2, x.hash, x.count)
    | none => some (3, 0, 0)

/-- Members that are not settled. -/
def unsettled (g : Group) : List Nat :=
  (upto g.n).filter fun m => (((Tbl.find g.settle m).map (·.1)).getD .none) == .none
/-- A group whose unsettled members are cancelled. -/
def cancelMembers (g : Group) : Group :=
  { g with settle := (unsettled g).foldl (fun t m => Tbl.put t m (.cancelled, 0)) g.settle }
/-- The group after a decision. -/
def decide' (g : Group) (d : Nat × DWord × Nat) : Group :=
  cancelMembers { g with state := .decided, kind := d.1, dhash := d.2.1, win := d.2.2 }
/-- The area writes of a decision, or of the free of an open group: DHASH and DSTATE where there is a decision, and MSET of the
cancelled members (R327, R329). -/
def decisionWrites (g : Group) : AreaWrites :=
  (if g.kind = 0 then [] else [(g.area + 0x10, toBytes 8 g.dhash.toNat), (g.area + 0x18, toBytes 4 (stateWord g).toNat)])
  ++ ((upto g.n).filter fun m => (((Tbl.find g.settle m).map (·.1)).getD .none) == .cancelled).map fun m =>
      (memberAddr g.area m + 0xC, toBytes 4 3)

/-- Cancellations set out for every die, and page walks begin to wait (R330, R335). -/
def sendCancels (s : State) (die idx : Nat) (g : Group) (ms : List Nat) : State :=
  let tags := ms.map fun m => tagWith (handleOf g.n die idx) m
  { s with
    cancels := s.cancels ++ tags.zipIdx.flatMap fun w => (upto 4).map fun d => ⟨s.nextId + 4 * w.2 + d, die, d, w.1, g.asid⟩
    nextId := s.nextId + 4 * tags.length
    walks := s.walks ++ tags.map fun w => ⟨w, g.asid, die, false, 0, 0, 0, none, false⟩ }

/-- The event update of a decision or a free. -/
def groupEvent (s : State) (die : Nat) (g : Group) : State :=
  match g.ev with
  | some k => sendAdd s die k 1
  | none => s

/-- What accepting a request does to its record: the record after it, its write to the member table, the status, the members
cancelled, and whether a decision or a free follows, with its area writes and its event (R326, R327, R329). -/
structure Accepted where
  g      : Group
  writes : AreaWrites
  status : Nat
  gone   : List Nat
  event  : Bool
  deriving DecidableEq, Repr

/-- Accept a vote, an abstention or a free at a record. -/
def acceptAt (r : BallotReq) (g : Group) : Accepted :=
  let m := tagMem r.word
  let set := ((Tbl.find g.settle m).map (·.1)).getD .none
  let no := fun status => (⟨g, [], status, [], false⟩ : Accepted)
  let counted := fun (g1 : Group) =>
    let w : AreaWrites := [(memberAddr g.area m + 0xC, toBytes 4 (settleCode ((Tbl.find g1.settle m).getD (.none, 0))))]
    match decisionOf g1 with
    | none => (⟨g1, w, 0, [], false⟩ : Accepted)
    | some d => ⟨decide' g1 d, w, 1, unsettled g1, true⟩
  match r.op with
  | .free =>
    if g.state ≠ .opened then { no 0 with g := { g with state := .freed } } else
    ⟨cancelMembers { g with state := .freed }, [], 0, unsettled g, true⟩
  | .new .. | .init .. | .account _ | .decided => no 0
  | _ =>
    if g.state = .freed then no 5
    else if set = .cancelled then no 4
    else if set ≠ .none then no 3
    else if g.state = .decided then no 2
    else match r.op with
    | .vote h => counted { g with settle := Tbl.put g.settle m (.voted, g.seq), hashes := addHash h g.seq g.hashes, seq := g.seq + 1 }
    | _ => counted { g with settle := Tbl.put g.settle m (.abstained, g.seq), seq := g.seq + 1 }

/-- The device's zeroes in a new group's area (R319). -/
def newWrites (area n : Nat) : AreaWrites :=
  (area + 4, toBytes 8 0) :: (upto n).map fun m => (memberAddr area m + 0xC, toBytes 52 0)

/-- A request stops on a failed access of a kind: it and later requests to its record wait, in the order in which they set out
(R481). -/
def stopBallot (s : State) (r : BallotReq) (cause va kind : Nat) : State :=
  let s1 := { s with ballots := (s.ballots.filter fun x => decide (x.id < r.id)) ++ ({ r with stopped := true } ::
    (s.ballots.filter fun x => decide (r.id < x.id))) }
  postFault (modGroup s1 r.die (tagIdx r.word) fun g => { g with stopped := true }) r.die { FRec.zero with
    src := .ballot, cause := cause, rst := true, asid := r.asid, addr := va, kind := kind, body := [r.word], work := .ballotReq r.id }

/-- Reply to the unit of a request. -/
def ballotReply (s : State) (r : BallotReq) (v : Word) : State :=
  replyTo s r.tid r.slot r.uid r.id v

/-- A request's writes to the group area, from the first that has been neither made nor dropped, and then the rest of it; it stops at
one that fails (R481). -/
def areaWork (s : State) (r : BallotReq) (ws : AreaWrites) (k : State → State) : State :=
  match areaRun r.die r.asid r.word r.done (ws.drop r.done) s with
  | .made s1 => k s1
  | .failed s1 i va cause => stopBallot s1 { r with done := i } cause va 1
  | .descErr s1 => descriptorError s1 r.asid

/-- The area writes of a decision or a free, and then its event; at one that fails they wait, and later requests to the record with
them (R327, R481). -/
def finishDecision (s : State) (r : BallotReq) (g : Group) : State :=
  areaWork s { r with op := .decided } (decisionWrites g) fun s => groupEvent s r.die g

/-- The counts of a team are added to its member's entry, unless that access has been dropped (R336, R481). An entry that cannot be
read for an uncorrectable error is reported and left as it is (log 60). -/
def addAccount (s : State) (r : BallotReq) (g : Group) (row : List Nat) : State :=
  let a := memberAddr g.area (tagMem r.word) + 0x10
  if r.done ≠ 0 then s else
  match vread s r.die r.asid a 48 with
  | .descErr => descriptorError s r.asid
  | .fail 8 va => post s r.die { FRec.zero with src := .ballot, cause := 8, asid := r.asid, addr := va, kind := 0, body := [r.word] }
  | .fail cause va => stopBallot s r cause va 0
  | .ok bs => areaWork s r [(a, addedCounts bs row)] id

/-- The area of a new group is initialised, and its handle returned (R319, R323). -/
def initArea (s : State) (r : BallotReq) (area n : Nat) : State := areaWork s r (newWrites area n) fun s => ballotReply s r r.word

/-- Accept a request, but for the accesses of it that have been made or dropped (R481). The reply to a vote waits for its own member's
entry, not for the writes of the decision. -/
def acceptBallot (s0 : State) (r : BallotReq) : State :=
  let s := { s0 with ballots := s0.ballots.filter fun x => x.id != r.id }
  match r.op with
  | .new area n q ev =>
    match freeGroup s r.die r.word with
    | none => ballotReply s r 0
    | some idx =>
      let g : Group := ⟨r.asid, .opened, n, q, area, ev, 0, [], [], 0, 0, 0, false⟩
      initArea (modDie s r.die fun d => { d with groups := Tbl.put d.groups idx g })
        { r with op := .init area n, word := handleOf n r.die idx } area n
  | .init area n => initArea s r area n
  | .account row =>
    (match groupAt s r.die (tagIdx r.word) with
     | none => s
     | some g => addAccount s r g row)
  | .decided =>
    (match groupAt s r.die (tagIdx r.word) with
     | none => s
     | some g => finishDecision s r g)
  | _ =>
    match groupAt s r.die (tagIdx r.word) with
    | none => ballotReply s r 5
    | some g =>
      let a := acceptAt r { g with stopped := false }
      areaWork s r a.writes fun s =>
        let s1 := modGroup s r.die (tagIdx r.word) fun _ => a.g
        let s2 := ballotReply (sendCancels s1 r.die (tagIdx r.word) a.g a.gone) r (BitVec.ofNat 32 a.status)
        if a.event then finishDecision s2 { r with done := 0 } a.g else s2

/-- A request that an earlier one of its unit or of its path, or a stopped access to its record, keeps back (R326, R406, R481). -/
def ballotBlocked (s : State) (ix : Nat) (r : BallotReq) : Bool :=
  pathAhead s r.src r.die r.id || (r.ofUnit && (s.ballots.take ix).any (fun q => q.ofUnit && q.tid == r.tid && q.slot == r.slot && q.uid == r.uid && q.die == r.die))
  || ballotThere s r

/-- A request's accesses to the group area wait (R395, R420). -/
def ballotWaits (s : State) (r : BallotReq) : Bool :=
  match r.op with
  | .new area n _ _ | .init area n => rangeWaits s r.die r.asid area (0x100 + 64 * n)
  | _ => ((groupAt s r.die (tagIdx r.word)).map fun g => rangeWaits s r.die r.asid g.area (0x100 + 64 * g.n)).getD false

/-- BALLOT_ACCEPT. -/
def execBallotAccept (ix : Nat) (s : State) : Res :=
  .next (match s.ballots[ix]? with
    | none => s
    | some r => if ballotBlocked s ix r || ballotWaits s r then s else acceptBallot s r)

/-- A request that stood on a record goes on, so many of its accesses being made or dropped (R383, R481). -/
def resumeBallot (s : State) (id : Nat) (dropped : Nat) : State :=
  match s.ballots.find? fun r => r.id == id with
  | none => s
  | some r =>
    let r1 := { r with stopped := false, done := r.done + dropped }
    let s1 := modGroup { s with ballots := s.ballots.map fun x => if x.id = id then r1 else x } r.die (tagIdx r.word) fun g =>
      { g with stopped := false }
    if ballotWaits s1 r1 then s1 else acceptBallot s1 r1

/-! ### Work that carries a tag (R316, R335) -/

/-- The positions of a sheaf's live threads (R78). -/
def liveMask (sh : Sheaf) : BitVec 16 :=
  let m := sh.units.foldl (fun m u => m ||| u.2.mask) (0 : BitVec 16)
  sh.splits.foldl (fun m r => r.2.parked.foldl (fun m p => m ||| p.mask) (m ||| r.2.arrived)) m
/-- The tags of a sheaf's live threads. -/
def liveTags (sh : Sheaf) : List Word := (positions (liveMask sh)).map fun p => (threadAt sh p).tag

/-- Every tag that work able to touch memory carries: threads, silo records, cards, copies and appends, fabric commands (R316,
R335). -/
def workTags (s : State) : List Word :=
  (s.teams.flatMap fun t => t.2.sheaves.flatMap fun sh => liveTags sh.2)
  ++ (s.teams.flatMap fun t => t.2.levels.flatMap fun l => l.tags.flatten)
  ++ s.cardReqs.map (·.tag)
  ++ (s.dies.flatMap fun d => (d.2.queues.flatMap fun q => q.2.cards.map (·.tag)) ++ d.2.gather.map (·.tag))
  ++ (s.cores.flatMap fun k => k.2.streamer.map (·.tag))
  ++ s.nxCmds.map (·.mtag)

/-- Work able to touch memory carries a tag that a test holds of (R316, R335). -/
def workTagged (s : State) (p : Word → Bool) : Bool := (workTags s).any p

/-- A unit waits for the decision of a group that a test holds of (R328). -/
def decisionWaited (s : State) (p : Word → Bool) : Bool :=
  s.teams.any fun t => t.2.sheaves.any fun sh => sh.2.units.any fun u => match u.2.wait with
    | .decision w => p w
    | _ => false

/-- A tag word belongs to a group. -/
def ofGroup (die idx : Nat) (w : Word) : Bool := w.getLsbD 31 && tagDie w == die && tagIdx w == idx

/-- A team holds counts of a tag that a test holds of (R336). -/
def heldCounts (s : State) (p : Word → Bool) : Bool := s.teams.any fun t => t.2.acct.any fun a => p (BitVec.ofNat 32 a.1)
/-- The last tagged work of members is done: the counts that teams hold of them are sent, those of teams that go on too (R336: DEDUCED,
log 64). -/
def sendTagged (s : State) (p : Word → Bool) : State := (s.teams.map (·.1)).foldl (fun s t => sendCounts s t p) s

/-- GROUP_RECORD_FREE: a freed record whose work and walks are gone becomes free (R316), once the units that wait for its decision
have received its state (R329) and the counts that teams hold of its members have been added (R336). -/
def execGroupRecordFree (die idx : Nat) (s : State) : Res :=
  .next (match groupAt s die idx with
    | none => s
    | some g =>
      let busy := workTagged s (ofGroup die idx) || decisionWaited s (ofGroup die idx)
        || (s.dies.any fun d => d.2.plots.any fun p => ofGroup die idx p.2.card.tag)
        || s.walks.any (fun w => ofGroup die idx w.tag) || s.ballots.any (fun r => ofGroup die idx r.word && r.die == die)
        || s.cancels.any fun c => ofGroup die idx c.tag
      if g.state ≠ .freed || busy then s
      else if heldCounts s (ofGroup die idx) then sendTagged s (ofGroup die idx) else
      { s with dies := s.dies.map fun d => (d.1, { d.2 with
          cancelled := d.2.cancelled.filter fun w => !ofGroup die idx w
          groups := if d.1 = die then Tbl.erase d.2.groups idx else d.2.groups }) })

/-! ### Page release (R334, R335) -/

/-- Replace a walk. -/
def putWalk (s : State) (w : Walk) : State := { s with walks := s.walks.map fun x => if x.tag = w.tag then w else x }
/-- A walk ends. -/
def endWalk (s : State) (w : Walk) : State := { s with walks := s.walks.filter fun x => x.tag != w.tag }
/-- The walk goes on to its next entry. -/
def nextEntry (s : State) (w : Walk) : State := putWalk s { w with next := w.next + 1, lowered := none }

/-- A record of a walk. -/
def walkRec (w : Walk) (cause sub p addr kind : Nat) (rst : Bool) : FRec :=
  { FRec.zero with
    src := .ballot, cause := cause, sub := sub, rst := rst, asid := w.asid, addr := addr, kind := kind
    body := [w.tag, BitVec.ofNat 32 p, BitVec.ofNat 32 w.next], work := if rst then .walk w.tag else .none }
/-- A walk stops on a restartable record. -/
def stopWalk (s : State) (w : Walk) (cause sub p addr kind : Nat) : State :=
  let s1 := putWalk s { w with stopped := true }
  if sub = 1 then post s1 w.home (walkRec w cause sub p addr kind true) else postFault s1 w.home (walkRec w cause sub p addr kind true)

/-- A release-ring size is legal (R319). -/
def ringSizeOk (n : Nat) : Bool := decide (16 ≤ n) && decide (n ≤ 65536) && n == 2 ^ Nat.log2 n

/-- PREL of a walk's member. -/
def prelAddr (w : Walk) (area : Nat) : Nat := memberAddr area (tagMem w.tag) + 0x3C

/-- The ring entry of a page whose count is 0 (R335): the walk pauses on a full ring. Where RSIZE, PROD and CONS cannot be read for an
uncorrectable error the page is skipped, its count being lowered, and where PREL cannot, it keeps its value, each with a record of
cause ECC (DESIGN CHOICE, log 64). -/
def ringEntry (s : State) (w : Walk) (area p : Nat) : State :=
  if rangeWaits s w.home w.asid area 0x1100 then s else
  match vread s w.home w.asid area 12 with
  | .descErr => descriptorError s w.asid
  | .fail 8 va => nextEntry (post s w.home (walkRec w 8 0 p va 0 false)) w
  | .fail c va => stopWalk s w c 0 p va 0
  | .ok bs =>
    let rsize := leNat (bs.take 4)
    let prod := leNat ((bs.drop 4).take 4)
    let cons := leNat ((bs.drop 8).take 4)
    if !ringSizeOk rsize then stopWalk s w 49 1 p area 3
    else if rsize ≤ (prod + 2 ^ 32 - cons) % 2 ^ 32 then s
    else
      let ea := area + 0x1100 + 4 * (prod % rsize)
      if rangeWaits s w.home w.asid ea 4 then s else
      let ma := prelAddr w area
      let old := vread s w.home w.asid ma 4
      match old with
      | .descErr => descriptorError s w.asid
      | _ =>
      let failed : Option (Nat × Nat) := match old with
        | .fail c va => some (c, va)
        | _ => none
      if failed.any (·.1 != 8) then stopWalk s w ((failed.map (·.1)).getD 0) 0 p ((failed.map (·.2)).getD 0) 0 else
      let prel : AreaWrites := match old with
        | .ok b => [(ma, toBytes 4 (leNat b + 1))]
        | _ => []
      let ws : AreaWrites := [(ea, toBytes 4 p), (area + 4, toBytes 4 (prod + 1))] ++ prel
      match areaFault s w.home w.asid ws with
      | some (va, some c) => stopWalk s w c 0 p va 1
      | some (_, none) => descriptorError s w.asid
      | none =>
        let hit := match transRange s w.home w.asid ea 4 .write with
          | .ok ps => ps.any fun x => physPoisoned s x.1 x.2
          | _ => false
        let s1 := areaWrite s w.home w.asid w.tag ws
        let s2 := if failed.isSome then post s1 w.home (walkRec w 8 0 p ma 0 false) else s1
        nextEntry (if hit then post s2 w.home (walkRec w 8 0 p ea 1 false) else s2) w

/-- One entry of a walk (R335). A page whose count has been lowered waits for the ring alone: its entry is not read again. -/
def walkEntry (s : State) (w : Walk) (area : Nat) : State :=
  match w.lowered with
  | some p => ringEntry s w area p
  | none =>
  if rangeWaits s w.home w.asid (w.plist + 4 * w.next) 4 then s else
  match vread s w.home w.asid (w.plist + 4 * w.next) 4 with
  | .descErr => descriptorError s w.asid
  | .fail 8 va => nextEntry (post s w.home (walkRec w 8 0 0 va 0 false)) w
  | .fail c va => stopWalk s w c 0 0 va 0
  | .ok bs =>
    let p := leNat bs
    if descBad s w.asid then descriptorError s w.asid
    else if desc s w.asid 0x78 4 ≤ p then nextEntry (post s w.home (walkRec w 49 0 p 0 3 false)) w
    else
      let ca := desc s w.asid 0x70 8 + 4 * p
      if rangeWaits s w.home w.asid ca 4 then s else
      match vread s w.home w.asid ca 4 with
      | .descErr => descriptorError s w.asid
      | .fail 8 va => nextEntry (post s w.home (walkRec w 8 0 p va 0 false)) w
      | .fail c va => stopWalk s w c 0 p va 0
      | .ok cb =>
        if leNat cb = 0 then nextEntry (post s w.home (walkRec w 49 0 p 0 3 false)) w
        else match vwrite s w.home w.asid ca (toBytes 4 (leNat cb - 1)) with
        | .descErr => descriptorError s w.asid
        | .fail 8 va => nextEntry (post s w.home (walkRec w 8 0 p va 1 false)) w
        | .fail c va => stopWalk s w c 0 p va 1
        | .ok s1 =>
          if leNat cb = 1 then ringEntry (putWalk s1 { w with lowered := some p }) { w with lowered := some p } area p
          else nextEntry s1 w

/-- A walk has yet to begin: work carries its member's tag, or counts of the member have not been added yet, which are sent now (R335,
R336). -/
def walkHeld (s : State) (w : Walk) : Bool :=
  workTagged s (· == w.tag) || s.ballots.any fun r => r.word == w.tag && !r.ofUnit

/-- A walk begins once nothing tagged with its member can touch memory, and goes on entry by entry (R335). -/
def walkStep (s : State) (w : Walk) : State :=
  match groupAt s w.home (tagIdx w.tag) with
  | none => endWalk s w
  | some g =>
    if w.stopped || (!w.begun && (walkHeld s w || rangeWaits s w.home w.asid (memberAddr g.area (tagMem w.tag)) 12)) then s
    else if !w.begun && heldCounts s (· == w.tag) then sendTagged s (· == w.tag)
    else if !w.begun then
      match vread s w.home w.asid (memberAddr g.area (tagMem w.tag)) 12 with
      | .descErr => descriptorError s w.asid
      | .fail 8 va => endWalk (post s w.home (walkRec w 8 0 0 va 0 false)) w
      | .fail c va => stopWalk s w c 0 0 va 0
      | .ok bs => putWalk s { w with begun := true, plist := leNat (bs.take 8), count := leNat ((bs.drop 8).take 4) }
    else if w.count ≤ w.next then endWalk s w
    else walkEntry s w g.area

/-- PAGE_RELEASE_WALK (R335). -/
def execPageReleaseWalk (ix : Nat) (s : State) : Res :=
  .next (match s.walks[ix]? with
    | none => s
    | some w => walkStep s w)

end Sys2Proof.Machine
end

