-- ==== Sys2Proof/Machine/Launch.lean ====
section
/-! DEFINITION. Launch queues, job cards, the distributor, placement and plots (R339 to R363). -/

namespace Sys2Proof.Machine

/-! ### Kernel headers and job cards (R339 to R341) -/

/-- A little-endian field of captured bytes. -/
def fieldAt (bs : List Byte) (o n : Nat) : Nat := leNat ((bs.drop o).take n)
/-- The bytes of a range are all zero. -/
def zeroAt (bs : List Byte) (o n : Nat) : Bool := ((bs.drop o).take n).all (· == 0)
/-- Round up to a multiple of 1,024. -/
def up1024 (n : Nat) : Nat := (n + 1023) / 1024 * 1024

/-- The role of a slot of a kernel header: 0 G, 1 C, 2 M, 3 V. -/
def slotRole (h : List Byte) (i : Nat) : Nat := bits (fieldAt h 8 16) (2 * i + 1) (2 * i)
/-- Sheaf slots of a header. -/
def slotsOf (h : List Byte) : Nat := bits (fieldAt h 4 4) 6 0
/-- A header has a slot of a role. -/
def hasRole (h : List Byte) (r : Nat) : Bool := (upto (Min.min 64 (slotsOf h))).any fun i => slotRole h i == r
/-- The allotment of a role. -/
def roleRegs (h : List Byte) (r : Nat) : Nat := bits (fieldAt h 0x18 4) (8 * r + 7) (8 * r)
/-- A header describes a sowing team (R156). -/
def sowingHdr (h : List Byte) : Bool :=
  !hasRole h 1 && !hasRole h 2 && (!hasRole h 0 || !hasRole h 3 || roleRegs h 0 == roleRegs h 3)
/-- The initial thread count: 0 in the card means the capacity (R340). -/
def initThreads (card h : List Byte) : Nat := if fieldAt card 0x18 4 = 0 then fieldAt h 0x1C 4 else fieldAt card 0x18 4
/-- The footprint of a team (R180). -/
def footprintOf (h : List Byte) : Nat := up1024 (fieldAt h 0x24 4) + up1024 (slotsOf h * fieldAt h 0x28 4)

/-- An address of a card: bits [63:56] zero, and aligned (R341 check 1). -/
def addrOk (a al : Nat) : Bool := decide (a < 2 ^ 56) && a % al == 0

/-- The zero fields of a header and a card are zero (R341 check 3). -/
def zeroFields (card h : List Byte) : Bool :=
  fieldAt h 0 4 / 256 == 0 && fieldAt h 4 4 / 128 == 0
  && (upto 64).all (fun i => decide (i < slotsOf h) || slotRole h i == 0)
  && (upto 4).all (fun r => hasRole h r || roleRegs h r == 0)
  && zeroAt h 0x3C 68
  && fieldAt card 0x10 4 / 65536 == 0 && fieldAt card 0x14 4 / 128 == 0
  && fieldAt card 0x34 4 / 512 == 0 && bits (fieldAt card 0x34 4) 7 5 == 0
  && (bitOf (fieldAt card 0x34 4) 8 || fieldAt card 0x38 4 == 0)
  && fieldAt card 0x60 4 / 32 == 0 && zeroAt card 0x68 24 && zeroAt card 0xC0 64

/-- The other parts of check 3. -/
def fieldsOk (s : State) (asid : Nat) (card h : List Byte) : Bool :=
  let x := fieldAt card 0x34 4
  let tag := BitVec.ofNat 32 (fieldAt card 0x1C 4)
  zeroFields card h && decide (bits x 1 0 ≤ 1) && decide (bits x 4 2 ≤ 4) && decide (bits (fieldAt card 0x60 4) 4 0 ≤ 16)
  && (!tag.getLsbD 31 || (bits tag.toNat 18 14 == 0 && decide (tagMem tag ≤ tagNm1 tag)))
  && (!bitOf x 8 || (nameCounter (eventWindows s asid) (BitVec.ofNat 32 (fieldAt card 0x38 4))).toBool)

/-- M slots come in runs of 4 that start at multiples of 4 (check 4). -/
def slotsOk (h : List Byte) : Bool :=
  let n := slotsOf h
  decide (1 ≤ n) && decide (n ≤ 64)
  && (upto 16).all fun k =>
    let ms := (upto 4).filter fun i => decide (4 * k + i < n) && slotRole h (4 * k + i) == 2
    ms.length == 0 || ms.length == 4

/-- Check 7. -/
def threadsOk (card h : List Byte) : Bool :=
  let cap := fieldAt h 0x1C 4
  let n0 := initThreads card h
  let full := 16 * slotsOf h
  decide (1 ≤ cap) && decide (cap ≤ full)
  && (if sowingHdr h then
        decide (1 ≤ n0) && decide (n0 ≤ cap) && decide (1 ≤ fieldAt h 0x20 4)
        && decide (fieldAt h 0x20 4 ≤ Max.max (roleRegs h 0) (roleRegs h 3))
      else cap == full && n0 == cap)

/-- A legal allotment (R114). -/
def allotOk (n : Nat) : Bool := n % 8 == 0 && decide (8 ≤ n) && decide (n ≤ 128)

/-- Checks 2 to 10 of R341: the order number of the first that fails. -/
def cardReason (s : State) (asid : Nat) (card h : List Byte) : Option Nat :=
  let ver := bits (fieldAt h 0 4) 7 0
  let stack := fieldAt h 0x28 4
  let teams := fieldAt card 0x10 4 % 65536 + 1
  let gang := bits (fieldAt card 0x14 4) 6 0 + 1
  (([(decide (1 ≤ ver) && decide (ver ≤ 3), 2), (fieldsOk s asid card h, 3), (slotsOk h, 4),
    (decide (((upto (slotsOf h)).filter fun i => slotRole h i == 1).length ≤ 1), 5),
    ((upto 4).all (fun r => !hasRole h r || allotOk (roleRegs h r)), 6),
    (threadsOk card h, 7),
    (stack % 64 == 0 && decide (stack ≤ 16384) && decide (footprintOf h ≤ 524288) && decide (fieldAt h 0x34 4 ≤ fieldAt h 0x24 4), 8),
    (decide (fieldAt h 0x2C 4 ≤ 8), 9), (teams % gang == 0, 10)] : List (Bool × Nat)).find? fun x => !x.1).map (·.2)

/-- Check 1 on the addresses in a card. -/
def cardAddrs (card : List Byte) : Bool :=
  addrOk (fieldAt card 0 8) 256 && addrOk (fieldAt card 8 8) 65536 && addrOk (fieldAt card 0x20 8) 65536
  && addrOk (fieldAt card 0x28 8) 65536

/-! ### `lnch` and `post` (R348 to R350) -/

/-- A queue window word is usable (R345). -/
def quUsable (w : Word) : Bool :=
  let x := w.toNat
  bitOf x 31 && bits x 30 23 == 0 && bits x 15 6 == 0 && decide (1 ≤ bits x 22 16) && decide (bits x 5 0 + bits x 22 16 ≤ 64)

/-- A team's plot record. -/
def plotOf (s : State) (plot : Nat) : Option Plot := Tbl.find (dieOf s (plot / 4096)).plots (plot % 4096)
/-- Change a plot record. -/
def modPlot (s : State) (plot : Nat) (f : Plot → Plot) : State :=
  modDie s (plot / 4096) fun d => { d with plots := Tbl.modify d.plots (plot % 4096) f }
/-- The depth of the issuing plot. -/
def depthOf (c : Ctx) : Nat := ((plotOf c.st c.team.plot).map (·.card.depth)).getD 1

/-- The checks of R349. -/
def launchCheck (c : Ctx) (n : Word) (a : DWord) (child : Bool) : Option (Nat × Nat) :=
  let x := n.toNat
  let win := descWin c.st c.team.asid 0x50 (bits x 25 24)
  firstFail [(bits x 31 26 != 0 || bits x 23 6 != 0, 21, 1),
    (c.sheaf.level == .user && (!quUsable win || decide (bits win.toNat 22 16 ≤ bits x 5 0)), 21, 2),
    (!mainOk a, 11, 0), (a.toNat % 256 != 0, 4, 0), (child && decide (16 ≤ depthOf c), 21, 3)]

/-- A launch command (R350): a release at device scope; the card goes on its way to its queue. -/
def launchWord (i : Instr) (tk : Ix3) (q card : SReg) (child isTry : Bool) (s : State) : Res :=
  issue i s fun c =>
    let k := tk.toNat
    let n := rdS c q
    let a := rdPair c card
    .next (if (tokAt c.sheaf k).pending then waitAt c c.st (.tokens (2 ^ k)) else
      if descBad c.st c.team.asid then descriptorError c.st c.team.asid else
      match launchCheck c n a child with
      | some (cause, sub) => raiseExec c c.st cause sub 0
      | none =>
        let user := c.sheaf.level == .user
        let base := if user then bits (descWin c.st c.team.asid 0x50 (bits n.toNat 25 24)).toNat 5 0 else 0
        let (id, s1) := fresh (flushCore (acquired c c.st (2 ^ k)) c.core)
        let r : CardReq := ⟨id, bits n.toNat 25 24, base + bits n.toNat 5 0, a.toNat, user, if user then c.team.asid else 4096, c.tag, isTry,
          if child then some c.team.plot else none, if child then depthOf c + 1 else 1, .unit c.tid c.slot k, false, none, c.team.die⟩
        let s2 := if child then modPlot s1 c.team.plot fun p => { p with children := p.children + 1 } else s1
        retire c (c.modSheaf { s2 with cardReqs := s2.cardReqs ++ [r] } fun sh => setTok sh k ⟨true, 0⟩) (c.next 2))

/-- `lnch`. -/
def execLnch (la : BitVec 4) (tk : Ix3) (q card : SReg) (s : State) : Res := launchWord (.lnch la tk q card) tk q card true false s
/-- `lnch.try`. -/
def execLnchTry (la : BitVec 4) (tk : Ix3) (q card : SReg) (s : State) : Res :=
  launchWord (.lnchTry la tk q card) tk q card true true s
/-- `post`. -/
def execPost (la : BitVec 4) (tk : Ix3) (q card : SReg) (s : State) : Res := launchWord (.post la tk q card) tk q card false false s
/-- `post.try`. -/
def execPostTry (la : BitVec 4) (tk : Ix3) (q card : SReg) (s : State) : Res :=
  launchWord (.postTry la tk q card) tk q card false true s

/-! ### Acceptance (R341, R343, R346, R350) -/

/-- A launch counter of R362: 0 accepted, 1 refused, 2 discarded by cancellation, 3 DISCARD, 4 teams placed, 5 gang
back-outs, 6 heads passed over. -/
def countLaunch (s : State) (die ix n : Nat) : State := modDie s die fun d => { d with launch := bump d.launch ix n }

/-- A launch queue. -/
def lqueueAt (s : State) (die q : Nat) : LQueue := Tbl.get ⟨[], none⟩ (dieOf s die).queues q
/-- Change a launch queue. -/
def modLqueue (s : State) (die q : Nat) (f : LQueue → LQueue) : State :=
  modDie s die fun d => { d with queues := Tbl.put d.queues q (f (Tbl.get ⟨[], none⟩ d.queues q)) }

/-- Replace a request. -/
def putReq (s : State) (r : CardReq) : State := { s with cardReqs := s.cardReqs.map fun x => if x.id = r.id then r else x }
/-- The work that follows a STATUS write of a card that is not placed: the request goes, its launcher is told (R343). -/
def finishReq (s : State) (r : CardReq) (code reason : Nat) : State :=
  childGone (tellLauncher { s with cardReqs := s.cardReqs.filter fun x => x.id != r.id } r.addr code reason r.src) r.parent

/-- The fields of a LAUNCH record that name a card (R381). -/
def launchRec (s : State) (asid card cause addr kind : Nat) (rst : Bool) (src : LaunchFrom) : FRec :=
  let from' := match src with
    | .unit t sl k => (match Tbl.find s.teams t with
      | some x => (x.index, x.plot % 4096, k, sl)
      | none => (0, 0, k, sl))
    | _ => (0, 0, 0, 0)
  { FRec.zero with
    src := .launch, cause := cause, rst := rst, asid := asid % 4096, team := from'.1, plot := from'.2.1, token := from'.2.2.1
    slot := from'.2.2.2, addr := addr, kind := kind, body := [BitVec.ofNat 32 card, BitVec.ofNat 32 (card / 2 ^ 32)] }

/-- A request stops on a restartable record. -/
def stopReq (s : State) (r : CardReq) (cause va kind : Nat) : State :=
  postFault (putReq s { r with stopped := true }) r.die
    { launchRec s r.asid r.addr cause va kind true r.src with work := .card r.id }

/-- The STATUS word of a finished card (R343). -/
def statusWord (code reason : Nat) : Nat := 2 ^ 31 + code * 2 ^ 24 + reason
/-- Write STATUS into a card. -/
def writeStatus (s : State) (die asid card code reason : Nat) : VRes State :=
  vwrite s die asid (card + 0x64) (toBytes 4 (statusWord code reason))

/-- A card is refused, cancelled or failed: STATUS is written, once it need not wait (R395, R420), then its launcher is told (R343). -/
def rejectReq (s : State) (r : CardReq) (code reason : Nat) : State :=
  if rangeWaits s r.die r.asid (r.addr + 0x64) 4 then putReq s { r with verdict := some (16 * code + reason) } else
  match writeStatus s r.die r.asid r.addr code reason with
  | .ok s1 => finishReq s1 r code reason
  | .fail 8 va => finishReq (post s r.die (launchRec s r.asid r.addr 8 va 1 false r.src)) r code reason
  | .fail c va => stopReq s { r with verdict := some (16 * code + reason) } c va 1
  | .descErr => descriptorError s r.asid

/-- A read of a card or its header fails (R350). -/
def cardReadFail (s : State) (r : CardReq) (c va : Nat) : State :=
  if c = 8 then rejectReq (post s r.die (launchRec s r.asid r.addr 8 r.addr 0 false r.src)) r 5 0
  else stopReq s r c va 0

/-- A job card discarded for a cancelled member is counted in its DJOB (R332). -/
def countDjob (s : State) (die : Nat) (tag : Word) (asid : Nat) : State :=
  if !tag.getLsbD 31 then s else
  { s with ballots := s.ballots ++ [⟨s.nextId, .account [0, 0, 0, 0, 1, 0, 0, 0], tagDie tag, tag, asid, 0, 0, 0, false, die, 0⟩]
           nextId := s.nextId + 1 }

/-- Append an accepted card to its queue (R346, R350). The launcher of a `post` from supervisor level is told at once, or later,
so that a teardown may come first, which of these being free (R361; log 58). -/
def appendCard (s : State) (r : CardReq) (card hdr : List Byte) (tag : Word) : State :=
  let from' := match r.src with
    | .unit t sl k => (t, sl, k)
    | _ => (0, 0, 0)
  let later := r.parent.isNone && !r.user && (match r.src with
    | .unit .. => freeBit s (2 ^ 27 + 2 ^ 22 + 2 ^ 20 + r.id % 2 ^ 20)
    | _ => false)
  let c : Card := ⟨r.id, r.addr, card, hdr, r.asid, tag, r.parent, from'.1, from'.2.1, from'.2.2, r.depth, r.src == .host, false, none, 0, 0, 0,
    false, true, later⟩
  let s1 := { s with cardReqs := s.cardReqs.filter fun x => x.id != r.id }
  let s2 := modLqueue s1 r.die r.queue fun q =>
    { cards := q.cards ++ [c], owner := if r.user && q.cards == [] then some r.asid else q.owner }
  let s3 := countLaunch s2 r.die 0 1
  latchHeads (if r.parent.isNone && !later then tellLauncher s3 r.addr 0 0 (if r.src == .host then .nobody else r.src) else s3)

/-- A card has been read: it is refused, discarded for a cancelled member, or appended. -/
def admitCard (s : State) (r : CardReq) (card hdr : List Byte) : State :=
  let q := lqueueAt s r.die r.queue
  let own := BitVec.ofNat 32 (fieldAt card 0x1C 4)
  let tag := if own.getLsbD 31 then own else r.tag
  match cardReason s r.asid card hdr with
  | some reason => rejectReq (countLaunch s r.die 1 1) r 6 reason
  | none =>
    if (r.user && q.cards != [] && q.owner != some r.asid) || desc s r.asid 0x14 4 % 4 == 3 then
      rejectReq (countLaunch s r.die 1 1) r 6 11
    else if isCancelled s r.die tag then rejectReq (countDjob (countLaunch s r.die 2 1) r.die tag r.asid) r 2 0
    else appendCard s r card hdr tag

/-- A request with a context to be read under: its card and header are read and checked. -/
def readCard (s : State) (r : CardReq) : State :=
  if descBad s r.asid then descriptorError s r.asid else
  if rangeWaits s r.die r.asid r.addr 256 then s else
  match vread s r.die r.asid r.addr 256 with
  | .descErr => descriptorError s r.asid
  | .fail c va => cardReadFail s r c va
  | .ok card =>
    if !cardAddrs card then rejectReq (countLaunch s r.die 1 1) r 6 1 else
    if rangeWaits s r.die r.asid (fieldAt card 0 8) 128 then s else
    match vread s r.die r.asid (fieldAt card 0 8) 128 with
    | .descErr => descriptorError s r.asid
    | .fail c va => cardReadFail s r c va
    | .ok hdr => admitCard s r card hdr

/-- A request reaches its queue (R350). -/
def acceptCard (s : State) (r : CardReq) : State :=
  let q := lqueueAt s r.die r.queue
  if 32 ≤ q.cards.length then (if r.isTry then finishReq s r 7 0 else s)
  else if !addrOk r.addr 256 then finishReq (countLaunch s r.die 1 1) r 6 1
  else match (if r.user then some r.asid else q.owner) with
  | none => finishReq (countLaunch s r.die 1 1) r 6 11
  | some a => readCard (putReq s { r with asid := a }) { r with asid := a }

/-- A request goes on: the STATUS write that it has yet to make, or its acceptance. -/
def goOnReq (s : State) (r : CardReq) : State :=
  match r.verdict with
  | some v => rejectReq s r (v / 16) (v % 16)
  | none => acceptCard s r

/-- CARD_ACCEPT. -/
def execCardAccept (ix : Nat) (s : State) : Res :=
  .next (match s.cardReqs[ix]? with
    | none => s
    | some r => if r.stopped || pathAhead s r.origin r.die r.id then s else goOnReq s r)

/-- A stopped request resumes (R383): its STATUS write or its read is made again. -/
def resumeReq (s : State) (r : CardReq) : State :=
  let r1 := { r with stopped := false }
  goOnReq (putReq s r1) r1
/-- A stopped request ends (R383): its STATUS write is dropped, or its token completes FAULTED. -/
def endReq (s : State) (r : CardReq) : State :=
  match r.verdict with
  | some v => finishReq s r (v / 16) (v % 16)
  | none => finishReq s r 5 0

/-! ### Queue owners (R347) -/

/-- The owner of an empty queue with no acceptance in progress changes. -/
def setOwner (s : State) (die q : Nat) (o : Option Nat) : State :=
  if (lqueueAt s die q).cards == [] && !(s.cardReqs.any fun r => r.die == die && r.queue == q && r.stopped && r.verdict.isNone)
  then modLqueue s die q fun x => { x with owner := o } else s
/-- QOWN_SET: the queue is 64 × die + number. -/
def execQownSet (queue asid : Nat) (s : State) : Res := .next (setOwner s (queue / 64 % 4) (queue % 64) (some (asid % 4096)))
/-- QOWN_CLEAR. -/
def execQownClear (queue : Nat) (s : State) : Res := .next (setOwner s (queue / 64 % 4) (queue % 64) none)

/-! ### What a core admits (R115, R180, R239, R355) -/

/-- A sheaf to place: its slot, whether it is of role M, its lines, the units it takes room for, and whether it takes a place. -/
structure Seat where
  slot  : Nat
  isM   : Bool
  lines : Nat
  units : Nat
  live  : Bool
  deriving DecidableEq, Repr

/-- What a team needs of a core: its sheaves, its granules and the engine. -/
structure Needs where
  seats : List Seat
  gran  : Nat
  engine : Bool
  deriving DecidableEq, Repr

/-- What a lane has taken: lines, sheaves and places for units (R77, R115). -/
structure LaneRoom where
  lines   : Nat
  sheaves : Nat
  units   : Nat
  deriving DecidableEq, Repr

/-- What a core has taken: by lane, its granules, and whether its engine is held. -/
structure Room where
  lanes : List LaneRoom
  gran  : Nat
  engine : Bool
  deriving DecidableEq, Repr

/-- What a card's team needs. -/
def cardNeeds (h : List Byte) : Needs :=
  ⟨(upto (slotsOf h)).map fun i => ⟨i, slotRole h i == 2, roleRegs h (slotRole h i), 1, true⟩, footprintOf h / 1024,
   fieldAt h 0x2C 4 != 0⟩
/-- The footprint of a team in bytes. -/
def teamFoot (t : Team) : Nat := t.window + up1024 (t.slots * t.stackLen)
/-- What a swapped-out team needs: a sheaf that has retired takes no lines and no units. -/
def teamNeeds (t : Team) : Needs :=
  ⟨t.sheaves.map fun sh => ⟨sh.1, sh.2.role == .m, if sh.2.retired then 0 else sh.2.allot, sheafSlots sh.2, !sh.2.retired⟩, teamFoot t / 1024,
   t.tiles != 0⟩

/-- The room of a core. A team that has ended holds its granules while it drains (R234), and its engine until that is released
(R240). -/
def roomOf (s : State) (k : Nat) : Room :=
  let ts := (s.teams.map (·.2)).filter fun t => coreKey t.die t.core == k && !t.out && !t.freed
  let shs := ts.flatMap fun t => (t.sheaves.map (·.2)).filter fun sh => !sh.retired
  ⟨(upto 64).map fun l =>
     let mine := shs.filter fun sh => sh.lane == l
     ⟨(mine.map (·.allot)).sum, mine.length, (mine.map sheafSlots).sum⟩,
   (ts.map fun t => teamFoot t / 1024).sum,
   (coreOf s k).engine.holder.isSome⟩

/-- A lane admits a sheaf: its lines, 16 sheaves (R115), and up to 24 units (R77; log 51). -/
def laneAdmits (r : Room) (l : Nat) (x : Seat) : Bool :=
  let u := r.lanes.getD l ⟨0, 0, 0⟩
  !x.live || (decide (u.lines + x.lines ≤ 256) && decide (u.sheaves < 16) && decide (u.units + x.units ≤ 24))
/-- A lane with one sheaf more. -/
def takeLane (r : Room) (l : Nat) (x : Seat) : Room :=
  if x.live then { r with lanes := updAt r.lanes l fun u => ⟨u.lines + x.lines, u.sheaves + 1, u.units + x.units⟩ } else r

/-- Swaths to the lowest lane quads that admit them. -/
def seatSwaths : Nat → Room → List Seat → List (Nat × Nat) → Option (Room × List (Nat × Nat))
  | 0, r, _, acc => some (r, acc)
  | n + 1, r, ms, acc =>
    match ms with
    | [] => some (r, acc)
    | x :: _ =>
      let sw := ms.filter fun y => y.slot / 4 == x.slot / 4
      match (upto 16).find? fun q => sw.all fun y => laneAdmits r (4 * q + y.slot % 4) y with
      | none => none
      | some q => seatSwaths n (sw.foldl (fun r y => takeLane r (4 * q + y.slot % 4) y) r)
          (ms.filter fun y => y.slot / 4 != x.slot / 4) (acc ++ sw.map fun y => (y.slot, 4 * q + y.slot % 4))

/-- The other sheaves, each to the lowest lane that admits it. -/
def seatRest : Room → List Seat → List (Nat × Nat) → Option (Room × List (Nat × Nat))
  | r, [], acc => some (r, acc)
  | r, x :: t, acc =>
    match (upto 64).find? fun l => laneAdmits r l x with
    | none => none
    | some l => seatRest (takeLane r l x) t (acc ++ [(x.slot, l)])

/-- A team fits a core: the room left and the lane of each slot. -/
def fitRoom (r : Room) (n : Needs) : Option (Room × List (Nat × Nat)) :=
  if decide (512 < r.gran + n.gran) || (n.engine && r.engine) then none else
  match seatSwaths 17 r (n.seats.filter (·.isM)) [] with
  | none => none
  | some (r1, acc) => match seatRest r1 (n.seats.filter fun x => !x.isM) acc with
    | none => none
    | some (r2, acc2) => some ({ r2 with gran := r.gran + n.gran, engine := r.engine || n.engine }, acc2)

/-- The lowest core that fits (R355), after the cores already taken: core, lanes. -/
def fitCore (rooms : List Room) (n : Needs) : Option (Nat × List (Nat × Nat) × List Room) :=
  (upto rooms.length).findSome? fun k =>
    match rooms[k]? with
    | none => none
    | some r => (fitRoom r n).map fun x => (k, x.2, updAt rooms k fun _ => x.1)

/-- Cores for several teams, each counting the earlier ones as taken (R356). -/
def fitAll : List Room → List Needs → Option (List (Nat × List (Nat × Nat)))
  | _, [] => some []
  | rooms, n :: t =>
    match fitCore rooms n with
    | none => none
    | some (k, ls, rooms1) => (fitAll rooms1 t).map fun l => (k, ls) :: l

/-- The rooms of a die's cores. -/
def dieRooms (s : State) (die : Nat) : List Room := (upto 128).map fun k => roomOf s (coreKey die k)

/-! ### The heads of a die's queues (R351, R352, R358) -/

/-- STOP of a context's launch control on a die (R357). -/
def ctxStopped (s : State) (asid die : Nat) : Bool := (descWin s asid 0x60 die).getLsbD 31
/-- A head is eligible (R351). -/
def eligibleHead (s : State) (die : Nat) (c : Card) : Bool :=
  c.eligible && !ctxStopped s c.asid die && !isCancelled s die c.tag

/-- What stands at a queue's head: the teams that return to it, or its card. -/
inductive Head where
  | back (q : Nat) (tids : List Nat) (passes : Nat)
  | card (q : Nat) (c : Card)
  deriving DecidableEq, Repr

/-- The queue of a head. -/
def Head.queue : Head → Nat
  | .back q _ _ => q
  | .card q _ => q
/-- Its level. -/
def Head.level (h : Head) : Nat := h.queue / 8
/-- Lower placements that passed it. -/
def Head.passes : Head → Nat
  | .back _ _ p => p
  | .card _ c => c.passes

/-- The swapped-out teams of a die that may return to a queue, by gang, each gang whole (R313). -/
def backHeads (s : State) (die q : Nat) (ready : Nat → Team → Bool) : List Head :=
  let mine := s.teams.filter fun t => t.2.out && t.2.die == die && t.2.queue == die * 64 + q && !ctxStopped s t.2.asid die
  let gang := fun t : Nat × Team => mine.filter fun x => x.1 == t.1 || (t.2.ganged && x.2.plot == t.2.plot && x.2.gang == t.2.gang)
  let go := mine.filter fun t => (t.2.returning || ready t.1 t.2) && (gang t).all fun x => !x.2.swapHold
  (go.map fun t => Head.back q ((gang t).map (·.1)) t.2.passes).eraseDups

/-- The heads of a die in the distributor's order: descending level, returning teams first, round-robin (R352). The card of a queue to
which a team returns is not at its head (R313). -/
def headsOf (s : State) (die : Nat) (ready : Nat → Team → Bool) : List Head :=
  (upto 8).flatMap fun i =>
    let lv := 7 - i
    let qs := (upto 8).map fun j => 8 * lv + (Tbl.get 0 (dieOf s die).served lv + j) % 8
    let back := qs.map fun q => (q, backHeads s die q ready)
    back.flatMap (·.2) ++ back.flatMap fun x => match x.2, (lqueueAt s die x.1).cards with
      | [], c :: _ => if eligibleHead s die c then [Head.card x.1 c] else []
      | _, _ => []

/-- The gang size and the team count of a card. -/
def gangSize (c : Card) : Nat := bits (fieldAt c.card 0x14 4) 6 0 + 1
/-- Team count. -/
def teamCount (c : Card) : Nat := fieldAt c.card 0x10 4 % 65536 + 1
/-- The plot record of a card: its own, or the lowest-numbered free one (R354). -/
def plotFor (s : State) (die : Nat) (c : Card) : Option Nat :=
  match c.plot with
  | some p => some p
  | none => (upto 4096).find? fun i => (Tbl.find (dieOf s die).plots i).isNone

/-- Where the next team or gang of a head goes. -/
def headFit (s : State) (die : Nat) (rooms : List Room) : Head → Option (List (Nat × List (Nat × Nat)))
  | .back _ ids _ => fitAll rooms (ids.filterMap fun i => (Tbl.find s.teams i).map teamNeeds)
  | .card _ c => if (plotFor s die c).isNone then none else fitAll rooms (List.replicate (gangSize c) (cardNeeds c.hdr))

/-- The distributor's choice: the first head that can be placed, unless a head of a higher level has been passed 64
times; with the heads of higher levels that it passes (R352). -/
def pickHead (s : State) (die : Nat) (rooms : List Room) :
    List Head → List Head → Option (Head × List (Nat × List (Nat × Nat)) × List Head)
  | [], _ => none
  | h :: t, passed =>
    if passed.any fun p => decide (h.level < p.level) && decide (64 ≤ p.passes) then none else
    match headFit s die rooms h with
    | some f => some (h, f, passed.filter fun p => decide (h.level < p.level))
    | none => pickHead s die rooms t (passed ++ [h])

/-- Count the heads that a placement passes over (R352, R362). -/
def countPassed (s : State) (die : Nat) (hs : List Head) : State :=
  hs.foldl (fun s h => countLaunch (match h with
    | .back _ ids _ => ids.foldl (fun s i => modTeam s i fun t => { t with passes := t.passes + 1 }) s
    | .card q _ => modLqueue s die q fun x => { x with cards := updAt x.cards 0 fun c => { c with passes := c.passes + 1 } }) die 6 1) s

/-- The queue after the one served is next in its level (R352). -/
def serve (s : State) (die q : Nat) : State := modDie s die fun d => { d with served := Tbl.put d.served (q / 8) ((q + 1) % 8) }

/-- The launchers of accepted `post` words that have yet to be told are told (R350; log 58). -/
def tellUntold (s : State) (die : Nat) : State :=
  (upto 64).foldl (fun s q =>
    let late := (lqueueAt s die q).cards.filter (·.untold)
    if late = [] then s else
    late.foldl (fun s c => tellLauncher s c.addr 0 0 (.unit c.tid c.slot c.tk))
      (modLqueue s die q fun x => { x with cards := x.cards.map fun c => { c with untold := false } })) s

/-- A head of which a check found a dependence name that fails R300 is refused with reason FIELD (R351); one whose context's
descriptor cannot be read ends that context (R479). -/
def refuseHeads (s : State) (die : Nat) : State :=
  (upto 64).foldl (fun s q =>
    match (lqueueAt s die q).cards with
    | [] => s
    | c :: t =>
      if descBad s c.asid then descriptorError s c.asid
      else if !c.bad then s else
        let (id, s1) := fresh (latchHeads (modLqueue (countLaunch s die 1 1) die q fun x => { x with cards := t }))
        let r : CardReq := ⟨id, die, q, c.addr, false, c.asid, c.tag, false, c.parent, c.depth, cardFrom c, false, none, die⟩
        rejectReq { s1 with cardReqs := s1.cardReqs ++ [r] } r 6 3) s

/-! ### Placement (R108, R157, R181, R188, R240, R299, R342, R355) -/

/-- System registers of a sheaf that starts (R367). -/
def SysRegs.zero : SysRegs := ⟨0, 0, 0, 0, 0, 0, 0, 0, 0, 0, 0, 0, 0, 0, 0, 0, 0, 0⟩

/-- A role by its code (R339). -/
def roleCode : Nat → Role
  | 0 => .g | 1 => .c | 2 => .m | _ => .v

/-- The argument words of a card (R108). -/
def argRegs (card : List Byte) : Tbl Word :=
  ((upto (bits (fieldAt card 0x60 4) 4 0)).map fun i => (i, BitVec.ofNat 32 (fieldAt card (0x80 + 4 * i) 4))).filter fun x => x.2 != 0

/-- The threads with which a slot starts (R157, R342). -/
def slotThreads (n0 slot : Nat) : Nat := Min.min 16 (n0 - 16 * slot)

/-- A sheaf as it starts (R108). -/
def newSheaf (c : Card) (now slot lane uid : Nat) : Sheaf :=
  let n := slotThreads (initThreads c.card c.hdr) slot
  { role := roleCode (slotRole c.hdr slot), lane := lane, allot := roleRegs c.hdr (slotRole c.hdr slot)
    s := argRegs c.card, ss := [], q := 0, tok := []
    threads := (upto n).map fun i => (i, ⟨[], 0, 0, 16 * slot + i, c.tag⟩)
    remap := (upto n).map fun i => (i, i)
    splits := []
    units := if n = 0 then [] else [(uid, newUnit (BitVec.ofNat 16 (2 ^ n - 1)) 0 none uid now)]
    age := uid, level := if c.asid = 0 then .supervisor else .user
    sys := SysRegs.zero, trapped := none, svFetch := false, svAt := 0, stack := [], stackPz := [], retired := false
    held := [], spoilt := [], loose := [], looseB := [], reports := [], overtaken := [] }

/-- A team as it is placed. -/
def newTeam (s : State) (die core queue plot index : Nat) (c : Card) (lanes : List (Nat × Nat)) (base : Nat) : Team :=
  { asid := c.asid, plot := plot, index := index, die := die, core := core, ver := bits (fieldAt c.hdr 0 4) 7 0
    codeBase := fieldAt c.card 8 8, capacity := fieldAt c.hdr 0x1C 4, live := fieldAt c.hdr 0x20 4
    window := up1024 (fieldAt c.hdr 0x24 4), stackLen := fieldAt c.hdr 0x28 4, tiles := fieldAt c.hdr 0x2C 4
    sowing := sowingHdr c.hdr, hasC := hasRole c.hdr 1, hasM := hasRole c.hdr 2, slots := slotsOf c.hdr
    swapMode := bits (fieldAt c.card 0x34 4) 1 0 == 1, swapThr := fieldAt c.card 0x30 4
    saveBase := fieldAt c.card 0x28 8, siloBase := fieldAt c.card 0x20 8, tag := c.tag
    gang := index / gangSize c, ganged := decide (1 < gangSize c)
    spWin := descWin s c.asid 0x20 die, evWin := eventWindows s c.asid
    sheaves := (upto (slotsOf c.hdr)).map fun i =>
      let lane := ((lanes.find? fun x => x.1 == i).map (·.2)).getD 0
      (i, newSheaf c (laneNow s (coreKey die core * 64 + lane)) i lane (base + i))
    shared := [], sharedPz := [], stores := 0, past := [], rings := [], round := 0, hold := .none, floorOk := false, floor := 0, top := 0
    levels := [], totals := [], pages := [], counters := [], acct := [], ended := false, freed := false, faulted := false
    cancelled := false
    out := false, returning := false, swState := 0, swWaits := 0, swaps := 0, mOut := 0, mIn := 0, eligible := none
    halted := false, swapHold := false, saveSeed := 0, passes := 0, saved := none
    imageHold := false, imageOff := 0, imageLen := fieldAt c.hdr 0x34 4, queue := die * 64 + queue }

/-- Scratchpad segments of a window pass to a context: zeroed and tagged (R188). -/
def takeSegments (s : State) (die asid : Nat) (w : Word) : State :=
  if !spUsable w then s else
  let segs := ((upto (bits w.toNat 22 16)).map (bits w.toNat 6 0 + ·)).filter fun g => Tbl.find (dieOf s die).spTag g != some asid
  if segs = [] then s else
  let inSeg := fun a => segs.contains (a / 2097152)
  let s1 := modDie s die fun d => { d with
    sp := d.sp.filter fun x => !inSeg x.1
    spPz := d.spPz.filter fun g => !inSeg (8 * g)
    spTag := segs.foldl (fun t g => Tbl.put t g asid) d.spTag }
  { s1 with cores := s1.cores.map fun k =>
      if k.1 / 128 = die then (k.1, { k.2 with cache := k.2.cache.filter fun e => !inSeg (64 * e.1) }) else k }

/-- Counters of the windows of a context pass to it: zeroed and tagged (R299). -/
def takeCounters (s : State) (asid : Nat) (ws : List Word) : State :=
  (upto 4).foldl (fun s d =>
    let w := ws.getD d 0
    if !evUsable w then s else
    modDie s d fun x => { x with counters := (upto (bits w.toNat 26 16)).foldl (fun t i =>
      let k := bits w.toNat 9 0 + i
      if (Tbl.get Counter.zero t k).tag = some asid then t else Tbl.put t k ⟨0, some asid⟩) x.counters }) s

/-- Image bytes by the 64-byte lines of main memory that hold them: offset in the image, length. -/
def imageLines (base len : Nat) : Nat → Nat → List (Nat × Nat)
  | 0, _ => []
  | n + 1, off =>
    if len ≤ off then [] else
    let k := Min.min (64 - (base + off) % 64) (len - off)
    (off, k) :: imageLines base len n (off + k)

/-- Read a team's data image from where it stands (R19, R350): a translation fault holds it, an uncorrectable error
poisons the granules that the line would fill. -/
def loadImage (s : State) (tid : Nat) (c : Card) : State :=
  match Tbl.find s.teams tid with
  | none => s
  | some t =>
    let base := fieldAt c.card 0 8 + fieldAt c.hdr 0x30 4
    ((imageLines base t.imageLen (t.imageLen / 64 + 2) t.imageOff).foldl (fun (st : State × Bool) x =>
      if st.2 then st else
      let s := st.1
      match vread s t.die t.asid (base + x.1) x.2 with
      | .ok bs => (modTeam s tid fun t => { t with imageOff := x.1 + x.2, shared := writeBytes t.shared x.1 bs }, false)
      | .descErr => (descriptorError s t.asid, true)
      | .fail 8 va =>
        (modTeam (post s t.die (launchRec s t.asid c.addr 8 va 0 false .nobody)) tid fun t => { t with
          imageOff := x.1 + x.2
          sharedPz := t.sharedPz ++ (((upto x.2).map fun i => (x.1 + i) / 8).eraseDups.filter fun g => !t.sharedPz.contains g) }, false)
      | .fail cause va =>
        (modTeam (postFault s t.die { launchRec s t.asid c.addr cause va 0 true .nobody with
            team := t.index, plot := t.plot % 4096, work := .image tid }) tid fun t => { t with imageHold := true }, true)) (s, false)).1

/-- The data image of a card's teams, and whether its read waits (R19, R395, R420). -/
def imageWaits (s : State) (die : Nat) (c : Card) : Bool :=
  rangeWaits s die c.asid (fieldAt c.card 0 8 + fieldAt c.hdr 0x30 4) (fieldAt c.hdr 0x34 4)

/-- Place one team of a card on a core. -/
def placeTeam (s : State) (die queue plot index : Nat) (c : Card) (core : Nat) (lanes : List (Nat × Nat)) : State :=
  let tid := s.nextId
  let t := newTeam s die core queue (die * 4096 + plot) index c lanes (tid + 1)
  let s1 := addRes { s with teams := Tbl.put s.teams tid t, nextId := tid + 1 + t.slots } c.asid die true
  let s2 := takeCounters (takeSegments s1 die c.asid t.spWin) c.asid t.evWin
  let s3 := if t.tiles = 0 then s2 else engineTaken (modCore s2 (coreKey die core) fun k => { k with engine := { Engine.zero with holder := some tid } }) die
  loadImage (countLaunch (dropClean s3 (coreKey die core)) die 4 1) tid c

/-- The card at the head of a queue after `n` of its teams have been placed: it leaves with its last one (R344). -/
def cardPlaced (s : State) (die q plot n : Nat) (c : Card) : State :=
  let c1 := { c with plot := some plot, placed := c.placed + n, passes := 0, backs := 0 }
  let s1 := modDie s die fun d => { d with plots := match Tbl.find d.plots plot with
    | some p => Tbl.put d.plots plot { p with placed := p.placed + n }
    | none => Tbl.put d.plots plot ⟨c1, teamCount c, n, 0, 0, false, false, false⟩ }
  latchHeads (modLqueue s1 die q fun x =>
    { x with cards := if c1.placed = teamCount c then x.cards.drop 1 else updAt x.cards 0 fun _ => c1 })

/-- Place the next team or gang of a card: its commit (R355, R356). -/
def placeNext (s : State) (die q plot : Nat) (c : Card) (f : List (Nat × List (Nat × Nat))) (passed : List Head) : State :=
  if descBad s c.asid then descriptorError s c.asid else
  if imageWaits s die c then s else
  let s1 := cardPlaced (countPassed s die passed) die q plot f.length c
  serve ((f.zipIdx).foldl (fun s x => placeTeam s die q plot (c.placed + x.2) c x.1.1 x.1.2) s1) die q

end Sys2Proof.Machine
end

