-- ==== Sys2Proof/Machine/Distributor.lean ====
section
/-! DEFINITION. The distributor's events: placement, gangs and retirement (R351 to R358), cancel instants (R330 to R333), and
team swap (R305, R310 to R313). -/

namespace Sys2Proof.Machine

/-! ### Die-to-die queues and paths (R406 to R409) -/

/-- Source die, destination die and number of a queue name word, as the queue's key (R408). -/
def dqKey (w : Word) : Nat := bits w.toNat 29 28 * 64 + bits w.toNat 25 24 * 16 + bits w.toNat 3 0
/-- An empty queue without an owner. -/
def Dq.zero : Dq := ⟨[], 0, 0, none⟩
/-- A queue. -/
def dqAt (s : State) (k : Nat) : Dq := Tbl.get Dq.zero s.dqs k
/-- The dies after the source on the path of R406. -/
def dqPath (src dst : Nat) : List Nat :=
  match src, dst with
  | 0, 3 => [1, 3] | 3, 0 => [2, 0] | 1, 2 => [0, 2] | 2, 1 => [3, 1] | _, d => [d]

/-- A crossing FIFO, by source × 4 + receiving die. -/
def fifoAt (s : State) (k : Nat) : List Flit := Tbl.get [] s.fifos k
/-- Flits of other traffic that may stand in the first FIFO of a path: requests on their way over its link, and any number for a copy
in progress (R406; log 14). -/
def otherFlits (s : State) (src next : Nat) : Nat :=
  let here := fun (a b : Nat) => a == src && a != b && (dqPath a b).headD 0 == next
  (s.evReqs.filter fun r => here r.src (r.ctr / 1024)).length + (s.cancels.filter fun r => here r.src r.die).length
  + (s.ballots.filter fun r => here r.src r.die).length + (s.cardReqs.filter fun r => here r.origin r.die).length
  + ((s.packets.filter fun p => p.leg.any fun l => here l.src l.dst).map fun p => 1 + (p.data.length + 63) / 64).sum
  + (if (s.cores.any fun k => !k.2.streamer.isEmpty) || s.dies.any fun d => !d.2.gather.isEmpty then 32 else 0)

/-- The first FIFO of the path from `src` to `dst` has no room for a flit: entries alone fill it, or entries with other traffic do where
that stands there, which is free (R406, R412; log 14). -/
def pathFull (s : State) (src dst : Nat) : Bool :=
  let next := (dqPath src dst).headD 0
  let n := (fifoAt s (src * 4 + next)).length
  decide (32 ≤ n) || (decide (32 ≤ n + otherFlits s src next) && freeBit s 0)

/-! ### What a unit waits for has come (R91) -/

/-- The invalidations that wait in a die's queue. -/
def dieInvals (s : State) (die : Nat) : Nat := (s.invals.filter fun i => i.die == die).length

/-- What a word found full has room, or what it found busy is done. -/
def roomCome (c : Ctx) : RoomFor → Bool
  | .copy gather ring => !copyFull c gather && !((ring.map fun r => decide (255 ≤ (ringAt c.team r).oc)).getD false)
  | .engine => decide ((coreOf c.st c.core).engine.queue.length < 16)
  | .job n => (jobOf (coreOf c.st c.core).engine n).state != .rerunning
  | .fabric => decide ((c.st.nxCmds.filter fun n => n.die == c.team.die).length < 256)
  | .ballots => !ballotAhead c
  | .invals => decide (dieInvals c.st c.team.die < 64)

/-- A unit's wait is over. One of several tokens that a swapped-out team's unit waits for brings the team back too, as it completes
(R313). -/
def waitOver (s : State) (c : Ctx) : Bool :=
  match c.unit.wait with
  | .tokens m => !tokensPending c.sheaf m
  | .ring r k full => (ringAt c.team (16 * r + k)).ph == full
  | .dqPop q => !(dqAt s q).stored.isEmpty
  | .dqPush q => decide ((dqAt s q).stored.length + (dqAt s q).inFlight < 64) && !pathFull s (dqSrc q) (dqDst q)
  | .decision w => !statBlocked s w && ((groupAt s (tagDie w) (tagIdx w)).map fun g => g.state != .opened).getD true
  | .room r => roomCome c r
  | .idle => (dieOf s c.team.die).fqsize == 0 || (dieOf s c.team.die).fqhead != (dieOf s c.team.die).fqtail
  | .swath _ => swathPending s c
  | .ready | .reply _ | .round _ | .barTeam | .barGang | .susp _ => false

/-! ### When a swapped-out team may return (R313) -/

/-- A wait of condition 2 of R310. -/
def swapWait : Wait → Bool
  | .susp _ | .barTeam | .barGang | .round _ | .ring .. | .dqPop _ | .tokens _ => true
  | _ => false

/-- A suspended round finds pool room (R174). -/
def poolRoom (s : State) (tid : Nat) (t : Team) : Bool :=
  t.hold == .pool && match teamUnits s tid with
    | c :: _ => (match c.unit.wait with
      | .round w => !poolShort s t (planPages t (planRound t (arrivedThreads (arrivedUnits s tid t) w 1)))
      | _ => false)
    | [] => false

/-- A swapped-out team has something to return for: a ring slot's phase, a queue entry, its tokens, pool room. -/
def backReady (s : State) (tid : Nat) (t : Team) : Bool :=
  (teamUnits s tid).any (fun c => swapWait c.unit.wait && waitOver s c) || poolRoom s tid t

/-- The heads of a die. -/
def dieHeads (s : State) (die : Nat) : List Head := headsOf s die fun i t => backReady s i t

/-! ### Placement (R352 to R356) -/

/-- TEAM_PLACE: the distributor's next placement, if it is a card's next single team (R352, R355). -/
def execTeamPlace (die : Nat) (s0 : State) : Res :=
  let s := refuseHeads (tellUntold s0 die) die
  .next (if (dieOf s die).reserve.isSome then s else
    match pickHead s die (dieRooms s die) (dieHeads s die) [] with
    | some (.card q c, f, passed) =>
      if gangSize c ≠ 1 then s else
      match plotFor s die c with
      | some p => placeNext s die q p c f passed
      | none => s
    | _ => s)

/-- The eligible heads of levels above a queue's, by queue and card. -/
def higherHeads (s : State) (die q : Nat) : List (Nat × Nat) :=
  (dieHeads s die).filterMap fun h => match h with
    | .card k c => if q / 8 < k / 8 then some (k, c.id) else none
    | .back .. => none

/-- The heads of levels above a queue's, which a placement from it passes over (R352). -/
def passedBy (s : State) (die q : Nat) : List Head := (dieHeads s die).filter fun h => decide (q / 8 < h.level)

/-- A gang leaves its reserve phase: every reservation is released (R356). -/
def dropReserve (s : State) (die : Nat) : State := modDie s die fun d => { d with reserve := none }

/-- The rooms of a die's cores with the reservations of a gang taken. -/
def reservedRooms (s : State) (die : Nat) (n : Needs) (cores : List Nat) : List Room :=
  cores.foldl (fun rooms k => match rooms[k]? with
    | some r => (match fitRoom r n with
      | some x => updAt rooms k fun _ => x.1
      | none => rooms)
    | none => rooms) (dieRooms s die)

/-- The reserve phase of a gang goes on by one team, aborts, gives up, or ends in the commit phase (R356, R358). Of the back-outs, the
die's counter counts the aborts alone, not those that STOP or a cancellation forces (R362; DESIGN CHOICE, log 65). -/
def reserveStep (s : State) (die : Nat) (r : Reserve) (c : Card) : State :=
  if !eligibleHead s die c then dropReserve s die
  else if decide (c.backs < 8) && (higherHeads s die r.queue).any fun h => !r.seen.contains h then
    countLaunch (modLqueue (dropReserve s die) die r.queue fun x =>
      { x with cards := updAt x.cards 0 fun c => { c with backs := c.backs + 1 } }) die 5 1
  else
    let n := cardNeeds c.hdr
    if r.cores.length < gangSize c then
      match fitCore (reservedRooms s die n r.cores) n with
      | some (k, _, _) => modDie s die fun d => { d with reserve := some { r with cores := r.cores ++ [k] } }
      | none => dropReserve s die
    else
      let fits := (r.cores.foldl (fun (st : List Room × List (Nat × List (Nat × Nat))) k =>
        match st.1[k]?.bind fun x => fitRoom x n with
        | some x => (updAt st.1 k fun _ => x.1, st.2 ++ [(k, x.2)])
        | none => st) (dieRooms s die, [])).2
      match plotFor s die c with
      | some p => if fits.length = gangSize c then placeNext (dropReserve s die) die r.queue p c fits (passedBy s die r.queue)
        else dropReserve s die
      | none => dropReserve s die

/-- GANG_RESERVE: the distributor begins the reserve phase of the gang that is its next placement, or goes on with one. -/
def execGangReserve (die : Nat) (s0 : State) : Res :=
  let s := refuseHeads (tellUntold s0 die) die
  .next (match (dieOf s die).reserve with
    | some r => (match (lqueueAt s die r.queue).cards with
      | c :: _ => reserveStep s die r c
      | [] => dropReserve s die)
    | none => match pickHead s die (dieRooms s die) (dieHeads s die) [] with
      | some (.card q c, _, _) =>
        if gangSize c = 1 then s else
        modDie s die fun d => { d with reserve := some ⟨q, [], higherHeads s die q⟩ }
      | _ => s)

/-! ### Retirement (R354) -/

/-- A plot may retire: its teams have ended and drained, and their copies are complete. -/
def plotDone (s : State) (plot : Nat) (p : Plot) : Bool :=
  !p.stalled && p.placed == p.teams && p.ended == p.teams && p.children == 0
    && !s.teams.any fun t => t.2.plot == plot && (!t.2.freed || hasCopy s t.1 fun c => match c.kind with
      | .log _ => false
      | _ => true)

/-- The STATUS code of a plot. -/
def plotCode (p : Plot) : Nat := if p.faulted then 5 else if p.cancelled then 2 else 0

/-- Steps 2 to 4 of a retirement. Step 2 reads the descriptor (R479), and sends the update of DONE, which need not have reached its
counter when step 3 completes the launcher's token (DESIGN CHOICE, log 65). -/
def retireRest (s : State) (plot : Nat) (p : Plot) : State :=
  let c := p.card
  let die := plot / 4096
  let x := fieldAt c.card 0x34 4
  if bitOf x 8 && descBad s c.asid then descriptorError s c.asid else
  let s1 := if !bitOf x 8 then s else
    match nameCheck s c.asid (eventWindows s c.asid) (BitVec.ofNat 32 (fieldAt c.card 0x38 4)) with
    | .ok k => sendAdd s die k (BitVec.ofNat 32 (fieldAt c.card 0x3C 4))
    | .error sub => post s die { launchRec s c.asid c.addr 19 0 3 false .nobody with sub := sub, plot := plot % 4096 }
  let s2 := childGone (tellLauncher s1 c.addr (plotCode p) 0 (cardFrom c)) c.parent
  modDie s2 die fun d => { d with plots := Tbl.erase d.plots (plot % 4096) }

/-- A plot retires: STATUS, then the rest; a fault on the write stops it (R343, R354). -/
def retirePlot (s : State) (plot : Nat) (p : Plot) : State :=
  let die := plot / 4096
  let c := p.card
  if rangeWaits s die c.asid (c.addr + 0x64) 4 then s else
  match writeStatus s die c.asid c.addr (plotCode p) 0 with
  | .ok s1 => retireRest s1 plot p
  | .fail 8 va => retireRest (post s die { launchRec s c.asid c.addr 8 va 1 false .nobody with plot := plot % 4096 }) plot p
  | .fail cause va => modPlot (postFault s die { launchRec s c.asid c.addr cause va 1 true .nobody with
      plot := plot % 4096, work := .status plot }) plot fun p => { p with stalled := true }
  | .descErr => descriptorError s c.asid

/-- PLOT_RETIRE: the plot is die × 4096 + record. -/
def execPlotRetire (plot : Nat) (s : State) : Res :=
  .next (match plotOf s plot with
    | some p => if plotDone s plot p then retirePlot s plot p else s
    | none => s)

/-! ### The cancel instant (R330 to R333) -/

/-- Cancelled threads leave the parked sides of a sheaf that a test holds for, and, with `all`, its arrived masks. -/
def thinSides (gone : BitVec 16) (hit : Parked → Bool) (all : Bool) (sh : Sheaf) : Sheaf :=
  { sh with splits := sh.splits.map fun r => (r.1, { r.2 with
      arrived := if all then r.2.arrived &&& ~~~ gone else r.2.arrived
      parked := (r.2.parked.map fun p => if hit p.arrived then { p with mask := p.mask &&& ~~~ gone } else p).filter fun p => p.mask != 0 || p.inner.isSome }) }

/-- The threads that `thinSides` takes. -/
def sideThreads (hit : Parked → Bool) (all : Bool) (sh : Sheaf) : BitVec 16 :=
  sh.splits.foldl (fun m r => r.2.parked.foldl (fun m p => if hit p.arrived then m ||| p.mask else m)
    (if all then m ||| r.2.arrived else m)) 0

/-- Cancelled threads of a team end where they wait at cancellation points, or, with `all`, wherever they stand: at the
team boundary (R331). -/
def endWaiting (s : State) (tid : Nat) (hitU : Wait → Bool) (hitS : Parked → Bool) (all : Bool) : State :=
  match Tbl.find s.teams tid with
  | none => s
  | some t =>
    let s1 := t.sheaves.foldl (fun s sh =>
      let g := cancelledIn s t.die sh.2 (sideThreads hitS all sh.2)
      if g = 0 then s else
      modTeam (modSheaf s tid sh.1 (thinSides g hitS all)) tid fun t =>
        (positions g).foldl (fun t p => charge (threadAt sh.2 p).tag 6 1 t) { t with cancelled := true }) s
    let s2 := ((teamUnits s1 tid).filter fun c => hitU c.unit.wait).foldl (fun s c => cancelPoint s c.tid c.slot c.uid) s1
    let s3 := { s2 with dies := s2.dies.map fun d => (d.1, { d.2 with
        susps := d.2.susps.filter fun r => r.tid != tid || (unitAt s2 r.tid r.slot r.uid).isSome }) }
    ((upto 64).filter fun sl => t.sheaves.any fun sh => sh.1 == sl).foldl (fun s sl => settle s tid sl) s3

/-- A wait at a cancellation point. -/
def atPoint : Wait → Bool
  | .susp _ | .barTeam | .barGang | .swath .bar => true
  | .round w => w.kind != .sowQ
  | _ => false
/-- A side that arrived at a cancellation point. -/
def sidePoint : Parked → Bool
  | .atSow | .atBar _ => true
  | _ => false

/-- Queued cards of a cancelled member are discarded: a card of which no team has been placed is finished now, the plot of
another at its retirement (R332, R343). The card counts in DJOB, and so does each team of a gang that was in its reserve phase
(R332; log 61). -/
def discardCards (s : State) (die : Nat) (tag : Word) : State :=
  (upto 64).foldl (fun s q =>
    let gone := (lqueueAt s die q).cards.filter fun c => c.tag == tag
    if gone = [] then s else
    let s1 := modLqueue s die q fun x => { x with cards := x.cards.filter fun c => c.tag != tag }
    let held := ((dieOf s die).reserve.map fun r => r.queue == q && (lqueueAt s1 die q).cards.head? != (lqueueAt s die q).cards.head?).getD false
    let s2 := if !held then s1 else
      (upto ((gone.head?.map gangSize).getD 0)).foldl (fun s _ => countDjob s die tag ((gone.head?.map (·.asid)).getD 0)) (dropReserve s1 die)
    gone.foldl (fun s c =>
      let s3 := countDjob (countLaunch s die 2 1) die tag c.asid
      match c.plot with
      | some p => modPlot s3 (die * 4096 + p) fun x => { x with teams := x.placed, cancelled := true }
      | none =>
        let (id, s4) := fresh s3
        let r : CardReq := ⟨id, die, q, c.addr, false, c.asid, c.tag, false, c.parent, c.depth, cardFrom c, false, none, die⟩
        rejectReq { s4 with cardReqs := s4.cardReqs ++ [r] } r 2 0) s2) s

/-- Copies of a cancelled member complete CANCELLED (R233). -/
def cancelCopies (s : State) (die : Nat) (tag : Word) : State :=
  let keys : List EngineKey := ⟨true, die, 0⟩ :: (s.cores.filter fun k => k.1 / 128 == die).map fun k => ⟨false, die, k.1 % 128⟩
  keys.foldl (fun s k =>
    ((queueOf s k).filter fun c => c.tag == tag && (match c.kind with
      | .log _ => false
      | _ => true)).foldl (fun s c => cancelCopy s k c) s) s

/-- A die reaches its cancel instant for a member. A team whose image has yet to be read stands at its boundary (R331, R332). -/
def cancelAt (s : State) (r : CancelReq) : State :=
  let s1 := modDie (tellUntold s r.die) r.die fun d => { d with cancelled := if d.cancelled.contains r.tag then d.cancelled else d.cancelled ++ [r.tag] }
  let s2 := latchHeads (cancelCopies (discardCards s1 r.die r.tag) r.die r.tag)
  ((s2.teams.filter fun t => t.2.die == r.die && t.2.asid == r.asid).map (·.1)).foldl (fun s tid =>
    match Tbl.find s.teams tid with
    | none => s
    | some t =>
      if t.out then
        (if t.sheaves.any fun sh => (liveTags sh.2).contains r.tag then modTeam s tid fun t => { t with returning := true } else s)
      else if t.imageHold then endWaiting s tid (fun _ => true) (fun _ => true) true
      else endWaiting s tid atPoint sidePoint false) s2

/-- CANCEL_INSTANT. -/
def execCancelInstant (ix : Nat) (s : State) : Res :=
  .next (match s.cancels[ix]? with
    | none => s
    | some r => if pathAhead s r.src r.die r.id then s else cancelAt { s with cancels := dropAt s.cancels ix } r)

/-! ### Team swap (R310 to R313) -/

/-- Conditions 3 and 4 of R310: nothing of the team's is in progress that a swap would disturb. -/
def swapQuiet (s : State) (tid : Nat) (t : Team) : Bool :=
  let e := (coreOf s (coreKey t.die t.core)).engine
  !teamBusy s tid && (t.tiles == 0 || (e.queue == [] && e.job0.state != .rerunning && e.job1.state != .rerunning))

/-- Conditions 1 to 4 of R310. -/
def swapAble (s : State) (tid : Nat) (t : Team) : Bool :=
  t.swapMode && t.swapThr != 0 && !t.out && !t.ended && !t.swapHold && !t.imageHold
  && (teamUnits s tid).all (fun c => swapWait c.unit.wait && !waitOver s c) && swapQuiet s tid t

/-- The teams that swap with a team: its gang (R310). -/
def swapGroup (s : State) (tid : Nat) (t : Team) : List Nat := if t.ganged then gangOf s t else [tid]

/-- Every team of a swap group has been eligible for its threshold. -/
def swapDue (s : State) (ids : List Nat) : Bool :=
  ids.all fun i => match Tbl.find s.teams i with
    | some t => swapAble s i t && (t.eligible.map fun e => decide (e + t.swapThr ≤ s.mer)).getD false
    | none => false

/-- The rooms of a die's cores if teams gave up what they hold. -/
def roomsWithout (s : State) (die : Nat) (ids : List Nat) : List Room :=
  dieRooms { s with
    teams := s.teams.map fun x => (x.1, { x.2 with out := x.2.out || ids.contains x.1 })
    cores := s.cores.map fun k =>
      (k.1, { k.2 with engine := { k.2.engine with holder := k.2.engine.holder.filter fun h => !ids.contains h } }) } die

/-- Fewest swap groups of a list, taken in order, with which a head could be placed. -/
def firstFit (s : State) (die : Nat) (h : Head) : List Nat → List (List Nat) → Option (List Nat)
  | ids, [] => if (headFit s die (roomsWithout s die ids) h).isSome then some ids else none
  | ids, g :: t => if (headFit s die (roomsWithout s die ids) h).isSome then some ids else firstFit s die h (ids ++ g) t

/-- The other swap groups of a die that are due at a level or below, those that share a core with a group first. -/
def otherGroups (s : State) (die level : Nat) (ids : List Nat) : List (List Nat) :=
  let cores := ids.filterMap fun i => (Tbl.find s.teams i).map (·.core)
  let gs := ((s.teams.filter fun t => t.2.die == die && decide (t.2.queue % 64 / 8 ≤ level) && !ids.contains t.1
    && swapDue s (swapGroup s t.1 t.2)).map fun t => swapGroup s t.1 t.2).eraseDups
  let near := fun g : List Nat => g.any fun i => ((Tbl.find s.teams i).map fun t => cores.contains t.core).getD false
  gs.filter near ++ gs.filter fun g => !near g

/-- A team queued at an equal or higher level cannot be placed for lack of what a swap group holds: it could be if the group, with as few
others as it takes, gave up what it holds, and not if those others alone did (R310; log 30). -/
def swapWanted (s : State) (die level : Nat) (ids : List Nat) : Bool :=
  let rooms := dieRooms s die
  (dieHeads s die).any fun h => decide (level ≤ h.level) && (headFit s die rooms h).isNone &&
    match firstFit s die h ids (otherGroups s die level ids) with
    | some all => (headFit s die (roomsWithout s die (all.filter fun i => !ids.contains i)) h).isNone
    | none => false

/-- A team stopped by stage 2 of a pre-emption has stopped: no sheaf of it is in a supervisor trap (R387). -/
def haltedNow (s : State) (tid : Nat) (t : Team) : Bool :=
  t.halted && !t.out && !t.ended && !t.swapHold && t.sheaves.all (fun sh => !sh.2.sys.sstat.getLsbD 1) && swapQuiet s tid t

/-- Register lines of a team (R116). -/
def teamLines (t : Team) : Nat := (t.sheaves.map fun sh => sh.2.allot).sum
/-- The bytes of a save region, Z (R311). -/
def saveBytes (t : Team) : Nat :=
  up64k (4096 + 1024 * t.slots + 64 * teamLines t + teamFoot t + (if t.tiles = 0 then 0 else 262144))
/-- The address of a team's save region. -/
def saveAddr (t : Team) : Nat := t.saveBase + t.index * saveBytes t

/-- The bits of WAITS (R312). -/
def waitsWord (s : State) (tid : Nat) : Nat :=
  ((teamUnits s tid).foldl (fun (m : Word) c => m ||| (match c.unit.wait with
    | .susp _ => (1 : Word) | .barTeam | .barGang => 2 | .round _ => 4 | .ring .. => 8 | .dqPop _ => 16 | .tokens _ => 32 | _ => 0)) 0).toNat

/-- The body that the device wrote at a swap-out: bytes of its own (R311). -/
def bodyByte (t : Team) (i : Nat) : Byte := (Config.freeValue (t.saveSeed * 2 ^ 32 + 2 ^ 31 + i)).setWidth 8
/-- The body, and CHECK (R312). -/
def bodyBytes (t : Team) : List Byte := (upto (saveBytes t - 4096)).map (bodyByte t)
/-- The check word. -/
def checkWord (t : Team) : Nat := (Config.freeValue (t.saveSeed * 2 ^ 32 + 2 ^ 30)).toNat % 2 ^ 32

/-- The save header (R312). -/
def headerBytes (t : Team) : List Byte :=
  [t.swState, t.swWaits, t.swaps, checkWord t].flatMap (toBytes 4) ++ [t.mOut, t.mIn].flatMap (toBytes 8)
  ++ [teamLines t, teamFoot t, t.tiles].flatMap (toBytes 4) ++ List.replicate 212 0
  ++ (upto 29).flatMap fun i => toBytes 8 (Tbl.get 0 t.counters i)

/-- A page of the save region is not mapped: a SWAP record, and the team stays where it is (R311, R313). An uncorrectable error in
a table entry is not restartable (R398): a resident team stays and must become eligible again, and a team that cannot return is
ended (log 62). -/
def swapFault (s : State) (tid : Nat) (t : Team) (cause va kind : Nat) : State :=
  let r : FRec := { FRec.zero with
    src := .swap, cause := cause, asid := t.asid, team := t.index, plot := t.plot % 4096, addr := va, kind := kind }
  if cause ≠ 8 then modTeam (postFault s t.die { r with rst := true, work := .swapTeam tid }) tid fun t => { t with swapHold := true }
  else if t.out then endFaulted (post s t.die r) tid
  else modTeam (post s t.die r) tid fun t => { t with eligible := none }

/-- What a swap meets in a team's save region: a swap-out writes all of it, a return reads it and writes its header (R311, R313). -/
def regionEnd (s : State) (t : Team) (back : Bool) : VRes Nat :=
  match (if back then transRange s t.die t.asid (saveAddr t) (saveBytes t) .read else .ok []) with
  | .fail c va => .fail (16 * c) va
  | .descErr => .descErr
  | .ok _ =>
    match transRange s t.die t.asid (saveAddr t) (if back then 4096 else saveBytes t) .write with
    | .fail c va => .fail (16 * c + 1) va
    | .descErr => .descErr
    | .ok _ => .ok 0

/-- The save regions of teams are looked at together, so that a gang moves whole: where a page is not mapped as the swap needs it no
team moves, and each team with such a page posts its record (R311, R313, R398). -/
def withRegions (s : State) (ids : List Nat) (back : Bool) (go : State → State) : State :=
  let ts := ids.filterMap fun i => (Tbl.find s.teams i).map fun t => (i, t)
  if ts.any fun x => rangeWaits s x.2.die x.2.asid (saveAddr x.2) (saveBytes x.2) then s else
  let look := ts.map fun x => (x.1, x.2, regionEnd s x.2 back)
  match look.find? fun x => match x.2.2 with
    | .descErr => true
    | _ => false with
  | some x => descriptorError s x.2.1.asid
  | none =>
    let bad := look.filterMap fun x => match x.2.2 with
      | .fail c va => some (x.1, x.2.1, c, va)
      | _ => none
    if bad = [] then go s else bad.foldl (fun s x => swapFault s x.1 x.2.1 (x.2.2.1 / 16) x.2.2.2 (x.2.2.1 % 16)) s

/-- A thread of the team is cancelled (R331). -/
def hasCancelled (s : State) (t : Team) : Bool := t.sheaves.any fun sh => (liveTags sh.2).any (isCancelled s t.die)

/-- Swap one team out, its save region being mapped (R311). One with a cancelled thread is to return at once (R313, R331). -/
def swapOut (s : State) (tid : Nat) : State :=
  match Tbl.find s.teams tid with
  | none => s
  | some t =>
      let k := coreKey t.die t.core
      let s1 := sendAccounts (flushCore s k) tid
      let t1 := { (Tbl.find s1.teams tid).getD t with
        swState := 1, swWaits := waitsWord s tid, swaps := t.swaps + 1, mOut := s.mer, out := true
        saved := if t.tiles = 0 then none else some (coreOf s k).engine, saveSeed := s.free, eligible := none
        returning := (t.halted && (teamUnits s tid).any fun c => !swapWait c.unit.wait) || hasCancelled s t
        counters := bump t.counters 27 1 }
      let s2 := modTeam s1 tid fun _ => t1
      let s3 := if t.tiles = 0 then s2 else modCore s2 k fun c => { c with engine := Engine.zero }
      vput (vput (addRes s3 t.asid t.die false) t1 (saveAddr t1) (headerBytes t1)) t1 (saveAddr t1 + 4096) (bodyBytes t1)

/-- SWAP_OUT: an eligible team, with its gang, for which room is wanted (R310), or a team stopped by a pre-emption (R387). -/
def execSwapOut (tid : Nat) (s : State) : Res :=
  .next (match Tbl.find s.teams tid with
    | none => s
    | some t =>
      if haltedNow s tid t then withRegions s [tid] false (swapOut · tid) else
      let ids := swapGroup s tid t
      if swapDue s ids && swapWanted s t.die (t.queue % 64 / 8) ids then withRegions s ids false fun s => ids.foldl swapOut s else s)

/-- A swap that stood on a record is tried again (R311, R313): that of a resident team, with its gang, if it has been able to swap all
the while; a team that is out may return again. -/
def resumeSwap (s : State) (tid : Nat) : State :=
  let s1 := modTeam s tid fun t => { t with swapHold := false }
  match Tbl.find s1.teams tid with
  | none => s1
  | some t =>
    if t.out then s1
    else if haltedNow s1 tid t then withRegions s1 [tid] false (swapOut · tid) else
    let ids := swapGroup s1 tid t
    if ids.all fun i => ((Tbl.find s1.teams i).map (swapAble s1 i)).getD false then withRegions s1 ids false fun s => ids.foldl swapOut s else s1

/-- The team's body and check word stand as the device wrote them (R313). -/
def bodyOk (s : State) (t : Team) : Bool :=
  match vread s t.die t.asid (saveAddr t + 0xC) 4, vread s t.die t.asid (saveAddr t + 4096) (saveBytes t - 4096) with
  | .ok c, .ok b => leNat c == checkWord t && b == bodyBytes t
  | _, _ => false

/-- Place a returning team on a core, its save region being mapped: everything as saved, its cancelled threads ended (R313, R331). Its sheaves enter
their lanes now, so that they are younger there than what the lanes hold (DEDUCED, log 51). -/
def swapBack (s : State) (tid core : Nat) (lanes : List (Nat × Nat)) : State :=
  match Tbl.find s.teams tid with
  | none => s
  | some t =>
      if !bodyOk s t then
        endFaulted (post s t.die { FRec.zero with
          src := .swap, cause := 50, asid := t.asid, team := t.index, plot := t.plot % 4096, addr := saveAddr t }) tid
      else
        let k := coreKey t.die core
        let seat := fun (sl : Nat) (sh : Sheaf) =>
          let lane := ((lanes.find? fun x => x.1 == sl).map (·.2)).getD sh.lane
          let age := s.nextId + sl
          { sh with lane := lane, age := age
                    splits := sh.splits.map fun r => (r.1, { r.2 with age := age })
                    units := sh.units.map fun u => (u.1, { u.2 with age := age, active := false, last := laneNow s (k * 64 + lane) }) }
        let t1 := { t with
          core := core, out := false, returning := false, halted := false, passes := 0, swState := 2, mIn := s.mer
          counters := bump t.counters 28 (s.mer - t.mOut), saved := none
          sheaves := t.sheaves.map fun sh => (sh.1, seat sh.1 sh.2) }
        let s1 := modTeam { s with nextId := s.nextId + 64 } tid fun _ => t1
        let s2 := match t.saved with
          | some e => engineTaken (modCore s1 k fun c => { c with engine := e }) t.die
          | none => s1
        let s3 := dropClean (vput (addRes s2 t.asid t.die true) t1 (saveAddr t1) (headerBytes t1)) k
        endWaiting s3 tid (fun _ => true) (fun _ => true) true

/-- SWAP_RETURN: the distributor's next placement, if it is the return of this team or of its gang (R313, R352). -/
def execSwapReturn (tid : Nat) (s : State) : Res :=
  .next (match Tbl.find s.teams tid with
    | none => s
    | some t =>
      if !t.out || (dieOf s t.die).reserve.isSome then s
      else if descBad s t.asid then descriptorError s t.asid else
      match pickHead s t.die (dieRooms s t.die) (dieHeads s t.die) [] with
      | some (.back q ids _, f, passed) =>
        if !ids.contains tid then s
        else withRegions s ids true fun s =>
          serve ((ids.zip f).foldl (fun s x => swapBack s x.1 x.2.1 x.2.2) (countPassed s t.die passed)) t.die q
      | _ => s)

end Sys2Proof.Machine
end

