-- ==== Sys2Proof/Machine/Translation.lean ====
section
/-! DEFINITION. Translation words and walks (R394 to R404). -/

namespace Sys2Proof.Machine

/-- An invalidation removes the copy of a context's entry that serves the pages of an address at a number of bits (R401). -/
def invHits (i : Inval) (asid bits page : Nat) : Bool :=
  i.kind == 2 || (asid == i.asid && (i.kind == 1 || page == i.va / 2 ^ bits))
/-- It removes a leaf. -/
def invLeaf (i : Inval) (e : TlbEntry) : Bool := invHits i e.asid e.bits e.page
/-- It removes a table entry on the address's walk path. -/
def invTable (i : Inval) (w : WalkCopy) : Bool := invHits i w.asid (levelBits w.level) w.pre

/-- Invalidations take effect on all four dies, on what their TLBs and walk caches hold; the walks in progress finish, and no copy that
they would install stays, as `tlb.sync` waits for (R401, R402). -/
def applyInvals (s : State) (p : Inval → Bool) : State :=
  let now := s.invals.filter p
  if now = [] then s else
  { s with tlb := s.tlb.filter fun e => !now.any fun i => invLeaf i e
           walked := s.walked.filter fun w => !now.any fun i => invTable i w
           walking := []
           invals := s.invals.filter fun i => !p i }

/-- `tlb.inv`: the die's invalidation queue takes it, once it has room (R401). -/
def invalidate (c : Ctx) (kind asid va : Nat) : State :=
  if 64 ≤ dieInvals c.st c.team.die then waitAt c c.st (.room .invals)
  else retire c { c.st with invals := c.st.invals ++ [⟨kind, asid, va, c.team.die, c.tid⟩] } (c.next 2)

/-- The context that a register names (R400). -/
def asidOf (c : Ctx) (sa : SReg) : Nat := (rdS c sa).toNat % 4096

/-- `tlb.inv.page` (R400, R401). -/
def execTlbInvPage (sa va : SReg) (s : State) : Res :=
  issue (.tlbInvPage sa va) s fun c =>
    let v := rdPair c va
    .next (if mainOk v then invalidate c 0 (asidOf c sa) v.toNat else raiseExec c c.st 11 0 0)
/-- `tlb.inv.asid` (R401). -/
def execTlbInvAsid (sa : SReg) (s : State) : Res := issue (.tlbInvAsid sa) s fun c => .next (invalidate c 1 (asidOf c sa) 0)
/-- `tlb.inv.all` (R401). -/
def execTlbInvAll (s : State) : Res := issue .tlbInvAll s fun c => .next (invalidate c 2 0 0)

/-- The sources of every die that found a ring's page unmapped try to post again (R380). -/
def retryPages (s : State) : State := (upto 4).foldl (retryPosts (· == .page)) s

/-- `tlb.sync`: the invalidations that the unit has issued have taken effect, and with them those of its team's other units (R402);
sources whose ring page failed its walk try again (R380). -/
def execTlbSync (s : State) : Res :=
  issue .tlbSync s fun c =>
    .next (retryPages (retire c (applyInvals (endWins c c.st) fun i => i.tid == c.tid) (c.next 2)))

/-- What `pg.probe` writes for a walk (R403): the entry and the status word. -/
def probeWords : WalkEnd → Option (Nat × Nat)
  | .leaf e lv => some (e, (4 - lv) * 16 + lv)
  | .fail code e lv => some (e, code * 256 + lv)
  | .descErr => none

/-- `pg.probe` (R403); a descriptor that cannot be read ends its context, and the probe does not go on (R479). -/
def execPgProbe (rd sa va : SReg) (s : State) : Res :=
  issue (.pgProbe rd sa va) s fun c =>
    let v := rdPair c va
    .next (if !mainOk v then raiseExec c c.st 11 0 0 else
      match probeWords (walk c.st (asidOf c sa) v.toNat) with
      | none => descriptorError (let (id, s1) := fresh c.st; waitAt c s1 (.reply id)) (asidOf c sa)
      | some (e, w) =>
        let key := fun k => fieldKey c.sheaf (rd + BitVec.ofNat 6 k)
        retire c (commit c c.st 0 [(key 0, BitVec.ofNat 32 e), (key 1, BitVec.ofNat 32 (e / 2 ^ 32)), (key 2, BitVec.ofNat 32 w),
          (key 3, 0)]) (c.next 2))

/-! ### Walks whose copies a die keeps (R395, R396) -/

/-- The copies of the valid table entries on a walk from a level's table. -/
def walkTables (s : State) (die asid va : Nat) : Nat → Nat → Nat → List WalkCopy
  | 0, _, _ => []
  | n + 1, a, level =>
    let ea := a + 8 * walkIndex va level
    let e := physNat s ea 8
    if physPoisoned s ea 8 || !bitOf e 0 || entryBad e level || bitOf e 1 then []
    else ⟨die, asid, level, va / 2 ^ levelBits level, bits e 51 8 * 256⟩ :: walkTables s die asid va n (bits e 51 8 * 256) (level + 1)

/-- The copy of a leaf that a walk found, for the shared TLB of its die. -/
def leafCopy (die asid va : Nat) : WalkEnd → Option TlbEntry
  | .leaf e lv => some ⟨die, none, asid, va / 2 ^ leafBits lv, leafBits lv, BitVec.ofNat 64 e⟩
  | _ => none

/-- A walk as a die's walker makes it, from `PTBASE` or from a copy of a table entry, which of them being free (R396). -/
def newWalking (s : State) (die asid va : Nat) : Walking :=
  let cs := walkCopies s die asid va
  let found := fun e path => (⟨die, asid, va / 65536, leafCopy die asid va e, path⟩ : Walking)
  match cs[(freeAt s 1).toNat % (cs.length + 1)]? with
  | some w => found (walkFrom s va 5 w.table (w.level + 1)) (walkTables s die asid va 5 w.table (w.level + 1))
  | none => match walk s asid va with
    | .descErr => found .descErr []
    | e => found e (walkTables s die asid va 5 (desc s asid 0 8) 0)

/-- The entries of a core's TLB, and of a die's shared one (R405). -/
def tlbSize : Option Nat → Nat
  | some _ => 256
  | none => 16384

/-- A TLB takes a copy: it takes the place of one of the same page, or where all its entries are held of one of them, which one being
free (R395, R405). -/
def tlbTake (s : State) (n : TlbEntry) : List TlbEntry :=
  let here := fun e : TlbEntry => e.die == n.die && e.core == n.core
  let l := s.tlb.filter fun e => !(here e && e.asid == n.asid && e.page == n.page && e.bits == n.bits)
  let mine := l.filter here
  if mine.length < tlbSize n.core then l ++ [n] else
  match mine[(freeAt s 2).toNat % mine.length]? with
  | some v => (l.filter fun e => e != v) ++ [n]
  | none => l ++ [n]

/-- A walk ends: the TLB of one of the die's cores or its shared one takes the leaf, and its walk cache the table entries, which
of them being free (R395, R396). -/
def finishWalking (s : State) (w : Walking) : State :=
  let core := (freeAt s 3).toNat % 129
  let tlb := match w.leaf with
    | some e => if freeBit s 4 then tlbTake s { e with core := if core < 128 then some core else none } else s.tlb
    | none => s.tlb
  let new := if freeBit s 5 then w.path.filter fun x => !s.walked.contains x else []
  { s with tlb := tlb, walked := s.walked ++ new, walking := s.walking.erase w }

/-- The sources of every die that wait for a walker try to post again (R395). -/
def retryWalker (s : State) : State := (upto 4).foldl (retryPosts (· == .walker)) s

/-- PAGE_WALK: a walk for a page ends, or one begins on a die of the device's choice, if a walker of it is free and its clock runs (R394 to R396, R419). -/
def execPageWalk (asid va : Nat) (s : State) : Res :=
  let die := (freeAt s 0).toNat % 4
  .next (if 4096 ≤ asid || 2 ^ 56 ≤ va then s else
    match s.walking.find? fun w => w.asid == asid && w.page == va / 65536 with
    | some w => if clockRuns (dieOf s w.die) then retryWalker (finishWalking s w) else s
    | none =>
      if walkers ≤ (s.walking.filter fun w => w.die == die).length || !clockRuns (dieOf s die) then s
      else { s with walking := s.walking ++ [newWalking s die asid va] })

end Sys2Proof.Machine
end

