-- ==== Sys2Proof/Machine/Clocks.lean ====
section
/-! DEFINITION. Clocks, frequency steps, power states, wear, SBAL and the scrubber (R201 to R203, R414 to R425, R462). -/

namespace Sys2Proof.Machine

/-! ### Units that may issue (R91, R372, R387) -/

/-- A unit is ready: it waits for nothing, or what it waits for has come, and nothing holds its team or its sheaf. -/
def unitReady (s : State) (c : Ctx) : Bool :=
  !c.stopped && (c.unit.wait == .ready || waitOver s c)

/-- Every unit of the teams resident on a die. -/
def dieUnits (s : State) (die : Nat) : List Ctx :=
  ((s.teams.filter fun t => t.2.die == die && !t.2.out).map (·.1)).flatMap (teamUnits s)

/-- An engine command is queued or in progress on a die. -/
def engineBusy (s : State) (die : Nat) : Bool :=
  (s.cores.any fun k => k.1 / 128 == die && (!k.2.streamer.isEmpty || !k.2.engine.queue.isEmpty
    || k.2.engine.job0.state == .rerunning || k.2.engine.job1.state == .rerunning))
  || !(dieOf s die).gather.isEmpty || s.nxCmds.any fun n => n.die == die

/-! ### Cycle counters (R414 to R416) -/

/-- Local cycles in the tick after tick `t` at `q` tenths of a GHz: 10f in every two ticks (R415). -/
def tickCycles (die q t : Nat) : Nat :=
  let f := if Config.clockPhase die then 1 else 0
  (q * (t + 1) + f) / 2 - (q * t + f) / 2

/-- inc(f) × 65,536 (R416). -/
def incOf (q : Nat) : Nat := 1245184 / q
/-- 9.5 × 65,536. -/
def tickNominal : Nat := 622592

/-- The cycles of a tick after which `NCYC` is at most 9 past its value at the last tick, which another die may still show: the cycle
that takes it further ends with the tick (R416). -/
def evenCycles (t : Nat) (d : Die) : Nat := ((tickNominal * t / 65536 + 10) * 65536 - 1 - d.ncyc) / d.inc

/-- The die's counters some way into the tick: each local cycle adds the increment, no further than the cap (R416). -/
def advanceCycles (s : State) (die : Nat) : State :=
  modDie s die fun d =>
    if !clockRuns d then d else
    let room := Min.min (d.cycTick + tickCycles die d.fcur s.mer - d.cyc) (evenCycles s.mer d)
    let k := (freeAt s 0).toNat % (room + 1)
    { d with cyc := d.cyc + k, ncyc := Min.min (d.ncyc + k * d.inc) (tickNominal * (s.mer + 1)) }

/-- A die's counters at the next tick; CYC keeps its value where the clock has stopped (R415, R416). -/
def tickDie (t die : Nat) (d : Die) : Die :=
  let c := if clockRuns d then d.cycTick + tickCycles die d.fcur t else d.cyc
  { d with cyc := c, cycTick := c, ncyc := tickNominal * (t + 1), inc := if d.busy then d.inc else incOf d.fcur }

/-! ### Frequency steps (R418, R419, R476) -/

/-- A write of FSET (R418). -/
def setFreq (s : State) (die : Nat) (v : Word) : State :=
  let f := bits v.toNat 4 0
  if 6 ≤ f && f ≤ 19 then modDie s die fun d => { d with fset := f } else s
/-- DFREQ_WRITE. -/
def execDfreqWrite (die : Nat) (v : Word) (s : State) : Res := .next (setFreq s die v)
/-- DFREQ as read (R418). -/
def dfreqWord (d : Die) : Word := BitVec.ofNat 32 ((if d.busy then 65536 else 0) + d.fcur * 256 + d.fset)

/-- The frequency that a relock goes to: the lower of FSET and the ceiling (R476). -/
def wanted (d : Die) : Nat := Min.min d.fset d.ceiling
/-- A relock starts at tick `t` where FCUR is not what is wanted (R419); of what is on its way through the die, that below `crossed` has
crossed it (R420). -/
def startRelock (t crossed : Nat) (d : Die) : Die :=
  if d.busy || wanted d = d.fcur then d else { d with busy := true, target := wanted d, relockEnd := t + 400, crossed := crossed }
/-- The end of a die's relock is due. -/
def relockDue (s : State) (d : Die) : Bool := d.busy && decide (d.relockEnd ≤ s.mer)
/-- A 1 ms window ends at this tick, and has yet to be dealt with (R476). -/
def windowDue (s : State) : Bool := s.mer != 0 && s.mer % 200000 == 0 && s.host.windowAt != s.mer
/-- The power cap in force (R465). -/
def powerCap (h : HostSt) : Nat := if h.pcap = 0 then 3000 else h.pcap.toNat
/-- The die of a list of dies with the lowest ceiling, `die` where it is one of them. -/
def lowestCeiling (s : State) (die : Nat) : Nat :=
  let low := s.dies.foldl (fun m d => Min.min m d.2.ceiling) 19
  if (dieOf s die).ceiling = low then die else ((s.dies.find? fun d => d.2.ceiling == low).map (·.1)).getD die
/-- The hottest die whose ceiling is above 6: the one named, or where its ceiling is 6 another. -/
def hottestDie (s : State) (die : Nat) : Nat :=
  if 6 < (dieOf s die).ceiling then die else ((s.dies.find? fun d => decide (6 < d.2.ceiling)).map (·.1)).getD die

/-- POWER_WINDOW: the window's PWR and TEMP are read, and firmware lowers the ceiling of the hottest die, which the event names, or
raises the lowest ceiling after 10 cool windows in a row, whose count then starts again (R465, R476; DESIGN CHOICE, log 44). -/
def execPowerWindow (die : Nat) (reading : PowerReading) (s : State) : Res :=
  .next (if !windowDue s then s else
    let s1 := { s with host := { s.host with pwr := reading.pwr, temp := reading.temp, windowAt := s.mer } }
    let cool := fun (n : Nat) (s : State) => { s with host := { s.host with cool := n } }
    let cap := powerCap s.host
    if s.host.boot ≠ .ready then s1
    else if cap < reading.pwr.toNat || 105 ≤ reading.temp.toNat then
      cool 0 (modDie s1 (hottestDie s die) fun d => { d with ceiling := if 6 < d.ceiling then d.ceiling - 1 else d.ceiling })
    else if 9 * cap ≤ 10 * reading.pwr.toNat || 100 ≤ reading.temp.toNat then cool 0 s1
    else if s.host.cool < 9 then cool (s.host.cool + 1) s1
    else cool 0 (modDie s1 (lowestCeiling s die) fun d => { d with ceiling := if d.ceiling < 19 then d.ceiling + 1 else d.ceiling }))

/-! ### Power states (R421 to R424) -/

/-- The conditions of R422. -/
def quietA1 (s : State) (die : Nat) : Bool := !(dieUnits s die).any (unitReady s) && !engineBusy s die
/-- No team, no eligible card, no copy. -/
def quietA2 (s : State) (die : Nat) : Bool :=
  !(s.teams.any fun t => t.2.die == die && !t.2.out) && (dieHeads s die).isEmpty
  && !(s.cores.any fun k => k.1 / 128 == die && !k.2.streamer.isEmpty) && (dieOf s die).gather.isEmpty
/-- All four dies meet A2, and no fabric or host command is in progress. -/
def quietA3 (s : State) : Bool :=
  (upto 4).all (quietA2 s) && s.nxCmds.isEmpty && s.packets.isEmpty && s.cardReqs.isEmpty && s.host.pending.isEmpty
/-- The condition of a state. -/
def quietFor (s : State) (die st : Nat) : Bool := if st = 1 then quietA1 s die else if st = 2 then quietA2 s die else quietA3 s

/-- The number of a power state, and its exit latency in microseconds. -/
def Power.num : Power → Nat
  | .a0 => 0 | .a1 => 1 | .a2 => 2 | .a3 => 3
/-- Exit latency. -/
def exitUs (st : Nat) : Nat := if st = 1 then 2 else if st = 2 then 40 else if st = 3 then 2000 else 0

/-- A die may enter a state (R422). -/
def mayEnter (s : State) (die st : Nat) : Bool :=
  decide (exitUs st ≤ s.lattol.toNat) && quietFor s die st && decide (200 ≤ Tbl.get 0 (dieOf s die).quiet st)
/-- The deepest state that a die may enter; A3 by all four together. -/
def deepest (s : State) (die : Nat) : Nat :=
  if (upto 4).all fun d => mayEnter s d 3 then 3 else if mayEnter s die 2 then 2 else if mayEnter s die 1 then 1 else 0

/-- The first byte of a die's retention area and its length (R474). -/
def retentionBase (die : Nat) : Nat := die * 2 ^ 38 + 159463129088
/-- Its length. -/
def retentionLen : Nat := 536870912
/-- The device writes a die's retention area: bytes of its own, and their check word (R423, R474). -/
def retain (s : State) (die : Nat) : State :=
  let bs := (upto (retentionLen - 4)).map fun i => (Config.freeValue (s.free * 2 ^ 32 + die * 2 ^ 29 + i)).setWidth 8
  physWrite s (retentionBase die) (toBytes 4 (Config.areaCheck bs).toNat ++ bs)

/-- A die changes to a power state: in A2 and below its TLBs and instruction caches are empty (R422). -/
def setPower (s : State) (die : Nat) (p : Power) : State :=
  let s1 := modDie s die fun d => { d with power := p }
  if p = .a0 || p = .a1 then s1 else
  { s1 with tlb := s1.tlb.filter (·.die != die), walked := s1.walked.filter (·.die != die), walking := s1.walking.filter (·.die != die)
            cores := s1.cores.map fun k => if k.1 / 128 = die && k.2.icache != [] then (k.1, { k.2 with icache := [] }) else k }

/-- POWER_STATE_ENTER (R422, R423). -/
def execPowerStateEnter (die st : Nat) (s : State) : Res :=
  .next (if st ≠ deepest s die || st ≤ (dieOf s die).power.num || !clockRuns (dieOf s die) then s
    else if st = 3 then (upto 4).foldl (fun s d => setPower (retain s d) d .a3) s
    else if st = 2 then setPower s die .a2 else if st = 1 then setPower s die .a1 else s)

/-- The harrow of a die has a round that finds room, or a resumption, to make units ready (R172, R174). -/
def harrowDue (s : State) (die : Nat) : Bool :=
  s.teams.any fun t => t.2.die == die && !t.2.out && !t.2.ended
    && (t.2.hold == .walker || poolRoom s t.1 t.2 || (t.2.hold != .fault && teamIdle t.2 && !t.2.levels.isEmpty))

/-- Something waits for a die that would make a unit ready, place a team, accept a card, store an entry in a queue of its or deliver to
it (R424). -/
def wakeDue (s : State) (die : Nat) : Bool :=
  (dieUnits s die).any (unitReady s) || harrowDue s die || engineBusy s die || (s.cardReqs.any fun r => r.die == die && !cardThere s r)
  || !(dieHeads s die).isEmpty || (s.fifos.any fun f => f.1 % 4 == die && f.2.any (·.path.isEmpty)) || s.packets.any fun p => packetWakes p == some die
/-- Something waits for a device in A3. -/
def wakeAny (s : State) : Bool :=
  (upto 4).any (wakeDue s) || !s.evReqs.isEmpty || !s.ballots.isEmpty || !s.cancels.isEmpty || !s.walks.isEmpty

/-- A retention area fails its check (R474): a line of it is poisoned, or its check word is not that of its bytes (log 34). -/
def retentionBad (s : State) : Bool :=
  (upto 4).any fun d => (dieOf s d).power == .a3 && (physPoisoned s (retentionBase d) retentionLen
    || physNat s (retentionBase d) 4 != (Config.areaCheck (physRead s (retentionBase d + 4) (retentionLen - 4))).toNat)

/-! ### Wear, SBAL, scrubbing (R201 to R203, R425, R462) -/

/-- An hour ends at this tick, and a die's WEAR has yet to be recomputed (R425). -/
def wearDue (s : State) (d : Die) : Bool := s.mer != 0 && s.mer % 720000000 == 0 && d.wearAt != s.mer
/-- A period of SBAL ends at this tick, and the die has yet to rewrite it (R462). -/
def sbalDue (s : State) (d : Die) : Bool := s.mer != 0 && s.mer % 65536 == 0 && d.sbalAt != s.mer

/-- WEAR_RECOMPUTE: each hour, predictions that the device makes (R425). -/
def execWearRecompute (die : Nat) (s : State) : Res :=
  .next (if !wearDue s (dieOf s die) then s else
    modDie s die fun d => { d with wearAt := s.mer, wear := BitVec.ofNat 64 (2 ^ 63 + (freeAt s 0).toNat % 2 ^ 60) })

/-- A team of the die holds a matrix engine now. -/
def engineHeld (s : State) (die : Nat) : Bool := s.cores.any fun k => k.1 / 128 == die && k.2.engine.holder.isSome

/-- SBAL_UPDATE: the two ratios are of cycles, which are free, no engine being idle in a period in which none was held; the suggestion
follows from them (R462; log 7). -/
def execSbalUpdate (die : Nat) (s : State) : Res :=
  .next (if !sbalDue s (dieOf s die) then s else
    let held := (dieOf s die).held || engineHeld s die
    let idle := if held then (freeAt s 1).toNat % 256 else 0
    let stall := (freeAt s 2).toNat % 256
    let sugg := if 64 ≤ idle && idle ≤ stall then 1 else if idle < 16 && held then 2 else 0
    modDie s die fun d => { d with sbalAt := s.mer, held := engineHeld s die, sbal := BitVec.ofNat 32 (sugg * 2 ^ 30 + idle * 256 + stall) })

/-- A poisoned granule beside others. -/
def addGranule (l : List Nat) (g : Nat) : List Nat := if l.contains g then l else l ++ [g]

/-- The owner of a scratchpad byte ends for an uncorrectable error, or where no context owns it the error is only reported (R202). -/
def spError (s : State) (die addr : Nat) : State :=
  match Tbl.find (dieOf s die).spTag (addr / 2097152) with
  | some a => eccReset s die a addr
  | none => post s die { FRec.zero with src := .array, cause := 8, addr := addr, kind := 0 }

/-- A granule is poisoned, and the context that owns it ends (R202). -/
def granuleError (s : State) (die : Nat) (space : Space) (tid slot addr : Nat) : State :=
  let g := addr / 8
  match space with
  | .sp => spError (modDie s die fun d => { d with spPz := addGranule d.spPz g }) die addr
  | .sh =>
    (match Tbl.find s.teams tid with
     | some t => eccReset (modTeam s tid fun t => { t with sharedPz := addGranule t.sharedPz g }) die t.asid addr
     | none => s)
  | .stk =>
    (match Tbl.find s.teams tid with
     | some t => eccReset (modSheaf s tid slot fun sh => { sh with stackPz := addGranule sh.stackPz g }) die t.asid addr
     | none => s)

/-- A line of a combining cache meets an error: clean, it is discarded; dirty, it poisons the granules of its scratchpad line, and the
context that owns them ends (R202). -/
def combiningError (s : State) (die core line : Nat) : State :=
  let k := coreKey die core
  let cl := Tbl.get CcLine.none (coreOf s k).cache line
  let s1 := modCore s k fun c => { c with cache := Tbl.erase c.cache line }
  if cl.dirty = [] then s1 else
  spError (modDie s1 die fun d => { d with spPz := ((upto 8).map (8 * line + ·)).foldl addGranule d.spPz }) die (64 * line)

/-- A word of a checkpoint is lost: what it holds is free (log 56). -/
def checkpointError (fv : Word) (n : Nat) (j : Job) : Job :=
  if j.state = .free then j else { j with words := Tbl.set 0 j.words (j.tile * 4096 + n % 4096) fv }

/-- A register is lost: what it holds is free (log 56). -/
def registerError (fv : Word) (file : RegFile) (pos r : Nat) (sh : Sheaf) : Sheaf :=
  let thread := (Tbl.find sh.threads pos).isSome
  match file with
  | .vector => if thread && decide (r < sh.allot) then writeKey sh (.v pos r) fv else sh
  | .predicate => if thread && decide (r < 7) then writeKey sh (.p pos r) (fv &&& 1) else sh
  | .uniform => if r < 80 then writeKey sh (.s r) fv else sh
  | .truth => if r < 8 then writeKey sh (.q r) (fv &&& 1) else sh

/-- The team named is resident on the die, with the sheaf if one is named. -/
def onDie (s : State) (die tid : Nat) (slot : Option Nat) : Bool :=
  match Tbl.find s.teams tid with
  | some t => t.die == die && !t.out && ((slot.map fun sl => (Tbl.find t.sheaves sl).isSome).getD true)
  | none => false

/-- The place that an error names is there. -/
def errPlace (s : State) (die : Nat) : ScrubErr → Bool
  | .granule .sp _ _ addr => decide (addr < 201326592)
  | .granule .sh tid _ _ => onDie s die tid none
  | .granule .stk tid slot _ | .register tid slot .. => onDie s die tid (some slot)
  | .unheld => true
  | .tile core _ => decide (core < 128) && (coreOf s (coreKey die core)).engine.holder.isSome
  | .checkpoint core _ _ => decide (core < 128)
  | .code core n => decide (n < (coreOf s (coreKey die core)).icache.length)
  | .combining core line => (Tbl.find (coreOf s (coreKey die core)).cache line).isSome
  | .memory line => decide (line < 2 ^ 36) && physRange (64 * line) 64

/-- What an uncorrectable error does besides its count (R202, R244). A register or a checkpoint word that is lost is left with a free
value (log 56). -/
def errEffect (s : State) (die : Nat) : ScrubErr → State
  | .granule space tid slot addr => granuleError s die space tid slot addr
  | .register tid slot file pos r => modSheaf s tid slot (registerError ((freeAt s 1).setWidth 32) file pos r)
  | .unheld => s
  | .tile core n => (match ((coreOf s (coreKey die core)).engine.holder.bind (Tbl.find s.teams)).map (·.asid) with
    | some a => eccReset s die a (4 * n)
    | none => s)
  | .checkpoint core slot n => modCore s (coreKey die core) fun k => { k with engine :=
      if slot = 0 then { k.engine with job0 := checkpointError ((freeAt s 1).setWidth 32) n k.engine.job0 }
      else { k.engine with job1 := checkpointError ((freeAt s 1).setWidth 32) n k.engine.job1 } }
  | .code core n => modCore s (coreKey die core) fun k => { k with icache := dropAt k.icache n }
  | .combining core line => combiningError s die core line
  | .memory line => { s with memPz := addGranule s.memPz (physPlace (64 * line) / 64) }

/-- An error is of an array of R201, whose errors a die counts. -/
def errOnChip : ScrubErr → Bool
  | .memory _ => false
  | _ => true

/-- SCRUB_PASS: errors corrected on the way are counted, and so is an uncorrectable one, with what follows from it (R201 to R203); one in
main memory, whose line it poisons, is not counted (R207; log 56). -/
def execScrubPass (die : Nat) (err : Option ScrubErr) (s : State) : Res :=
  .next (match err with
    | some e => if !errPlace s die e then s
      else errEffect (if errOnChip e then modDie s die fun d => { d with stat := bump d.stat 1 1 } else s) die e
    | none => modDie s die fun d => { d with stat := bump d.stat 0 ((freeAt s 0).toNat) })

end Sys2Proof.Machine
end

