-- ==== Sys2Proof/Machine/DieQueues.lean ====
section
/-! DEFINITION. Die-to-die queues and crossing FIFOs (R294, R406 to R413, R420). -/

namespace Sys2Proof.Machine

/-- Change a queue. -/
def modDq (s : State) (k : Nat) (f : Dq → Dq) : State := { s with dqs := Tbl.set Dq.zero s.dqs k (f (dqAt s k)) }

/-- Change a FIFO. -/
def setFifo (s : State) (k : Nat) (l : List Flit) : State := { s with fifos := Tbl.set [] s.fifos k l }

/-- The checks of R411. -/
def dqCheck (c : Ctx) (w a : Word) (push : Bool) : Option (Nat × Nat) :=
  let x := w.toNat
  let src := bits x 29 28
  let dst := bits x 25 24
  let own := (dqAt c.st (dqKey w)).owner
  andThen (firstFail [(bits x 31 30 != 0 || bits x 27 26 != 0 || bits x 23 4 != 0 || src == dst, 23, 1),
      ((if push then src else dst) != c.team.die, 23, 2), (own.isSome && own != some c.team.asid, 23, 3),
      ((ocSpace a).isNone, 23, 4), (ocOff a % 64 != 0, 4, 0)])
    (andThen (ocRange c a 64 (!push)) (if push && (readChip c.st c.team a 64).2.isSome then some (8, 0) else none))

/-- A command that names a queue gives it its owner, if it has none (R409). -/
def claimDq (s : State) (k asid : Nat) : State :=
  modDq s k fun q => if q.owner.isSome then q else { q with owner := some asid, next := 0 }

/-- The result pair of a command (R412). -/
def dqResult (c : Ctx) (s : State) (la : Nat) (rd : SReg) (lo hi : Word) : State :=
  retire c (commit c s la [(fieldKey c.sheaf rd, lo), (fieldKey c.sheaf (rd + 1), hi)]) (c.next 2)

/-- A push that is accepted: a release at device scope (R294, R412). -/
def acceptPush (c : Ctx) (s : State) (la : Nat) (w a : Word) (rd : SReg) : State :=
  let k := dqKey w
  let path := dqPath (bits w.toNat 29 28) (bits w.toNat 25 24)
  let s1 := flushCore s c.core
  let q := dqAt s1 k
  let f := c.team.die * 4 + path.headD 0
  let e : Flit := ⟨s1.nextId, k, ⟨q.next, (readChip s1 c.team a 64).1⟩, path.drop 1, c.team.asid, false⟩
  let s2 := setFifo (modDq { s1 with nextId := s1.nextId + 1 } k fun q => { q with next := q.next + 1, inFlight := q.inFlight + 1 }) f
    (fifoAt s1 f ++ [e])
  dqResult c s2 la rd q.next 0

/-- `dq.push` (R412). -/
def pushWord (i : Instr) (la : BitVec 4) (q oc rd : SReg) (isTry : Bool) (s : State) : Res :=
  issue i s fun c =>
    let w := rdS c q
    let a := rdS c oc
    .next (match dqCheck c w a true with
      | some (cause, sub) => raiseExec c c.st cause sub 0
      | none =>
        let s1 := claimDq c.st (dqKey w) c.team.asid
        let d := dqAt s1 (dqKey w)
        let full := decide (64 ≤ d.stored.length + d.inFlight)
        let held := pathFull s1 (bits w.toNat 29 28) (bits w.toNat 25 24)
        if !full && !held then acceptPush c s1 la.toNat w a rd
        else if isTry then dqResult c s1 la.toNat rd 0 (if full then 1 else 2)
        else waitAt c s1 (.dqPush (dqKey w)))
/-- `dq.push`. -/
def execDqPush (la : BitVec 4) (q oc rd : SReg) (s : State) : Res := pushWord (.dqPush la q oc rd) la q oc rd false s
/-- `dq.push.try`. -/
def execDqPushTry (la : BitVec 4) (q oc rd : SReg) (s : State) : Res := pushWord (.dqPushTry la q oc rd) la q oc rd true s

/-- `dq.pop`: an acquire at device scope where it returns an entry (R294, R413). -/
def popWord (i : Instr) (la : BitVec 4) (q oc rd : SReg) (isTry : Bool) (s : State) : Res :=
  issue i s fun c =>
    let w := rdS c q
    let a := rdS c oc
    .next (match dqCheck c w a false with
      | some (cause, sub) => raiseExec c c.st cause sub 0
      | none =>
        let s1 := claimDq c.st (dqKey w) c.team.asid
        match (dqAt s1 (dqKey w)).stored with
        | [] => if isTry then dqResult c s1 la.toNat rd 0 3 else waitAt c s1 (.dqPop (dqKey w))
        | e :: t =>
          let s2 := hearAll c (dropClean (modDq s1 (dqKey w) fun q => { q with stored := t }) c.core)
          let sp := ocSpace a == some .sp
          let base := if sp then spBase c.team.spWin + ocOff a else ocOff a
          let as := (upto 64).map (base + ·)
          dqResult c (storeOn c s2 (if sp then .sp else .sh) false 0 as e.bytes) la.toNat rd e.seq 0)
/-- `dq.pop`. -/
def execDqPop (la : BitVec 4) (q oc rd : SReg) (s : State) : Res := popWord (.dqPop la q oc rd) la q oc rd false s
/-- `dq.pop.try`. -/
def execDqPopTry (la : BitVec 4) (q oc rd : SReg) (s : State) : Res := popWord (.dqPopTry la q oc rd) la q oc rd true s

/-- DQ_ENTRY_STORE: the receiving die of a link, source × 4 + receiver, drains a flit: it moves on to its next link, or its
entry is stored, after all that set out before it on its path; a flit of a context that has been reset is dropped (R406, R409,
R412). -/
def execDqEntryStore (link : Nat) (s : State) : Res :=
  .next (match fifoAt s link with
    | [] => s
    | f :: t =>
      match f.path with
      | n :: p =>
        let k := link % 4 * 4 + n
        if 32 ≤ (fifoAt s k).length then s else setFifo (setFifo s link t) k (fifoAt s k ++ [{ f with path := p }])
      | [] => if pathAhead s (dqSrc f.queue) (dqDst f.queue) f.id then s else modDq (setFifo s link t) f.queue fun q =>
          { q with inFlight := q.inFlight - 1, stored := if f.drop then q.stored else q.stored ++ [f.entry] })

end Sys2Proof.Machine
end

