-- ==== Sys2Proof/Machine/Fabric.lean ====
section
/-! DEFINITION. The fabric: route records, packets, hop checks, commands, the topology map and the tree table (R295,
R429 to R451). -/

namespace Sys2Proof.Machine

/-! ### Route records (R431) -/

/-- A hop field of a route record. -/
def hopOf (r : List Word) (i : Nat) : Nat :=
  bits (r.getD (i / 4) 0).toNat (7 * (i % 4) + 6) (7 * (i % 4))
/-- The hop count of a route record. -/
def hopCount (r : List Word) : Nat := bits (r.getD 0 0).toNat 31 28
/-- A route record with TREE = 0 meets R431. -/
def plainRouteOk (r : List Word) : Bool :=
  let n := hopCount r
  decide (1 ≤ n) && decide (n ≤ 10) && bits (r.getD 1 0).toNat 31 28 == 0 && bits (r.getD 2 0).toNat 31 28 == 0
  && bits (r.getD 2 0).toNat 15 14 == 0 && r.getD 3 0 == 0
  && (upto 10).all fun i => decide (i < n) || hopOf r i == 0
/-- A route record takes its route from the tree table. -/
def isTree (r : List Word) : Bool := (r.getD 3 0).getLsbD 31
/-- A route record meets R431. -/
def routeOk (r : List Word) : Bool :=
  if isTree r then bits (r.getD 3 0).toNat 30 29 == 0 && bits (r.getD 3 0).toNat 15 0 == 0 && (upto 3).all fun i => r.getD i 0 == 0
  else plainRouteOk r
/-- The tree entry that a record names. -/
def treeEntry (s : State) (r : List Word) : Option TreeEntry := s.tree.bind fun t => Tbl.find t (bits (r.getD 3 0).toNat 27 16)
/-- The route itself: the record, or the tree entry's UP or DOWN. -/
def routeWords (s : State) (r : List Word) : List Word :=
  if !isTree r then r else match treeEntry s r with
  | some e => if (r.getD 3 0).getLsbD 28 then e.down else e.up
  | none => []

/-! ### Issue (R441, R442) -/

/-- ASIDEN holds a context's bit. -/
def asidEnabled (s : State) (asid : Nat) : Bool :=
  match s.topo with
  | some m => bitOf (m.asidEn.getD (asid / 8) 0).toNat (asid % 8)
  | none => false
/-- This device's node ID. -/
def selfNode (s : State) : Nat := (s.topo.map (·.self)).getD 0

/-- Checks 1 to 3 of R442. -/
def routeCheck (s : State) (asid : Nat) (r : List Word) : Option (Nat × Nat) :=
  let tree := isTree r && match treeEntry s r with
    | none => true
    | some e =>
      let at' := if (r.getD 3 0).getLsbD 28 then (s.tree.bind fun t => (Tbl.find t e.parent).map (·.node)) else some e.node
      at' != some (selfNode s)
  firstFail [(!routeOk r, 22, 1), (s.topo.isNone || !asidEnabled s asid, 22, 2), (tree, 22, 3)]

/-- Checks 4 to 7 of R442. -/
def transferCheck (c : Ctx) (remote loc : DWord) (n : Nat) (wr : Bool) : Option (Nat × Nat) :=
  let chip := isChip loc
  andThen (firstFail [(!mainOk remote || (!chip && !mainOk loc), 11, 0), (decide (16777216 < n), 22, 4),
      (n % 4 != 0 || remote.toNat % 4 != 0 || loc.toNat % 4 != 0, 4, 0),
      (chip && (bits loc.toNat 62 32 != 0 || (ocSpace (lowWord loc)).isNone), 5, 0)])
    (if chip then ocRange c (lowWord loc) n wr else none)

/-- The packets of a transfer: offset and length by aligned 256-byte blocks of REMOTE (R445). -/
def packetSpans (remote n : Nat) : Nat → Nat → List (Nat × Nat)
  | 0, _ => []
  | f + 1, off =>
    if n ≤ off then [] else
    let k := Min.min (256 - (remote + off) % 256) (n - off)
    (off, k) :: packetSpans remote n f (off + k)

/-- The kind of a request packet. -/
def NxKind.code : NxKind → Nat
  | .put => 1 | .get => 2 | .atom _ => 3 | .sig => 4 | .probe => 5

/-- A request packet of a command, before it is sent (R433). -/
def requestPacket (s : State) (k : NxKind) (asid remote : Nat) (opnd : DWord) (route : List Word) (tag off len : Nat) : Packet :=
  { kind := k.code, hi := 0, nh := hopCount route, asid := asid, dst := bits (route.getD 2 0).toNat 27 16, src := selfNode s
    hops := (upto 10).map (hopOf route), rp := List.replicate 10 0, tag := tag, addr := remote + off, opnd := opnd
    aop := match k with
      | .atom op => op
      | _ => .add
    len := len, data := [], poison := false, port := 31, leg := none }

/-- A packet's message class: requests are kinds 1 to 5 (R433). -/
def Packet.isRequest (p : Packet) : Bool := decide (1 ≤ p.kind) && decide (p.kind ≤ 5)
/-- Fields of equal width packed from the lowest bit up. -/
def packFields (w : Nat) (l : List Nat) : Nat := l.foldr (fun x n => x % 2 ^ w + 2 ^ w * n) 0
/-- The header flit of a packet (R433). -/
def packetHeader (p : Packet) : List Byte :=
  toBytes 4 (packFields 4 [0, 0, 0, 0, if p.isRequest then 0 else 1, p.nh, p.hi, p.kind] + p.asid % 4096)
    ++ toBytes 4 (p.dst % 4096 * 2 ^ 20 + p.src % 4096 * 2 ^ 8)
    ++ toBytes 12 (packFields 7 (p.hops.take 10)) ++ toBytes 8 (packFields 5 (p.rp.take 10))
    ++ toBytes 4 (p.tag % 65536 * 65536 + p.len % 512)
    ++ toBytes 8 p.addr ++ toBytes 8 p.opnd.toNat ++ List.replicate 16 0
/-- The flits of a packet: its header's and its payload's. -/
def packetFlits (p : Packet) : Nat := ((packetHeader p).length + 63) / 64 + (p.data.length + 63) / 64

/-- The report word (R443). -/
def reportWord (status check hop : Nat) : Word := BitVec.ofNat 32 (2 ^ 31 + status * 2 ^ 24 + check * 2 ^ 20 + hop * 2 ^ 16)

/-- A command completes: report, token, and its team if it waited for it (R443, R446). The round trip of a probe without a response is
free (log 66). -/
def finishNx (s : State) (n : NxCmd) (status check hop : Nat) : State :=
  let s1 := modSheaf { s with nxCmds := s.nxCmds.filter fun x => x.id != n.id } n.tid n.slot fun sh =>
    if sh.retired then sh else
    let sh1 := putReport s n.tk (.s n.dst, reportWord status check hop) sh
    match n.kind with
    | .probe => putReport s n.tk (.s (n.dst + 1), BitVec.ofNat 32 (Min.min (n.value.getD (freeAt s 6).toNat) 0xFFFFFFFF)) sh1
    | _ => sh1
  reapTeam (completeTok s1 n.tid n.slot n.tk status) n.tid

/-- What a fabric command carries. -/
structure NxArgs where
  kind : NxKind
  route : List Word
  remote : DWord
  loc  : DWord
  n    : Nat
  opnd : DWord
  dst  : Nat
  check : Option (Nat × Nat)

/-- Issue a fabric command: token and room waits, the checks of R442, then its packets (R441, R445). -/
def nxIssue (i : Instr) (tk : Ix3) (s : State) (f : Ctx → NxArgs) : Res :=
  issue i s fun c =>
    let k := tk.toNat
    let x := f c
    .next (if (tokAt c.sheaf k).pending then waitAt c c.st (.tokens (2 ^ k))
      else if decide (256 ≤ (c.st.nxCmds.filter fun n => n.die == c.team.die).length) then waitAt c c.st (.room .fabric)
      else match x.check with
      | some (cause, sub) => raiseExec c c.st cause sub 0
      | none =>
        let s1 := flushCore (acquired c c.st (2 ^ k)) c.core
        let route := routeWords s1 x.route
        let spans := match x.kind with
          | .put | .get => packetSpans x.remote.toNat x.n (x.n / 256 + 2) 0
          | .atom _ => [(0, 4)]
          | _ => [(0, 0)]
        let id := s1.nextId
        let cmd : NxCmd := ⟨id, x.kind, c.team.die, c.tid, c.slot, k, c.team.asid, c.tag, route, x.remote.toNat, x.loc, x.n, x.opnd,
          x.dst, spans.mapIdx fun j p => ⟨id + 1 + j, p.1, p.2, none, false, none⟩, none, none, false⟩
        let ps := spans.mapIdx fun j p => requestPacket s1 x.kind c.team.asid x.remote.toNat x.opnd route (id + 1 + j) p.1 p.2
        let s2 := c.modSheaf { s1 with nextId := id + 1 + spans.length, nxCmds := s1.nxCmds ++ [cmd], packets := s1.packets ++ ps }
          fun sh => expectReports c.uid k (.s x.dst :: match x.kind with
            | .probe => [.s (x.dst + 1)]
            | _ => []) (setTok sh k ⟨true, 0⟩)
        let s3 := retire c s2 (c.next 2)
        if spans = [] then finishNx s3 cmd 0 0 0 else s3)

/-- The arguments of a put, a get or an atomic (R432). -/
def transferArgs (kind : NxKind) (c : Ctx) (d r : SReg) (n : Nat) (opnd : DWord) (wr : Bool) : NxArgs :=
  let w := rdEight c d
  let remote := descPair w 4
  let loc := descPair w 6
  ⟨kind, w.take 4, remote, loc, n, opnd, fieldIx c r, andThen (routeCheck c.st c.team.asid (w.take 4)) (transferCheck c remote loc n wr)⟩

/-- `nx.put`. -/
def execNxPut (tk : Ix3) (d n r : SReg) (s : State) : Res :=
  nxIssue (.nxPut tk d n r) tk s fun c => transferArgs .put c d r (rdS c n).toNat 0 false
/-- `nx.get`. -/
def execNxGet (tk : Ix3) (d n r : SReg) (s : State) : Res :=
  nxIssue (.nxGet tk d n r) tk s fun c => transferArgs .get c d r (rdS c n).toNat 0 true
/-- `nx.atom`. -/
def execNxAtom (tk : Ix3) (op : AOp) (d v r : SReg) (s : State) : Res :=
  nxIssue (.nxAtom tk op d v r) tk s fun c =>
    transferArgs (.atom op) c d r 4 (if op = .cas then rdPair c v else (rdS c v).setWidth 64) true
/-- `nx.sig`. -/
def execNxSig (tk : Ix3) (d v r : SReg) (s : State) : Res :=
  nxIssue (.nxSig tk d v r) tk s fun c =>
    let w := rdEight c d
    ⟨.sig, w.take 4, descPair w 4, 0, 0, (rdS c v).setWidth 64, fieldIx c r,
      andThen (routeCheck c.st c.team.asid (w.take 4)) (firstFail [(!mainOk (descPair w 4), 11, 0)])⟩
/-- `nx.probe`. -/
def execNxProbe (tk : Ix3) (rt r : SReg) (s : State) : Res :=
  nxIssue (.nxProbe tk rt r) tk s fun c =>
    let w := (upto 4).map fun k => rdSk c rt k
    ⟨.probe, w, 0, 0, 0, 0, fieldIx c r, routeCheck c.st c.team.asid w⟩

/-! ### Commands in progress (R443 to R448) -/

/-- Replace a command. -/
def putNx (s : State) (n : NxCmd) : State := { s with nxCmds := s.nxCmds.map fun x => if x.id = n.id then n else x }
/-- The command that a packet belongs to, while it is not done. -/
def nxOfTag (s : State) (tag : Nat) : Option NxCmd :=
  s.nxCmds.find? fun n => n.parts.any fun p => p.tag == tag && p.done.isNone
/-- A packet has been sent and has neither a response nor an outcome. -/
def NxPart.awaiting (p : NxPart) : Bool := p.sentAt.isSome && p.done.isNone
/-- The command and the packet that a response's TAG stands for. -/
def partOfTag (s : State) (tag : Nat) : Option (NxCmd × NxPart) :=
  s.nxCmds.findSome? fun n => (n.parts.find? fun p => p.awaiting && p.tag % 65536 == tag % 65536).map fun p => (n, p)
/-- A packet's TAG is that of another packet that awaits its response. -/
def tagBusy (s : State) (tag : Nat) : Bool := (partOfTag s tag).isSome
/-- Change the packet of a tag. -/
def modPart (n : NxCmd) (tag : Nat) (f : NxPart → NxPart) : NxCmd := { n with parts := updWhere n.parts (fun p => p.tag == tag) f }

/-- The failing packet of lowest address (R446). -/
def firstBad : List NxPart → Option (Nat × Nat × Nat)
  | [] => none
  | p :: t => match p.done with
    | some (0, _, _) | none => firstBad t
    | some x => some x

/-- The record of a local access of a command that fails its walk (R381, R398). -/
def nxRec (s : State) (n : NxCmd) (cause va kind : Nat) : FRec :=
  let t := Tbl.find s.teams n.tid
  { FRec.zero with
    src := .fabric, cause := cause, asid := n.asid, team := (t.map (·.index)).getD 0, plot := (t.map (·.plot % 4096)).getD 0
    token := n.tk, slot := n.slot, addr := va, kind := kind }
/-- A local access of a command fails its walk: a record, and the command stops (R398). -/
def stopNx (s : State) (n : NxCmd) (cause va kind : Nat) : State :=
  postFault (putNx s { n with stopped := true }) n.die { nxRec s n cause va kind with rst := true, work := .fabricCmd n.id }

/-- Write at a command's LOCAL. -/
def writeLocal (s : State) (n : NxCmd) (off : Nat) (bs : List Byte) : Got State :=
  if isChip n.loc then
    (match Tbl.find s.teams n.tid with
     | some t => .ok (writeChip s n.tid t (lowWord n.loc) (ocOff (lowWord n.loc) + off) bs)
     | none => .ok s)
  else match vwrite s n.die n.asid (n.loc.toNat + off) bs with
    | .ok s1 => .ok s1
    | .fail c va => .fail c va 1
    | .descErr => .descErr

/-- An access of a command to its LOCAL waits for a walker, or for the clock of a die (R395, R420). -/
def localWaits (s : State) (n : NxCmd) (off len : Nat) : Bool := !isChip n.loc && rangeWaits s n.die n.asid (n.loc.toNat + off) len

/-- A command all of whose packets are done completes, once it can; an atomic first writes the old value (R445, R446). A LOCAL write whose
walk meets an uncorrectable error is reported, and its command completes SRC_ERROR (R398). -/
def settleNx (s : State) (n : NxCmd) : State :=
  let s1 := putNx s n
  let isAtom := match n.kind with
    | .atom _ => true
    | _ => false
  if n.stopped || n.parts.any (·.done.isNone) || (isAtom && localWaits s n 0 4) then s1 else
  let fin := fun s => match firstBad n.parts with
    | some (st, ck, hop) => finishNx s n st ck hop
    | none => finishNx s n 0 0 0
  match n.kind, firstBad n.parts with
  | .atom _, none =>
    (match writeLocal s1 n 0 (toBytes 4 (n.value.getD 0)) with
     | .ok s2 => fin s2
     | .fail 8 va k => finishNx (post s1 n.die (nxRec s1 n 8 va k)) n 1 0 0
     | .fail c va k => stopNx s1 n c va k
     | .descErr => descriptorError s1 n.asid)
  | _, _ => fin s1

/-- A packet of a command has its outcome. -/
def packetDone (s : State) (tag : Nat) (x : Nat × Nat × Nat) : State :=
  match nxOfTag s tag with
  | none => s
  | some n => settleNx s (modPart n tag fun p => { p with done := some x })

/-! ### Hop checks (R434, R435) -/

/-- The turn mask of an ingress row and a class (R439). -/
def turnMask (s : State) (row cls : Nat) : Word := (s.topo.map fun m => Tbl.get 0 m.turn (4 * row + cls)).getD 0
/-- A port. -/
def Port.zero : Port := ⟨.disabled, 0, 0, [], false, false⟩
/-- A port's state. -/
def portAt (s : State) (p : Nat) : Port := Tbl.get Port.zero s.ports p
/-- A port of this device is UP. -/
def portUp (s : State) (p : Nat) : Bool := decide (p < 24) && (portAt s p).state == .up

/-- The check of a request packet at this node: the check code that fails, or none. -/
def hopCheck (s : State) (p : Packet) : Option Nat :=
  let i := p.hi
  let h := p.hops.getD i 0
  let prev := p.hops.getD (i - 1) 0
  if p.nh < 1 || 10 < p.nh || p.nh < i then some 5
  else if i < p.nh then
    if 24 ≤ h % 32 then some 1
    else if 0 < i && h / 32 < prev / 32 then some 2
    else if !(turnMask s p.port (h / 32)).getLsbD (h % 32) then some 3
    else if !portUp s (h % 32) then some 4 else none
  else if s.topo.isNone || selfNode s != p.dst then some 6
  else if !(turnMask s p.port (prev / 32)).getLsbD 31 then some 3 else none

/-- A packet is queued for a port of its die, its flits counted. -/
def sendOn (s : State) (port : Nat) (p : Packet) : State :=
  let x := portAt s port
  { s with outbox := s.outbox ++ [{ p with port := port, leg := none }]
           ports := Tbl.set Port.zero s.ports port { x with flits := x.flits + packetFlits p } }

/-- A packet sets out from a die to another over the die-to-die links (R406, R429). -/
def cross (s : State) (src dst : Nat) (out : Option Nat) (p : Packet) : State :=
  { s with packets := s.packets ++ [{ p with leg := some ⟨s.nextId, src, dst, out⟩ }], nextId := s.nextId + 1 }

/-- A packet on a die goes to a port of the device (R429). -/
def sendFrom (s : State) (die port : Nat) (p : Packet) : State :=
  if port / 6 = die then sendOn s port p else cross s die (port / 6) (some port) { p with port := port }

/-- On a die, send a response that retraces `n` hops of a request's reverse path: discarded where its port is not UP (R433, R434). -/
def respond (s : State) (die : Nat) (p : Packet) (n kind : Nat) (opnd : DWord) (data : List Byte) : State :=
  let port := p.rp.getD (n - 1) 31
  if n = 0 || !portUp s port then s else
  sendFrom s die port { p with kind := kind, hi := 1, nh := n, dst := p.src, src := selfNode s, addr := 0, opnd := opnd, len := data.length,
                               data := data, poison := false }

/-- The error return of a check at hop index `i` (R434). -/
def errorReturn (s : State) (die : Nat) (p : Packet) (code i : Nat) : State := respond s die p i 15 (BitVec.ofNat 64 (code + i * 256)) []

/-! ### Requests performed here (R445) -/

/-- The check code of a translation that fails at the destination. -/
def remoteCode (cause : Nat) : Nat := if cause = 9 then 8 else if cause = 10 then 9 else 10

/-- A request's accesses wait: for a walker, or for the clock of a die whose memory or counter they reach (R395, R419, R420). -/
def requestWaits (s : State) (p : Packet) : Bool :=
  let die := p.port / 6
  match p.kind with
  | 1 => rangeWaits s die p.asid p.addr p.data.length
  | 2 => rangeWaits s die p.asid p.addr p.len
  | 3 => rangeWaits s die p.asid p.addr 4
  | 4 => (match nameCounter (eventWindows s p.asid) (BitVec.ofNat 32 p.addr) with
    | .ok k => !clockRuns (dieOf s (k / 1024)) || middleStopped s die (k / 1024) s.nextId
    | .error _ => false)
  | _ => false

/-- Perform a request that has been delivered on a port's die. -/
def performRequest (s : State) (p : Packet) : State :=
  let die := p.port / 6
  let fail := fun code => errorReturn s die p code p.nh
  let respond := fun s => respond s die
  let at' := fun (n : Nat) (need : Need) (k : Nat → State) =>
    match transRange s die p.asid p.addr n need with
    | .descErr => descriptorError s p.asid
    | .fail c _ => fail (remoteCode c)
    | .ok ps => (match ps with
      | (pa, _) :: _ => k pa
      | [] => k 0)
  if !asidEnabled s p.asid then fail 7 else
  match p.kind with
  | 1 => at' p.data.length .write fun pa =>
      respond (if p.poison then physPoison s pa p.data.length else physWrite s pa p.data) p p.nh 8 0 []
  | 2 => at' p.len .read fun pa => if physPoisoned s pa p.len then fail 10 else respond s p p.nh 9 0 (physRead s pa p.len)
  | 3 => at' 4 .both fun pa =>
      if physPoisoned s pa 4 then fail 10 else
      let old := physNat s pa 4
      let op := p.aop
      let s1 := if op = .cas && old != (lowWord p.opnd).toNat then s
        else physWrite s pa (toBytes 4 (atomNew op true 32 old (lowWord p.opnd).toNat (highWord p.opnd).toNat))
      respond s1 p p.nh 10 (BitVec.ofNat 64 old) []
  | 4 =>
    if descBad s p.asid then descriptorError s p.asid else
    (match nameCheck s p.asid (eventWindows s p.asid) (BitVec.ofNat 32 p.addr) with
     | .error _ => fail 7
     | .ok k => respond (ctrUpdate s k (· + lowWord p.opnd)) p p.nh 11 0 [])
  | _ => respond s p p.nh 12 0 []

/-! ### Packets at this node -/

/-- An earlier put or atomic of the same sheaf to the same device is not done, so that a signal waits (R295). -/
def sigHeld (s : State) (n : NxCmd) : Bool :=
  match n.kind with
  | .sig => s.nxCmds.any fun m => m.id < n.id && m.tid == n.tid && m.slot == n.slot
      && bits (m.route.getD 2 0).toNat 27 16 == bits (n.route.getD 2 0).toNat 27 16
      && (match m.kind with
        | .put | .atom _ => true
        | _ => false)
  | _ => false

/-- The payload of a put's packet, read as it is sent: bytes, and whether they meet an uncorrectable error. -/
def readLocal (s : State) (n : NxCmd) (off len : Nat) : Got (List Byte × Bool) :=
  if isChip n.loc then
    (match Tbl.find s.teams n.tid with
     | some t => let x := readChip s t (lowWord n.loc + BitVec.ofNat 32 off) len
                 .ok (x.1, x.2.isSome)
     | none => .ok (List.replicate len 0, false))
  else match readMain s n.die n.asid (n.loc.toNat + off) len with
    | .ok x => .ok (x.1, x.2.isSome)
    | .fail c va k => .fail c va k
    | .descErr => .descErr

/-- A packet leaves its source: the local bytes of a put are read, and hop 0 is checked (R434, R445). -/
def sendRequest (s : State) (ix : Nat) (p : Packet) (n : NxCmd) (part : NxPart) : State :=
  let gone := { s with packets := dropAt s.packets ix }
  let go := fun (s : State) (n : NxCmd) (q : Packet) =>
    match hopCheck s q with
    | some code => settleNx s (modPart n p.tag fun x => { x with done := some (8, code, 0) })
    | none => putNx (sendFrom s n.die (q.hops.getD 0 0 % 32) { q with hi := 1, tag := p.tag % 65536 })
        (modPart n p.tag fun x => { x with sentAt := some s.mer })
  match n.kind with
  | .put =>
    (match readLocal s n part.off part.len with
     | .descErr => descriptorError s n.asid
     | .fail c va k => stopNx s n c va k
     | .ok (bs, err) =>
       let n1 := if err then { n with bad := some (Min.min (n.bad.getD part.off) part.off) } else n
       let q := { p with data := bs, poison := (n1.bad.map fun b => decide (b ≤ part.off)).getD false }
       go gone n1 q)
  | _ => go gone n p

/-- A response has come to its command (R444, R445). -/
def receiveResponse (s : State) (ix : Nat) (p : Packet) (n : NxCmd) (part : NxPart) : State :=
  let gone := { s with packets := dropAt s.packets ix }
  let trip := s.mer - part.sentAt.getD 0
  let ok : Nat × Nat × Nat := if n.bad = some part.off then (1, 0, 0) else (0, 0, 0)
  if p.kind = 15 then
    let code := p.opnd.toNat % 16
    let hop := bits p.opnd.toNat 11 8
    packetDone (putNx gone { n with value := some trip }) part.tag (if code ≤ 6 then (8, code, hop) else (9, code, hop))
  else match n.kind with
  | .get =>
    if localWaits s n part.off part.len then s else
    (match writeLocal gone n part.off (p.data.take part.len) with
    | .ok s1 => packetDone s1 part.tag ok
    | .fail 8 va k => packetDone (post gone n.die (nxRec gone n 8 va k)) part.tag (1, 0, 0)
    | .fail c va k => stopNx s n c va k
    | .descErr => descriptorError s n.asid)
  | .atom _ => packetDone (putNx gone { n with value := some (p.opnd.toNat % 2 ^ 32) }) part.tag ok
  | .probe => packetDone (putNx gone { n with value := some trip }) part.tag ok
  | _ => packetDone gone part.tag ok

/-- The packets of a port leave it in order: the first `n` are gone. -/
def leavePort (port : Nat) : Nat → List Packet → List Packet
  | 0, l => l
  | _, [] => []
  | n + 1, p :: t => if p.port = port then leavePort port n t else p :: leavePort port (n + 1) t

/-- A request whose response has come has left its port, and with it what was queued there before it. -/
def haveLeft (s : State) (p : Packet) : State :=
  let asks := fun (q : Packet) => q.isRequest && q.tag == p.tag && q.src == p.dst
  match s.outbox.find? asks with
  | some q => { s with outbox := leavePort q.port (((s.outbox.filter fun x => x.port == q.port).takeWhile fun x => !asks x).length + 1) s.outbox }
  | none => s

/-- The response timeout in ticks (R438). -/
def timeoutTicks (s : State) : Nat := Max.max 4096 ((s.topo.map (·.tmo)).getD 0)
/-- A packet is LOST: its response has not arrived within TMO ticks (R448). -/
def NxPart.lostAt (s : State) (p : NxPart) : Bool :=
  p.awaiting && !p.came && (p.sentAt.map fun t => decide (t + timeoutTicks s ≤ s.mer)).getD false

/-- The response to a packet of this node arrives at a port: one that is too late is discarded (R448); another crosses to the die of its
command, which may be stopped on a record. -/
def arriveResponse (s : State) (ix : Nat) (p : Packet) (die : Nat) (onDie : Bool) : State :=
  let gone := { s with packets := dropAt s.packets ix }
  match partOfTag s p.tag with
  | none => gone
  | some (n, part) =>
    if part.lostAt s then gone else
    let n1 := modPart n part.tag fun x => { x with came := true }
    if !onDie && die ≠ n.die then
      if pathFull s die n.die then putNx s n1 else cross (putNx gone n1) die n.die none p
    else if n.stopped then putNx s n1
    else receiveResponse (putNx s n1) ix p n1 { part with came := true }

/-- A packet goes on from a die to a port, the path to which has room (R406, R429). -/
def forward (s : State) (ix die port : Nat) (p : Packet) : State :=
  if port / 6 ≠ die && pathFull s die (port / 6) then s else sendFrom { s with packets := dropAt s.packets ix } die port p

/-- A packet of a command may leave its source: the packets of a put in ascending order, and none with a TAG that is in use (R295, R446;
log 66). -/
def maySend (s : State) (n : NxCmd) (part : NxPart) : Bool :=
  let before := match n.kind with
    | .put => n.parts.any fun x => decide (x.off < part.off) && x.sentAt.isNone && x.done.isNone
    | _ => false
  let waits := match n.kind with
    | .put => localWaits s n part.off part.len
    | _ => false
  let port := hopOf n.route 0 % 32
  !n.stopped && !sigHeld s n && part.sentAt.isNone && !before && !waits && !tagBusy s part.tag
    && (decide (24 ≤ port) || port / 6 == n.die || !pathFull s n.die (port / 6))

/-- A node handles a packet at the head of a buffer. -/
def receivePacket (s : State) (ix : Nat) (p : Packet) : State :=
  let gone := { s with packets := dropAt s.packets ix }
  let die := p.port / 6
  match p.leg with
  | some l => if pathAhead s l.src l.dst l.id then s else (match l.out with
    | some port => sendOn gone port p
    | none => arriveResponse s ix p die true)
  | none =>
  if p.port = 31 then
    (match nxOfTag s p.tag with
     | none => gone
     | some n =>
       match n.parts.find? fun x => x.tag == p.tag with
       | none => gone
       | some part => if maySend s n part then sendRequest s ix p n part else s)
  else if p.isRequest then
    let q := if p.hi = 0 then p else { p with rp := updAt p.rp (p.hi - 1) fun _ => p.port }
    (match hopCheck s q with
     | some code => errorReturn gone die q code q.hi
     | none => if q.hi < q.nh then forward s ix die (q.hops.getD q.hi 0 % 32) { q with hi := q.hi + 1 }
       else if requestWaits s q then s else performRequest gone q)
  else if p.kind ∈ [8, 9, 10, 11, 12, 15] then
    if p.hi < p.nh then
      let port := p.rp.getD (p.nh - 1 - p.hi) 31
      if portUp s port then haveLeft (forward s ix die port { p with hi := p.hi + 1 }) p else gone
    else haveLeft (arriveResponse s ix p die false) p
  else gone

/-- FABRIC_PACKET_RECEIVE. -/
def execFabricPacketReceive (ix : Nat) (s : State) : Res :=
  .next (match s.packets[ix]? with
    | none => s
    | some p => receivePacket s ix p)

/-- FABRIC_TIMEOUT: the packets of a command without a response after TMO ticks are LOST; a command with all its packets done that could
not yet complete does so (R446, R448). -/
def execFabricTimeout (ix : Nat) (s : State) : Res :=
  .next (match s.nxCmds[ix]? with
    | none => s
    | some n =>
      if n.parts.any (·.lostAt s) || n.parts.all (·.done.isSome) then
        settleNx s { n with parts := updWhere n.parts (·.lostAt s) fun p => { p with done := some (10, 0, 0) } }
      else s)

/-! ### Ports and the topology map (R435, R438 to R440, R449) -/

/-- The code of a port state (R438). -/
def PortState.code : PortState → Nat
  | .down => 0 | .training => 1 | .up => 2 | .disabled => 3

/-- Write a port's STATE into a map, beside the other fields of its word (R438). -/
def writeState (s : State) (addr port : Nat) (st : PortState) : Got State :=
  let a := addr + 0x400 + 16 * port
  match vread s (port / 6) 0 a 4 with
  | .ok bs => (match vwrite s (port / 6) 0 a (toBytes 4 (leNat bs / 2 ^ 28 * 2 ^ 28 + st.code * 2 ^ 24 + leNat bs % 2 ^ 24)) with
    | .ok s1 => .ok s1
    | .fail c va => .fail c va 1
    | .descErr => .descErr)
  | .fail c va => .fail c va 0
  | .descErr => .descErr
/-- Write a port's LOAD into the map. -/
def writeLoad (s : State) (addr port load : Nat) : Got State :=
  match vwrite s (port / 6) 0 (addr + 0x408 + 16 * port) (toBytes 8 load) with
  | .ok s1 => .ok s1
  | .fail c va => .fail c va 1
  | .descErr => .descErr

/-- Change a port. -/
def modPort (s : State) (port : Nat) (f : Port → Port) : State := { s with ports := Tbl.set Port.zero s.ports port (f (portAt s port)) }
/-- A write of the device's into the map waits: for its die's clock, or for a walker (R395, R419). -/
def mapWaits (s : State) (addr port : Nat) : Bool :=
  !clockRuns (dieOf s (port / 6)) || rangeWaits s (port / 6) 0 (addr + 0x400 + 16 * port) 16
/-- The record of a write into the map that fails (R381, R398). -/
def mapRec (port cause va kind : Nat) (load rst : Bool) : FRec :=
  { FRec.zero with src := .fabric, cause := cause, rst := rst, addr := va, kind := kind, work := if rst then .portField port load else .none }

/-- The record of a change of a port's state (R440); a STATE that is only written again makes none. -/
def linkRecord (s : State) (port : Nat) (old st : PortState) : State :=
  if old = st then s else
  post s (port / 6) { FRec.zero with src := .fabric, cause := 51, body := [BitVec.ofNat 32 port, BitVec.ofNat 32 old.code, BitVec.ofNat 32 st.code] }

/-- The first of a port's changes is written into the map, and then recorded (R438, R440). A write that fails its walk stops on a record;
an uncorrectable error is reported, and the change recorded (R398). -/
def flushState (s : State) (port : Nat) : State :=
  let x := portAt s port
  match x.changes with
  | [] => s
  | (old, st) :: t =>
    let s1 := modPort s port fun x => { x with changes := t }
    match s.topo with
    | none => linkRecord s1 port old st
    | some m =>
      if x.stopped || mapWaits s m.addr port then s else
      match writeState s1 m.addr port st with
      | .ok s2 => linkRecord s2 port old st
      | .fail 8 va k => linkRecord (post s1 (port / 6) (mapRec port 8 va k false false)) port old st
      | .fail c va k => postFault (modPort s port fun x => { x with stopped := true }) (port / 6) (mapRec port c va k false true)
      | .descErr => descriptorError s1 0

/-- A port's LOAD is written into the map. -/
def flushLoad (s : State) (port : Nat) : State :=
  let x := portAt s port
  let s1 := modPort s port fun x => { x with loadDue := false }
  match s.topo with
  | none => s1
  | some m =>
    if !x.loadDue || mapWaits s m.addr port then s else
    match writeLoad s1 m.addr port x.load with
    | .ok s2 => s2
    | .fail 8 va k => post s1 (port / 6) (mapRec port 8 va k true false)
    | .fail c va k => postFault s1 (port / 6) (mapRec port c va k true true)
    | .descErr => descriptorError s1 0

/-- What is due of a port's fields in the map is written. -/
def flushPort (s : State) (port : Nat) : State := flushLoad ((portAt s port).changes.foldl (fun s _ => flushState s port) s) port
/-- The same of every port. -/
def flushPorts (s : State) : State := s.ports.foldl (fun s p => flushPort s p.1) s

/-- A write into the map that stood on a record goes on, or is dropped; a dropped change is recorded (R383, R440). -/
def resumePort (s : State) (port : Nat) (load drop : Bool) : State :=
  if load then flushPort (modPort s port fun x => { x with loadDue := x.loadDue || !drop }) port
  else
    let s1 := modPort s port fun x => { x with stopped := false }
    if !drop then flushPort s1 port else match (portAt s port).changes with
    | (old, st) :: t => flushPort (linkRecord (modPort s1 port fun x => { x with changes := t }) port old st) port
    | [] => s1

/-- A port changes state: the map, then the record (R440). -/
def setPort (s : State) (port : Nat) (st : PortState) : State :=
  let old := (portAt s port).state
  if old = st then s else
  flushPort (modPort s port fun x => { x with state := st, changes := x.changes ++ [(old, st)] }) port

/-- A packet queued for a port that leaves UP is discarded: of a request whose header is still at this node an error return is made, or its
source records it. -/
def dropPacket (s : State) (port : Nat) (p : Packet) : State :=
  if !p.isRequest then s
  else if p.hi ≤ 1 then (match partOfTag s p.tag with
    | some (_, part) => packetDone s part.tag (8, 4, 0)
    | none => s)
  else errorReturn s (port / 6) p 4 (p.hi - 1)

/-- A port leaves UP: of the packets queued for it, how many have left being free, and whether the next has left in part, and of those on
their way to it over the die-to-die links, each is discarded (R435). -/
def dropQueued (s : State) (port : Nat) : State :=
  let mine := s.outbox.filter fun p => p.port == port
  let still := mine.drop ((freeAt s 7).toNat % (mine.length + 1))
  let coming := fun (p : Packet) => p.leg.any fun l => l.out == some port
  let whole := if freeBit s 6 then still.drop 1 else still
  (whole ++ s.packets.filter coming).foldl (fun s p => dropPacket s port p)
    { s with outbox := s.outbox.filter (fun p => p.port != port), packets := s.packets.filter fun p => !coming p }

/-- LINK_STATE_CHANGE. -/
def execLinkStateChange (port : Nat) (up : Bool) (s : State) : Res :=
  .next (if 24 ≤ port then s else
    match (portAt s port).state, up with
    | .training, true => setPort s port .up
    | .down, true => setPort s port .training
    | .training, false => setPort s port .down
    | .up, false => dropQueued (setPort s port .down) port
    | _, _ => s)

/-- A period of LOAD ends at this tick, and its update has yet to be made (R438). -/
def loadDue (s : State) : Bool := s.mer != 0 && s.mer % 65536 == 0 && s.loadAt != s.mer
/-- FABRIC_LOAD_UPDATE: at the end of a period, every port's LOAD is taken, and written into the map, that of the port which the event names
first (R438; log 38). -/
def execFabricLoadUpdate (first : Nat) (s : State) : Res :=
  .next (if !loadDue s then s else
    let due := (upto 24).foldl (fun s p => modPort s p fun x => { x with flits := 0, load := x.flits, loadDue := true }) { s with loadAt := s.mer }
    flushPorts (flushPort due (first % 24)))

/-- The fields of a map that R449 checks, in its order: code, offset, whether it passes. -/
def mapChecks (b : List Byte) : List (Nat × Nat × Bool) :=
  let w := fun o => fieldAt b o 4
  let self := w 4 % 4096
  let nn := w 8 % 8192
  [(1, 0, w 0 == 1), (2, 8, decide (1 ≤ nn) && decide (nn ≤ 4096)), (2, 4, decide (self < nn)),
   (3, 4, w 4 / 4096 == 0), (3, 8, w 8 / 8192 == 0)]
  ++ ((upto 12).map fun i => (3, 16 + 4 * i, w (16 + 4 * i) == 0))
  ++ ((upto 24).flatMap fun p =>
      [(3, 0x400 + 16 * p, bits (w (0x400 + 16 * p)) 30 28 == 0 && bits (w (0x400 + 16 * p)) 23 12 == 0),
       (3, 0x404 + 16 * p, w (0x404 + 16 * p) / 32 == 0)])
  ++ (upto 128).map fun i => (3, 0x800 + 4 * i, bits (w (0x800 + 4 * i)) 30 24 == 0 && (decide (i / 4 < 24 || i / 4 = 31) || w (0x800 + 4 * i) == 0))

/-- A checked map as installed. -/
def mapOf (addr : Nat) (b : List Byte) : TopoMap :=
  let w := fun o => fieldAt b o 4
  { addr := addr, self := w 4 % 4096, nnodes := w 8 % 8192, tmo := w 12, asidEn := (b.drop 0x40).take 512
    ports := (upto 24).map fun p => (p, (bitOf (w (0x400 + 16 * p)) 31, w (0x400 + 16 * p) % 4096, w (0x404 + 16 * p) % 32))
    turn := ((upto 128).map fun i => (i, BitVec.ofNat 32 (w (0x800 + 4 * i)))).filter fun x => x.2 != 0 }

/-- Install a map: ports follow their EN, and STATE and LOAD are written to it (R449). -/
def installMap (s : State) (m : TopoMap) : State :=
  (upto 24).foldl (fun s p =>
    let en := ((Tbl.find m.ports p).map (·.1)).getD false
    let st := (portAt s p).state
    let s1 := if !en then (if st = .up then dropQueued (setPort s p .disabled) p else setPort s p .disabled)
      else if st = .disabled then setPort s p .training else s
    flushPort (modPort s1 p fun x => { x with changes := x.changes ++ [(x.state, x.state)], loadDue := true }) p) { s with topo := some m }

/-- What a table word comes to: it waits, for a walker or the clock of a die; a descriptor cannot be read; or the table is dealt with, with
a result (R395, R420, R479). -/
inductive TableEnd where
  | waits
  | descErr
  | done (s : State) (result : Nat)
  deriving DecidableEq, Repr

/-- The outcome of reading and checking a map: its installation, or a code and an offset ÷ 16. -/
def topoResult (s : State) (die addr : Nat) : TableEnd :=
  let fails := fun code off => TableEnd.done s (off * 65536 + code)
  if rangeWaits s die 0 addr 0xA00 then .waits else
  match transRange s die 0 addr 0xA00 .read with
  | .descErr => .descErr
  | .fail _ _ => fails 8 0
  | .ok ps =>
    let b := ps.flatMap fun p => physRead s p.1 p.2
    let flags := ps.flatMap fun p => (upto p.2).map fun i => physPoisoned s (p.1 + i) 1
    match (mapChecks b).find? fun x => !x.2.2 && !flags.getD x.2.1 false with
    | some x => fails x.1 (x.2.1 / 16)
    | none => match flags.findIdx? id with
      | some i => fails 8 (i / 16)
      | none => .done (installMap s (mapOf addr b)) 0

/-- `nx.topo` and `nx.tree`: token and room waits, then the table at once; the token completes OK (R449, R451). -/
def tableWord (i : Instr) (tk : Ix3) (m r : SReg) (s : State) (k : State → Nat → Nat → TableEnd) : Res :=
  issue i s fun c =>
    let t := tk.toNat
    .next (if (tokAt c.sheaf t).pending then waitAt c c.st (.tokens (2 ^ t))
      else if decide (256 ≤ (c.st.nxCmds.filter fun n => n.die == c.team.die).length) then waitAt c c.st (.room .fabric)
      else match k (flushCore (acquired c c.st (2 ^ t)) c.core) c.team.die (rdPair c m).toNat with
      | .waits => waitAt c c.st (.room .fabric)
      | .descErr => descriptorError (let (id, s1) := fresh c.st; waitAt c s1 (.reply id)) 0
      | .done s1 x => retire c (c.modSheaf (commit c s1 0 [(fieldKey c.sheaf r, BitVec.ofNat 32 x)]) fun sh => setTok sh t ⟨false, 0⟩) (c.next 2))

/-- `nx.topo`. -/
def execNxTopo (tk : Ix3) (m r : SReg) (s : State) : Res := tableWord (.nxTopo tk m r) tk m r s topoResult

/-! ### The tree table (R450, R451) -/

/-- Four words of an entry. -/
def fourWords (b : List Byte) (o : Nat) : List Word := (upto 4).map fun i => BitVec.ofNat 32 (fieldAt b (o + 4 * i) 4)

/-- The first check that an entry fails (R451). -/
def entryFault (b : List Byte) (i : Nat) : Option Nat :=
  let o := 64 + 64 * i
  let w := fun k => fieldAt b (o + 4 * k) 4
  let par := w 1 % 65536
  let root := par == 0xFFFF
  let nodeOf := fun j => fieldAt b (64 + 64 * j) 4 % 4096
  let dst := fun (r : List Word) => bits (r.getD 2 0).toNat 27 16
  let up := fourWords b (o + 16)
  let down := fourWords b (o + 32)
  let zeros := w 0 / 4096 == 0 && w 1 / 65536 == 0 && w 2 == 0 && w 3 == 0 && zeroAt b (o + 48) 16
    && (!root || zeroAt b (o + 16) 32)
  ((([(!zeros, 7), ((i == 0) != root, 2), (!root && par == i, 3), (!root && decide (i < par), 4),
    ((upto i).any fun j => nodeOf j == nodeOf i, 5),
    (!root && (!plainRouteOk up || !plainRouteOk down || dst up != nodeOf par || dst down != nodeOf i), 6)] :
      List (Bool × Nat)).find? (·.1)).map (·.2))

/-- A table as installed. -/
def treeOf (b : List Byte) (n : Nat) : Tbl TreeEntry :=
  (upto n).map fun i =>
    let o := 64 + 64 * i
    (i, ⟨fieldAt b o 4 % 4096, fieldAt b (o + 4) 4 % 65536, fourWords b (o + 16), fourWords b (o + 32)⟩)

/-- The table is read and checked entry by entry: `i` entries have passed, and `b` holds what has been read (R451). -/
def treeResult (s : State) (die a : Nat) : Nat → Nat → List Byte → TableEnd
  | 0, i, b => .done { s with tree := some (treeOf b i) } 0
  | n + 1, i, b =>
    match vread s die 0 (a + 64 + 64 * i) 64 with
    | .descErr => .descErr
    | .fail .. => .done s 8
    | .ok e => match entryFault (b ++ e) i with
      | some code => .done s (i * 65536 + code)
      | none => treeResult s die a n (i + 1) (b ++ e)

/-- `nx.tree`. -/
def execNxTree (tk : Ix3) (m r : SReg) (s : State) : Res :=
  tableWord (.nxTree tk m r) tk m r s fun s die a =>
    if rangeWaits s die 0 a 64 then .waits else
    match vread s die 0 a 64 with
    | .descErr => .descErr
    | .fail .. => .done s 8
    | .ok h =>
      let n := fieldAt h 0 4
      if n < 1 || 1024 < n || !zeroAt h 4 60 then .done s 1
      else if rangeWaits s die 0 a (64 + 64 * n) then .waits
      else treeResult s die a n 0 h

end Sys2Proof.Machine
end

