-- ==== Sys2Proof/Machine/Hss.lean ====
section
/-! DEFINITION. SHA-256 and the two-level HSS signatures of LMS over it (R4, R468, R473).  The spec names these functions and
does not spell them out: they are taken from FIPS 180-4 and RFC 8554, PRESUMED (log 8). -/

namespace Sys2Proof.Machine

/-! ### SHA-256 -/

/-- The 64 round constants. -/
def shaK : List Word :=
  [0x428a2f98, 0x71374491, 0xb5c0fbcf, 0xe9b5dba5, 0x3956c25b, 0x59f111f1, 0x923f82a4, 0xab1c5ed5] ++
  [0xd807aa98, 0x12835b01, 0x243185be, 0x550c7dc3, 0x72be5d74, 0x80deb1fe, 0x9bdc06a7, 0xc19bf174] ++
  [0xe49b69c1, 0xefbe4786, 0x0fc19dc6, 0x240ca1cc, 0x2de92c6f, 0x4a7484aa, 0x5cb0a9dc, 0x76f988da] ++
  [0x983e5152, 0xa831c66d, 0xb00327c8, 0xbf597fc7, 0xc6e00bf3, 0xd5a79147, 0x06ca6351, 0x14292967] ++
  [0x27b70a85, 0x2e1b2138, 0x4d2c6dfc, 0x53380d13, 0x650a7354, 0x766a0abb, 0x81c2c92e, 0x92722c85] ++
  [0xa2bfe8a1, 0xa81a664b, 0xc24b8b70, 0xc76c51a3, 0xd192e819, 0xd6990624, 0xf40e3585, 0x106aa070] ++
  [0x19a4c116, 0x1e376c08, 0x2748774c, 0x34b0bcb5, 0x391c0cb3, 0x4ed8aa4a, 0x5b9cca4f, 0x682e6ff3] ++
  [0x748f82ee, 0x78a5636f, 0x84c87814, 0x8cc70208, 0x90befffa, 0xa4506ceb, 0xbef9a3f7, 0xc67178f2]

/-- The initial hash value. -/
def shaInit : List Word :=
  [0x6a09e667, 0xbb67ae85, 0x3c6ef372, 0xa54ff53a, 0x510e527f, 0x9b05688c, 0x1f83d9ab, 0x5be0cd19]

/-- `n` in `k` bytes, most significant first. -/
def beBytes (k n : Nat) : List Byte := (toBytes k n).reverse
/-- The number that bytes spell, most significant first. -/
def beNat (l : List Byte) : Nat := leNat l.reverse

/-- The words of the message schedule from the `n`-th on, from the 16 before it. -/
def shaSchedule : Nat → List Word → List Word
  | 0, w => w
  | n + 1, w =>
    let s0 (x : Word) := x.rotateRight 7 ^^^ x.rotateRight 18 ^^^ x >>> 3
    let s1 (x : Word) := x.rotateRight 17 ^^^ x.rotateRight 19 ^^^ x >>> 10
    let x := s1 (w.getD 14 0) + w.getD 9 0 + s0 (w.getD 1 0) + w.getD 0 0
    w.getD 0 0 :: shaSchedule n (w.drop 1 ++ [x])

/-- One round. -/
def shaRound (v : List Word) (kw : Word × Word) : List Word :=
  match v with
  | [a, b, c, d, e, f, g, h] =>
    let t1 := h + (e.rotateRight 6 ^^^ e.rotateRight 11 ^^^ e.rotateRight 25) + (e &&& f ^^^ ~~~e &&& g) + kw.1 + kw.2
    let t2 := (a.rotateRight 2 ^^^ a.rotateRight 13 ^^^ a.rotateRight 22) + (a &&& b ^^^ a &&& c ^^^ b &&& c)
    [t1 + t2, a, b, c, d + t1, e, f, g]
  | _ => v

/-- The hash value after one block of 64 bytes. -/
def shaBlock (v : List Word) (b : List Byte) : List Word :=
  let w := (upto 16).map fun i => BitVec.ofNat 32 (beNat ((b.drop (4 * i)).take 4))
  let r := ((shaK.zip (shaSchedule 48 w))).foldl shaRound v
  (v.zip r).map fun p => p.1 + p.2

/-- The hash value after `n` blocks. -/
def shaBlocks : Nat → List Word → List Byte → List Word
  | 0, v, _ => v
  | n + 1, v, b => shaBlocks n (shaBlock v b) (b.drop 64)

/-- The message with its padding. -/
def shaPad (m : List Byte) : List Byte :=
  m ++ [0x80] ++ List.replicate ((119 - m.length % 64) % 64) 0 ++ beBytes 8 (8 * m.length)

/-- The SHA-256 digest of a byte string, as 32 bytes. -/
def sha256 (m : List Byte) : List Byte :=
  let p := shaPad m
  (shaBlocks (p.length / 64) shaInit p).flatMap fun w => beBytes 4 w.toNat

/-! ### One-time signatures -/

/-- The width w, the count p of chains and the checksum's shift, by the number of the type. -/
def otsParams : Nat → Option (Nat × Nat × Nat)
  | 1 => some (1, 265, 7)
  | 2 => some (2, 133, 6)
  | 3 => some (4, 67, 4)
  | 4 => some (8, 34, 0)
  | _ => none

/-- The `i`-th digit of `w` bits of a byte string. -/
def otsCoef (b : List Byte) (i w : Nat) : Nat :=
  (b.getD (i * w / 8) 0).toNat / 2 ^ (8 - (w * (i % (8 / w)) + w)) % 2 ^ w

/-- A message hash with its checksum. -/
def otsDigits (q : List Byte) (w ls : Nat) : List Byte :=
  q ++ beBytes 2 (((upto (256 / w)).foldl (fun a i => a + (2 ^ w - 1 - otsCoef q i w)) 0) * 2 ^ ls)

/-- `n` steps of chain `i`, from step `j`. -/
def otsChain (pre : List Byte) (i : Nat) : Nat → Nat → List Byte → List Byte
  | 0, _, t => t
  | n + 1, j, t => otsChain pre i n (j + 1) (sha256 (pre ++ beBytes 2 i ++ beBytes 1 j ++ t))

/-- The digits that a signature with randomiser `c` on `msg` opens, for leaf prefix `pre`. -/
def otsMessage (pre c msg : List Byte) (w ls : Nat) : List Byte :=
  otsDigits (sha256 (pre ++ beBytes 2 0x8181 ++ c ++ msg)) w ls

/-- The public key that a signature's chains end in. -/
def otsCandidate (pre msg c ys : List Byte) (par : Nat × Nat × Nat) : List Byte :=
  let (w, p, ls) := par
  let v := otsMessage pre c msg w ls
  sha256 (pre ++ beBytes 2 0x8080 ++ (upto p).flatMap fun i =>
    let a := otsCoef v i w
    otsChain pre i (2 ^ w - 1 - a) a ((ys.drop (32 * i)).take 32))

/-! ### Trees -/

/-- The height of a tree, by the number of its type. -/
def lmsHeight : Nat → Option Nat
  | 5 => some 5
  | 6 => some 10
  | 7 => some 15
  | 8 => some 20
  | 9 => some 25
  | _ => none

/-- The value of a leaf's node. -/
def lmsLeaf (id : List Byte) (node : Nat) (k : List Byte) : List Byte := sha256 (id ++ beBytes 4 node ++ beBytes 2 0x8282 ++ k)
/-- The value of an inner node. -/
def lmsInner (id : List Byte) (node : Nat) (l r : List Byte) : List Byte :=
  sha256 (id ++ beBytes 4 node ++ beBytes 2 0x8383 ++ l ++ r)

/-- The root that a path of `h` siblings leads to. -/
def lmsRoot (id : List Byte) : Nat → Nat → List Byte → List Byte → List Byte
  | 0, _, _, t => t
  | h + 1, node, path, t =>
    let s := path.take 32
    lmsRoot id h (node / 2) (path.drop 32) (if node % 2 = 1 then lmsInner id (node / 2) s t else lmsInner id (node / 2) t s)

/-- The bytes of a signature under the tree key that starts `pub`, by its types. -/
def lmsSigSize (pub : List Byte) : Option Nat :=
  match lmsHeight (beNat (pub.take 4)), otsParams (beNat ((pub.drop 4).take 4)) with
  | some h, some (_, p, _) => some (4 + 4 + 32 + 32 * p + 4 + 32 * h)
  | _, _ => none

/-- A signature of one tree on `msg` verifies under the 56-byte public key `pub`. -/
def lmsVerifies (pub msg sig : List Byte) : Bool :=
  let ty := beNat (pub.take 4)
  let ot := beNat ((pub.drop 4).take 4)
  let id := (pub.drop 8).take 16
  match lmsHeight ty, otsParams ot with
  | some h, some (w, p, ls) =>
    let q := beNat (sig.take 4)
    let pre := id ++ beBytes 4 q
    let rest := sig.drop (40 + 32 * p)
    decide (sig.length = 44 + 32 * p + 32 * h) && beNat ((sig.drop 4).take 4) == ot && beNat (rest.take 4) == ty
    && decide (q < 2 ^ h)
    && lmsRoot id h (2 ^ h + q) (rest.drop 4) (lmsLeaf id (2 ^ h + q)
          (otsCandidate pre msg ((sig.drop 8).take 32) ((sig.drop 40).take (32 * p)) (w, p, ls))) == (pub.drop 24).take 32
  | _, _ => false

/-- A two-level signature on `msg` verifies under the 60-byte public key `pub`: the upper tree signs the lower tree's key,
the lower tree signs the message (R468). -/
def hssVerifies (pub msg sig : List Byte) : Bool :=
  let top := pub.drop 4
  match lmsSigSize top with
  | none => false
  | some n =>
    let low := (sig.drop (4 + n)).take 56
    decide (pub.length = 60) && beNat (pub.take 4) == 2 && beNat (sig.take 4) == 1
    && lmsVerifies top low ((sig.drop 4).take n) && lmsVerifies low msg (sig.drop (60 + n))

/-- A field of public key and signature on `msg` verifies against a key's digest (R468; log 8). -/
def keyedVerifies (digest msg field : List Byte) : Bool :=
  decide (60 ≤ field.length) && sha256 (field.take 60) == digest && hssVerifies (field.take 60) msg (field.drop 60)

/-! ### The identity key (R473) -/

/-- The type numbers of the identity key: chains of 8-bit digits, height 10 above height 15. -/
abbrev identityOts : Nat := 4

/-- What the device derives from its seed for a tree: `i` names the secret, and the tree's identifier and each randomiser
have numbers of their own (log 8). -/
def identitySecret (seed : BitVec 256) (tree leaf i : Nat) : List Byte := beBytes 32 (Config.identitySecret seed tree leaf i).toNat
/-- A tree's identifier. -/
def treeId (seed : BitVec 256) (tree : Nat) : List Byte := (identitySecret seed tree 0 65536).take 16

/-- The one-time public key of a leaf. -/
def otsPublic (seed : BitVec 256) (tree leaf : Nat) : List Byte :=
  let pre := treeId seed tree ++ beBytes 4 leaf
  sha256 (pre ++ beBytes 2 0x8080 ++ (upto 34).flatMap fun i => otsChain pre i 255 0 (identitySecret seed tree leaf i))

/-- The node of height `h` above leaves `2^h * i` and on, in a tree of height `top`. -/
def treeNode (seed : BitVec 256) (tree top : Nat) : Nat → Nat → List Byte
  | 0, i => lmsLeaf (treeId seed tree) (2 ^ top + i) (otsPublic seed tree i)
  | h + 1, i => lmsInner (treeId seed tree) (2 ^ (top - (h + 1)) + i) (treeNode seed tree top h (2 * i)) (treeNode seed tree top h (2 * i + 1))

/-- A tree's public key: tree 0 is the upper one. -/
def treePublic (seed : BitVec 256) (tree : Nat) : List Byte :=
  let top := if tree = 0 then 10 else 15
  beBytes 4 (if tree = 0 then 6 else 7) ++ beBytes 4 identityOts ++ treeId seed tree ++ treeNode seed tree top top 0

/-- The signature of a leaf of a tree on `msg`. -/
def treeSign (seed : BitVec 256) (tree leaf : Nat) (msg : List Byte) : List Byte :=
  let top := if tree = 0 then 10 else 15
  let pre := treeId seed tree ++ beBytes 4 leaf
  let c := identitySecret seed tree leaf 65537
  let v := otsMessage pre c msg 8 0
  beBytes 4 leaf ++ beBytes 4 identityOts ++ c
  ++ ((upto 34).flatMap fun i => otsChain pre i (otsCoef v i 8) 0 (identitySecret seed tree leaf i))
  ++ beBytes 4 (if tree = 0 then 6 else 7)
  ++ (upto top).flatMap fun h => treeNode seed tree top h (Nat.xor (leaf / 2 ^ h) 1)

/-- The identity key's public key (R473). -/
def identityPublic (seed : BitVec 256) : List Byte := beBytes 4 2 ++ treePublic seed 0

/-- The two-level signature of the identity key with leaf `n` of the 2^25 (R473). -/
def identitySign (seed : BitVec 256) (n : Nat) (msg : List Byte) : List Byte :=
  let tree := n / 2 ^ 15 + 1
  let low := treePublic seed tree
  beBytes 4 1 ++ treeSign seed 0 (n / 2 ^ 15) low ++ low ++ treeSign seed tree (n % 2 ^ 15) msg

end Sys2Proof.Machine
end

