-- ==== Sys2Proof/Machine/Log.lean ====
section
/-! DEFINITION. The token log (R452 to R459). -/

namespace Sys2Proof.Machine

/-! ### Issue (R455, R456) -/

/-- The checks of R456. -/
def logCheck (c : Ctx) (area : DWord) (a : Word) : Option (Nat × Nat) :=
  andThen (firstFail [(!mainOk area, 11, 0), ((ocSpace a).isNone, 24, 1), (area.toNat % 4096 != 0 || ocOff a % 64 != 0, 4, 0)])
    (andThen (ocRange c a 64 false) (if (readChip c.st c.team a 64).2.isSome then some (8, 0) else none))

/-- `lg.app`: the append enters its core's streamer queue, with what a record of it shows: s(ec), s(ea) and the pair of eb (R381). -/
def logWord (i : Instr) (kind : Nat) (tk : Ix3) (a sg r : SReg) (s : State) : Res :=
  issue i s fun c =>
    let k := tk.toNat
    let area := rdPair c a
    .next (if (tokAt c.sheaf k).pending then waitAt c c.st (.tokens (2 ^ k))
      else if copyFull c false then waitAt c c.st (.room (.copy false none))
      else match logCheck c area (rdS c sg) with
      | some (cause, sub) => raiseExec c c.st cause sub 0
      | none =>
        let ps := encode c.team.ver i
        let (id, s1) := fresh (flushCore (acquired c c.st (2 ^ k)) c.core)
        let cmd : CopyCmd := ⟨id, .log kind, c.tid, c.slot, k, none, c.team.asid, c.tag, rdS c sg, area, 0, 64,
          [rdS c r, lowWord area, lowWord (rdPair c sg), highWord (rdPair c sg)], [],
          ps.headD 0, ps.getD 1 0, 0, false, none, false, false, none, [], fieldIx c r, false⟩
        retire c (c.modSheaf (enqueueCopy c s1 false cmd) fun sh => expectReports c.uid k [.s (fieldIx c r)] (setTok sh k ⟨true, 0⟩)) (c.next 2))
/-- `lg.app.tok`. -/
def execLgAppTok (_la : BitVec 4) (tk : Ix3) (a sg r : SReg) (s : State) : Res := logWord (.lgAppTok _la tk a sg r) 0 tk a sg r s
/-- `lg.app.commit`. -/
def execLgAppCommit (_la : BitVec 4) (tk : Ix3) (a sg r : SReg) (s : State) : Res := logWord (.lgAppCommit _la tk a sg r) 1 tk a sg r s
/-- `lg.app.void`. -/
def execLgAppVoid (_la : BitVec 4) (tk : Ix3) (a sg r : SReg) (s : State) : Res := logWord (.lgAppVoid _la tk a sg r) 2 tk a sg r s

/-! ### The append (R452 to R454, R457) -/

/-- A slot's horizon state (R453). -/
structure Horizon where
  hor   : Nat
  pend  : Nat
  first : Nat
  last  : Nat
  deriving DecidableEq, Repr

/-- A record to put: kind, whether ERR, TENT and END are set, and the first and the last step that it covers. -/
structure LogRec where
  kind : Nat
  err  : Bool
  tent : Bool
  stop : Bool
  first : Nat
  last  : Nat
  deriving DecidableEq, Repr

/-- A COMMIT. -/
def commitRec (a b : Nat) : LogRec := ⟨2, false, false, false, a, b⟩
/-- COMMIT of everything that is pending. -/
def commitAll (h : Horizon) : List LogRec := if 0 < h.pend then [commitRec h.first (h.first + h.pend - 1)] else []

/-- `.tok` (R457): the records put and the horizon after. -/
def appendTok (h : Horizon) (step : Nat) (tent : Bool) : List LogRec × Horizon :=
  if h.last ≠ 0xFFFFFFFF && step ≠ (h.last + 1) % 2 ^ 32 then ([⟨1, true, tent, false, step, step⟩], h)
  else if tent && 0 < h.hor then
    let full := h.pend == h.hor
    let first := if full then h.first + 1 else h.first
    let pend := if full then h.pend - 1 else h.pend
    ((if full then [commitRec h.first h.first] else []) ++ [⟨1, false, true, false, step, step⟩],
     { h with first := if pend = 0 then step else first, pend := pend + 1, last := step })
  else (commitAll h ++ [⟨1, false, false, false, step, step⟩], { h with pend := 0, last := step })

/-- `.commit`. -/
def appendCommit (h : Horizon) : List LogRec × Horizon := (commitAll h, { h with pend := 0 })

/-- `.void`. -/
def appendVoid (h : Horizon) (low : Nat) : List LogRec × Horizon :=
  let f := Max.max low h.first
  let top := h.first + h.pend - 1
  let a := if 0 < h.pend && h.first < f then [commitRec h.first (Min.min (f - 1) top)] else []
  let b : LogRec := if 0 < h.pend && f ≤ top then ⟨3, false, false, true, f, top⟩ else ⟨3, false, false, true, h.last + 1, h.last⟩
  (a ++ [b], { h with pend := 0 })

/-- A record's words at an index (R454). -/
def logWords (st : List Word) (r : LogRec) (ix : Nat) : List Nat :=
  let slot := (st.getD 0 0).toNat % 65536
  let w := fun i => (st.getD i 0).toNat
  let head := r.kind * 2 ^ 28 + (if r.err then 2 ^ 26 else 0) + (if r.tent then 2 ^ 25 else 0) + (if r.stop then 2 ^ 24 else 0) + slot
  if r.kind = 1 then
    [head + bits (w 0) 23 20 * 2 ^ 20, w 1, w 2, ix] ++ ((upto 7).map fun i => w (4 + i)) ++ List.replicate 5 0
  else [head, r.last, r.first, ix] ++ List.replicate 12 0

/-- A staging record and a header break R452 or R454: BADREC. -/
def badRecord (st : List Word) (recs nslot : Nat) : Bool :=
  let w := fun i => (st.getD i 0).toNat
  !(decide (64 ≤ recs) && decide (recs ≤ 1048576) && recs == 2 ^ Nat.log2 recs) || !(decide (1 ≤ nslot) && decide (nslot ≤ 1020))
  || decide (nslot ≤ w 0 % 65536) || decide (4 < bits (w 0) 23 20) || bitOf (w 0) 27 || bits (w 0) 19 16 != 0
  || decide (65536 ≤ w 10) || (upto 5).any fun i => w (11 + i) != 0

/-- An append completes: one that fails makes no report (R457, R459). -/
def finishLog (s : State) (k : EngineKey) (c : CopyCmd) (status : Nat) : State :=
  let s1 := modSheaf s c.tid c.slot (dropReports fun r => r.tk == c.tk && !r.done)
  reapTeam (completeTok (modQueue s1 k fun l => l.filter fun x => x.id != c.id) c.tid c.slot c.tk status) c.tid

/-- An access to the area fails: a restartable record (R459), or for an uncorrectable error a record and FAULTED. -/
def stopLog (s : State) (k : EngineKey) (t : Team) (c : CopyCmd) (cause va kind : Nat) : State :=
  if cause = 8 then finishLog (post s k.die (copyRec k t c 8 va kind false)) k c 5
  else postFault (putCmd s k { c with stopped := true }) k.die (copyRec k t c cause va kind true)

/-- The writes of an append: its records, the slot's PEND, FIRST and LAST, then WPTR (R458). -/
def logWrites (c : CopyCmd) (st : List Word) (recs wptr : Nat) (rs : List LogRec) (h : Horizon) : List (Nat × List Byte) :=
  let a := c.b.toNat
  (rs.mapIdx fun j r =>
    let ix := (wptr + j) % 2 ^ 32
    (a + 0x4000 + 64 * (ix % recs), (logWords st r ix).flatMap (toBytes 4)))
  ++ [(a + 0x44 + 16 * ((st.getD 0 0).toNat % 65536), [h.pend, h.first, h.last].flatMap (toBytes 4)), (a + 4, toBytes 4 (wptr + rs.length))]

/-- An append whose header and slot entry have been read; on a full ring it waits (R457). -/
def appendWith (s : State) (k : EngineKey) (t : Team) (c : CopyCmd) (kind : Nat) (st : List Word) (hdr ent : List Byte) : State :=
  let recs := fieldAt hdr 0 4
  let wptr := fieldAt hdr 4 4
  let h : Horizon := ⟨fieldAt ent 0 4 % 256, fieldAt ent 4 4 % 256, fieldAt ent 8 4, fieldAt ent 12 4⟩
  let r := if kind = 0 then appendTok h (st.getD 1 0).toNat ((st.getD 0 0).getLsbD 25)
    else if kind = 1 then appendCommit h else appendVoid h (st.getD 2 0).toNat
  let n := r.1.length
  if recs - n < (wptr + 2 ^ 32 - fieldAt hdr 8 4) % 2 ^ 32 then putCmd s k { c with full := true } else
  let ws := if n = 0 then [] else logWrites c st recs wptr r.1 r.2
  match ws.findSome? fun w => match transRange s t.port c.asid w.1 w.2.length .write with
    | .ok _ => none
    | .fail cause va => some (some (cause, va))
    | .descErr => some none with
  | some (some (cause, va)) => stopLog s k t c cause va 1
  | some none => descriptorError s c.asid
  | none =>
    if ws.any fun w => rangeWaits s t.port c.asid w.1 w.2.length then s else
    let s1 := ws.foldl (fun s w => match vwrite s t.port c.asid w.1 w.2 with
      | .ok s1 => s1
      | _ => s) s
    let res : Word := if n = 0 then 0xFFFFFFFF else BitVec.ofNat 32 (wptr + n - 1)
    let s2 := modSheaf (modTeam s1 c.tid (charge c.tag 3 n)) c.tid c.slot fun sh =>
      if sh.retired then sh else putReport s c.tk (.s c.res, res) sh
    finishLog s2 k c 0

/-- A read of the area once its page can be translated, or what its failure comes to (R395). -/
def areaRead (s : State) (k : EngineKey) (t : Team) (c : CopyCmd) (va n : Nat) (f : List Byte → State) : State :=
  if rangeWaits s t.port c.asid va n then s else
  match vread s t.port c.asid va n with
  | .ok bs => f bs
  | .fail cause a => stopLog s k t c cause a 0
  | .descErr => descriptorError s c.asid

/-- Perform an append (R457). -/
def logStep (s : State) (k : EngineKey) (t : Team) (c : CopyCmd) (kind : Nat) : State :=
  let x := readChip s t c.a 64
  if x.2.isSome then stopLog s k t c 8 0 0 else
  let st := (upto 16).map fun i => BitVec.ofNat 32 (fieldAt x.1 (4 * i) 4)
  areaRead s k t c c.b.toNat 64 fun hdr =>
    if badRecord st (fieldAt hdr 0 4) (fieldAt hdr 12 4) then finishLog s k c 6 else
    areaRead s k t c (c.b.toNat + 0x40 + 16 * ((st.getD 0 0).toNat % 65536)) 16 fun ent => appendWith s k t c kind st hdr ent

/-- An older append of the sheaf's to the same area is in another core's streamer: its team has changed cores since (R234, R458). -/
def olderAppend (s : State) (c : CopyCmd) : Bool :=
  s.cores.any fun k => k.2.streamer.any fun x => decide (x.id < c.id) && x.tid == c.tid && x.slot == c.slot && x.b == c.b
    && (match x.kind with
      | .log _ => true
      | _ => false)

/-- A core's streamer goes on with the append that it has come to, if a test holds of it. -/
def appendStep (s : State) (k : EngineKey) (p : CopyCmd → Bool) : State :=
  match pickCmd (queueOf s k) [] with
  | none => s
  | some c => match c.kind, Tbl.find s.teams c.tid with
    | .log kind, some t => if olderAppend s c || !p c then s else logStep s k t c kind
    | _, _ => s

/-- LOG_APPEND: the append that a core's streamer has come to. -/
def execLogAppend (die core : Nat) (s : State) : Res := .next (appendStep s ⟨false, die, core⟩ fun _ => true)

end Sys2Proof.Machine
end

