-- ==== Sys2Proof/Machine/System.lean ====
section
/-! DEFINITION. System words and registers, the fault queue's actions, pre-emption and teardown (R365 to R388). -/

namespace Sys2Proof.Machine

/-! ### Calls and returns (R373, R375, R377 to R379) -/

/-- `trap` (R375). -/
def execTrap (imm : Word) (s : State) : Res :=
  issue (.trap imm) s fun c => .next (callTrap c (chargeCycles c c.st 1 [c.tag]) 32 imm c.unit.pc)
/-- `scall` (R375). -/
def execScall (imm : Word) (s : State) : Res :=
  issue (.scall imm) s fun c => .next (callTrap c (chargeCycles c c.st 1 [c.tag]) 33 imm (c.next 2))
/-- `brk` (R375). -/
def execBrk (imm : Word) (s : State) : Res :=
  issue (.brk imm) s fun c => .next (callTrap c (chargeCycles c c.st 1 [c.tag]) 34 imm c.unit.pc)

/-- The return from a supervisor trap (R373). -/
def returnTrap (c : Ctx) (s : State) (pc : Word) : State := retire c (c.modSheaf s leaveTrap) pc

/-- PRIV at an `eret` that no trap or continuation backs (R373, R377). -/
def eretPriv (c : Ctx) (i : Instr) : State := decodeTrap c c.st 3 0 ((encode c.team.ver i).headD 0)

/-- `eret` (R373, R377). -/
def execEret (s : State) : Res :=
  issue .eret s fun c =>
    let r := c.sheaf.sys
    .next (if c.sheaf.level = .user then
        if r.sstat.getLsbD 2 then retire c (c.modSheaf c.st (clearStat · 2)) r.uepc
        else if r.sstat.getLsbD 3 then fcWait c (chargeCycles c c.st 1 [c.tag])
        else eretPriv c .eret
      else if r.sstat.getLsbD 1 then returnTrap c c.st r.sepc else eretPriv c .eret)

/-- `eret.fc`: to the fault continuation, or straight to its wait (R373, R378, R379). -/
def execEretFc (sn st : SReg) (s : State) : Res :=
  issue (.eretFc sn st) s fun c =>
    let r := c.sheaf.sys
    .next (if !r.sstat.getLsbD 1 then eretPriv c (.eretFc sn st)
      else if r.sstat.getLsbD 0 || r.sstat.getLsbD 3 then returnTrap c c.st r.sepc
      else
        let s1 := returnTrap c (c.modSheaf c.st fun sh => { sh with
          sys := { sh.sys with fret := r.sepc, fevn := rdS c sn, ftgt := rdS c st, sstat := sh.sys.sstat ||| 8 } })
          (if r.fcont = 0 then r.sepc else r.fcont)
        if r.fcont ≠ 0 then s1 else match unitAt s1 c.tid c.slot c.uid with
          | some c1 => fcWait c1 s1
          | none => s1)

/-- `idle` waits, outside the active set, until the die's fault queue holds a record (R375). -/
def execIdle (s : State) : Res :=
  issue .idle s fun c =>
    let d := dieOf c.st c.team.die
    .next (if d.fqsize = 0 || d.fqhead != d.fqtail then retire c c.st (c.next 2) else leaveSet c c.st .idle)

/-! ### The fault queue's registers (R367, R380, R382) -/

/-- A write of FQSIZE: waiting sources try again. -/
def setFqsize (s : State) (die : Nat) (v : Word) : State :=
  let n := v.toNat
  let ok := n == 0 || (decide (16 ≤ n) && decide (n ≤ 65536) && n == 2 ^ Nat.log2 n)
  retryPosts (· != .clock) (modDie s die fun d => { d with fqsize := if ok then v else d.fqsize }) die
/-- A write of FQBASE. -/
def setFqbase (s : State) (die : Nat) (v : DWord) : State :=
  retryPosts (· != .clock) (modDie s die fun d => { d with fqbase := if v.toNat % 4096 = 0 then v else d.fqbase }) die
/-- A write of FQTAIL (R382). -/
def setFqtail (s : State) (die : Nat) (v : Word) : State :=
  retryPosts (· != .clock) (modDie s die fun d => { d with fqtail := if d.fqsize.toNat < (d.fqhead - v).toNat then d.fqtail else v }) die
/-- FQSIZE_WRITE. -/
def execFqsizeWrite (die : Nat) (v : Word) (s : State) : Res := .next (setFqsize s die v)
/-- FQBASE_WRITE. -/
def execFqbaseWrite (die : Nat) (v : DWord) (s : State) : Res := .next (setFqbase s die v)
/-- FQTAIL_WRITE. -/
def execFqtailWrite (die : Nat) (v : Word) (s : State) : Res := .next (setFqtail s die v)

/-! ### Actions on records (R383) -/

/-- Change a command in an engine's queue. -/
def onCopy (s : State) (k : EngineKey) (id : Nat) (f : CopyCmd → State) : State :=
  match (queueOf s k).find? fun c => c.id == id with
  | some c => f c
  | none => s

/-- A copy or an append resumes (R230). -/
def resumeCopy (s : State) (k : EngineKey) (id : Nat) : State :=
  onCopy s k id fun c =>
    let s1 := putCmd s k { c with stopped := false }
    match c.kind with
    | .log _ => s1
    | _ => modTeam s1 c.tid (count 12 1)
/-- A copy or an append ends FAULTED. -/
def endCopy (s : State) (k : EngineKey) (id : Nat) : State :=
  onCopy s k id fun c => match c.kind with
    | .log _ => finishLog s k c 5
    | _ => finishCopy s k c 5

/-- The card of a team's plot. -/
def teamCard (s : State) (t : Team) : Option Card := (plotOf s t.plot).map (·.card)

/-- The resume action on a piece of work. -/
def resumeWork (s : State) : Stalled → State
  | .none => s
  | .copy die core id => resumeCopy s ⟨false, die, core⟩ id
  | .gatherCmd die id => resumeCopy s ⟨true, die, 0⟩ id
  | .siloRound tid => resumeSilo (settle (modTeam s tid fun t => { t with hold := .none }) tid 0) tid
  | .swapTeam tid => resumeSwap s tid
  | .card id => (match s.cardReqs.find? fun r => r.id == id with
    | some r => resumeReq s r
    | none => s)
  | .image tid => (match (Tbl.find s.teams tid).bind (teamCard s) with
    | some c => loadImage (modTeam s tid fun t => { t with imageHold := false }) tid c
    | none => s)
  | .status plot => (match plotOf s plot with
    | some p => retirePlot (modPlot s plot fun p => { p with stalled := false }) plot p
    | none => s)
  | .ballotReq id => resumeBallot s id 0
  | .walk tag => { s with walks := updWhere s.walks (fun w => w.tag == tag) fun w => { w with stopped := false } }
  | .fabricCmd id => (match s.nxCmds.find? fun n => n.id == id with
    | some n => if n.parts.all (·.done.isSome) then settleNx s { n with stopped := false } else putNx s { n with stopped := false }
    | none => s)
  | .portField port load => resumePort s port load false

/-- The end action on a piece of work. The end of a walk's record of the PLIST and PCOUNT read reads them again and skips entry 0 (DESIGN
CHOICE, log 64). -/
def endWork (s : State) : Stalled → State
  | .none => s
  | .copy die core id => endCopy s ⟨false, die, core⟩ id
  | .gatherCmd die id => endCopy s ⟨true, die, 0⟩ id
  | .siloRound tid | .swapTeam tid | .image tid => endFaulted s tid
  | .card id => (match s.cardReqs.find? fun r => r.id == id with
    | some r => endReq s r
    | none => s)
  | .status plot => (match plotOf s plot with
    | some p => retireRest (modPlot s plot fun p => { p with stalled := false }) plot p
    | none => s)
  | .ballotReq id => resumeBallot s id 1
  | .walk tag => (match s.walks.find? fun w => w.tag == tag with
    | some w => nextEntry s { w with stopped := false }
    | none => s)
  | .fabricCmd id => (match s.nxCmds.find? fun n => n.id == id with
    | some n => finishNx { s with packets := s.packets.filter fun p => !(p.port == 31 && n.parts.any fun x => x.tag == p.tag) } n 5 0 0
    | none => s)
  | .portField port load => resumePort s port load true

/-- An FQACT action on the record of a sequence number: it applies to the posting work and to all that attached to its entry,
and frees the entry, for which the sources that wait for one try again (R380, R383, R399). -/
def actOn (s : State) (die seq : Nat) (f : State → Stalled → State) : State :=
  match (dieOf s die).posted.find? fun r => r.seq == seq with
  | none => s
  | some r =>
    let attached := ((dieOf s die).ftable.filter fun e => e.seq == seq && e.work.contains r.work).flatMap fun e => e.work.filter (· != r.work)
    let s1 := modDie s die fun d => { d with
      posted := d.posted.filter fun x => x.seq != seq
      ftable := d.ftable.filter fun e => !(e.seq == seq && e.work.contains r.work) }
    retryPosts (· == .entry) (if r.acted then s1 else (r.work :: attached).foldl f s1) die
/-- FQACT_RESUME. -/
def execFqactResume (die index : Nat) (s : State) : Res := .next (actOn s die index resumeWork)
/-- FQACT_END. -/
def execFqactEnd (die index : Nat) (s : State) : Res := .next (actOn s die index endWork)

/-! ### Pre-emption, teardown, release (R386 to R388) -/

/-- An action on a context other than the supervisor's, whose descriptor can be read. -/
def onContext (s : State) (asid : Nat) (f : State) : State :=
  if asid = 0 || 4096 ≤ asid then s else if descBad s asid then descriptorError s asid else f

/-- The pre-empt action: stage 1 (R387). -/
def preempt (s : State) (asid : Nat) : State :=
  onContext s asid (if desc s asid 0x14 4 % 4 = 1 then s else
    { stopContext s asid 1 with preempts := s.preempts.filter (·.asid != asid) ++ [⟨asid, s.mer, 1⟩] })
/-- PCTL_PREEMPT. -/
def execPctlPreempt (asid : Nat) (s : State) : Res := .next (preempt s asid)
/-- The teardown action. -/
def teardown (s : State) (asid : Nat) : State := onContext s asid (forcedReset s asid 0)
/-- PCTL_TEARDOWN. -/
def execPctlTeardown (asid : Nat) (s : State) : Res := .next (teardown s asid)
/-- The release action: STOP is cleared on every die and CSTATE reads running; stopped teams go on (R387). -/
def release (s : State) (asid : Nat) : State :=
  onContext s asid (
    let s1 := (upto 4).foldl (fun s d => setDesc s asid (0x60 + 4 * d) ((descWin s asid 0x60 d).toNat % 2 ^ 31)) s
    let s2 := setDesc s1 asid 0x14 0
    latchHeads { s2 with
      preempts := s2.preempts.filter (·.asid != asid)
      teams := s2.teams.map fun t => (t.1, if t.2.asid = asid then { t.2 with halted := false } else t.2) })
/-- PCTL_RELEASE. -/
def execPctlRelease (asid : Nat) (s : State) : Res := .next (release s asid)

/-- A pre-emption in progress. -/
def preemptOf (s : State) (asid : Nat) : Option Preempt := s.preempts.find? fun p => p.asid == asid
/-- RES of some die is not 0. -/
def hasResidents (s : State) (asid : Nat) : Bool := (upto 4).any fun d => bits (descWin s asid 0x60 d).toNat 17 0 != 0

/-- PREEMPT_STAGE_2: every team of a swappable plot stops (R387). -/
def execPreemptStage2 (asid : Nat) (s : State) : Res :=
  .next (match preemptOf s asid with
    | none => s
    | some p => if p.stage ≠ 1 then s else
      onContext s asid (if s.mer < p.tick + desc s asid 0x18 4 then s else
        { s with
          preempts := updWhere s.preempts (fun x => x.asid == asid) fun x => { x with stage := 2 }
          teams := s.teams.map fun t => (t.1,
            if t.2.asid == asid && t.2.swapThr != 0 && !t.2.out && !t.2.ended then { t.2 with halted := true } else t.2) }))
/-- PREEMPT_STAGE_3: the second deadline (R387). -/
def execPreemptStage3 (asid : Nat) (s : State) : Res :=
  .next (match preemptOf s asid with
    | none => s
    | some p => if p.stage ≠ 2 then s else
      onContext s asid (
        let dl2 := desc s asid 0x1C 4
        if dl2 = 0 || s.mer < p.tick + dl2 || !hasResidents s asid then s else forcedReset s asid 1))
/-- CONTEXT_DRAINED: RES reads 0 on all four dies (R387). -/
def execContextDrained (asid : Nat) (s : State) : Res :=
  .next (match preemptOf s asid with
    | none => s
    | some p => onContext s asid (if hasResidents s asid then s else
        post { setDesc s asid 0x14 2 with preempts := s.preempts.filter (·.asid != asid) } 0
          { FRec.zero with src := .device, cause := 52, asid := asid, body := [BitVec.ofNat 32 p.stage] }))

/-! ### Stalls (R174, R175) -/

/-- Halves of words. -/
def packHalves : List Nat → List Word
  | [] => []
  | [a] => [BitVec.ofNat 32 (a % 65536)]
  | a :: b :: t => BitVec.ofNat 32 (a % 65536 + b % 65536 * 65536) :: packHalves t

/-- The records that name suspended teams, 46 to a record (R381). -/
def stallRecords (asid : Nat) : Nat → List Nat → List FRec
  | 0, _ => []
  | n + 1, ts =>
    if ts = [] then [] else
    { FRec.zero with src := .timer, cause := 48, asid := asid, body := BitVec.ofNat 32 (Min.min 46 ts.length) :: packHalves (ts.take 46) }
      :: stallRecords asid n (ts.drop 46)

/-- SILO_STALL (R175). -/
def execSiloStall (asid : Nat) (s : State) : Res :=
  .next (if 4096 ≤ asid || Tbl.get 0 s.stalls asid = 0 then s else if descBad s asid then descriptorError s asid else
    let lim := desc s asid 0x10 4
    if lim = 0 || Tbl.get 0 s.stalls asid < lim then s else
    let ts := (s.teams.filter fun t => t.2.asid == asid && t.2.hold == .pool).map (·.2.index)
    (stallRecords asid ts.length ts).foldl (fun s r => post s 0 r) { s with stalls := Tbl.erase s.stalls asid })

/-! ### `sr.get` and `sr.set` (R367, R368) -/

/-- The per-sheaf and per-team 32-bit registers. -/
def sheafReg (r : SysRegs) (n : Nat) : Option Word :=
  match n with
  | 0x10 => some r.utvec | 0x11 => some r.fcont | 0x12 => some r.bthr | 0x13 => some r.bmode | 0x14 => some r.uepc
  | 0x15 => some r.ucause | 0x17 => some r.fret | 0x18 => some r.fevn | 0x19 => some r.ftgt | 0x1A => some r.dthr
  | 0x20 => some r.sepc | 0x21 => some r.scause | 0x22 => some r.sinfo | 0x23 => some r.smask | 0x26 => some r.sstat
  | _ => none

/-- A register of 32 bits as `sr.get` reads it. -/
def sysReg32 (c : Ctx) (s : State) (n : Nat) : Word :=
  let d := dieOf s c.team.die
  match sheafReg c.sheaf.sys n with
  | some w => w
  | none =>
    if 0x100 ≤ n && n < 0x110 then readReg c (.s (48 + (n - 0x100))) else
    match n with
    | 4 => dfreqWord d
    | 5 => s.lattol
    | 0x1B => d.sbal
    | 0x1C => BitVec.ofNat 32 c.team.asid
    | 0x34 => d.fqsize
    | 0x35 => d.fqhead
    | 0x36 => d.fqtail
    | 0x37 => d.fqevn
    | _ => 0

/-- The status area of a die (R385). -/
def statusEntry (d : Die) (n : Nat) : Nat :=
  if n < 4 then Tbl.get 0 d.stat n else if 0x10 ≤ n && n < 0x17 then Tbl.get 0 d.launch (n - 0x10) else 0

/-- A register of 64 bits. -/
def sysReg64 (c : Ctx) (s : State) (n : Nat) : DWord :=
  let d := dieOf s c.team.die
  let r := c.sheaf.sys
  match n with
  | 1 => BitVec.ofNat 64 d.cyc
  | 2 => BitVec.ofNat 64 (d.ncyc / 65536)
  | 3 => BitVec.ofNat 64 s.mer
  | 6 => d.wear
  | 0x16 => r.urows
  | 0x1D => BitVec.ofNat 64 (desc s c.team.asid 0 8)
  | 0x24 => r.ssum
  | 0x25 => r.saddr
  | 0x30 => s.svbase
  | 0x31 => s.mvbase
  | 0x32 => s.cdbase
  | 0x33 => d.fqbase
  | _ => if 0x400 ≤ n && n < 0x500 then BitVec.ofNat 64 (statusEntry d (n - 0x400)) else 0

/-- The registers of 64 bits (R367). -/
def wideReg (n : Nat) : Bool :=
  n == 1 || n == 2 || n == 3 || n == 6 || n == 0x16 || n == 0x1D || n == 0x24 || n == 0x25
  || (decide (0x30 ≤ n) && decide (n ≤ 0x33)) || n == 0x38 || (decide (0x400 ≤ n) && decide (n < 0x500))

/-- `sr.get` (R368). -/
def execSrGet (la : BitVec 4) (reg : BitVec 12) (sd : SReg) (s : State) : Res :=
  issue (.srGet la reg sd) s fun c =>
    let n := reg.toNat
    let s1 := if n = 1 || n = 2 then advanceCycles c.st c.team.die else c.st
    .next (if n = 0x1D && descBad s1 c.team.asid then descriptorError s1 c.team.asid
      else if wideReg n then
        let v := sysReg64 c s1 n
        retire c (commit c s1 la.toNat [(fieldKey c.sheaf sd, lowWord v), (fieldKey c.sheaf (sd + 1), highWord v)]) (c.next 2)
      else retire c (commit c s1 la.toNat [(fieldKey c.sheaf sd, sysReg32 c s1 n)]) (c.next 2))

/-- A write of a per-sheaf register; fields shown as zero are stored as zero (R268, R367, R461). -/
def setSheafReg (r : SysRegs) (n : Nat) (v : Word) : SysRegs :=
  match n with
  | 0x10 => { r with utvec := v }
  | 0x11 => { r with fcont := v }
  | 0x12 => { r with bthr := v &&& 0x7FFFFFFF }
  | 0x13 => { r with bmode := v &&& 0x00FF0003 }
  | 0x14 => { r with uepc := v }
  | 0x1A => { r with dthr := v &&& 0x7FFFFFFF }
  | 0x20 => { r with sepc := v }
  | 0x26 => { r with sstat := v &&& 0xF }
  | _ => r

/-- A write of QOWN (R347): no effect where a zero field is not zero. -/
def writeQown (s : State) (v : Word) : State :=
  let x := v.toNat
  if bits x 30 26 ≠ 0 || bits x 23 22 ≠ 0 || bits x 15 12 ≠ 0 then s
  else setOwner s (bits x 25 24) (bits x 21 16) (if bitOf x 31 then none else some (bits x 11 0))

/-- A write of PCTL for a context other than 0 (R386). -/
def writePctl (s : State) (v : Word) : State :=
  let a := bits v.toNat 11 0
  match bits v.toNat 31 30 with
  | 1 => preempt s a
  | 2 => teardown s a
  | 3 => release s a
  | _ => s

/-- A write of FQACT (R383): a release at device scope (R397). -/
def writeFqact (s : State) (die : Nat) (v : DWord) : State :=
  let seq := bits v.toNat 31 0
  match bits v.toNat 33 32 with
  | 1 => actOn s die seq resumeWork
  | 2 => actOn s die seq endWork
  | _ => s

/-- What a write of a system register does. -/
def writeSys (c : Ctx) (s : State) (n : Nat) (v : Word) (d : DWord) : State :=
  let die := c.team.die
  if 0x100 ≤ n && n < 0x110 then commit c s 0 [(.s (48 + (n - 0x100)), v)] else
  match n with
  | 4 => setFreq s die v
  | 0x30 => { s with svbase := d }
  | 0x31 => { s with mvbase := d }
  | 0x32 => { s with cdbase := d }
  | 0x33 => setFqbase s die d
  | 0x34 => setFqsize s die v
  | 0x36 => setFqtail s die v
  | 0x37 => modDie s die fun x => { x with fqevn := v }
  | 0x38 => writeFqact (flushCore s c.core) die d
  | 0x39 => writePctl s v
  | 0x3A => writeQown s v
  | _ => c.modSheaf s fun sh => { sh with sys := setSheafReg sh.sys n v }

/-- `sr.set` (R368): PCTL naming ASID 0 raises PRIV (R386). -/
def execSrSet (la : BitVec 4) (reg : BitVec 12) (ss : SReg) (s : State) : Res :=
  issue (.srSet la reg ss) s fun c =>
    let n := reg.toNat
    let v := rdS c ss
    .next (if n = 0x39 && bits v.toNat 11 0 = 0 then decodeTrap c c.st 3 0 ((encode c.team.ver (.srSet la reg ss)).headD 0)
      else writeSys c (retire c c.st (c.next 2)) n v (if wideReg n then rdPair c ss else 0))

end Sys2Proof.Machine
end

