-- ==== Sys2Proof/Machine/Meridian.lean ====
section
/-! DEFINITION. What meridian time brings: re-reads of fields, restarts of clocks, wakes, and the tick (R175, R310, R402, R414 to R424,
R480). -/

namespace Sys2Proof.Machine

/-! ### Re-reads (R480) -/

/-- A walk paused on a full release ring. -/
def Walk.paused (w : Walk) : Bool := w.begun && w.lowered.isSome && !w.stopped

/-- The fields that waits end by are read again, of the dies and contexts that a test holds of and on dies whose clock runs: QUOTA for
suspended rounds, STOP for held heads, CONS for paused walks, RPTR for appends on a full log ring (R480). -/
def reread (s : State) (p : Nat → Nat → Bool) : State :=
  let s1 := retryRounds s fun t => p t.die t.asid
  let s2 := (s1.walks.filter fun w => w.paused && p w.home w.asid && clockRuns (dieOf s1 w.home)).foldl walkStep s1
  let s3 := (s2.cores.map (·.1)).foldl (fun s k =>
    if !clockRuns (dieOf s (k / 128)) then s else appendStep s ⟨false, k / 128, k % 128⟩ fun c => c.full && p (k / 128) c.asid) s2
  latchHeads s3

/-- FIELD_REREAD: the device reads a context's fields again, on the dies whose clock runs (R480). -/
def execFieldReread (asid : Nat) (s : State) : Res := .next (reread s fun _ a => a == asid)

/-! ### Restarts and wakes (R419, R422 to R424) -/

/-- A die's clock runs again: it writes what is due in the map, reads the fields that its waits end by, and its sources that waited for it
post (R380, R419, R438, R480). -/
def restart (s : State) (die : Nat) : State := retryPosts (· == .clock) (reread (flushPorts s) fun d _ => d == die) die
/-- RELOCK_END (R419). -/
def execRelockEnd (die : Nat) (s : State) : Res :=
  .next (if relockDue s (dieOf s die) then restart (modDie s die fun d => { d with busy := false, fcur := d.target }) die else s)

/-- Every die leaves A3, with everything on it restored (R423). -/
def leaveA3 (s : State) : State :=
  let off := (upto 4).filter fun d => (dieOf s d).power == .a3
  off.foldl restart (off.foldl (fun s d => setPower s d .a0) s)

/-- A write of LATTOL wakes the dies whose state exceeds it (R424). -/
def setLattol (s : State) (v : Word) : State :=
  (upto 4).foldl (fun s d => if exitUs (dieOf s d).power.num ≤ v.toNat then s
    else if (dieOf s d).power = .a3 then leaveA3 s else setPower s d .a0) { s with lattol := v }

/-! ### The tick (R414 to R419) -/

/-- A tick for the swap eligibility of a team (R310). -/
def tickEligible (s : State) (t : Nat × Team) : Team :=
  { t.2 with eligible := if swapAble s t.1 t.2 then some (t.2.eligible.getD (s.mer + 1)) else none }

/-- Stall timers (R175): contexts with a round that the pool suspends. -/
def tickStalls (s : State) : Tbl Nat :=
  ((s.teams.filter fun t => t.2.hold == .pool).map (·.2.asid)).foldl (fun m a => Tbl.put m a (Tbl.get 0 s.stalls a + 1)) []

/-- Packets leave their ports: of each port's some, which is free, in order. -/
def tickPorts (s : State) : State :=
  (s.ports.map (·.1)).foldl (fun s p => { s with outbox := leavePort p ((freeAt s (8 + p)).toNat % (s.outbox.length + 1)) s.outbox }) s

/-- What a tick brings besides: every invalidation has taken effect, at every 4,096th the fields that waits end by have been read again,
what was due in the map has been written where it can be, and packets have left (R402, R435, R438, R480). -/
def afterTick (s : State) : State :=
  let s1 := tickPorts (flushPorts (applyInvals s fun _ => true))
  if s.mer % 4096 = 0 then reread s1 fun _ _ => true else s1

/-- Something is due at this tick, for which the next waits: the end of a relock, of a power window, of an hour, or of a period (R419,
R425, R438, R462, R476). -/
def tickDue (s : State) : Bool :=
  (s.dies.any fun d => relockDue s d.2) || windowDue s
    || (s.host.boot == .ready && ((s.dies.any fun d => wearDue s d.2 || sbalDue s d.2) || loadDue s))

/-- MERIDIAN_TICK: it waits for what is due. -/
def execMeridianTick (s : State) : Res :=
  .next (if tickDue s then s else
    let quiets := fun (die : Nat) (d : Die) => [1, 2, 3].foldl (fun q st =>
      if quietFor s die st then Tbl.put q st (Tbl.get 0 d.quiet st + 1) else Tbl.erase q st) d.quiet
    let crossed := (freeAt s 7).toNat % (s.nextId + 1)
    afterTick { s with
      mer := s.mer + 1
      dies := s.dies.map fun d =>
        (d.1, startRelock (s.mer + 1) crossed (tickDie s.mer d.1 { d.2 with quiet := quiets d.1 d.2, held := d.2.held || engineHeld s d.1 }))
      teams := s.teams.map fun t => (t.1, tickEligible s t)
      stalls := tickStalls s })

end Sys2Proof.Machine
end

