-- ==== Sys2Proof/Machine/Host.lean ====
section
/-! DEFINITION. The host link, boot, the life cycle and management access (R421, R424, R463 to R478). -/

namespace Sys2Proof.Machine

/-! ### Boot (R468 to R472) -/

/-- A field of 4 bytes of an image (R468). -/
def imageField (b : List Byte) (o : Nat) : Nat := leNat ((b.drop o).take 4)
/-- The bytes that an image's header counts: header, body, signature. -/
def imageSize (b : List Byte) : Nat := 16 + imageField b 8 + imageField b 12

/-- Where the signature field of an image starts: the end of the body. -/
def imageBody (b : List Byte) : Nat := 16 + imageField b 8
/-- The digest of Caerak's key, as the fuses hold it. -/
def fusedKey : List Byte := beBytes 32 Config.fusedKey.toNat

/-- The signature over bytes 0x00 to the end of the body verifies against the fused key (R4, R468). -/
def imageSigned (b : List Byte) : Bool :=
  keyedVerifies fusedKey (b.take (imageBody b)) ((b.drop (imageBody b)).take (imageField b 12))

/-- Steps 3 and 4 of R468: the image carries the magic, its signature verifies, and its version is not below the fused
minimum. -/
def imageOk (h : HostSt) (b : List Byte) : Bool :=
  imageField b 0 == 0x43414952 && decide (imageSize b ≤ b.length) && imageSigned b && decide (h.minVer ≤ imageField b 4)

/-- What a package reset keeps of the host's side: the flash, the fuses, the identity, and the mode of the link. -/
def keepHost (h : HostSt) : HostSt :=
  { HostSt.reset with
    flash := h.flash, minVer := h.minVer, lc := h.lc, owner := h.owner, seed := h.seed, leaves := h.leaves
    cxl := h.cxl, ide := h.ide, report := h.report, signed := h.signed }

/-- The wipe (R472): everything on the module is as after reset; the host's memory, the packets that neighbours have yet to
send, and the model's own fields stay. -/
def wipe (s : State) : State :=
  { State.reset with
    host := keepHost s.host
    mem := s.mem.filter fun c => decide (2 ^ 51 ≤ c.1)
    memPz := s.memPz.filter fun l => decide (2 ^ 45 ≤ l)
    packets := s.packets.filter fun p => decide (p.port < 24) && p.leg.isNone
    agenda := s.agenda, free := s.free, nextId := s.nextId }

/-- The ROMs boot from the flash, or wait for recovery; a decommissioned device boots no image (R468, R471). -/
def bootFlash (s : State) : State :=
  let h := s.host
  if h.lc = .decommissioned then s
  else if imageOk h h.flash then { s with host := { h with boot := .ready } }
  else { s with host := { h with boot := .recovery, fails := h.fails + 1 } }

/-- A package reset (R468). -/
def resetPackage (s : State) : State := bootFlash (wipe s)
/-- PACKAGE_RESET. -/
def execPackageReset (s : State) : Res := .next (resetPackage s)

/-- The recovery image as bytes. -/
def recovBytes (h : HostSt) : List Byte :=
  let n := leNat (readBytes h.recov 8 4) + leNat (readBytes h.recov 12 4) + 16
  readBytes h.recov 0 (Min.min n 67108864)

/-- RECOVERY_VERIFY_DONE: the image is written to the flash and boots, or the device waits for another (R468). -/
def execRecoveryVerifyDone (s : State) : Res :=
  let h := s.host
  .next (if h.boot ≠ .verify then s else
    let b := recovBytes h
    { s with host := if imageOk h b then { h with boot := .ready, flash := b, recov := [] }
                     else { h with boot := .recovery, fails := h.fails + 1 } })

/-- A write of HRECOV (R468). -/
def writeHrecov (s : State) (v : Word) : State :=
  if s.host.boot = .recovery && v = 1 then { s with host := { s.host with boot := .verify } } else s
/-- HRECOV_WRITE. -/
def execHrecovWrite (v : Word) (s : State) : Res := .next (writeHrecov s v)

/-! ### A host access reaches a die (R424) -/

/-- A host access wakes the die that it is delivered to; every die where the device is in A3; a retention area that
fails its check acts as a package reset (R424, R474). -/
def hostWake (s : State) (die : Option Nat) : State :=
  if retentionBad s then resetPackage s else
  let s1 := leaveA3 s
  match die with
  | some d => if (dieOf s1 d).power = .a0 then s1 else setPower s1 d .a0
  | none => s1

/-- POWER_STATE_EXIT (R424). -/
def execPowerStateExit (die : Nat) (s : State) : Res :=
  .next (match (dieOf s die).power with
    | .a0 => s
    | .a3 => if wakeAny s then (if retentionBad s then resetPackage s else leaveA3 s) else s
    | _ => if wakeDue s die then setPower s die .a0 else s)

/-! ### The registers of BAR0 (R465, R469) -/

/-- The code of BOOT. -/
def Boot.code : Boot → Nat
  | .rom => 0 | .recovery => 1 | .verify => 2 | .ready => 3
/-- The code of LC. -/
def LifeCycle.code : LifeCycle → Nat
  | .manufacture => 0 | .provisioned => 1 | .deployed => 2 | .decommissioned => 3

/-- HSTAT (R465). -/
def hstat (h : HostSt) : Nat := Boot.code h.boot * 2 ^ 28 + LifeCycle.code h.lc * 2 ^ 24 + h.fails % 256 * 2 ^ 16

/-- A host read of BAR0 (R465, R469, R471). -/
def bar0Read (s : State) (off : Nat) : Nat :=
  let h := s.host
  if off = 0 then hstat h
  else if h.lc = .decommissioned then 0
  else if off = 0x3C then h.pwr.toNat
  else if off = 0x40 then h.temp.toNat
  else if h.boot ≠ .ready then 0
  else match off with
  | 0x08 => s.lattol.toNat
  | 0x10 => h.hcrbase.toNat
  | 0x18 => h.hcrsize.toNat
  | 0x1C => h.hcrhead.toNat
  | 0x20 => h.hcrtail.toNat
  | 0x38 => h.pcap.toNat
  | _ => 0

/-- Writes of the stored registers are served: in RECOVERY WAIT, and from READY on (R469). -/
def stores (s : State) : Bool := s.host.boot == .recovery || s.host.boot == .ready

/-- A ring size is a power of two from 16 to 65,536, or 0 (R465). -/
def ringSize (n : Nat) : Bool := n == 0 || (upto 13).any fun i => n == 2 ^ (i + 4)

/-- A write of LATTOL: it takes effect at READY (R421, R469). -/
def writeLattol (s : State) (v : Word) : State :=
  if s.host.boot = .ready then (if retentionBad s && decide (v.toNat < 2000) then resetPackage s else setLattol s v)
  else if s.host.boot = .recovery then { s with lattol := v } else s
/-- LATTOL_WRITE. -/
def execLattolWrite (v : Word) (s : State) : Res := .next (writeLattol s v)

/-- A write of HCRSIZE. -/
def writeHcrsize (s : State) (v : Word) : State :=
  if stores s && ringSize v.toNat then { s with host := { s.host with hcrsize := v } } else s
/-- HCRSIZE_WRITE. -/
def execHcrsizeWrite (v : Word) (s : State) : Res := .next (writeHcrsize s v)

/-- A write of HCRTAIL. -/
def writeHcrtail (s : State) (v : Word) : State :=
  if stores s then { s with host := { s.host with hcrtail := v } } else s
/-- HCRTAIL_WRITE. -/
def execHcrtailWrite (v : Word) (s : State) : Res := .next (writeHcrtail s v)

/-- A submission (R466): the card goes on its way as a supervisor's `post.try` without a token; the write wakes the die. -/
def writeHlnch (s : State) (v : DWord) : State :=
  if s.host.boot ≠ .ready then s else
  let x := v.toNat
  let (id, s1) := fresh (hostWake s (some (bits x 7 6)))
  if s1.host.boot ≠ .ready then s1 else
  { s1 with cardReqs := s1.cardReqs ++ [⟨id, bits x 7 6, bits x 5 0, x / 256 * 256, false, 4096, 0, true, none, 1, .host, false, none, bits x 7 6⟩] }
/-- HLNCH_WRITE. -/
def execHlnchWrite (v : BitVec 64) (s : State) : Res := .next (writeHlnch s v)

/-- HOST_REGISTER_WRITE: a write of any register of BAR0 (R465). -/
def execHostRegisterWrite (off : Nat) (v : BitVec 64) (s : State) : Res :=
  let w := lowWord v
  .next (match off with
    | 0x08 => writeLattol s w
    | 0x10 => if stores s && v.toNat % 4096 == 0 then { s with host := { s.host with hcrbase := v } } else s
    | 0x18 => writeHcrsize s w
    | 0x20 => writeHcrtail s w
    | 0x28 => writeHlnch s v
    | 0x30 => writeHrecov s w
    | 0x38 => if stores s && (w.toNat == 0 || (decide (1000 ≤ w.toNat) && decide (w.toNat ≤ 3000)))
        then { s with host := { s.host with pcap := w } } else s
    | _ => s)

/-- HOST_LINK_TRAINING (R463). Whether IDE protects the link that has trained is the host's to choose, and free (log 8). -/
def execHostLinkTraining (cxl : Bool) (s : State) : Res := .next { s with host := { s.host with cxl := cxl, ide := freeBit s 0 } }

/-! ### Completion records (R466) -/

/-- The ring has no room for a record. -/
def ringFull (h : HostSt) : Bool := h.hcrsize == 0 || decide (h.hcrsize.toNat ≤ (h.hcrhead - h.hcrtail).toNat)

/-- The 16 bytes of a record. -/
def hostRecBytes (r : HostRec) (seq : Word) : List Byte :=
  toBytes 8 r.card ++ toBytes 4 (r.kind % 16 * 2 ^ 28 + r.code % 16 * 2 ^ 24 + r.reason % 16 * 2 ^ 20) ++ toBytes 4 seq.toNat

/-- The oldest waiting record goes into the ring, HCRHEAD rises, and MSI-X vector 0 is signalled. -/
def hostRecordOut (s : State) : State :=
  let h := s.host
  match h.pending with
  | [] => s
  | r :: t =>
    if ringFull h then s else
    let s1 := hostMemWrite s (2 ^ 51 + h.hcrbase.toNat + 16 * (h.hcrhead.toNat % h.hcrsize.toNat)) (hostRecBytes r h.hcrhead)
    { s1 with host := { h with pending := t, hcrhead := h.hcrhead + 1, msi := h.msi + 1 } }
/-- HOST_COMPLETION_RECORD. -/
def execHostCompletionRecord (s : State) : Res := .next (hostRecordOut s)

/-! ### Host accesses through BAR2 and HDM (R464, R469) -/

/-- BAR2 ends here; a read of offset 2^42 + o stands for a read of BAR0 at o (log 1). -/
def bar2End : Nat := 2 ^ 42

/-- The die that an access is delivered to. -/
def tierDie (a n : Nat) : Option Nat :=
  (upto 4).find? fun d => decide (d * 2 ^ 38 ≤ a) && decide (a + n ≤ d * 2 ^ 38 + 160000000000)

/-- The host receives a value. -/
def answer (s : State) (v : Nat) (poison : Bool) : State := { s with host := { s.host with reply := ⟨BitVec.ofNat 64 v, poison⟩ } }
/-- All ones in `n` bytes. -/
def allOnes (n : Nat) : Nat := 256 ^ Min.min n 8 - 1

/-- An access at an offset of BAR2 wakes the die that it reaches once the link serves such accesses; it is served as BOOT then reads (R424,
R469, R474). -/
def bar2Wake (s : State) (a n : Nat) : State := if s.host.boot = .ready then hostWake s (tierDie a n) else s

/-- A read served at READY: a poisoned line gives poisoned data, no bytes of which are specified. -/
def readTier (s : State) (a n : Nat) : State :=
  if !tierRange a n then answer s (allOnes n) false
  else if physPoisoned s a n then answer s ((freeAt s 0).toNat % 256 ^ n) true
  else answer s (physNat s a n) false

/-- HOST_MEMORY_READ: `len` bytes, at most 8. -/
def execHostMemoryRead (addr len : Nat) (s : State) : Res :=
  let n := Min.min len 8
  .next (if bar2End ≤ addr then answer s (bar0Read s (addr - bar2End) % 256 ^ n) false
    else
      let s := bar2Wake s addr n
      match s.host.boot with
      | .ready => readTier s addr n
      | .recovery => if addr + n ≤ 67108864 then answer s (leNat (readBytes s.host.recov addr n)) false else answer s (allOnes n) false
      | _ => answer s (allOnes n) false)

/-- A write served at READY. -/
def writeTier (s : State) (a : Nat) (bs : List Byte) : State :=
  if tierRange a bs.length then physWrite s a bs else countDiscard s a

/-- HOST_MEMORY_WRITE; an address from 2^51 on is the host's own memory, which the host changes as it likes (log 1). -/
def execHostMemoryWrite (addr : Nat) (bytes : List Byte) (s : State) : Res :=
  .next (if bytes = [] then s
    else if 2 ^ 51 ≤ addr then hostMemWrite s addr bytes
    else if bar2End ≤ addr then s
    else
      let s := bar2Wake s addr bytes.length
      match s.host.boot with
      | .ready => writeTier s addr bytes
      | .recovery => if addr + bytes.length ≤ 67108864 then
          { s with host := { s.host with recov := writeBytes s.host.recov addr bytes } } else s
      | _ => s)

/-! ### Management access, life cycle, attestation (R470 to R473, R477, R478) -/

/-- MANAGEMENT_REQUEST: 0 HSTAT, 1 PWR, 2 TEMP, 3 the device's identity, 4 + d WEAR of die d, 4096 × (1 + d) + n entry n
of die d's status area.  The identity is a free value, since no rule says what it holds (log 8). -/
def execManagementRequest (req : Nat) (s : State) : Res :=
  .next (answer s (if req = 0 then hstat s.host
    else if req = 3 then (freeAt s 0).toNat
    else if s.host.lc = .decommissioned then 0
    else if req = 1 then s.host.pwr.toNat
    else if req = 2 then s.host.temp.toNat
    else if 4 ≤ req && req < 8 then (dieOf s (req - 4)).wear.toNat
    else if 4096 ≤ req && req < 5 * 4096 && 0x400 ≤ req % 4096 && req % 4096 < 0x500 then
      statusEntry (dieOf s (req / 4096 - 1)) (req % 4096 - 0x400)
    else 0) false)

/-- The life-cycle state that a command asks for, if R470 allows the step. -/
def nextLife (lc : LifeCycle) (cmd : Nat) : Option LifeCycle :=
  match lc, cmd with
  | .manufacture, 1 => some .provisioned
  | .provisioned, 2 => some .deployed
  | .provisioned, 3 => some .decommissioned
  | .deployed, 3 => some .decommissioned
  | _, _ => none

/-- The fuses after a valid command: 1 to 3 a life-cycle state, 16 + v the minimum version v, which only rises (R468,
R470, R471, R473).  Provisioning installs the owner key, of digest `owner`, and seals the identity seed `seed`. -/
def newFuses (h : HostSt) (cmd : Nat) (owner seed : BitVec 256) : Option HostSt :=
  if 16 ≤ cmd then (if h.lc ≠ .decommissioned && decide (h.minVer < cmd - 16) then some { h with minVer := cmd - 16 } else none)
  else (nextLife h.lc cmd).map fun l => match l with
    | .provisioned => { h with lc := l, owner := owner, seed := some seed }
    | .decommissioned => { h with lc := l, seed := none }
    | _ => { h with lc := l }

/-- What a command carries before its signature field: at provisioning, the digest of the owner key (log 8). -/
def cmdPayload (cmd : Nat) (bytes : List Byte) : List Byte := if cmd = 1 then bytes.take 32 else []
/-- The key that authorises a command: Caerak's before provisioning, then the owner's (R470). -/
def cmdKey (h : HostSt) : List Byte := if h.lc = .manufacture then fusedKey else beBytes 32 h.owner.toNat
/-- A command is signed with the key that authorises it (R470, R471; log 8). -/
def cmdSigned (h : HostSt) (cmd : Nat) (bytes : List Byte) : Bool :=
  let p := cmdPayload cmd bytes
  keyedVerifies (cmdKey h) (toBytes 8 cmd ++ p) (bytes.drop p.length)

/-- What die 0's entropy source gives: a free value (R473). -/
def entropy (s : State) : BitVec 256 := (freeAt s 0 ++ freeAt s 1 : BitVec 128) ++ (freeAt s 2 ++ freeAt s 3 : BitVec 128)

/-- The records that the ring still takes. -/
def drainRecords : Nat → State → State
  | 0, s => s
  | n + 1, s => drainRecords n (hostRecordOut s)

/-- LIFE_CYCLE_COMMAND: `cmd` and the bytes that sign it. A valid command resets every context, whose launches are reported to the host,
writes the fuses, and acts as a package reset (R360, R466, R471). -/
def execLifeCycleCommand (cmd : Nat) (bytes : List Byte) (s : State) : Res :=
  let fuses := newFuses s.host cmd (BitVec.ofNat 256 (beNat (cmdPayload cmd bytes))) (entropy s)
  .next (match if cmdSigned s.host cmd bytes then fuses else none with
    | none => s
    | some h =>
      let s1 := (upto 4096).foldl (fun s a => forcedReset s a 0) s
      resetPackage { drainRecords s1.host.pending.length s1 with host := h })

/-- The measurements of R473 in its order, with the leaf's number and the nonce. The ROM digest is free, one value for the device
(log 8). -/
def measurements (s : State) (nonce : List Byte) : List Nat :=
  let h := s.host
  [Config.romDigest.toNat, beNat (sha256 h.flash), LifeCycle.code h.lc, h.minVer, if h.ide then 1 else 0, h.leaves] ++ nonce.map (·.toNat)

/-- A report as the bytes that are signed: 32 bytes a number (log 8). -/
def reportBytes (r : List Nat) : List Byte := r.flatMap (beBytes 32)

/-- GET_MEASUREMENTS: the leaf counter advances before the signature leaves; without a seed, or after the last of the 2^25
leaves, an error, which signs nothing (R473). -/
def execGetMeasurements (nonce : List Byte) (s : State) : Res :=
  let h := s.host
  .next (match h.seed with
    | none => { s with host := { h with report := none, signed := [] } }
    | some k =>
      if 2 ^ 25 ≤ h.leaves then { s with host := { h with report := none, signed := [] } } else
      let r := measurements s nonce
      { s with host := { h with leaves := h.leaves + 1, report := some r, signed := identitySign k h.leaves (reportBytes r) } })

/-- THERMAL_TRIP: the report to the host, then a package reset (R477). -/
def execThermalTrip (s : State) : Res :=
  .next (resetPackage (if s.host.boot = .ready then
    let s1 := hostRecord s 0 2 2 0
    drainRecords s1.host.pending.length s1 else s))

end Sys2Proof.Machine
end

