-- ==== Sys2Proof/Machine/Dispatch.lean ====
section
/-! DEFINITION. One arm per constructor of `Instr`: each a direct call of its meaning. -/

namespace Sys2Proof.Machine

/-- What an instruction or event does. -/
def exec (i : Instr) (s : State) : Host.Outcome State Fault Refusal :=
  match i with
  | .nop => Sys2Proof.Machine.execNop s
  | .endw => Sys2Proof.Machine.execEndw s
  | .ret sa => Sys2Proof.Machine.execRet sa s
  | .jr sa => Sys2Proof.Machine.execJr sa s
  | .sAdd sd sa sb => Sys2Proof.Machine.execSAdd sd sa sb s
  | .sAddImm sd sa imm => Sys2Proof.Machine.execSAddImm sd sa imm s
  | .sSub sd sa sb => Sys2Proof.Machine.execSSub sd sa sb s
  | .sSubImm sd sa imm => Sys2Proof.Machine.execSSubImm sd sa imm s
  | .sMul sd sa sb => Sys2Proof.Machine.execSMul sd sa sb s
  | .sMulImm sd sa imm => Sys2Proof.Machine.execSMulImm sd sa imm s
  | .sMulhI32 sd sa sb => Sys2Proof.Machine.execSMulhI32 sd sa sb s
  | .sMulhI32Imm sd sa imm => Sys2Proof.Machine.execSMulhI32Imm sd sa imm s
  | .sMulhN32 sd sa sb => Sys2Proof.Machine.execSMulhN32 sd sa sb s
  | .sMulhN32Imm sd sa imm => Sys2Proof.Machine.execSMulhN32Imm sd sa imm s
  | .sAnd sd sa sb => Sys2Proof.Machine.execSAnd sd sa sb s
  | .sAndImm sd sa imm => Sys2Proof.Machine.execSAndImm sd sa imm s
  | .sOr sd sa sb => Sys2Proof.Machine.execSOr sd sa sb s
  | .sOrImm sd sa imm => Sys2Proof.Machine.execSOrImm sd sa imm s
  | .sXor sd sa sb => Sys2Proof.Machine.execSXor sd sa sb s
  | .sXorImm sd sa imm => Sys2Proof.Machine.execSXorImm sd sa imm s
  | .sShl sd sa sb => Sys2Proof.Machine.execSShl sd sa sb s
  | .sShlImm sd sa imm => Sys2Proof.Machine.execSShlImm sd sa imm s
  | .sShr sd sa sb => Sys2Proof.Machine.execSShr sd sa sb s
  | .sShrImm sd sa imm => Sys2Proof.Machine.execSShrImm sd sa imm s
  | .sSra sd sa sb => Sys2Proof.Machine.execSSra sd sa sb s
  | .sSraImm sd sa imm => Sys2Proof.Machine.execSSraImm sd sa imm s
  | .sMinI32 sd sa sb => Sys2Proof.Machine.execSMinI32 sd sa sb s
  | .sMinI32Imm sd sa imm => Sys2Proof.Machine.execSMinI32Imm sd sa imm s
  | .sMinN32 sd sa sb => Sys2Proof.Machine.execSMinN32 sd sa sb s
  | .sMinN32Imm sd sa imm => Sys2Proof.Machine.execSMinN32Imm sd sa imm s
  | .sMaxI32 sd sa sb => Sys2Proof.Machine.execSMaxI32 sd sa sb s
  | .sMaxI32Imm sd sa imm => Sys2Proof.Machine.execSMaxI32Imm sd sa imm s
  | .sMaxN32 sd sa sb => Sys2Proof.Machine.execSMaxN32 sd sa sb s
  | .sMaxN32Imm sd sa imm => Sys2Proof.Machine.execSMaxN32Imm sd sa imm s
  | .sCmpI32 cc qd sa sb => Sys2Proof.Machine.execSCmpI32 cc qd sa sb s
  | .sCmpI32Imm cc qd sa imm => Sys2Proof.Machine.execSCmpI32Imm cc qd sa imm s
  | .sCmpN32 cc qd sa sb => Sys2Proof.Machine.execSCmpN32 cc qd sa sb s
  | .sCmpN32Imm cc qd sa imm => Sys2Proof.Machine.execSCmpN32Imm cc qd sa imm s
  | .sSel sd sa sb neg q => Sys2Proof.Machine.execSSel sd sa sb neg q s
  | .sMov sd sa => Sys2Proof.Machine.execSMov sd sa s
  | .sMovSpecial sd x => Sys2Proof.Machine.execSMovSpecial sd x s
  | .sAddi sd sa imm => Sys2Proof.Machine.execSAddi sd sa imm s
  | .sBfx sd sa width pos => Sys2Proof.Machine.execSBfx sd sa width pos s
  | .sPopc sd sa => Sys2Proof.Machine.execSPopc sd sa s
  | .sClz sd sa => Sys2Proof.Machine.execSClz sd sa s
  | .sQop op qd qa qb => Sys2Proof.Machine.execSQop op qd qa qb s
  | .sLd ty space sd sa off => Sys2Proof.Machine.execSLd ty space sd sa off s
  | .sSt ty space sd sa off => Sys2Proof.Machine.execSSt ty space sd sa off s
  | .sAtom op wide space sd sa => Sys2Proof.Machine.execSAtom op wide space sd sa s
  | .br off => Sys2Proof.Machine.execBr off s
  | .bc neg q off => Sys2Proof.Machine.execBc neg q off s
  | .bv neg p j off => Sys2Proof.Machine.execBv neg p j off s
  | .call sd off => Sys2Proof.Machine.execCall sd off s
  | .loop sc off => Sys2Proof.Machine.execLoop sc off s
  | .join j => Sys2Proof.Machine.execJoin j s
  | .sMovi sd imm => Sys2Proof.Machine.execSMovi sd imm s
  | .sLui sd imm => Sys2Proof.Machine.execSLui sd imm s
  | .add h vd x => Sys2Proof.Machine.execAdd h vd x s
  | .sub h vd x => Sys2Proof.Machine.execSub h vd x s
  | .mul h vd x => Sys2Proof.Machine.execMul h vd x s
  | .mulh h g vd x => Sys2Proof.Machine.execMulh h g vd x s
  | .and h vd x => Sys2Proof.Machine.execAnd h vd x s
  | .or h vd x => Sys2Proof.Machine.execOr h vd x s
  | .xor h vd x => Sys2Proof.Machine.execXor h vd x s
  | .andn h vd x => Sys2Proof.Machine.execAndn h vd x s
  | .shl h vd x => Sys2Proof.Machine.execShl h vd x s
  | .shr h vd x => Sys2Proof.Machine.execShr h vd x s
  | .sra h vd x => Sys2Proof.Machine.execSra h vd x s
  | .rot h vd x => Sys2Proof.Machine.execRot h vd x s
  | .min h g vd x => Sys2Proof.Machine.execMin h g vd x s
  | .max h g vd x => Sys2Proof.Machine.execMax h g vd x s
  | .mov h vd x => Sys2Proof.Machine.execMov h vd x s
  | .not h vd x => Sys2Proof.Machine.execNot h vd x s
  | .abs h vd x => Sys2Proof.Machine.execAbs h vd x s
  | .neg h vd x => Sys2Proof.Machine.execNeg h vd x s
  | .clz h vd x => Sys2Proof.Machine.execClz h vd x s
  | .popc h vd x => Sys2Proof.Machine.execPopc h vd x s
  | .brev h vd x => Sys2Proof.Machine.execBrev h vd x s
  | .movi h vd imm => Sys2Proof.Machine.execMovi h vd imm s
  | .mad h vd va b vc => Sys2Proof.Machine.execMad h vd va b vc s
  | .sad h g vd va b vc => Sys2Proof.Machine.execSad h g vd va b vc s
  | .dot4 h g sat vd va b vc => Sys2Proof.Machine.execDot4 h g sat vd va b vc s
  | .bfx h g vd va pos width => Sys2Proof.Machine.execBfx h g vd va pos width s
  | .bfi h vd va vb pos width => Sys2Proof.Machine.execBfi h vd va vb pos width s
  | .sel h vd va b neg p => Sys2Proof.Machine.execSel h vd va b neg p s
  | .cmp h g cc pd va b => Sys2Proof.Machine.execCmp h g cc pd va b s
  | .div h g vd va b => Sys2Proof.Machine.execDiv h g vd va b s
  | .rem h g vd va b => Sys2Proof.Machine.execRem h g vd va b s
  | .fadd h vd x => Sys2Proof.Machine.execFadd h vd x s
  | .fsub h vd x => Sys2Proof.Machine.execFsub h vd x s
  | .fmul h vd x => Sys2Proof.Machine.execFmul h vd x s
  | .fmin h vd x => Sys2Proof.Machine.execFmin h vd x s
  | .fmax h vd x => Sys2Proof.Machine.execFmax h vd x s
  | .ffma h vd x => Sys2Proof.Machine.execFfma h vd x s
  | .fcmp h cc pd va vb => Sys2Proof.Machine.execFcmp h cc pd va vb s
  | .fclass h f vd va => Sys2Proof.Machine.execFclass h f vd va s
  | .frcp h rm vd va => Sys2Proof.Machine.execFrcp h rm vd va s
  | .frsq h vd va => Sys2Proof.Machine.execFrsq h vd va s
  | .fsqrt h rm vd va => Sys2Proof.Machine.execFsqrt h rm vd va s
  | .fex2 h vd va => Sys2Proof.Machine.execFex2 h vd va s
  | .flg2 h vd va => Sys2Proof.Machine.execFlg2 h vd va s
  | .fsin h vd va => Sys2Proof.Machine.execFsin h vd va s
  | .fcos h vd va => Sys2Proof.Machine.execFcos h vd va s
  | .ftanh h vd va => Sys2Proof.Machine.execFtanh h vd va s
  | .fcvt h sat rm dst src vd va => Sys2Proof.Machine.execFcvt h sat rm dst src vd va s
  | .frnd h rm vd va => Sys2Proof.Machine.execFrnd h rm vd va s
  | .badd2 h vd x => Sys2Proof.Machine.execBadd2 h vd x s
  | .bmul2 h vd x => Sys2Proof.Machine.execBmul2 h vd x s
  | .bfma2 h vd x => Sys2Proof.Machine.execBfma2 h vd x s
  | .bfma2V2 h vd x => Sys2Proof.Machine.execBfma2V2 h vd x s
  | .shfl h m sw vd va b => Sys2Proof.Machine.execShfl h m sw vd va b s
  | .bal h sw vd neg p => Sys2Proof.Machine.execBal h sw vd neg p s
  | .scan h op ex sw vd va => Sys2Proof.Machine.execScan h op ex sw vd va s
  | .red h op sw vd va => Sys2Proof.Machine.execRed h op sw vd va s
  | .cx h ty sw vd va b neg p => Sys2Proof.Machine.execCx h ty sw vd va b neg p s
  | .vany h sw pd neg p => Sys2Proof.Machine.execVany h sw pd neg p s
  | .vall h sw pd neg p => Sys2Proof.Machine.execVall h sw pd neg p s
  | .meq h sw vd va => Sys2Proof.Machine.execMeq h sw vd va s
  | .bmAnd h vd p va vb => Sys2Proof.Machine.execBmAnd h vd p va vb s
  | .bmRank h vd va b vc => Sys2Proof.Machine.execBmRank h vd va b vc s
  | .bmSel h vd va b => Sys2Proof.Machine.execBmSel h vd va b s
  | .isect h g sp vd va vb vc imm => Sys2Proof.Machine.execIsect h g sp vd va vb vc imm s
  | .sow h va => Sys2Proof.Machine.execSow h va s
  | .sowSg h va => Sys2Proof.Machine.execSowSg h va s
  | .sowQ h vd va => Sys2Proof.Machine.execSowQ h vd va s
  | .v2s h sd va => Sys2Proof.Machine.execV2s h sd va s
  | .s2v h vd sa => Sys2Proof.Machine.execS2v h vd sa s
  | .bdGet h vd src => Sys2Proof.Machine.execBdGet h vd src s
  | .bdSet h mx dst va => Sys2Proof.Machine.execBdSet h mx dst va s
  | .bdClr h dst => Sys2Proof.Machine.execBdClr h dst s
  | .ld h a ty n vd va off => Sys2Proof.Machine.execLd h a ty n vd va off s
  | .st h a ty n vd va off => Sys2Proof.Machine.execSt h a ty n vd va off s
  | .atom h op a g vd va vb vc off => Sys2Proof.Machine.execAtom h op a g vd va vb vc off s
  | .fence h scope => Sys2Proof.Machine.execFence h scope s
  | .cpBlkLd la tk r oc m n => Sys2Proof.Machine.execCpBlkLd la tk r oc m n s
  | .cpBlkSt la tk r oc m n => Sys2Proof.Machine.execCpBlkSt la tk r oc m n s
  | .cpBlkMm la tk r src dst n => Sys2Proof.Machine.execCpBlkMm la tk r src dst n s
  | .cpTenLd la tk r oc l => Sys2Proof.Machine.execCpTenLd la tk r oc l s
  | .cpTenSt la tk r oc l => Sys2Proof.Machine.execCpTenSt la tk r oc l s
  | .cpTenLdBnd la tk r oc l k => Sys2Proof.Machine.execCpTenLdBnd la tk r oc l k s
  | .cpTenStBnd la tk r oc l k => Sys2Proof.Machine.execCpTenStBnd la tk r oc l k s
  | .cpTenLdBnda la tk r oc l => Sys2Proof.Machine.execCpTenLdBnda la tk r oc l s
  | .cpTenLdBndw la tk r oc l => Sys2Proof.Machine.execCpTenLdBndw la tk r oc l s
  | .cpRed la tk r dir op ea eb n => Sys2Proof.Machine.execCpRed la tk r dir op ea eb n s
  | .cpFillOc la tk r oc pat n => Sys2Proof.Machine.execCpFillOc la tk r oc pat n s
  | .cpFillMm la tk r pat m n => Sys2Proof.Machine.execCpFillMm la tk r pat m n s
  | .cpGat la tk r z d lim => Sys2Proof.Machine.execCpGat la tk r z d lim s
  | .cpSct la tk r z d lim => Sys2Proof.Machine.execCpSct la tk r z d lim s
  | .tkWait la mask => Sys2Proof.Machine.execTkWait la mask s
  | .tkWaitSt la sd mask => Sys2Proof.Machine.execTkWaitSt la sd mask s
  | .rgAcqEmpty la r => Sys2Proof.Machine.execRgAcqEmpty la r s
  | .rgAcqFull la r => Sys2Proof.Machine.execRgAcqFull la r s
  | .rgRel la r => Sys2Proof.Machine.execRgRel la r s
  | .mxLdw la w f => Sys2Proof.Machine.execMxLdw la w f s
  | .mxFlip la => Sys2Proof.Machine.execMxFlip la s
  | .mxRun la tk k a f => Sys2Proof.Machine.execMxRun la tk k a f s
  | .mxRunV la tk k vx f => Sys2Proof.Machine.execMxRunV la tk k vx f s
  | .mxCmatId la tk k => Sys2Proof.Machine.execMxCmatId la tk k s
  | .mxCmatTr la tk k => Sys2Proof.Machine.execMxCmatTr la tk k s
  | .mxCmatPerm la tk k vx => Sys2Proof.Machine.execMxCmatPerm la tk k vx s
  | .mxCmatSum la tk k => Sys2Proof.Machine.execMxCmatSum la tk k s
  | .mxDrain la tk k fmt sat rm vx vy c => Sys2Proof.Machine.execMxDrain la tk k fmt sat rm vx vy c s
  | .mxZero la k => Sys2Proof.Machine.execMxZero la k s
  | .mxFence la => Sys2Proof.Machine.execMxFence la s
  | .mxWait la tk => Sys2Proof.Machine.execMxWait la tk s
  | .mxBeg la k n => Sys2Proof.Machine.execMxBeg la k n s
  | .mxRedo la tk k n => Sys2Proof.Machine.execMxRedo la tk k n s
  | .susp sn st sc => Sys2Proof.Machine.execSusp sn st sc s
  | .evAdd la sn sv => Sys2Proof.Machine.execEvAdd la sn sv s
  | .evAddRet la sd sn sv => Sys2Proof.Machine.execEvAddRet la sd sn sv s
  | .evSet la sn sv => Sys2Proof.Machine.execEvSet la sn sv s
  | .evGet la sd sn => Sys2Proof.Machine.execEvGet la sd sn s
  | .barSwath => Sys2Proof.Machine.execBarSwath s
  | .barTeam => Sys2Proof.Machine.execBarTeam s
  | .barGang => Sys2Proof.Machine.execBarGang s
  | .sgNew la sd sp => Sys2Proof.Machine.execSgNew la sd sp s
  | .sgJoin la st => Sys2Proof.Machine.execSgJoin la st s
  | .sgJoinClr la => Sys2Proof.Machine.execSgJoinClr la s
  | .sgVote la sd dh => Sys2Proof.Machine.execSgVote la sd dh s
  | .sgVoteAbst la sd => Sys2Proof.Machine.execSgVoteAbst la sd s
  | .sgCpt la => Sys2Proof.Machine.execSgCpt la s
  | .sgStatSt la sd sg => Sys2Proof.Machine.execSgStatSt la sd sg s
  | .sgStatHash la sd sg => Sys2Proof.Machine.execSgStatHash la sd sg s
  | .sgStatWait la sd sg => Sys2Proof.Machine.execSgStatWait la sd sg s
  | .sgFree la sg => Sys2Proof.Machine.execSgFree la sg s
  | .lnch la tk q card => Sys2Proof.Machine.execLnch la tk q card s
  | .lnchTry la tk q card => Sys2Proof.Machine.execLnchTry la tk q card s
  | .post la tk q card => Sys2Proof.Machine.execPost la tk q card s
  | .postTry la tk q card => Sys2Proof.Machine.execPostTry la tk q card s
  | .trap imm => Sys2Proof.Machine.execTrap imm s
  | .scall imm => Sys2Proof.Machine.execScall imm s
  | .brk imm => Sys2Proof.Machine.execBrk imm s
  | .eretFc sn st => Sys2Proof.Machine.execEretFc sn st s
  | .srGet la reg sd => Sys2Proof.Machine.execSrGet la reg sd s
  | .srSet la reg ss => Sys2Proof.Machine.execSrSet la reg ss s
  | .tlbInvPage sa va => Sys2Proof.Machine.execTlbInvPage sa va s
  | .tlbInvAsid sa => Sys2Proof.Machine.execTlbInvAsid sa s
  | .pgProbe rd sa va => Sys2Proof.Machine.execPgProbe rd sa va s
  | .dqPush la q oc rd => Sys2Proof.Machine.execDqPush la q oc rd s
  | .dqPushTry la q oc rd => Sys2Proof.Machine.execDqPushTry la q oc rd s
  | .dqPop la q oc rd => Sys2Proof.Machine.execDqPop la q oc rd s
  | .dqPopTry la q oc rd => Sys2Proof.Machine.execDqPopTry la q oc rd s
  | .nxPut tk d n r => Sys2Proof.Machine.execNxPut tk d n r s
  | .nxGet tk d n r => Sys2Proof.Machine.execNxGet tk d n r s
  | .nxAtom tk op d v r => Sys2Proof.Machine.execNxAtom tk op d v r s
  | .nxSig tk d v r => Sys2Proof.Machine.execNxSig tk d v r s
  | .nxProbe tk rt r => Sys2Proof.Machine.execNxProbe tk rt r s
  | .nxTopo tk m r => Sys2Proof.Machine.execNxTopo tk m r s
  | .nxTree tk m r => Sys2Proof.Machine.execNxTree tk m r s
  | .lgAppTok x1 x2 x3 x4 x5 => Sys2Proof.Machine.execLgAppTok x1 x2 x3 x4 x5 s
  | .lgAppCommit x1 x2 x3 x4 x5 => Sys2Proof.Machine.execLgAppCommit x1 x2 x3 x4 x5 s
  | .lgAppVoid x1 x2 x3 x4 x5 => Sys2Proof.Machine.execLgAppVoid x1 x2 x3 x4 x5 s
  | .illegalWord f parcel => Sys2Proof.Machine.execIllegalWord f parcel s
  | .fetchFault c addr => Sys2Proof.Machine.execFetchFault c addr s
  | .copyChunk die core => Sys2Proof.Machine.execCopyChunk die core s
  | .gatherBatch die => Sys2Proof.Machine.execGatherBatch die s
  | .matrixCommandPerform die core => Sys2Proof.Machine.execMatrixCommandPerform die core s
  | .jobReRun die core slot => Sys2Proof.Machine.execJobReRun die core slot s
  | .eventCounterUpdate ix => Sys2Proof.Machine.execEventCounterUpdate ix s
  | .swapOut tid => Sys2Proof.Machine.execSwapOut tid s
  | .swapReturn tid => Sys2Proof.Machine.execSwapReturn tid s
  | .ballotAccept ix => Sys2Proof.Machine.execBallotAccept ix s
  | .cancelInstant ix => Sys2Proof.Machine.execCancelInstant ix s
  | .pageReleaseWalk ix => Sys2Proof.Machine.execPageReleaseWalk ix s
  | .groupRecordFree die g => Sys2Proof.Machine.execGroupRecordFree die g s
  | .cardAccept ix => Sys2Proof.Machine.execCardAccept ix s
  | .teamPlace die => Sys2Proof.Machine.execTeamPlace die s
  | .gangReserve die => Sys2Proof.Machine.execGangReserve die s
  | .plotRetire plot => Sys2Proof.Machine.execPlotRetire plot s
  | .dqEntryStore link => Sys2Proof.Machine.execDqEntryStore link s
  | .fabricPacketReceive ix => Sys2Proof.Machine.execFabricPacketReceive ix s
  | .fabricTimeout ix => Sys2Proof.Machine.execFabricTimeout ix s
  | .logAppend die core => Sys2Proof.Machine.execLogAppend die core s
  | .sowRoundRetry tid => Sys2Proof.Machine.execSowRoundRetry tid s
  | .siloResumption tid => Sys2Proof.Machine.execSiloResumption tid s
  | .powerStateEnter die st => Sys2Proof.Machine.execPowerStateEnter die st s
  | .powerStateExit die => Sys2Proof.Machine.execPowerStateExit die s
  | .wearRecompute die => Sys2Proof.Machine.execWearRecompute die s
  | .sbalUpdate die => Sys2Proof.Machine.execSbalUpdate die s
  | .siloStall asid => Sys2Proof.Machine.execSiloStall asid s
  | .contextDrained asid => Sys2Proof.Machine.execContextDrained asid s
  | .relockEnd die => Sys2Proof.Machine.execRelockEnd die s
  | .preemptStage2 asid => Sys2Proof.Machine.execPreemptStage2 asid s
  | .preemptStage3 asid => Sys2Proof.Machine.execPreemptStage3 asid s
  | .pageWalk asid va => Sys2Proof.Machine.execPageWalk asid va s
  | .hrecovWrite v => Sys2Proof.Machine.execHrecovWrite v s
  | .hlnchWrite v => Sys2Proof.Machine.execHlnchWrite v s
  | .hcrtailWrite v => Sys2Proof.Machine.execHcrtailWrite v s
  | .hostRegisterWrite off v => Sys2Proof.Machine.execHostRegisterWrite off v s
  | .hostMemoryRead addr len => Sys2Proof.Machine.execHostMemoryRead addr len s
  | .hostMemoryWrite addr bytes => Sys2Proof.Machine.execHostMemoryWrite addr bytes s
  | .managementRequest req => Sys2Proof.Machine.execManagementRequest req s
  | .lifeCycleCommand cmd bytes => Sys2Proof.Machine.execLifeCycleCommand cmd bytes s
  | .getMeasurements nonce => Sys2Proof.Machine.execGetMeasurements nonce s
  | .powerWindow die reading => Sys2Proof.Machine.execPowerWindow die reading s
  | .fqsizeWrite die v => Sys2Proof.Machine.execFqsizeWrite die v s
  | .fqbaseWrite die v => Sys2Proof.Machine.execFqbaseWrite die v s
  | .hcrsizeWrite v => Sys2Proof.Machine.execHcrsizeWrite v s
  | .hostLinkTraining cxl => Sys2Proof.Machine.execHostLinkTraining cxl s
  | .fqtailWrite die v => Sys2Proof.Machine.execFqtailWrite die v s
  | .pctlPreempt asid => Sys2Proof.Machine.execPctlPreempt asid s
  | .pctlTeardown asid => Sys2Proof.Machine.execPctlTeardown asid s
  | .pctlRelease asid => Sys2Proof.Machine.execPctlRelease asid s
  | .qownSet queue asid => Sys2Proof.Machine.execQownSet queue asid s
  | .qownClear queue => Sys2Proof.Machine.execQownClear queue s
  | .dfreqWrite die v => Sys2Proof.Machine.execDfreqWrite die v s
  | .lattolWrite v => Sys2Proof.Machine.execLattolWrite v s
  | .fqactResume die index => Sys2Proof.Machine.execFqactResume die index s
  | .fqactEnd die index => Sys2Proof.Machine.execFqactEnd die index s
  | .linkStateChange port up => Sys2Proof.Machine.execLinkStateChange port up s
  | .fabricLoadUpdate first => Sys2Proof.Machine.execFabricLoadUpdate first s
  | .scrubPass die err => Sys2Proof.Machine.execScrubPass die err s
  | .fieldReread asid => Sys2Proof.Machine.execFieldReread asid s
  | .tlbInvAll => Sys2Proof.Machine.execTlbInvAll s
  | .tlbSync => Sys2Proof.Machine.execTlbSync s
  | .idle => Sys2Proof.Machine.execIdle s
  | .eret => Sys2Proof.Machine.execEret s
  | .meridianTick => Sys2Proof.Machine.execMeridianTick s
  | .packageReset => Sys2Proof.Machine.execPackageReset s
  | .recoveryVerifyDone => Sys2Proof.Machine.execRecoveryVerifyDone s
  | .hostCompletionRecord => Sys2Proof.Machine.execHostCompletionRecord s
  | .thermalTrip => Sys2Proof.Machine.execThermalTrip s

end Sys2Proof.Machine
end

