-- ==== Sys2Proof/Machine/Schedule.lean ====
section
/-! DEFINITION. Which agent moves next, what a unit fetches, and when a die's work may run (R91 to R93, R419, R422, R469). -/

namespace Sys2Proof.Machine

/-! ### Fetch (R22, R23, R79, R394) -/

/-- What a fetch gives: a word, or its fault, or an unreadable descriptor (R479). -/
inductive Fetched where
  | word (i : Instr)
  | descErr (asid : Nat)
  deriving DecidableEq, Repr

/-- The context under which a unit fetches (R372). -/
def fetchAsid (c : Ctx) : Nat := if c.sheaf.svFetch then 0 else c.team.asid
/-- The address of a unit's next word: its code base plus its PC. -/
def fetchAddr (c : Ctx) : Nat := (if c.sheaf.svFetch then c.sheaf.svAt.toNat else c.team.codeBase) + c.unit.pc.toNat

/-- The parcels of a word by the kind of its first parcel (R22). -/
def kindParcels (p : Word) : Nat :=
  match bits p.toNat 31 30 with
  | 2 => 3
  | 3 => 2
  | _ => 1

/-- Fetched bytes meet an uncorrectable error: a poisoned line of main memory that the core's instruction cache does not hold (R201,
R207; log 56). -/
def codePoisoned (s : State) (core pa n : Nat) : Bool :=
  physPoisoned s pa n && (upto n).any fun i => physPoisoned s (pa + i) 1 && !(coreOf s core).icache.contains (physPlace (pa + i) / 64)

/-- The word that bytes at a physical address hold, no further than the end of the code page, as a core fetches it. -/
def wordAt (s : State) (core ver va pa : Nat) : Instr :=
  let room := (65536 - va % 65536) / 4
  let ps := parcelsOf (physRead s pa (4 * Min.min 3 room))
  let n := Min.min (kindParcels (ps.headD 0)) (Max.max 1 room)
  if codePoisoned s core pa (4 * n) then .fetchFault .accessError va else
  match decode ver ps with
  | .ok i => i
  | .error e => .illegalWord e (ps.headD 0)

/-- The physical address of a unit's next word, by its core's port (R394, R395). -/
def fetchTrans (c : Ctx) : Trans := translate c.st c.team.port (fetchAsid c) (fetchAddr c) .fetch

/-- The next word of a unit. -/
def fetch (c : Ctx) : Fetched :=
  let va := fetchAddr c
  match fetchTrans c with
  | .ok pa => .word (wordAt c.st c.core c.team.ver va pa)
  | .fail 10 => .word (.fetchFault .permission va)
  | .fail 8 => .word (.fetchFault .accessError va)
  | .fail _ => .word (.fetchFault .translation va)
  | .descErr => .descErr (fetchAsid c)

/-! ### When work may run (R419, R422 to R424, R469) -/

/-- The die's clock runs and it is in A0. -/
def dieAwake (s : State) (die : Nat) : Bool := clockRuns (dieOf s die) && (dieOf s die).power == .a0

/-- The die of a team. -/
def teamDie (s : State) (tid : Nat) : Nat := ((Tbl.find s.teams tid).map (·.die)).getD 0

/-- An event, not a word. -/
def isEvent (i : Instr) : Bool := encode 3 i == [] && (match i with
  | .illegalWord .. | .fetchFault .. => false
  | _ => true)

/-- Events that do not wait for READY (R465, R468, R469, R478). -/
def beforeReady : Instr → Bool
  | .packageReset | .recoveryVerifyDone | .thermalTrip | .meridianTick | .hrecovWrite _ | .hlnchWrite _ | .hcrtailWrite _
  | .hcrsizeWrite _ | .hostRegisterWrite .. | .hostMemoryRead .. | .hostMemoryWrite .. | .hostLinkTraining _ | .lattolWrite _
  | .managementRequest _ | .lifeCycleCommand .. | .getMeasurements _ | .powerWindow .. => true
  | _ => false

/-- The die whose cores, distributor or receivers an event works on: it must be awake. -/
def awakeDie (s : State) : Instr → Option Nat
  | .copyChunk d _ | .gatherBatch d | .matrixCommandPerform d _ | .jobReRun d _ _ | .logAppend d _ | .teamPlace d
  | .gangReserve d => some d
  | .swapOut t | .swapReturn t | .sowRoundRetry t | .siloResumption t => some (teamDie s t)
  | .cardAccept ix => (s.cardReqs[ix]?).map (·.die)
  | .dqEntryStore link => if (((fifoAt s link).head?).map (·.path.isEmpty)).getD false then some (link % 4) else none
  | .fabricPacketReceive ix => (s.packets[ix]?).bind packetWakes
  | _ => none

/-- The die whose uncore an event works on: its clock must run. -/
def clockDie (s : State) : Instr → Option Nat
  | .eventCounterUpdate ix => (s.evReqs[ix]?).map (·.ctr / 1024)
  | .ballotAccept ix => (s.ballots[ix]?).map (·.die)
  | .cancelInstant ix => (s.cancels[ix]?).map (·.die)
  | .pageReleaseWalk ix => (s.walks[ix]?).map (·.home)
  | .groupRecordFree d _ => some d
  | .plotRetire p => some (p / 4096)
  | .fabricTimeout ix => (s.nxCmds[ix]?).map (·.die)
  | .dqEntryStore link => some (link % 4)
  | .fabricPacketReceive ix => (s.packets[ix]?).bind (packetDie s)
  | _ => none

/-- An event may take place now. -/
def mayRun (s : State) (i : Instr) : Bool :=
  isEvent i && (beforeReady i || s.host.boot == .ready)
  && ((awakeDie s i).map (dieAwake s)).getD true
  && ((clockDie s i).map fun d => clockRuns (dieOf s d)).getD true

/-- A unit whose word is tried again while it waits: its wait ends with what it waits for. -/
def retryWait : Wait → Bool
  | .ready | .tokens _ | .room _ | .ring .. | .swath _ | .decision _ | .dqPush _ | .dqPop _ | .idle => true
  | _ => false

/-- A unit may issue: nothing holds its team or its sheaf, its die runs, its lane is not reserved for the word of a swath, and its fetch
waits neither for a walker nor for the clock of a die (R89, R91, R372, R387, R395, R420). -/
def mayIssue (s : State) (c : Ctx) : Bool :=
  s.host.boot == .ready && dieAwake s c.team.die && retryWait c.unit.wait
  && (c.unit.wait.isSwath || !laneReserved s (laneKey c.team c.sheaf))
  && unitReady s { c with unit := { c.unit with wait := .ready } }
  && !rangeWaits s c.team.port (fetchAsid c) (fetchAddr c) 4

/-! ### The active set (R91) -/

/-- A unit has gone 32,768 cycles of its lane's clock without issuing (R93). -/
def overdue (s : State) (c : Ctx) : Bool := decide (c.unit.last + 32768 ≤ laneNow s (laneKey c.team c.sheaf))

/-- The issuing unit is in the active set of its lane: a pending unit joins where there are fewer than 8, and else changes
places with the current unit if it is overdue, with an active unit that waits, or with one whose wait the model does not show,
such as a fetch that misses (R91, R93). A unit at `idle` stays outside (R375). -/
def activate (s : State) (c : Ctx) : State :=
  if c.unit.active || c.unit.wait == .idle then s else
  let mates := (laneUnits s (laneKey c.team c.sheaf)).filter fun u => u.2.2.2.active
  let l := Tbl.get Lane.zero s.lanes (laneKey c.team c.sheaf)
  let cur := mates.filter fun u => l.current == some (u.1, u.2.1, u.2.2.1)
  let waiting := mates.filter fun u => u.2.2.2.wait != .ready
  let s1 := if mates.length < 8 then s else
    match (if overdue s c then cur ++ waiting else waiting) ++ mates with
    | u :: _ => modUnit s u.1 u.2.1 u.2.2.1 fun x => { x with active := false }
    | [] => s
  c.modUnit s1 fun u => { u with active := true }

/-- The lines of a core's instruction cache: 128 KiB (R2). -/
def codeLines : Nat := 2048
/-- A line that an instruction cache takes: where all its lines are held one of them leaves, which one being free (log 5). -/
def takeCode (fv : Nat) (l : List Nat) (ln : Nat) : List Nat :=
  if l.contains ln then l else (if l.length < codeLines then l else dropAt l (fv % l.length)) ++ [ln]

/-- A unit issues the word it has fetched: it is in its lane's active set, and its core's instruction cache holds the word's lines
(R91, R201; log 56). -/
def issueState (s : State) (c : Ctx) : State :=
  let s1 := activate s c
  match fetchTrans c with
  | .ok pa =>
    let ls := [physPlace pa / 64, physPlace (pa + 11) / 64].filter fun l => !s.memPz.contains l && !(coreOf s c.core).icache.contains l
    if ls = [] then s1 else
    modCore s1 c.core fun k => { k with icache := ls.foldl (takeCode (freeAt s 0).toNat) k.icache }
  | _ => s1

/-! ### The scheduler's choice (R93) -/

/-- The units of every team that is on a core. -/
def allUnits (s : State) : List Ctx := (s.teams.filter fun t => !t.2.out).flatMap fun t => teamUnits s t.1

/-- A unit's names. -/
def Ctx.who (c : Ctx) : Nat × Nat × Nat := (c.tid, c.slot, c.uid)

/-- The unit that issued longest ago; of equals the older (R93 step 4). -/
def earliest : List Ctx → Option Ctx
  | [] => none
  | c :: t => match earliest t with
    | none => some c
    | some d => if c.unit.last < d.unit.last || (c.unit.last == d.unit.last && c.unit.older d.unit) then some c else some d

/-- The oldest `n` units of a list. -/
def oldestOf : Nat → List Ctx → List Ctx
  | 0, _ => []
  | n + 1, us => match oldest us with
    | some c => c :: oldestOf n (us.filter fun d => d.who != c.who)
    | none => []

/-- A lane's choice among its units that may issue, `room` places of its active set being free or held by units that wait: the
oldest pending units have joined there (R93). -/
def laneChoice (l : Lane) (now room : Nat) (us : List Ctx) : Option Ctx :=
  let isCur := fun (c : Ctx) => l.current == some c.who
  let act := us.filter (fun c => c.unit.active) ++ oldestOf room (us.filter fun c => !c.unit.active)
  match us.find? isCur with
  | some c =>
    if l.greedy < 256 then some c else
    match oldest (us.filter fun c => decide (c.unit.last + 32768 ≤ now)) with
    | some x => some x
    | none => match earliest (act.filter fun c => !isCur c) with
      | some x => some x
      | none => some c
  | none =>
    match oldest (us.filter fun c => decide (c.unit.last + 32768 ≤ now)) with
    | some x => some x
    | none => match oldest act with
      | some x => some x
      | none => oldest us

/-- The places of a lane's active set that are free, or held by a unit that waits (R91). -/
def laneRoom (s : State) (k : Nat) : Nat :=
  8 - ((laneUnits s k).filter fun u => u.2.2.2.active && u.2.2.2.wait == .ready).length

/-- The issue of the lane whose clock stands lowest. -/
def chooseIssue (s : State) : Option Ctx :=
  let us := (allUnits s).filter fun c => (c.unit.wait == .ready || waitOver s c) && mayIssue s c
  let keys := (us.map fun c => laneKey c.team c.sheaf).eraseDups
  let cyc := laneNow s
  match keys with
  | [] => none
  | k :: t =>
    let best := t.foldl (fun b x => if cyc x < cyc b then x else b) k
    laneChoice (Tbl.get Lane.zero s.lanes best) (laneNow s best) (laneRoom s best) (us.filter fun c => laneKey c.team c.sheaf == best)

/-! ### Other agents -/

/-- The engines of cores with work. -/
def coreEvents (s : State) : List Instr :=
  s.cores.flatMap fun k =>
    let d := k.1 / 128
    let n := k.1 % 128
    (if k.2.streamer.isEmpty then [] else [.copyChunk d n, .logAppend d n])
    ++ (if k.2.engine.queue.isEmpty then [] else [.matrixCommandPerform d n])
    ++ (if k.2.engine.job0.state == .rerunning then [.jobReRun d n 0] else [])
    ++ (if k.2.engine.job1.state == .rerunning then [.jobReRun d n 1] else [])

/-- The agents of dies with work. -/
def dieEvents (s : State) : List Instr :=
  s.dies.flatMap fun x =>
    let d := x.1
    (if x.2.gather.isEmpty then [] else [.gatherBatch d])
    ++ (if x.2.queues.all fun q => q.2.cards.isEmpty then [] else [.teamPlace d, .gangReserve d])
    ++ (x.2.plots.filter fun p => plotDone s (d * 4096 + p.1) p.2).map (fun p => .plotRetire (d * 4096 + p.1)) ++ x.2.groups.map (fun g => .groupRecordFree d g.1)
    ++ (if x.2.power == .a0 then [] else [.powerStateExit d])
    ++ (if x.2.power.num < deepest s d then [.powerStateEnter d (deepest s d)] else [])

/-- The first place of a list for which a test holds. -/
def firstWhere {α : Type} (l : List α) (p : Nat → α → Bool) : List Nat :=
  ((l.zipIdx.find? fun x => p x.2 x.1).map (·.2)).toList

/-- A card that its queue can take or answer now (R350). -/
def cardTurn (s : State) (r : CardReq) : Bool :=
  !r.stopped && !pathAhead s r.origin r.die r.id && (r.isTry || decide ((lqueueAt s r.die r.queue).cards.length < 32)) && dieAwake s r.die

/-- Requests on their way: of each kind the earliest that can go on. -/
def requestEvents (s : State) : List Instr :=
  (firstWhere s.evReqs fun i r => clockRuns (dieOf s (r.ctr / 1024)) && !evBlocked s i r).map .eventCounterUpdate
  ++ (firstWhere s.ballots fun i r => !ballotBlocked s i r && clockRuns (dieOf s r.die)).map .ballotAccept
  ++ (firstWhere s.cardReqs fun _ r => cardTurn s r).map .cardAccept
  ++ (upto s.walks.length).map .pageReleaseWalk
  ++ (s.walking.head?).toList.map (fun w => .pageWalk w.asid (w.page * 65536))
  ++ (upto s.packets.length).map .fabricPacketReceive ++ (upto s.nxCmds.length).map .fabricTimeout
  ++ (s.fifos.filter fun f => !f.2.isEmpty).map fun f => .dqEntryStore f.1

/-- Teams that swap, return or wait for a round, and contexts that are stopped or stalled. -/
def teamEvents (s : State) : List Instr :=
  s.teams.flatMap (fun t =>
    (if t.2.out then [.swapReturn t.1] else if t.2.swapMode || t.2.halted then [.swapOut t.1] else [])
    ++ (if (t.2.hold == .pool || t.2.hold == .walker) && !t.2.out then [.sowRoundRetry t.1] else [])
    ++ (if t.2.levels.isEmpty then [] else [.siloResumption t.1]))
  ++ s.preempts.flatMap (fun p => [.preemptStage2 p.asid, .preemptStage3 p.asid, .contextDrained p.asid])
  ++ s.stalls.map fun a => .siloStall a.1

/-- The issues of units that try a waiting word again. -/
def retryIssues (s : State) : List Action :=
  ((allUnits s).filter fun c => c.unit.wait != .ready && mayIssue s c).map fun c => .issue c.tid c.slot c.uid

/-- What may happen beside an issue. -/
def others (s : State) : List Action :=
  retryIssues s
  ++ ((coreEvents s ++ dieEvents s ++ requestEvents s ++ teamEvents s
    ++ (if s.host.pending.isEmpty then [] else [Instr.hostCompletionRecord])).filter (mayRun s)).map .event

/-- What is due at this tick comes before anything else (R419, R425, R438, R462, R476). -/
def dueEvent (s : State) : Option Instr :=
  let first := fun (p : Die → Bool) (i : Nat → Instr) => (s.dies.find? fun d => p d.2).map fun d => i d.1
  match first (relockDue s) .relockEnd with
  | some i => some i
  | none =>
    if windowDue s then some (.powerWindow ((freeAt s 0).toNat % 4) ⟨(freeAt s 1).setWidth 32, (freeAt s 2).setWidth 32⟩)
    else if s.host.boot ≠ .ready then none
    else match first (wearDue s) .wearRecompute with
    | some i => some i
    | none => match first (sbalDue s) .sbalUpdate with
      | some i => some i
      | none => if loadDue s then some (.fabricLoadUpdate ((freeAt s 0).toNat % 24)) else none

/-- A cancellation on its way that can reach its die. -/
def dueCancel (s : State) : Option Nat := (firstWhere s.cancels fun _ r => clockRuns (dieOf s r.die) && !pathAhead s r.src r.die r.id).head?

/-- What happens next where the agenda is empty (log 1): boot, then what is due and cancellations, then the lanes, with every
fourth step for the other agents in turn, and a meridian tick after each round of them. -/
def defaultAction (s : State) : Action :=
  match s.host.boot with
  | .rom => .event .packageReset
  | .verify => .event .recoveryVerifyDone
  | .recovery => .event ((dueEvent s).getD .meridianTick)
  | .ready =>
    match dueEvent s with
    | some i => .event i
    | none =>
    match dueCancel s with
    | some i => .event (.cancelInstant i)
    | none =>
      match (if s.free % 4 = 3 then none else chooseIssue s) with
      | some c => .issue c.tid c.slot c.uid
      | none =>
        let l := others s
        (l[s.free / 4 % (l.length + 1)]?).getD (.event .meridianTick)

/-- The next action: the agenda's head, else the default. -/
def nextAction (s : State) : Action := s.agenda.headD (defaultAction s)

/-! ### How a program comes to stand where the next step fetches (log 13) -/

/-- A team on core 0 of die 0 with one sheaf, at the supervisor's context, whose code base is 64 KiB; names as given. -/
def stageTeam (tid : Nat) : Team :=
  { asid := 0, plot := 0, index := 0, die := 0, core := 0, ver := 3, codeBase := 65536, capacity := 16, live := 8
    window := 0, stackLen := 0, tiles := 1, sowing := true, hasC := false, hasM := false, slots := 1
    swapMode := false, swapThr := 0, saveBase := 0, siloBase := 0, tag := 0, gang := 0, ganged := false, spWin := 0, evWin := []
    sheaves := [(0, { role := .g, lane := 0, allot := 128, s := [], ss := [], q := 0, tok := []
                      threads := (upto 16).map fun i => (i, ⟨[], 0, 0, i, 0⟩)
                      remap := (upto 16).map fun i => (i, i), splits := []
                      units := [(tid + 1, { newUnit 0xFFFF 0 none (tid + 1) 0 with active := true })]
                      age := tid + 1, level := .supervisor, sys := SysRegs.zero, trapped := none, svFetch := false, svAt := 0
                      stack := [], stackPz := [], retired := false, held := [], spoilt := [], loose := [], looseB := [], reports := [], overtaken := [] })]
    shared := [], sharedPz := [], stores := 0, past := [], rings := [], round := 0, hold := .none, floorOk := false, floor := 0, top := 0
    levels := [], totals := [], pages := [], counters := [], acct := [], ended := false, freed := false, faulted := false, cancelled := false
    out := false, returning := false, swState := 0, swWaits := 0, swaps := 0, mOut := 0, mIn := 0, eligible := none
    halted := false, swapHold := false, saveSeed := 0, passes := 0, saved := none
    imageHold := false, imageOff := 0, imageLen := 0, queue := 0 }

/-- Main memory with the descriptor of context 0, a page table whose one leaf maps the first gibibyte for every access, and
a word at 64 KiB. -/
def stageMemory (m : List Host.Cell) (bs : List Byte) : List Host.Cell :=
  writeBytes (writeBytes (writeBytes (writeBytes (writeBytes m 0 (toBytes 8 0x1000)) 0x1000 (toBytes 8 0x2001))
    0x2000 (toBytes 8 0x3001)) 0x3000 (toBytes 8 0x1F)) 0x10000 bs

/-- A team with its plot and its engine stands at its first word, and its issue comes next. -/
def stage (s : State) (bs : List Byte) : State :=
  let tid := s.nextId
  let c : Card := ⟨0, 0, [], [], 0, 0, none, 0, 0, 0, 1, false, true, some 0, 1, 0, 0, false, false, false⟩
  { s with
    host := { s.host with boot := .ready }
    cdbase := 0
    mem := stageMemory s.mem bs
    memPz := []
    tlb := []
    walked := []
    walking := []
    teams := Tbl.put s.teams tid (stageTeam tid)
    cores := Tbl.put s.cores 0 { Core.zero with engine := { Engine.zero with holder := some tid } }
    dies := Tbl.put s.dies 0 { dieOf s 0 with busy := false, power := .a0, plots := Tbl.put (dieOf s 0).plots 0 ⟨c, 1, 1, 0, 0, false, false, false⟩ }
    nextId := tid + 2
    agenda := .issue tid 0 (tid + 1) :: s.agenda }

/-- Where the next step fetches a word, if it does and the whole of a longest word lies in one page there. -/
def fetchPlace (s : State) : Option Nat :=
  match nextAction s with
  | .event _ => none
  | .issue tid slot uid =>
    match unitAt s tid slot uid with
    | none => none
    | some c =>
      if !mayIssue s c || 65524 < fetchAddr c % 65536 then none else
      match fetchTrans c with
      | .ok pa => some pa
      | _ => none

/-- Bytes of a word placed where the next step fetches. -/
def placeWord (s : State) (bs : List Byte) : State :=
  match fetchPlace s with
  | some pa => { s with
      mem := writeBytes s.mem (physPlace pa) bs
      memPz := s.memPz.filter fun l => l != physPlace pa / 64 && l != (physPlace pa + 11) / 64 }
  | none => stage s bs

end Sys2Proof.Machine
end

