-- ==== Sys2Proof/Machine/Step.lean ====
section
/-! DEFINITION. One step of the device: the next action of its agents takes place. -/

namespace Sys2Proof.Machine

/-- The state in which an action takes place: it leaves the agenda, `who` is the issuing unit, and the free values are new. -/
def ready (s : State) (who : Option (Nat × Nat × Nat)) : State :=
  { s with agenda := s.agenda.tail, cur := who, free := s.free + 1 }

/-- A unit issues its next word (R91). -/
def issueUnit (s : State) (tid slot uid : Nat) : Host.Outcome State Fault Refusal :=
  match unitAt s tid slot uid with
  | none => .next (ready s none)
  | some c =>
    if mayIssue s c then
      match fetch c with
      | .word i => exec i (ready (issueState s c) (some (tid, slot, uid)))
      | .descErr asid => .next (descriptorError (ready s none) asid)
    else .next (ready s none)

/-- One step: the agenda's head, or what the device does by itself (log 1). -/
def step (s : State) : Host.Outcome State Fault Refusal :=
  match nextAction s with
  | .issue tid slot uid => issueUnit s tid slot uid
  | .event i => if mayRun s i then exec i (ready s none) else .next (ready s none)

/-- The state with an instruction stored where the next step fetches (log 12, log 13). -/
def State.withFetchWord (s : State) (nbits w : Nat) : State := placeWord s (tableBytes nbits w)

end Sys2Proof.Machine
end

