-- ==== Sys2Proof/Safety.lean ====
section
/-! DEFINITION. What counts as a safe run, and the terms in which claims speak of a word: where it takes effect, what it
leaves unchanged, and which registers it wrote. -/

namespace Sys2Proof.Machine

/-- Every memory of bytes of the state is in canonical form. -/
def State.memoriesWf (s : State) : Bool :=
  Memory.wf s.mem && s.dies.all (fun d => Memory.wf d.2.sp)
  && s.teams.all fun t => Memory.wf t.2.shared && t.2.sheaves.all fun sh => Memory.wf sh.2.stack

/-- A team's sheaves, and the units of each, stand under rising names. -/
def Team.sorted (t : Team) : Bool := Tbl.sorted t.sheaves && t.sheaves.all fun sh => Tbl.sorted sh.2.units

/-- The merged stores of a held line wait at rising offsets within it. -/
def CcLine.ok (l : CcLine) : Bool := Tbl.sorted l.dirty && l.dirty.all fun d => decide (d.1 < 64)
/-- A core's held lines rise, each in its form. -/
def linesOk (t : Tbl CcLine) : Bool := Tbl.sorted t && t.all fun l => l.2.ok

/-- The tables by which the state names teams, sheaves, units and held lines rise, so that each name stands once. -/
def State.tablesSorted (s : State) : Bool :=
  Tbl.sorted s.teams && s.teams.all (fun t => t.2.sorted) && s.cores.all fun k => linesOk k.2.cache

/-- The state is in the one form that its data has: an invariant of the machine. -/
def State.canonical (s : State) : Bool := s.memoriesWf && s.tablesSorted

/-- A step that goes on. -/
def goesOn (s : State) : Prop := ∃ t, step s = .next t

/-! ### A word at its issue -/

/-- The tokens that a word's header waits for (R31). -/
def waitMask (i : Instr) : Nat := ((hdrOf i).map (·.wait.toNat)).getD 0

/-- The issuing unit as its word finds it, where the word passes checks 7 to 9 of R44, no value on its way holds it (R94), and
no token that its header waits for is pending: `Ctx.st` is the state after that wait. -/
def atIssue (i : Instr) (s : State) : Option Ctx :=
  match ctxOf s with
  | none => none
  | some c =>
    if regsOk c i && roleOk c i && privOk c i && (awaited c i).isNone && !tokensPending c.sheaf (waitMask i) then
      if waitMask i = 0 then some c else unitAt (waitedFor c s (waitMask i)) c.tid c.slot c.uid
    else none

/-- A word takes effect and leaves its unit standing as `c'` finds it. -/
def Does (i : Instr) (s : State) (c c' : Ctx) : Prop :=
  exec i s = .next c'.st ∧ unitAt c'.st c.tid c.slot c.uid = some c'

/-- What a word that writes registers leaves unchanged, the registers of `dest` apart: everything but its unit's progress
and windows, the issue record of its lane, its team's counts, and what matrix commands note of the writes. -/
structure RegisterFrame (c c' : Ctx) (dest : RegKey → Prop) : Prop where
  device  : { c'.st with teams := c.st.teams, lanes := c.st.lanes } = c.st
  lanes   : ∀ k, k ≠ laneKey c.team c.sheaf → Tbl.get Lane.zero c'.st.lanes k = Tbl.get Lane.zero c.st.lanes k
  teams   : ∀ tid, tid ≠ c.tid → Tbl.find c'.st.teams tid = Tbl.find c.st.teams tid
  team    : { c'.team with sheaves := c.team.sheaves, counters := c.team.counters, acct := c.team.acct,
                           eligible := c.team.eligible } = c.team
  counts  : ∀ ix, ix ≠ 0 → Tbl.get 0 c'.team.counters ix = Tbl.get 0 c.team.counters ix
  acct    : ∀ tag ix, ix ≠ 0 → (Tbl.get (List.replicate 8 0) c'.team.acct tag).getD ix 0
                                = (Tbl.get (List.replicate 8 0) c.team.acct tag).getD ix 0
  sheaves : ∀ sl, sl ≠ c.slot → Tbl.find c'.team.sheaves sl = Tbl.find c.team.sheaves sl
  sheaf   : { c'.sheaf with s := c.sheaf.s, ss := c.sheaf.ss, q := c.sheaf.q, threads := c.sheaf.threads,
                            units := c.sheaf.units, spoilt := c.sheaf.spoilt, loose := c.sheaf.loose,
                            reports := c.sheaf.reports, overtaken := c.sheaf.overtaken } = c.sheaf
  threads : ∀ p, (Tbl.find c'.sheaf.threads p).map (fun t => (t.ord, t.rank, t.tag))
                  = (Tbl.find c.sheaf.threads p).map fun t => (t.ord, t.rank, t.tag)
  regs    : ∀ k, ¬ dest k → readKey c'.sheaf k = readKey c.sheaf k
  units   : ∀ u, u ≠ c.uid → Tbl.find c'.sheaf.units u = Tbl.find c.sheaf.units u
  unit    : { c'.unit with pc := c.unit.pc, wait := c.unit.wait, wins := c.unit.wins, last := c.unit.last,
                           awaits := c.unit.awaits } = c.unit
  awaits  : c'.unit.awaits = tickAwaits c.unit.awaits

/-- The unit stands ready at a place in its code. -/
def Ctx.stands (c : Ctx) (pc : Word) : Prop := c.unit.pc = pc ∧ c.unit.wait = .ready

/-- A window of an earlier write of the register is open (R95), or a report stands in it whose token has not been waited for
(R443): a write may leave the value from before it. -/
def MayKeep (c : Ctx) (k : RegKey) : Prop :=
  (∃ w ∈ c.unit.wins, w.key = k) ∨ ∃ r ∈ c.sheaf.reports, r.done = true ∧ r.key = k

/-- A register holds the value written to it; where a window of an earlier write of it is open (R95), or a report stands in it
whose token has not been waited for (R443), it may hold the value from before instead, and where a drain in flight will write
it, its value is unspecified (R247). -/
def Wrote (c c' : Ctx) (k : RegKey) (v : Word) : Prop :=
  readKey c'.sheaf k = v ∨ (MayKeep c k ∧ readKey c'.sheaf k = readKey c.sheaf k) ∨ drainHolds c.sheaf k = true

/-- The sheaf has a thread at a position. -/
def hasThread (c : Ctx) (p : Nat) : Prop := (Tbl.find c.sheaf.threads p).isSome = true

/-! ### What words that reach memories and engines leave unchanged -/

/-- A merged store waits in the combining cache of some core of a die, to be written to a scratchpad byte (R189). -/
def waitingByte (s : State) (die x : Nat) (b : Byte) : Prop :=
  ∃ k ∈ s.cores, k.1 / 128 = die ∧ ∃ l ∈ k.2.cache, ∃ o, x = 64 * l.1 + o ∧ (o, b) ∈ l.2.dirty

/-- A byte of a space as the issuing unit's core sees it. -/
def seenByte (c : Ctx) (spc : Space) (x : Nat) : Byte :=
  match spc with
  | .sh => byteAt c.team.shared x
  | .stk => byteAt c.sheaf.stack x
  | .sp => coreSees c.st c.core x

/-- What a word leaves unchanged that may store to on-chip bytes, write registers and enter commands in its engines'
queues: main memory, the device's registers, every byte not stored (a merged store that waited may reach the scratchpad),
other teams, other sheaves, other units, the sheaf's system registers, and every register that is no destination. -/
structure WordFrame (c c' : Ctx) (stored : Space → Nat → Prop) (dest : RegKey → Prop) : Prop where
  main    : c'.st.mem = c.st.mem ∧ c'.st.memPz = c.st.memPz
  device  : c'.st.mer = c.st.mer ∧ c'.st.svbase = c.st.svbase ∧ c'.st.mvbase = c.st.mvbase ∧ c'.st.cdbase = c.st.cdbase
              ∧ c'.st.lattol = c.st.lattol ∧ c'.st.host = c.st.host ∧ c'.st.tlb = c.st.tlb
  scratch : ∀ d x, ¬ (d = c.core / 128 ∧ stored .sp x) →
              byteAt (dieOf c'.st d).sp x = byteAt (dieOf c.st d).sp x ∨ waitingByte c.st d x (byteAt (dieOf c'.st d).sp x)
  shared  : ∀ x, ¬ stored .sh x → byteAt c'.team.shared x = byteAt c.team.shared x
  stack   : ∀ x, ¬ stored .stk x → byteAt c'.sheaf.stack x = byteAt c.sheaf.stack x
  teams   : ∀ tid, tid ≠ c.tid → Tbl.find c'.st.teams tid = Tbl.find c.st.teams tid
  sheaves : ∀ sl, sl ≠ c.slot → Tbl.find c'.team.sheaves sl = Tbl.find c.team.sheaves sl
  units   : ∀ u, u ≠ c.uid → Tbl.find c'.sheaf.units u = Tbl.find c.sheaf.units u
  mask    : c'.unit.mask = c.unit.mask ∧ c'.unit.inner = c.unit.inner ∧ c'.unit.age = c.unit.age
  system  : c'.sheaf.sys = c.sheaf.sys ∧ c'.sheaf.level = c.sheaf.level ∧ c'.sheaf.splits = c.sheaf.splits
              ∧ c'.sheaf.svFetch = c.sheaf.svFetch ∧ c'.sheaf.trapped = c.sheaf.trapped
  threads : ∀ p, (Tbl.find c'.sheaf.threads p).map (fun t => (t.ord, t.rank, t.tag))
                  = (Tbl.find c.sheaf.threads p).map fun t => (t.ord, t.rank, t.tag)
  regs    : ∀ k, ¬ dest k → readKey c'.sheaf k = readKey c.sheaf k

/-- No byte is stored. -/
def noBytes : Space → Nat → Prop := fun _ _ => False
/-- No register is written. -/
def noRegs : RegKey → Prop := fun _ => False

end Sys2Proof.Machine
end

