-- ==== Sys2Proof/WellFormed.lean ====
section
/-! DEFINITION. Which terms of `Instr` are instructions of a version: what the checks of R44 leave. -/

namespace Sys2Proof

/-- A paired operation obeys R37 and leaves vb zero where it has one source. -/
def pairWf (ver : Nat) (c : ClassA) (vd va vb : VReg) (p : PairOp) : Bool :=
  let na := laneOp ver (c.code ver)
  let nb := laneOp ver (p.op.code ver)
  pairOk ⟨0, vd, va, vb, 0⟩ ⟨0, p.vd, p.va, p.vb, 0⟩ na nb
    && laneAssigned na && laneAssigned nb
    && (!isUnaryA nb || p.vb == 0)

/-- The operands of a two-source integer operation are well-formed. -/
def Bin.wf (ver : Nat) (c : ClassA) (vd : VReg) : Bin → Bool
  | .one _ _ => true
  | .pair va vb p => pairWf ver c vd va vb p
/-- The operands of a one-source integer operation are well-formed. -/
def Un.wf (ver : Nat) (c : ClassA) (vd : VReg) : Un → Bool
  | .one _ => true
  | .pair va p => pairWf ver c vd va 0 p
/-- The operands of a two-source floating operation are well-formed. -/
def FBin.wf (ver : Nat) (c : ClassA) (vd : VReg) : FBin → Bool
  | .one _ _ _ => true
  | .pair va vb p => pairWf ver c vd va vb p
/-- The operands of `fmin` and `fmax` are well-formed. -/
def FSel.wf (ver : Nat) (c : ClassA) (vd : VReg) : FSel → Bool
  | .one _ _ => true
  | .pair va vb p => pairWf ver c vd va vb p
/-- The operands of a fused operation are well-formed. -/
def FTri.wf (ver : Nat) (c : ClassA) (vd : VReg) : FTri → Bool
  | .one _ _ _ _ => true
  | .pair va vb p => pairWf ver c vd va vb p

/-- A field width from 1 to 32 (R119, R126). -/
def widthOk (w : BitVec 6) : Bool := decide (1 ≤ w.toNat) && decide (w.toNat ≤ 32)

/-- A drain format with its saturation and rounding fields (R243). -/
def drainOk (f : Fmt) (sat : Bool) (rm : Rm) : Bool :=
  match f with
  | .flt .f32 => !sat && rm == .ne
  | .int .i32 => !sat && rm == .ne
  | .int .i8 => !sat && rm == .ne
  | .flt _ => true
  | .int _ => false

/-- The register rule of a range of `n` registers from `vd` (R194). -/
def rangeOk (vd : VReg) (n : Cnt) : Bool := decide (vd.toNat + n.num ≤ 128)

/-- An L-word or U-word that stands in every version, or one of E form, which needs version 2 or 3 (R43). -/
def eVer (ver : Nat) : Bool := ver == 2 || ver == 3

/-- A copy without a ring target leaves the ring and slot fields zero (R41, R210). -/
def Ring.wf (r : Ring) : Bool := r.use || (r.ring == 0 && r.slot == 0)

/-- The instruction is one of the version: it has an encoding, and that encoding passes checks 1 to 7 of R44. -/
def Instr.wf (ver : Nat) : Instr → Bool
  | .nop | .endw | .ret _ | .jr _ => true
  | .sAdd .. | .sAddImm .. | .sSub .. | .sSubImm .. | .sMul .. | .sMulImm .. | .sMulhI32 ..
  | .sMulhI32Imm .. | .sMulhN32 .. | .sMulhN32Imm .. | .sAnd .. | .sAndImm .. | .sOr .. | .sOrImm ..
  | .sXor .. | .sXorImm .. | .sShl .. | .sShlImm .. | .sShr .. | .sShrImm .. | .sSra .. | .sSraImm ..
  | .sMinI32 .. | .sMinI32Imm .. | .sMinN32 .. | .sMinN32Imm .. | .sMaxI32 .. | .sMaxI32Imm ..
  | .sMaxN32 .. | .sMaxN32Imm .. | .sCmpI32 .. | .sCmpI32Imm .. | .sCmpN32 .. | .sCmpN32Imm ..
  | .sSel .. | .sMov .. | .sMovSpecial .. | .sAddi .. | .sPopc .. | .sClz .. => true
  | .sBfx _ _ w _ => widthOk w
  | .sQop o _ _ b => !(o == .not) || b == 0
  | .sLd t _ d _ _ => !(t == .w64) || isEven d
  | .sSt t _ d _ _ => !(t == .w64) || isEven d
  | .sAtom o w s d _ => (s == .sh || s == .sp) && sAtomRegOk o w d
  | .br _ | .bc .. | .bv .. | .call .. | .loop .. | .join _ | .sMovi .. | .sLui .. => true
  | .add _ d x => x.wf ver .add d | .sub _ d x => x.wf ver .sub d
  | .mul _ d x => x.wf ver .mul d | .mulh _ g d x => x.wf ver (.mulh g) d
  | .and _ d x => x.wf ver .and d | .or _ d x => x.wf ver .or d
  | .xor _ d x => x.wf ver .xor d | .andn _ d x => x.wf ver .andn d
  | .shl _ d x => x.wf ver .shl d | .shr _ d x => x.wf ver .shr d
  | .sra _ d x => x.wf ver .sra d | .rot _ d x => x.wf ver .rot d
  | .min _ g d x => x.wf ver (.min g) d | .max _ g d x => x.wf ver (.max g) d
  | .mov _ d x => x.wf ver .mov d | .not _ d x => x.wf ver .not d
  | .abs _ d x => x.wf ver .abs d | .neg _ d x => x.wf ver .neg d
  | .clz _ d x => x.wf ver .clz d | .popc _ d x => x.wf ver .popc d
  | .brev _ d x => x.wf ver .brev d
  | .movi .. | .mad .. | .sad .. | .dot4 .. => true
  | .bfx _ _ _ _ _ w => widthOk w
  | .bfi _ _ _ _ _ w => widthOk w
  | .sel .. | .cmp .. | .div .. | .rem .. => true
  | .fadd _ d x => x.wf ver .fadd d | .fsub _ d x => x.wf ver .fsub d | .fmul _ d x => x.wf ver .fmul d
  | .fmin _ d x => x.wf ver .fmin d | .fmax _ d x => x.wf ver .fmax d | .ffma _ d x => x.wf ver .ffma d
  | .fcmp .. | .fclass .. | .frcp .. | .frsq .. | .fsqrt .. | .fex2 .. | .flg2 .. | .fsin .. | .fcos ..
  | .ftanh .. | .fcvt .. | .frnd .. => true
  | .badd2 _ d x => x.wf ver .badd2 d | .bmul2 _ d x => x.wf ver .bmul2 d
  | .bfma2 _ d x => ver == 3 && x.wf ver .bfma2 d
  | .bfma2V2 _ d x => ver == 2 && x.wf ver .bfma2 d
  | .shfl .. => true
  | .bal _ w d _ _ => !w || decide (d.toNat < 127)
  | .scan .. | .red .. | .cx .. | .vany .. | .vall .. => true
  | .meq _ w d _ => !w || decide (d.toNat < 127)
  | .bmAnd .. | .bmRank .. | .bmSel .. => true
  | .isect .. => eVer ver
  | .sow h _ => h.la == 0
  | .sowSg h _ => h.la == 0
  | .sowQ h d _ => ver == 3 && h.la == 0 && decide (d.toNat < 127)
  | .v2s .. | .s2v .. | .bdGet .. | .bdSet .. | .bdClr .. => true
  | .ld _ a t n d _ _ => accOk false false a && (n == .one || t == .b32) && rangeOk d n
  | .st _ a t n d _ _ => accOk true false a && (n == .one || t == .b32) && rangeOk d n
  | .atom _ o a _ d _ _ c _ => accOk false true a && (o == .cas || c == d)
  | .fence .. => true
  | .cpBlkLd _ _ r _ m _ => eVer ver && r.wf && isEven m
  | .cpBlkSt _ _ r _ m _ => eVer ver && r.wf && isEven m
  | .cpBlkMm _ _ r a b _ => eVer ver && r.wf && isEven a && isEven b
  | .cpTenLd _ _ r _ l => eVer ver && r.wf && isOct l
  | .cpTenSt _ _ r _ l => eVer ver && r.wf && isOct l
  | .cpTenLdBnd _ _ r _ l _ => eVer ver && r.wf && isOct l
  | .cpTenStBnd _ _ r _ l _ => eVer ver && r.wf && isOct l
  | .cpTenLdBnda _ _ r _ l => eVer ver && r.wf && isOct l
  | .cpTenLdBndw _ _ r _ l => eVer ver && r.wf && isOct l
  | .cpRed _ _ r dir _ a b _ => eVer ver && r.wf && decide (dir.toNat ≤ 2) && isEven b && (dir != 2 || isEven a)
  | .cpFillOc _ _ r _ _ _ => eVer ver && r.wf
  | .cpFillMm _ _ r _ m _ => eVer ver && r.wf && isEven m
  | .cpGat _ _ r _ d _ => eVer ver && r.wf && isOct d
  | .cpSct _ _ r _ d _ => eVer ver && r.wf && isOct d
  | .tkWait .. | .tkWaitSt .. => eVer ver
  | .rgAcqEmpty _ r | .rgAcqFull _ r | .rgRel _ r => eVer ver && (r.dyn || r.ea == 0)
  | .mxLdw _ _ f => eVer ver && isQuad f
  | .mxFlip _ => eVer ver
  | .mxRun _ _ _ _ f => eVer ver && isQuad f
  | .mxRunV _ _ _ v f => eVer ver && isQuad f && decide (v.toNat ≤ 96)
  | .mxCmatId .. | .mxCmatTr .. | .mxCmatPerm .. | .mxCmatSum .. => eVer ver
  | .mxDrain _ _ _ f s rm x y _ =>
    eVer ver && drainOk f s rm && decide (x.toNat ≤ y.toNat) && decide (y.toNat < x.toNat + 16)
  | .mxZero .. | .mxFence _ | .mxWait .. | .mxBeg .. => eVer ver
  | .mxRedo .. => ver == 3
  | .susp .. | .evAdd .. | .evAddRet .. | .evSet .. | .evGet .. | .barSwath | .barTeam | .barGang => eVer ver
  | .sgNew _ _ p => eVer ver && isQuad p
  | .sgJoin .. | .sgJoinClr _ => eVer ver
  | .sgVote _ _ h => eVer ver && isEven h
  | .sgVoteAbst .. | .sgCpt _ | .sgStatSt .. => eVer ver
  | .sgStatHash _ d _ => eVer ver && isEven d
  | .sgStatWait .. | .sgFree .. => eVer ver
  | .lnch _ _ _ c | .lnchTry _ _ _ c | .post _ _ _ c | .postTry _ _ _ c => eVer ver && isEven c
  | .trap _ | .scall _ | .brk _ | .eret | .eretFc .. | .idle => eVer ver
  | .srGet _ r d => eVer ver && (sysWidth r.toNat).isSome && sysPairOk r.toNat d
  | .srSet _ r s => eVer ver && (sysWidth r.toNat).isSome && sysWritable r.toNat && sysPairOk r.toNat s
  | .tlbInvPage _ v => eVer ver && isEven v
  | .tlbInvAsid _ | .tlbInvAll | .tlbSync => eVer ver
  | .pgProbe d _ v => eVer ver && isEven v && isQuad d
  | .dqPush _ _ _ d | .dqPushTry _ _ _ d | .dqPop _ _ _ d | .dqPopTry _ _ _ d => eVer ver && isEven d
  | .nxPut _ d _ _ | .nxGet _ d _ _ | .nxSig _ d _ _ => eVer ver && isOct d
  | .nxAtom _ o d v _ => eVer ver && isOct d && (o != .cas || isEven v)
  | .nxProbe _ rt r => eVer ver && isQuad rt && isEven r
  | .nxTopo _ m _ | .nxTree _ m _ => eVer ver && isEven m
  | .lgAppTok _ _ a _ _ | .lgAppCommit _ _ a _ _ | .lgAppVoid _ _ a _ _ => eVer ver && isEven a
  | _ => false

end Sys2Proof
end

