-- ==== Sys2Proof/Certificates/Slice0/Obligations.lean ====
section
/-! DEFINITION. The statements for the provers, and the terms they share. -/

open Sys2Proof Sys2Proof.Machine

namespace Sys2Proof.Claims

/-! ### Terms: arithmetic, in the words of Lean's own bit vectors -/

/-- Which of two words is taken: the second where `swap` holds. -/
def choice (swap : Bool) (a b : Word) : Word := if swap then b else a

/-- The results of R117 and R124, and those of R134, R135 and R141 by the exact value, rounded once. -/
def opValue (rm : Rm) (op : ClassA) (a b c : Word) : Word :=
  match op with
  | .add => a + b
  | .sub => a - b
  | .mul => a * b
  | .mulh .i32 => ((a.signExtend 64 * b.signExtend 64) >>> 32).setWidth 32
  | .mulh .n32 => ((a.setWidth 64 * b.setWidth 64) >>> 32).setWidth 32
  | .and => a &&& b
  | .or => a ||| b
  | .xor => a ^^^ b
  | .andn => a &&& ~~~b
  | .shl => if 32 ≤ b.toNat then 0 else a <<< b.toNat
  | .shr => if 32 ≤ b.toNat then 0 else a >>> b.toNat
  | .sra => a.sshiftRight (Min.min b.toNat 31)
  | .rot => a.rotateLeft b.toNat
  | .min .i32 => choice (b.slt a) a b
  | .min .n32 => choice (b.ult a) a b
  | .max .i32 => choice (a.slt b) a b
  | .max .n32 => choice (a.ult b) a b
  | .mov => a
  | .not => ~~~a
  | .abs => if a.msb then -a else a
  | .neg => -a
  | .clz => a.clz
  | .popc => a.cpop
  | .brev => a.reverse
  | .fadd => BitVec.ofNat 32 (encR .f32 false rm (FVal.add rm (val .f32 a.toNat) (val .f32 b.toNat)))
  | .fsub => BitVec.ofNat 32 (encR .f32 false rm (FVal.add rm (val .f32 a.toNat) (FVal.negate (val .f32 b.toNat))))
  | .fmul => BitVec.ofNat 32 (encR .f32 false rm (FVal.mul (val .f32 a.toNat) (val .f32 b.toNat)))
  | .ffma => BitVec.ofNat 32 (encR .f32 false rm
      (FVal.add rm (FVal.mul (val .f32 a.toNat) (val .f32 b.toNat)) (val .f32 c.toNat)))
  | .fmin => fpick false a b
  | .fmax => fpick true a b
  | .badd2 => bf16x2 rm (fun x y _ => FVal.add rm x y) a b c
  | .bmul2 => bf16x2 rm (fun x y _ => FVal.mul x y) a b c
  | .bfma2 => bf16x2 rm (fun x y z => FVal.add rm (FVal.mul x y) z) a b c

/-- The truth of a condition on two words, read signed or unsigned (R30). -/
def holds (cc : Cond) (g : Sgn) (a b : Word) : Bool :=
  let lt := fun x y : Word => match g with
    | .i32 => x.slt y
    | .n32 => x.ult y
  match cc with
  | .eq => a == b
  | .ne => a != b
  | .lt => lt a b
  | .le => !lt b a
  | .gt => lt b a
  | .ge => !lt a b

/-! ### Terms: which word computes what -/

/-- A U-word that writes one uniform register, and the value that R117 to R120 give it. -/
def uniformValue (c : Ctx) : Instr → Option (SReg × Word)
  | .sAdd d a b => some (d, opValue .ne .add (rdS c a) (rdS c b) 0)
  | .sAddImm d a i => some (d, opValue .ne .add (rdS c a) (i.signExtend 32) 0)
  | .sSub d a b => some (d, opValue .ne .sub (rdS c a) (rdS c b) 0)
  | .sSubImm d a i => some (d, opValue .ne .sub (rdS c a) (i.signExtend 32) 0)
  | .sMul d a b => some (d, opValue .ne .mul (rdS c a) (rdS c b) 0)
  | .sMulImm d a i => some (d, opValue .ne .mul (rdS c a) (i.signExtend 32) 0)
  | .sMulhI32 d a b => some (d, opValue .ne (.mulh .i32) (rdS c a) (rdS c b) 0)
  | .sMulhI32Imm d a i => some (d, opValue .ne (.mulh .i32) (rdS c a) (i.signExtend 32) 0)
  | .sMulhN32 d a b => some (d, opValue .ne (.mulh .n32) (rdS c a) (rdS c b) 0)
  | .sMulhN32Imm d a i => some (d, opValue .ne (.mulh .n32) (rdS c a) (i.signExtend 32) 0)
  | .sAnd d a b => some (d, opValue .ne .and (rdS c a) (rdS c b) 0)
  | .sAndImm d a i => some (d, opValue .ne .and (rdS c a) (i.signExtend 32) 0)
  | .sOr d a b => some (d, opValue .ne .or (rdS c a) (rdS c b) 0)
  | .sOrImm d a i => some (d, opValue .ne .or (rdS c a) (i.signExtend 32) 0)
  | .sXor d a b => some (d, opValue .ne .xor (rdS c a) (rdS c b) 0)
  | .sXorImm d a i => some (d, opValue .ne .xor (rdS c a) (i.signExtend 32) 0)
  | .sShl d a b => some (d, opValue .ne .shl (rdS c a) (rdS c b) 0)
  | .sShlImm d a i => some (d, opValue .ne .shl (rdS c a) (i.signExtend 32) 0)
  | .sShr d a b => some (d, opValue .ne .shr (rdS c a) (rdS c b) 0)
  | .sShrImm d a i => some (d, opValue .ne .shr (rdS c a) (i.signExtend 32) 0)
  | .sSra d a b => some (d, opValue .ne .sra (rdS c a) (rdS c b) 0)
  | .sSraImm d a i => some (d, opValue .ne .sra (rdS c a) (i.signExtend 32) 0)
  | .sMinI32 d a b => some (d, opValue .ne (.min .i32) (rdS c a) (rdS c b) 0)
  | .sMinI32Imm d a i => some (d, opValue .ne (.min .i32) (rdS c a) (i.signExtend 32) 0)
  | .sMinN32 d a b => some (d, opValue .ne (.min .n32) (rdS c a) (rdS c b) 0)
  | .sMinN32Imm d a i => some (d, opValue .ne (.min .n32) (rdS c a) (i.signExtend 32) 0)
  | .sMaxI32 d a b => some (d, opValue .ne (.max .i32) (rdS c a) (rdS c b) 0)
  | .sMaxI32Imm d a i => some (d, opValue .ne (.max .i32) (rdS c a) (i.signExtend 32) 0)
  | .sMaxN32 d a b => some (d, opValue .ne (.max .n32) (rdS c a) (rdS c b) 0)
  | .sMaxN32Imm d a i => some (d, opValue .ne (.max .n32) (rdS c a) (i.signExtend 32) 0)
  | .sSel d a b neg q => some (d, if rdQ c q != neg then rdS c a else rdS c b)
  | .sMov d a => some (d, rdS c a)
  | .sMovSpecial d x => some (d, specialVal c x ((positions c.unit.mask).headD 0))
  | .sPopc d a => some (d, (rdS c a).cpop)
  | .sClz d a => some (d, (rdS c a).clz)
  | .sBfx d a w pos => some (d, ((rdS c a).extractLsb' pos.toNat (Min.min w.toNat (32 - pos.toNat))).setWidth 32)
  | .sAddi d a i => some (d, rdS c a + i.signExtend 32)
  | .sMovi d i => some (d, i.signExtend 32)
  | .sLui d i => some (d, i.setWidth 32 <<< 12)
  | _ => none

/-- A U-word that writes one uniform predicate, and the value that R118 gives it. -/
def uniformTruth (c : Ctx) : Instr → Option (Ix3 × Bool)
  | .sCmpI32 cc d a b => some (d, holds cc .i32 (rdS c a) (rdS c b))
  | .sCmpI32Imm cc d a i => some (d, holds cc .i32 (rdS c a) (i.signExtend 32))
  | .sCmpN32 cc d a b => some (d, holds cc .n32 (rdS c a) (rdS c b))
  | .sCmpN32Imm cc d a i => some (d, holds cc .n32 (rdS c a) (i.signExtend 32))
  | .sQop .and d a b => some (d, rdQ c a && rdQ c b)
  | .sQop .or d a b => some (d, rdQ c a || rdQ c b)
  | .sQop .xor d a b => some (d, xor (rdQ c a) (rdQ c b))
  | .sQop .andn d a b => some (d, rdQ c a && !rdQ c b)
  | .sQop .not d a _ => some (d, !rdQ c a)
  | _ => none

/-- A class-A word: its header, operation, rounding, destination and first and second sources for a thread, the third
source, and the operation in slot B of a pair. -/
structure ClassAWord where
  h      : Hdr
  op     : ClassA
  rm     : Rm
  vd     : VReg
  a      : Nat → Word
  b      : Nat → Word
  z      : Nat → Word
  second : Option PairOp

/-- A two-source integer word as a class-A word (R123, R37). -/
def ofBin (c : Ctx) (h : Hdr) (op : ClassA) (vd : VReg) : Bin → ClassAWord
  | .one a b => ⟨h, op, .ne, vd, fun p => rdA c p a, fun p => rdB c p b, fun _ => 0, none⟩
  | .pair a b q => ⟨h, op, .ne, vd, fun p => rdV c p a, fun p => rdV c p b, fun _ => 0, some q⟩
/-- A one-source integer word as a class-A word. -/
def ofUn (c : Ctx) (h : Hdr) (op : ClassA) (vd : VReg) : Un → ClassAWord
  | .one a => ⟨h, op, .ne, vd, fun p => rdA c p a, fun _ => 0, fun _ => 0, none⟩
  | .pair a q => ⟨h, op, .ne, vd, fun p => rdV c p a, fun _ => 0, fun _ => 0, some q⟩
/-- A two-source floating word as a class-A word: a pair rounds to nearest even (R37). -/
def ofFBin (c : Ctx) (h : Hdr) (op : ClassA) (vd : VReg) : FBin → ClassAWord
  | .one a b rm => ⟨h, op, rm, vd, fun p => rdV c p a, fun p => rdV c p b, fun _ => 0, none⟩
  | .pair a b q => ⟨h, op, .ne, vd, fun p => rdV c p a, fun p => rdV c p b, fun _ => 0, some q⟩
/-- `fmin` and `fmax` as class-A words. -/
def ofFSel (c : Ctx) (h : Hdr) (op : ClassA) (vd : VReg) : FSel → ClassAWord
  | .one a b => ⟨h, op, .ne, vd, fun p => rdV c p a, fun p => rdV c p b, fun _ => 0, none⟩
  | .pair a b q => ⟨h, op, .ne, vd, fun p => rdV c p a, fun p => rdV c p b, fun _ => 0, some q⟩
/-- A fused word as a class-A word: in a pair the addend is the destination (R37). -/
def ofFTri (c : Ctx) (h : Hdr) (op : ClassA) (vd : VReg) : FTri → ClassAWord
  | .one a b z rm => ⟨h, op, rm, vd, fun p => rdV c p a, fun p => rdV c p b, fun p => rdV c p z, none⟩
  | .pair a b q => ⟨h, op, .ne, vd, fun p => rdV c p a, fun p => rdV c p b, fun p => rdV c p vd, some q⟩

/-- The integer class-A words (R124). -/
def integerClassA (c : Ctx) : Instr → Option ClassAWord
  | .add h d x => some (ofBin c h .add d x) | .sub h d x => some (ofBin c h .sub d x)
  | .mul h d x => some (ofBin c h .mul d x) | .mulh h g d x => some (ofBin c h (.mulh g) d x)
  | .and h d x => some (ofBin c h .and d x) | .or h d x => some (ofBin c h .or d x)
  | .xor h d x => some (ofBin c h .xor d x) | .andn h d x => some (ofBin c h .andn d x)
  | .shl h d x => some (ofBin c h .shl d x) | .shr h d x => some (ofBin c h .shr d x)
  | .sra h d x => some (ofBin c h .sra d x) | .rot h d x => some (ofBin c h .rot d x)
  | .min h g d x => some (ofBin c h (.min g) d x) | .max h g d x => some (ofBin c h (.max g) d x)
  | .mov h d x => some (ofUn c h .mov d x) | .not h d x => some (ofUn c h .not d x)
  | .abs h d x => some (ofUn c h .abs d x) | .neg h d x => some (ofUn c h .neg d x)
  | .clz h d x => some (ofUn c h .clz d x) | .popc h d x => some (ofUn c h .popc d x)
  | .brev h d x => some (ofUn c h .brev d x)
  | _ => none

/-- The floating class-A words (R134, R135, R141). -/
def floatingClassA (c : Ctx) : Instr → Option ClassAWord
  | .fadd h d x => some (ofFBin c h .fadd d x) | .fsub h d x => some (ofFBin c h .fsub d x)
  | .fmul h d x => some (ofFBin c h .fmul d x) | .fmin h d x => some (ofFSel c h .fmin d x)
  | .fmax h d x => some (ofFSel c h .fmax d x) | .ffma h d x => some (ofFTri c h .ffma d x)
  | .badd2 h d x => some (ofFBin c h .badd2 d x) | .bmul2 h d x => some (ofFBin c h .bmul2 d x)
  | .bfma2 h d x => some (ofFTri c h .bfma2 d x) | .bfma2V2 h d x => some (ofFTri c h .bfma2 d x)
  | _ => none

/-- The first operation's value for a thread. -/
def ClassAWord.value (w : ClassAWord) (p : Nat) : Word := opValue w.rm w.op (w.a p) (w.b p) (w.z p)
/-- The value of the operation in slot B for a thread: it reads registers, and its addend is its destination. -/
def secondValue (c : Ctx) (q : PairOp) (p : Nat) : Word := opValue .ne q.op (rdV c p q.va) (rdV c p q.vb) (rdV c p q.vd)

/-- The registers that a class-A word writes. -/
def ClassAWord.writes (c : Ctx) (w : ClassAWord) (k : RegKey) : Prop :=
  ∃ p ∈ activeOf c w.h, k = .v p w.vd.toNat ∨ ∃ q, w.second = some q ∧ k = .v p q.vd.toNat

/-- What a class-A word does (R38, R80, R123, R124): every active thread's destination takes the operation's value, both
operations of a pair reading before either writes, and nothing else changes. -/
def classARuns (i : Instr) (s : State) (c : Ctx) (w : ClassAWord) : Prop :=
  ∃ c', Does i s c c' ∧ RegisterFrame c c' (w.writes c) ∧ c'.stands (c.next 3)
    ∧ ∀ p ∈ activeOf c w.h, hasThread c p →
        Wrote c c' (.v p w.vd.toNat) (w.value p)
        ∧ ∀ q, w.second = some q → Wrote c c' (.v p q.vd.toNat) (secondValue c q p)

/-- A lane word that writes one vector register of each active thread, the value being the rule's. -/
def laneValue (c : Ctx) : Instr → Option (Hdr × VReg × (Nat → Word))
  | .movi h d i => some (h, d, fun _ => i)
  | .mad h d a b z => some (h, d, fun p => rdV c p a * rdB c p b + rdV c p z)
  | .bfx h .n32 d a pos w => some (h, d, fun p =>
      ((rdV c p a).extractLsb' pos.toNat (Min.min w.toNat (32 - pos.toNat))).setWidth 32)
  | .bfx h .i32 d a pos w => some (h, d, fun p =>
      ((rdV c p a).extractLsb' pos.toNat (Min.min w.toNat (32 - pos.toNat))).signExtend 32)
  | .bfi h d a b pos w => some (h, d, fun p =>
      let m := ((BitVec.allOnes (Min.min w.toNat (32 - pos.toNat))).setWidth 32) <<< pos.toNat
      (rdV c p a &&& ~~~m) ||| ((rdV c p b <<< pos.toNat) &&& m))
  | .sel h d a b neg q => some (h, d, fun p => if rdP c p q != neg then rdV c p a else rdB c p b)
  | .div h .i32 d a b => some (h, d, fun p => if rdB c p b = 0 then BitVec.allOnes 32 else (rdV c p a).sdiv (rdB c p b))
  | .div h .n32 d a b => some (h, d, fun p => if rdB c p b = 0 then BitVec.allOnes 32 else (rdV c p a).udiv (rdB c p b))
  | .rem h .i32 d a b => some (h, d, fun p => if rdB c p b = 0 then rdV c p a else (rdV c p a).srem (rdB c p b))
  | .rem h .n32 d a b => some (h, d, fun p => if rdB c p b = 0 then rdV c p a else (rdV c p a).umod (rdB c p b))
  | .s2v h d a => some (h, d, fun _ => rdS c a)
  | .bmRank h d a b z => some (h, d, fun p =>
      rdV c p z + (rdV c p a &&& (if 32 ≤ (rdB c p b).toNat then BitVec.allOnes 32 else (1#32 <<< (rdB c p b).toNat) - 1)).cpop)
  | .bmSel h d a b => some (h, d, fun p => BitVec.ofNat 32 (selBit (rdV c p a).toNat (rdB c p b).toNat 32))
  | .bdGet h d (.tile i) => some (h, d, fun p => (bdRow c (engineOf c) (.tile i) (rowOf c p)).setWidth 32)
  | .bdGet h d .a => some (h, d, fun p => (bdRow c (engineOf c) .a (rowOf c p)).setWidth 32)
  | .bdGet h d .w => some (h, d, fun p => bdRow c (engineOf c) .w (rowOf c p + 64) ++ bdRow c (engineOf c) .w (rowOf c p))
  | .sad h g d a b z => some (h, d, fun p => sadOf g (rdV c p a) (rdB c p b) (rdV c p z))
  | .dot4 h g sat d a b z => some (h, d, fun p => dot4Of g sat (rdV c p a) (rdB c p b) (rdV c p z))
  | _ => none

/-- A floating word other than class A that writes one vector register of each active thread (R137 to R140, R142, R143). -/
def floatValue (c : Ctx) : Instr → Option (Hdr × VReg × (Nat → Word))
  | .fclass h f d a => some (h, d, fun p => fclassOf f (rdV c p a))
  | .frcp h rm d a => some (h, d, fun p => frcpOf rm (rdV c p a))
  | .frsq h d a => some (h, d, fun p => frsqOf (rdV c p a))
  | .fsqrt h rm d a => some (h, d, fun p => fsqrtOf rm (rdV c p a))
  | .fex2 h d a => some (h, d, fun p => fex2Of (rdV c p a))
  | .flg2 h d a => some (h, d, fun p => flg2Of (rdV c p a))
  | .fsin h d a => some (h, d, fun p => ftrigOf false (rdV c p a))
  | .fcos h d a => some (h, d, fun p => ftrigOf true (rdV c p a))
  | .ftanh h d a => some (h, d, fun p => ftanhOf (rdV c p a))
  | .fcvt h sat rm dst src d a => some (h, d, fun p => fcvtOf sat rm dst src (rdV c p a))
  | .frnd h rm d a => some (h, d, fun p => frndOf rm (rdV c p a))
  | _ => none

/-- What such a word does. -/
def laneRuns (i : Instr) (s : State) (c : Ctx) (h : Hdr) (vd : VReg) (value : Nat → Word) : Prop :=
  ∃ c', Does i s c c' ∧ RegisterFrame c c' (fun k => ∃ p ∈ activeOf c h, k = .v p vd.toNat) ∧ c'.stands (c.next 3)
    ∧ ∀ p ∈ activeOf c h, hasThread c p → Wrote c c' (.v p vd.toNat) (value p)

/-- A lane word that writes one predicate of each active thread (R127, R136). -/
def laneTruth (c : Ctx) : Instr → Option (Hdr × Ix3 × (Nat → Bool))
  | .cmp h g cc d a b => some (h, d, fun p => holds cc g (rdV c p a) (rdB c p b))
  | .fcmp h cc d a b => some (h, d, fun p => condFloat cc (rdV c p a) (rdV c p b))
  | _ => none

/-! ### Terms: on-chip memory -/

/-- The bytes that a thread's element of an on-chip access lies at. -/
def laneBytesAt (c : Ctx) (spc : Space) (va : VReg) (off : Int) (n p : Nat) : List Nat :=
  rawAddrs c spc (some p) (laneAddr c spc va off p).toNat n

/-- Every active thread's access passes the checks of R190. -/
def laneChecked (c : Ctx) (h : Hdr) (spc : Space) (va : VReg) (off : Int) (n : Nat) (wr rd : Bool) : Prop :=
  ∀ p ∈ activeOf c h, accessCause c spc (some p) (laneAddr c spc va off p) n wr rd = none

/-- A uniform access passes the checks of R190. -/
def uniformChecked (c : Ctx) (spc : Space) (sa : SReg) (off n : Nat) (wr rd : Bool) : Prop :=
  accessCause c spc none (uAddr c spc sa off : Nat) n wr rd = none

/-- A core holds no copy of the scratchpad line of a byte, and no merged store to it: what it loads comes from the
scratchpad. -/
def lineFree (c : Ctx) (spc : Space) (x : Nat) : Prop :=
  spc = .sp → Tbl.find (coreOf c.st c.core).cache (x / 64) = none

/-- A byte that a load may return: what its core sees now, or, if the load is relaxed and reads team memory or a stack, what stood
before a store of the team's that need not have been seen (R288). -/
def mayRead (c : Ctx) (spc : Space) (rlx : Bool) (x : Nat) (b : Byte) : Prop :=
  b = seenByte c spc x ∨ (rlx = true ∧ spc ≠ .sp ∧ ∃ e ∈ c.team.past, e.within c spc = true ∧ e.addr = x ∧ e.old = b)

/-- Bytes that a load of some addresses may return. -/
def mayReadAll (c : Ctx) (spc : Space) (rlx : Bool) (as : List Nat) (bs : List Byte) : Prop :=
  bs.length = as.length ∧ ∀ (j x : Nat) (b : Byte), as[j]? = some x → bs[j]? = some b → mayRead c spc rlx x b

/-- No other core of its die holds a merged store to a scratchpad byte, so that no line that is promoted changes it. -/
def soleStore (c : Ctx) (spc : Space) (x : Nat) : Prop :=
  spc = .sp → ∀ k ∈ c.st.cores, k.1 ≠ c.core → k.1 / 128 = c.core / 128 → ∀ l ∈ k.2.cache, ∀ o b, (o, b) ∈ l.2.dirty →
    x ≠ 64 * l.1 + o

/-- The registers that a loaded number of a uniform type is written to, and their values (R200). -/
def uniformLoaded (c : Ctx) (ty : UTy) (sd : SReg) (x : Nat) : List (RegKey × Word) :=
  match ty with
  | .b32 => [(fieldKey c.sheaf sd, BitVec.ofNat 32 x)]
  | .n8 => [(fieldKey c.sheaf sd, (BitVec.ofNat 8 x).setWidth 32)]
  | .n16 => [(fieldKey c.sheaf sd, (BitVec.ofNat 16 x).setWidth 32)]
  | .i8 => [(fieldKey c.sheaf sd, (BitVec.ofNat 8 x).signExtend 32)]
  | .i16 => [(fieldKey c.sheaf sd, (BitVec.ofNat 16 x).signExtend 32)]
  | .w64 => [(fieldKey c.sheaf sd, BitVec.ofNat 32 x), (fieldKey c.sheaf (sd + 1), BitVec.ofNat 32 (x / 2 ^ 32))]

/-- An element loaded by `ld`, as its register holds it (R196). -/
def laneLoaded (ty : LTy) (x : Nat) : Word :=
  match ty with
  | .b32 => BitVec.ofNat 32 x
  | .n16 => (BitVec.ofNat 16 x).setWidth 32
  | .i16 => (BitVec.ofNat 16 x).signExtend 32
  | .n8 => (BitVec.ofNat 8 x).setWidth 32
  | .i8 => (BitVec.ofNat 8 x).signExtend 32

/-- What an atomic operation leaves at its bytes, from the old number and its operands (R197). -/
def atomLeaves (op : AOp) (g : Bool) (w old b new : Nat) : Nat :=
  let less := fun x y => if g then decide (sext x w < sext y w) else decide (x < y)
  match op with
  | .add => (old + b) % 2 ^ w
  | .min => if less b old then b else old
  | .max => if less old b then b else old
  | .and => old &&& b
  | .or => old ||| b
  | .xor => old ^^^ b
  | .exch => b
  | .cas => if old = b then new else old

/-! ### Terms: cross-thread words -/

/-- The state once every unit of the swath has waited for its tokens of the header, which releases the registers that their
commands held (R31, R247). -/
def afterWaits (c : Ctx) (h : Hdr) : State :=
  (swathUnits c.st c.tid c.slot).foldl (fun s u => waitedFor u s h.wait.toNat) c.st

/-- The units that a cross-thread word works on: its own, or those of its swath as that wait leaves them (R145). -/
def crossUnits (c : Ctx) (h : Hdr) (sw : Bool) : List Ctx := if sw then swathUnits (afterWaits c h) c.tid c.slot else [c]

/-- A swath-collective word takes effect now (R89): every sheaf of the swath lives, every unit stands at the word with no value on
its way to it, and no older swath's word is pending on one of its lanes. -/
def swathAt (c : Ctx) : Prop :=
  swathRetired c.st c.tid c.slot = false ∧ ((swathUnits c.st c.tid c.slot).map fun u => (u.slot, u.uid)).Nodup
    ∧ ∀ u ∈ swathUnits c.st c.tid c.slot, u.place = c.place ∧ u.unit.awaits = []
        ∧ yieldsTo c.st (swathUnits c.st c.tid c.slot) u = false

/-- The swath is at the word, and none of its units waits for a token of the header. -/
def swathMeets (c : Ctx) (h : Hdr) (sw : Bool) : Prop :=
  sw = true → swathAt c ∧ ∀ u ∈ swathUnits c.st c.tid c.slot, tokensPending u.sheaf h.wait.toNat = false

/-- The participants: each active thread of each unit. -/
def partners (c : Ctx) (h : Hdr) (sw : Bool) : List (Ctx × Nat) :=
  (crossUnits c h sw).flatMap fun u => (activeOf u h).map fun p => (u, p)

/-- A participant's virtual position (R144, R145). -/
def vposOf (sw : Bool) (x : Ctx × Nat) : Nat := (if sw then 16 * (x.1.slot % 4) else 0) + virtualPos x.1.sheaf x.2

/-- The mask, by virtual position, of the participants for which a test holds. -/
def voteMask (sw : Bool) (l : List (Ctx × Nat)) (f : Ctx × Nat → Bool) : Nat :=
  ((l.filter f).map fun x => 2 ^ vposOf sw x).sum

/-- A participant's value of a register. -/
def partnerV (va : VReg) (x : Ctx × Nat) : Word := rdV x.1 x.2 va

/-- The participant at a virtual position is `y`, and no other is. -/
def onlyAt (sw : Bool) (l : List (Ctx × Nat)) (n : Nat) (y : Ctx × Nat) : Prop :=
  y ∈ l ∧ ∀ z ∈ l, vposOf sw z = n ↔ z = y

/-- The position that `shfl` reads (R147). -/
def shuffleFrom (m : ShMode) (x d : Nat) : Int :=
  match m with
  | .idx => d
  | .up => (x : Int) - d
  | .down => x + d
  | .xor => ((x ^^^ d : Nat) : Int)

/-- What a cross-thread word writes to a participant `x`: register and value (R147 to R151). `scan` and `red` combine in
ascending virtual position. -/
def crossWrites (c : Ctx) (i : Instr) (x : Ctx × Nat) (k : RegKey) (v : Word) : Prop :=
  match i with
  | .shfl h m sw d a b =>
    let l := partners c h sw
    let y := shuffleFrom m (vposOf sw x) (rdB x.1 x.2 b).toNat
    k = .v x.2 d.toNat ∧
      ((∃ z, 0 ≤ y ∧ y < scopeWidth sw ∧ onlyAt sw l y.toNat z ∧ v = partnerV a z)
        ∨ ((y < 0 ∨ (scopeWidth sw : Int) ≤ y ∨ ∀ z ∈ l, (vposOf sw z : Int) ≠ y) ∧ v = partnerV a x))
  | .bal h sw d neg q =>
    let m := voteMask sw (partners c h sw) fun z => rdP z.1 z.2 q != neg
    (k = .v x.2 d.toNat ∧ v = BitVec.ofNat 32 m) ∨ (sw = true ∧ k = .v x.2 (d.toNat + 1) ∧ v = BitVec.ofNat 32 (m / 2 ^ 32))
  | .meq h sw d a =>
    let m := voteMask sw (partners c h sw) fun z => partnerV a z == partnerV a x
    (k = .v x.2 d.toNat ∧ v = BitVec.ofNat 32 m) ∨ (sw = true ∧ k = .v x.2 (d.toNat + 1) ∧ v = BitVec.ofNat 32 (m / 2 ^ 32))
  | .vany h sw d neg q =>
    d ≠ 7 ∧ k = .p x.2 d.toNat ∧ v = ofBool ((partners c h sw).any fun z => rdP z.1 z.2 q != neg)
  | .vall h sw d neg q =>
    d ≠ 7 ∧ k = .p x.2 d.toNat ∧ v = ofBool ((partners c h sw).all fun z => rdP z.1 z.2 q != neg)
  | .scan h op ex sw d a =>
    k = .v x.2 d.toNat ∧ ∃ l : List (Ctx × Nat), l.Perm (partners c h sw) ∧ l.Pairwise (fun y z => vposOf sw y < vposOf sw z)
      ∧ match (l.filter fun y => decide (vposOf sw y < vposOf sw x) || (!ex && vposOf sw y == vposOf sw x)).map (partnerV a) with
        | [] => v = scanIdentity op
        | y :: ys => v = ys.foldl (scanStep op) y
  | .red h op sw d a =>
    k = .v x.2 d.toNat ∧ ∃ l : List (Ctx × Nat), l.Perm (partners c h sw) ∧ l.Pairwise (fun y z => vposOf sw y < vposOf sw z)
      ∧ ∃ y ys, l.map (partnerV a) = y :: ys ∧ v = ys.foldl (scanStep op) y
  | .cx h ty sw d a b neg q =>
    let l := partners c h sw
    let n := vposOf sw x ^^^ (rdB x.1 x.2 b).toNat
    k = .v x.2 d.toNat ∧
      (((scopeWidth sw ≤ n ∨ ∀ z ∈ l, vposOf sw z ≠ n) ∧ v = partnerV a x)
        ∨ ∃ z, n < scopeWidth sw ∧ onlyAt sw l n z ∧
          let low := if vposOf sw x < vposOf sw z then x else z
          let high := if vposOf sw x < vposOf sw z then z else x
          let swap := decide (cxKey ty (partnerV a high) < cxKey ty (partnerV a low))
          let lesser := if swap then partnerV a high else partnerV a low
          let greater := if swap then partnerV a low else partnerV a high
          v = if (vposOf sw x == vposOf sw low) == (rdP low.1 low.2 q != neg) then greater else lesser)
  | _ => False

/-- The header and scope of a cross-thread word. -/
def crossHead : Instr → Option (Hdr × Bool)
  | .shfl h _ sw _ _ _ | .bal h sw _ _ _ | .meq h sw _ _ | .vany h sw _ _ _ | .vall h sw _ _ _ | .scan h _ _ sw _ _
  | .red h _ sw _ _ | .cx h _ sw _ _ _ _ _ => some (h, sw)
  | _ => none

/-- The registers of a thread that a cross-thread word may write. -/
def crossDest (p : Nat) : Instr → List RegKey
  | .shfl _ _ _ d _ _ | .scan _ _ _ _ d _ | .red _ _ _ d _ | .cx _ _ _ d _ _ _ _ => [.v p d.toNat]
  | .bal _ sw d _ _ | .meq _ sw d _ => .v p d.toNat :: (if sw then [.v p (d.toNat + 1)] else [])
  | .vany _ _ d _ _ | .vall _ _ d _ _ => [.p p d.toNat]
  | _ => []

/-! ### Terms: traps -/

/-- The sheaf of the issuing unit after supervisor trap entry (R370, R372): what is saved, the level, the code base, and the
unit's place in the handler; every other field of the sheaf is as it was. -/
def trapEntered (c : Ctx) (cause sub cls : Nat) (info epc : Word) (mask : BitVec 16) (sum : DWord) (addr : Nat) (sh : Sheaf) :
    Prop :=
  sh.sys.sepc = epc ∧ sh.sys.scause = BitVec.ofNat 32 (cls * 2 ^ 16 + sub * 2 ^ 8 + cause) ∧ sh.sys.sinfo = info
  ∧ sh.sys.smask = mask.setWidth 32 ∧ sh.sys.ssum = sum ∧ sh.sys.saddr = BitVec.ofNat 64 addr
  ∧ sh.sys.sstat.getLsbD 0 = (c.sheaf.level != .user) ∧ sh.sys.sstat.getLsbD 1 = true
  ∧ (∀ i, 2 ≤ i → sh.sys.sstat.getLsbD i = c.sheaf.sys.sstat.getLsbD i)
  ∧ sh.level = .supervisor ∧ sh.svFetch = true ∧ sh.svAt = c.st.svbase ∧ sh.trapped = some c.uid
  ∧ Tbl.find sh.units c.uid = some { c.unit with pc := BitVec.ofNat 32 (256 * cls), wait := .ready, wins := [] }
  ∧ (∀ u, u ≠ c.uid → Tbl.find sh.units u = Tbl.find c.sheaf.units u)
  ∧ { sh with sys := c.sheaf.sys, level := c.sheaf.level, svFetch := c.sheaf.svFetch, svAt := c.sheaf.svAt,
              trapped := c.sheaf.trapped, units := c.sheaf.units } = c.sheaf
  ∧ { sh.sys with sepc := c.sheaf.sys.sepc, scause := c.sheaf.sys.scause, sinfo := c.sheaf.sys.sinfo, smask := c.sheaf.sys.smask,
                  ssum := c.sheaf.sys.ssum, saddr := c.sheaf.sys.saddr, sstat := c.sheaf.sys.sstat } = c.sheaf.sys

/-- A state in which the issuing unit has taken a supervisor trap: its sheaf as `trapEntered` says, and apart from that, and
from the cycle that a call-class word took, the device as it was. -/
def trapTaken (c : Ctx) (cause sub cls : Nat) (info epc : Word) (mask : BitVec 16) (sum : DWord) (addr : Nat) (t : State) :
    Prop :=
  ∃ tm sh, Tbl.find t.teams c.tid = some tm ∧ Tbl.find tm.sheaves c.slot = some sh
  ∧ trapEntered c cause sub cls info epc mask sum addr sh
  ∧ (∀ sl, sl ≠ c.slot → Tbl.find tm.sheaves sl = Tbl.find c.team.sheaves sl)
  ∧ { tm with sheaves := c.team.sheaves, counters := c.team.counters, acct := c.team.acct, eligible := c.team.eligible } = c.team
  ∧ (∀ tid, tid ≠ c.tid → Tbl.find t.teams tid = Tbl.find c.st.teams tid)
  ∧ { t with teams := c.st.teams, lanes := c.st.lanes } = c.st
  ∧ (cls ≠ 2 → tm.counters = c.team.counters ∧ tm.acct = c.team.acct ∧ t.lanes = c.st.lanes)

/-- A trap of a sheaf that handles one already (R372 step 2): the context's forced reset with reason 3, for context 0 that of every
context. -/
def doubleFault (c : Ctx) (s : State) : State := if c.team.asid = 0 then resetAll s 3 else forcedReset s c.team.asid 3

/-- A word that is a cancellation point before its checks (R389), at which threads of its unit are cancelled. -/
def endsThreadsFirst (c : Ctx) : Instr → Bool
  | .sow .. | .sowSg .. | .barSwath => goneAt c != 0
  | _ => false

/-! ### Terms: units, rounds and barriers -/

/-- The unit once every lookahead window of its earlier words has ended (R94). -/
def closed (c : Ctx) : Ctx := { c with unit := { c.unit with wins := [] } }

/-- The threads of a unit that take a `bv` (R85). -/
def takes (c : Ctx) (neg : Bool) (p : Ix3) : BitVec 16 :=
  maskOf ((positions c.unit.mask).filter fun x => rdP (closed c) x p != neg)

/-- No swath of the unit's sheaf waits at a collective word. -/
def swathFree (c : Ctx) : Prop := ∀ u ∈ swathUnits c.st c.tid c.slot, u.unit.wait.isSwath = false

/-- Another unit of the team is ready, so that what this unit does completes no round and no barrier of the team. -/
def othersGoOn (c : Ctx) : Prop :=
  ∃ u ∈ teamUnits c.st c.tid, (u.slot, u.uid) ≠ (c.slot, c.uid) ∧ u.unit.wait = .ready

/-- No parked side of the unit's sheaf waits for this unit to let it run: another unit of the sheaf is ready, or no side is parked there
(R159, R307). -/
def sidesStay (c : Ctx) : Prop :=
  (∃ u ∈ c.sheaf.units, u.1 ≠ c.uid ∧ u.2.wait = .ready) ∨ ∀ r ∈ c.sheaf.splits, r.2.parked = []

/-- No gang but a team's own has a unit waiting at a `bar.gang` that can complete or fail now: where one waits, a team of its gang is swapped
out, or a unit of the gang has yet to arrive at a barrier of the gang or a round (R307, R308). -/
def noGangWaits (s : State) (tid : Nat) : Prop :=
  ∀ t ∈ s.teams, tid ∉ gangOf s t.2 → (∃ u ∈ teamUnits s t.1, u.unit.wait = .barGang) →
    (∃ i ∈ gangOf s t.2, ∃ x, Tbl.find s.teams i = some x ∧ x.out = true)
      ∨ ∃ i ∈ gangOf s t.2, ∃ u ∈ teamUnits s i, u.unit.wait ≠ .barGang ∧ atRound u.unit.wait = false

/-- A sheaf as a state holds it. -/
def sheafAt (s : State) (tid slot : Nat) : Option Sheaf := (Tbl.find s.teams tid).bind fun t => Tbl.find t.sheaves slot

/-- The issuing unit is the last of its team to arrive at a meeting: every other unit of the team waits as `w` says and no
split record stands. -/
def lastToArrive (c : Ctx) (w : Wait) : Prop :=
  c.team.out = false ∧ c.team.ended = false ∧ c.team.hold ≠ .fault
  ∧ (∀ u ∈ teamUnits c.st c.tid, (u.slot, u.uid) ≠ (c.slot, c.uid) → u.unit.wait = w)
  ∧ (∀ sh ∈ c.team.sheaves, sh.2.splits = [])

/-- The threads of a team as a round word finds them: registers, count and whether active; one that is not counts `off`
(R158, R161). -/
def arrivalsOf (c : Ctx) (h : Hdr) (va : VReg) (off : Nat) : List Arrived :=
  (teamUnits c.st c.tid).flatMap fun u => (positions u.unit.mask).map fun p =>
    let act := rdP (closed u) p h.pred != h.neg
    ⟨u.slot, p, threadAt u.sheaf p, if act then (readReg (closed u) (.v p va.toNat)).toNat else off, act⟩

/-- A list of arrivals in ascending rank. -/
def inRank (l arr : List Arrived) : Prop := arr.Perm l ∧ arr.Pairwise fun a b => a.th.rank < b.th.rank

/-- A round of `sow` that takes place leaves its team so (R161 to R163): round number, and every survivor whose slice index
is below the capacity at its slot and position, with its parent's registers. -/
def roundPlaced (c : Ctx) (sg : Bool) (arr : List Arrived) (t : State) : Prop :=
  ∃ tm, Tbl.find t.teams c.tid = some tm ∧ tm.round = c.team.round + 1
  ∧ ∀ slot sh, Tbl.find c.team.sheaves slot = some sh → ∃ sh', Tbl.find tm.sheaves slot = some sh'
    ∧ sh'.s = sh.s ∧ sh'.ss = sh.ss ∧ sh'.q = sh.q ∧ sh'.tok = sh.tok ∧ sh'.splits = []
    ∧ (let n := Min.min 16 (Min.min (arr.map (·.n)).sum c.team.capacity - 16 * slot)
       (n = 0 → sh'.units = [])
       ∧ (0 < n → ∃ id u, sh'.units = [(id, u)] ∧ u.mask = BitVec.ofNat 16 (2 ^ n - 1) ∧ u.pc = c.next 3 ∧ u.wait = .ready
            ∧ u.inner = none ∧ u.age = sh.age))
    ∧ ∀ l1 a l2 o, arr = l1 ++ a :: l2 → o < a.n → (l1.map (·.n)).sum + o < c.team.capacity →
        ((l1.map (·.n)).sum + o) / 16 = slot →
        Tbl.find sh'.threads (((l1.map (·.n)).sum + o) % 16) = some
          ⟨a.th.v, a.th.p, BitVec.ofNat 32 o, Tbl.get 0 c.team.totals (c.team.round + 1) + (l1.map (·.n)).sum + o,
           if sg && a.th.tag.getLsbD 31 then tagWith a.th.tag o else a.th.tag⟩

/-- A round leaves its team a survivor, or a record of its silo to resume with no unit of its gang at a barrier meanwhile. -/
def placesSome (c : Ctx) (arr : List Arrived) : Prop :=
  0 < (arr.map (·.n)).sum
    ∨ (c.team.levels ≠ [] ∧ ∀ i ∈ gangOf c.st c.team, ∀ u ∈ teamUnits c.st i, u.unit.wait ≠ .barGang)

/-- The word whose round a `sow` arrives at. -/
def sowWord (sg : Bool) (h : Hdr) (va : VReg) : RoundWord := ⟨if sg then .sowSg else .sow, va.toNat, 0, h.pred.toNat, h.neg⟩

/-! ### Terms: engines -/

/-- The row of a bound source as the engine holds it. -/
def rowNow (e : Engine) (x : BdSrc) (row : Nat) : BitVec 16 :=
  match x with
  | .tile i => Tbl.get 0 e.bounds (i.toNat * 64 + row)
  | .a => Tbl.get 0 e.aBuf row
  | .w => Tbl.get 0 e.wBuf row

/-- No pending command names a bound source (R247). -/
def rowsFree (c : Ctx) (x : BdSrc) : Prop :=
  ∀ i, x = .tile i → tilePending (engineOf c) i.toNat = false

/-- The row whose lower half of W a thread owns, or its row. -/
def bdRows (c : Ctx) (x : BdSrc) (p : Nat) : List Nat := rowOf c p :: if x = .w then [rowOf c p + 64] else []

/-- The copy words: token, ring slot, and what each carries and checks (R210, R212, R215 to R221). -/
def copyOf (c : Ctx) : Instr → Option (Ix3 × Ring × CopyArgs)
  | .cpBlkLd _ tk r oc m n => some (tk, r, chipArgs .blkLd c oc m n true)
  | .cpBlkSt _ tk r oc m n => some (tk, r, chipArgs .blkSt c oc m n false)
  | .cpBlkMm _ tk r x y n => some (tk, r, mainArgs .blkMm c x y n)
  | .cpTenLd _ tk r oc l => some (tk, r, tenArgs .tenLd c oc l true 0 [])
  | .cpTenSt _ tk r oc l => some (tk, r, tenArgs .tenSt c oc l false 0 [])
  | .cpTenLdBnd _ tk r oc l i => some (tk, r, tenArgs (.tenLdBnd i.toNat) c oc l true 64 [])
  | .cpTenStBnd _ tk r oc l i =>
    some (tk, r, tenArgs (.tenStBnd i.toNat) c oc l false 64 ((upto 64).map (boundRow (engineOf c) i.toNat)))
  | .cpTenLdBnda _ tk r oc l => some (tk, r, tenArgs .tenLdBnda c oc l true 64 [])
  | .cpTenLdBndw _ tk r oc l => some (tk, r, tenArgs .tenLdBndw c oc l true 128 [])
  | .cpRed _ tk r dir op ea eb n => some (tk, r,
      if dir = 0 then chipArgs (.redLd op) c ea eb n true else if dir = 1 then chipArgs (.redSt op) c ea eb n false
      else mainArgs (.redMm op) c ea eb n)
  | .cpFillOc _ tk r oc pat n => some (tk, r,
      ⟨.fillOc, false, rdS c oc, pair (rdS c pat) 0, 0, (rdS c n).toNat, [], [],
       if (ocSpace (rdS c oc)).isNone then some (18, 1)
       else if ocOff (rdS c oc) % 4 ≠ 0 ∨ (rdS c n).toNat % 4 ≠ 0 then some (4, 0) else ocRange c (rdS c oc) (rdS c n).toNat true⟩)
  | .cpFillMm _ tk r pat m n => some (tk, r,
      ⟨.fillMm, false, rdS c pat, rdPair c m, 0, (rdS c n).toNat, [], [],
       if 2 ^ 56 ≤ (rdPair c m).toNat then some (11, 0)
       else if (rdPair c m).toNat % 4 ≠ 0 ∨ (rdS c n).toNat % 4 ≠ 0 then some (4, 0) else none⟩)
  | .cpGat _ tk r z d lim => some (tk, r,
      ⟨.gat z.toNat, true, rdS c d, 0, 0, (rdS c lim).toNat, rdEight c d, [], gatCheck c (rdEight c d) z.toNat false⟩)
  | .cpSct _ tk r z d lim => some (tk, r,
      ⟨.sct z.toNat, true, rdS c d, 0, 0, (rdS c lim).toNat, rdEight c d, [], gatCheck c (rdEight c d) z.toNat true⟩)
  | _ => none

/-- The queue that a copy or an append enters. -/
def queueFor (c : Ctx) (gather : Bool) : List CopyCmd :=
  if gather then (dieOf c.st c.team.die).gather else (coreOf c.st c.core).streamer

/-- A matrix word that enters the queue: token, registers held, whether they are a drain's, operation and checks (R243,
R244). -/
structure MxWord where
  tk    : Option Ix3
  regs  : List Nat
  drain : Bool
  op    : MxOp
  check : Option (Nat × Nat)

/-- The matrix words that go through the queue, `l` being the sheaf whose uniform operands are read (R241). -/
def matrixOf (l : Ctx) : Instr → Option MxWord
  | .mxLdw _ w f => some ⟨none, [], false, .ldw (rdS l w) (rdSk l f 2) (rdSk l f 3), halfCheck l (some (rdS l w)) (rdSk l f 2) (rdSk l f 3) true⟩
  | .mxFlip _ => some ⟨none, [], false, .flip, none⟩
  | .mxRun _ tk i a f => some ⟨some tk, [], false, .run i.toNat (rdS l a) (rdSk l f 0) (rdSk l f 1),
      halfCheck l (some (rdS l a)) (rdSk l f 0) (rdSk l f 1) false⟩
  | .mxRunV _ tk i vx f => some ⟨some tk, (upto 32).map (vx.toNat + ·), false, .runV i.toNat vx.toNat (rdSk l f 0) (rdSk l f 1),
      halfCheck l none (rdSk l f 0) (rdSk l f 1) false⟩
  | .mxCmatId _ tk i => some ⟨some tk, [], false, .cmatId i.toNat, planeCheck l⟩
  | .mxCmatTr _ tk i => some ⟨some tk, [], false, .cmatTr i.toNat, planeCheck l⟩
  | .mxCmatPerm _ tk i vx => some ⟨some tk, [vx.toNat], false, .cmatPerm i.toNat vx.toNat, planeCheck l⟩
  | .mxCmatSum _ tk i => some ⟨some tk, [], false, .cmatSum i.toNat, planeCheck l⟩
  | .mxDrain _ tk i fmt sat rm vx vy cb => some ⟨some tk, (upto (vy.toNat - vx.toNat + 1)).map (vx.toNat + ·), true,
      .drain i.toNat fmt sat rm vx.toNat vy.toNat (rdS l cb).toNat,
      if (rdS l cb).toNat % drainElems fmt ≠ 0 then some (4, 0)
      else if 64 < (rdS l cb).toNat + (vy.toNat - vx.toNat + 1) * drainElems fmt then some (17, 2) else none⟩
  | .mxZero _ i => some ⟨none, [], false, .zero i.toNat, none⟩
  | _ => none

/-- The units for which a matrix word takes effect: the unit alone, or those of its swath, all of them at the word (R241,
R89). -/
def matrixUnits (c : Ctx) (us : List Ctx) : Prop :=
  if inSwath c.sheaf then us = swathUnits c.st c.tid c.slot ∧ swathAt c else us = [c]

/-- After a matrix word: every unit stands at its next word with its registers as they were. -/
def matrixPassed (us : List Ctx) (t : State) (sheaf : Sheaf → Sheaf → Prop) : Prop :=
  ∀ u ∈ us, ∃ u', unitAt t u.tid u.slot u.uid = some u' ∧ u'.stands (u.next 2) ∧ u'.unit.mask = u.unit.mask
    ∧ (∀ k, readKey u'.sheaf k = readKey u.sheaf k) ∧ sheaf u.sheaf u'.sheaf

/-! ### Terms: words that send a request or a command -/

/-- The unit waits at its word for a reply, having sent its request. -/
def waitsFor (c c' : Ctx) (w : Wait) : Prop := c'.unit.pc = c.unit.pc ∧ c'.unit.wait = w

/-- A value on its way has arrived: its register holds it, no other changes, it is on its way no longer, and a word that waited for
it may issue (R94, R303, R326). -/
def arrived (c c' : Ctx) (a : Await) (v : Word) : Prop :=
  Wrote c c' (.s a.dst) v ∧ (∀ k, k ≠ .s a.dst → readKey c'.sheaf k = readKey c.sheaf k) ∧ c'.unit.pc = c.unit.pc
    ∧ c'.unit.awaits = c.unit.awaits.filter (fun x => x.id != a.id)
    ∧ c'.unit.wait = if c.unit.wait = .reply a.id then .ready else c.unit.wait

/-- The group that a tag word names passes the checks of R322. -/
def groupNamed (c : Ctx) (w : Word) (join : Bool) (g : Group) : Prop :=
  descBad c.st c.team.asid = false ∧ groupCheck c.st c.team.asid w join = none ∧ groupAt c.st (tagDie w) (tagIdx w) = some g

/-- A request of the unit to a ballot array (R326). -/
def ballotOf (c : Ctx) (op : BallotOp) (die : Nat) (w : Word) : BallotReq :=
  ⟨c.st.nextId, op, die, w, c.team.asid, c.tid, c.slot, c.uid, false, c.team.die, 0⟩

/-- A request of the unit to a counter (R301, R303, R304). -/
def requestOf (c : Ctx) (op : EvOp) (ctr : Nat) (v cont : Word) (fc : Bool) : EvReq :=
  ⟨c.st.nextId, op, ctr, v, c.tid, c.slot, c.uid, cont, fc, c.team.die⟩

/-- The unit has gone on to its next word, the value of its new request on its way to the register that a field names, which words
of the lookahead may run ahead of (R94, R303, R326). -/
def goesOnAwaiting (c c' : Ctx) (sd : SReg) (la : BitVec 4) : Prop :=
  c'.stands (c.next 2) ∧ c'.unit.awaits = tickAwaits c.unit.awaits ++ [⟨c.st.nextId, fieldIx c sd, la.toNat⟩]

/-- The threads of a unit carry a tag, and no other thread's tag changes (R324). -/
def retagged (c c' : Ctx) (w : Word) : Prop :=
  ∀ p, (Tbl.find c'.sheaf.threads p).map (·.tag)
    = (Tbl.find c.sheaf.threads p).map fun t => if c.unit.mask.getLsbD p then w else t.tag

/-- The launch words: token, queue name, card address, whether a child, whether `.try` (R348). -/
def launchOf : Instr → Option (Ix3 × SReg × SReg × Bool × Bool)
  | .lnch _ tk q a => some (tk, q, a, true, false)
  | .lnchTry _ tk q a => some (tk, q, a, true, true)
  | .post _ tk q a => some (tk, q, a, false, false)
  | .postTry _ tk q a => some (tk, q, a, false, true)
  | _ => none

/-- The base of the launch queue window that a user's name word goes through: none at supervisor level (R345, R349). -/
def queueBase (c : Ctx) (n : Word) : Nat :=
  if c.sheaf.level = .user then bits (descWin c.st c.team.asid 0x50 (bits n.toNat 25 24)).toNat 5 0 else 0

/-- The system registers of 32 bits that one read gives (R367). -/
def register32 (c : Ctx) (n : Nat) : Option Word :=
  let r := c.sheaf.sys
  let d := dieOf c.st c.team.die
  match n with
  | 0x004 => some (BitVec.ofNat 32 (d.fset + 256 * d.fcur + if d.busy then 65536 else 0))
  | 0x005 => some c.st.lattol | 0x010 => some r.utvec | 0x011 => some r.fcont | 0x012 => some r.bthr | 0x013 => some r.bmode
  | 0x014 => some r.uepc | 0x015 => some r.ucause | 0x017 => some r.fret | 0x018 => some r.fevn | 0x019 => some r.ftgt
  | 0x01A => some r.dthr | 0x01B => some d.sbal | 0x01C => some (BitVec.ofNat 32 c.team.asid) | 0x020 => some r.sepc
  | 0x021 => some r.scause | 0x022 => some r.sinfo | 0x023 => some r.smask | 0x026 => some r.sstat | 0x034 => some d.fqsize
  | 0x035 => some d.fqhead | 0x036 => some d.fqtail | 0x037 => some d.fqevn | 0x039 => some 0 | 0x03A => some 0
  | n => if 0x100 ≤ n ∧ n < 0x110 then some (readReg c (.s (n - 0xD0))) else none

/-- The system registers of 64 bits that one read gives, but for the two counters that run within a tick (R367, R416). -/
def register64 (c : Ctx) (n : Nat) : Option DWord :=
  let r := c.sheaf.sys
  let d := dieOf c.st c.team.die
  match n with
  | 0x003 => some (BitVec.ofNat 64 c.st.mer) | 0x006 => some d.wear | 0x016 => some r.urows
  | 0x01D => some (BitVec.ofNat 64 (desc c.st c.team.asid 0 8)) | 0x024 => some r.ssum | 0x025 => some r.saddr
  | 0x030 => some c.st.svbase | 0x031 => some c.st.mvbase | 0x032 => some c.st.cdbase | 0x033 => some d.fqbase
  | 0x038 => some 0
  | n => if 0x400 ≤ n ∧ n < 0x404 then some (BitVec.ofNat 64 (Tbl.get 0 d.stat (n - 0x400)))
    else if 0x410 ≤ n ∧ n < 0x417 then some (BitVec.ofNat 64 (Tbl.get 0 d.launch (n - 0x410)))
    else if 0x400 ≤ n ∧ n < 0x500 then some 0 else none

/-- The per-sheaf system registers after a write of one of them (R367, R268). -/
def sysWritten (r : SysRegs) (n : Nat) (v : Word) : Option SysRegs :=
  match n with
  | 0x010 => some { r with utvec := v } | 0x011 => some { r with fcont := v } | 0x012 => some { r with bthr := v &&& 0x7FFFFFFF }
  | 0x013 => some { r with bmode := v &&& 0x00FF0003 } | 0x014 => some { r with uepc := v }
  | 0x01A => some { r with dthr := v &&& 0x7FFFFFFF } | 0x020 => some { r with sepc := v }
  | 0x026 => some { r with sstat := v &&& 0x0000000F } | _ => none

/-- The registers of a pair, each with its word. -/
def pairWords (c : Ctx) (sd : SReg) (v : DWord) : List (RegKey × Word) :=
  [(fieldKey c.sheaf sd, v.setWidth 32), (fieldKey c.sheaf (sd + 1), (v >>> 32).setWidth 32)]

/-- A word of two parcels that writes registers: each holds its value, no other changes, nor any memory. -/
def wordWrites (i : Instr) (s : State) (c : Ctx) (ws : List (RegKey × Word)) : Prop :=
  ∃ c', Does i s c c' ∧ c'.stands (c.next 2) ∧ WordFrame c c' noBytes (fun k => k ∈ ws.map (·.1))
    ∧ ∀ kv ∈ ws, Wrote c c' kv.1 kv.2

/-- The die-to-die queue words: name word, on-chip address, result pair, whether a push, whether `.try` (R410). -/
def queueWord : Instr → Option (SReg × SReg × SReg × Bool × Bool)
  | .dqPush _ q oc rd => some (q, oc, rd, true, false)
  | .dqPushTry _ q oc rd => some (q, oc, rd, true, true)
  | .dqPop _ q oc rd => some (q, oc, rd, false, false)
  | .dqPopTry _ q oc rd => some (q, oc, rd, false, true)
  | _ => none

/-- The FIFO that a push enters (R406). -/
def firstFifo (c : Ctx) (w : Word) : Nat := c.team.die * 4 + (dqPath (bits w.toNat 29 28) (bits w.toNat 25 24)).headD 0

/-- That FIFO has no room, or may have none for the other traffic that enters it (R406, R412; log 14). -/
def firstFull (c : Ctx) (w : Word) : Bool := pathFull c.st (bits w.toNat 29 28) (bits w.toNat 25 24)

/-- The fabric commands: token and arguments (R432, R441). -/
def fabricOf (c : Ctx) : Instr → Option (Ix3 × NxArgs)
  | .nxPut tk d n r => some (tk, transferArgs .put c d r (rdS c n).toNat 0 false)
  | .nxGet tk d n r => some (tk, transferArgs .get c d r (rdS c n).toNat 0 true)
  | .nxAtom tk op d v r => some (tk, transferArgs (.atom op) c d r 4 (if op = .cas then rdPair c v else (rdS c v).setWidth 64) true)
  | .nxSig tk d v r => some (tk, ⟨.sig, (rdEight c d).take 4, descPair (rdEight c d) 4, 0, 0, (rdS c v).setWidth 64, fieldIx c r,
      andThen (routeCheck c.st c.team.asid ((rdEight c d).take 4)) (if 2 ^ 56 ≤ (descPair (rdEight c d) 4).toNat then some (11, 0) else none)⟩)
  | .nxProbe tk rt r => some (tk, ⟨.probe, (upto 4).map fun k => rdSk c rt k, 0, 0, 0, 0, fieldIx c r,
      routeCheck c.st c.team.asid ((upto 4).map fun k => rdSk c rt k)⟩)
  | _ => none

/-- The packets of a command by offset and length: a put or a get one for each aligned 256-byte block of its remote bytes, any
other command one (R445). -/
def packetsCover (x : NxArgs) (parts : List NxPart) : Prop :=
  match x.kind with
  | .put | .get => parts.map (fun p => (p.off, p.len)) = packetSpans x.remote.toNat x.n (x.n / 256 + 2) 0
  | .atom _ => parts.map (fun p => (p.off, p.len)) = [(0, 4)]
  | _ => parts.map (fun p => (p.off, p.len)) = [(0, 0)]

/-- The append words: token, area, staging record, result, kind (R455). -/
def appendOf : Instr → Option (Ix3 × SReg × SReg × SReg × Nat)
  | .lgAppTok _ tk a sg r => some (tk, a, sg, r, 0)
  | .lgAppCommit _ tk a sg r => some (tk, a, sg, r, 1)
  | .lgAppVoid _ tk a sg r => some (tk, a, sg, r, 2)
  | _ => none

/-! ### Terms: events -/

/-- A ring size: 0, or a power of two from 16 to 65,536 (R367, R465). -/
def ringLegal (v : Word) : Bool := v == 0 || (upto 13).any fun n => v.toNat == 2 ^ (n + 4)

/-- A main-memory write succeeds for work on a die: the state after it. -/
def wrote (s : State) (die asid va : Nat) (bs : List Byte) (t : State) : Prop := vwrite s die asid va bs = .ok t

/-- An engine's queue has a command at its head that it may work on, of a team that is there and that nothing cancels. -/
def headCommand (s : State) (k : EngineKey) (x : CopyCmd) (rest : List CopyCmd) (t : Team) : Prop :=
  queueOf s k = x :: rest ∧ x.stopped = false ∧ (∀ y ∈ rest, y.id ≠ x.id) ∧ Tbl.find s.teams x.tid = some t ∧ t.ended = false
    ∧ isCancelled s k.die x.tag = false

/-- The token of a sheaf's command is complete with a status. -/
def tokenDone (t : State) (tid slot tk status : Nat) : Prop := ∃ sh, sheafAt t tid slot = some sh ∧ tokAt sh tk = ⟨false, status⟩

/-- A command has left its engine's queue, its token complete with a status, its ring slot lowered and turned as R227 says. -/
def commandDone (s t : State) (k : EngineKey) (x : CopyCmd) (rest : List CopyCmd) (status : Nat) : Prop :=
  queueOf t k = rest ∧ (∀ sh, sheafAt s x.tid x.slot = some sh → sh.retired = false → tokenDone t x.tid x.slot x.tk status)
    ∧ t.mem = s.mem ∧ ∀ r tm tm', x.ring = some r → Tbl.find s.teams x.tid = some tm → Tbl.find t.teams x.tid = some tm' →
      0 < (ringAt tm r).oc → ringAt tm' r = (if (ringAt tm r).se = true ∧ (ringAt tm r).oc = 1 then ⟨!(ringAt tm r).ph, false, 0⟩
        else { ringAt tm r with oc := (ringAt tm r).oc - 1 })

/-- What a reduction leaves of a word (R219). -/
def redLeaves (op : RedOp) (old x : Word) : Word :=
  match op with
  | .addf32 => opValue .ne .fadd old x 0
  | .addbf16 => opValue .ne .badd2 old x 0
  | .addi32 => old + x
  | .minf32 => opValue .ne .fmin old x 0
  | .maxf32 => opValue .ne .fmax old x 0
  | .mini32 => opValue .ne (.min .i32) old x 0
  | .maxi32 => opValue .ne (.max .i32) old x 0

/-- The byte that a chunk leaves at an offset of it: its source's, or its word combined with what stood there. -/
def chunkByte (op : Option RedOp) (old bs : List Byte) (i : Nat) : Byte :=
  match op with
  | none => bs.getD i 0
  | some r => (redLeaves r (BitVec.ofNat 32 (leNat ((old.drop (i / 4 * 4)).take 4)))
      (BitVec.ofNat 32 (leNat ((bs.drop (i / 4 * 4)).take 4)))).extractLsb' (8 * (i % 4)) 8

/-- The bytes from `lo` to `hi` are those of a destination of `n` bytes from `o` that lie in its block of number `k` (R228). -/
def chunkSpan (o n k lo hi : Nat) : Prop :=
  lo = Max.max o (4096 * (o / 4096 + k)) ∧ hi = Min.min (o + n) (4096 * (o / 4096 + k) + 4096) ∧ lo < hi

/-- What a pass against an INT8 plane without scales adds to the word at row `r` and column `j`: the products of the row of A and the
column, or the elements of the plane that the constant row selects (R74, R250, R251). -/
def intColumn (t : Team) (cmd : MxCmd) (tile : List Byte) (r j : Nat) : Option Int :=
  let w := fun k j => sext (tile.getD (64 * k + j) 0).toNat 8
  match cmd.op with
  | .run _ a d _ =>
    if bits d.toNat 7 0 = 12 ∧ bits d.toNat 23 16 = 2 ∧ cmd.looseB = [] ∧ ocSpace a = some .sh ∧ ocOff a + 8192 ≤ 2 ^ 30 then
      some ((upto 128).map fun k => sext (byteAt t.shared (ocOff a + 128 * r + k)).toNat 8 * w k j).sum
    else none
  | .cmatId _ => some (w r j)
  | .cmatTr _ => some (w j r)
  | .cmatSum _ => some ((upto 128).map fun k => w k j).sum
  | _ => none

/-- A register that a drain writes: its elements' words, converted to the format, the first lowest (R252). -/
def drained (f : Fmt) (sat : Bool) (rm : Rm) (w : Nat → Word) : Word :=
  match f with
  | .int .i32 => w 0
  | .flt .f32 => if isNan32 (w 0) then 0x7FC00000 else w 0
  | f => drainReg f sat rm ((upto (drainElems f)).map w)

/-- The votes that a group holds for a hash. -/
def votesFor (g : Group) (h : DWord) : Nat := ((g.hashes.find? fun x => x.hash == h).map (·.count)).getD 0

/-- Writes to a group area are made in order, each translating: the state after them. -/
def areaMade (die asid : Nat) : AreaWrites → State → State → Prop
  | [], s, t => t = s
  | w :: ws, s, t => ∃ s1, vwrite s die asid w.1 w.2 = .ok s1 ∧ areaMade die asid ws s1 t

/-- Every write that the acceptance of a request at a record makes can be made: first its own member's entry, and then, where a
decision or a free follows, those that follow it. -/
def writesMade (s : State) (r : BallotReq) (g : Group) (t : State) : Prop :=
  let a := acceptAt r g
  ∃ s1, areaMade r.die r.asid a.writes { s with ballots := s.ballots.filter fun x => x.id != r.id } s1
    ∧ if a.event = true then areaMade r.die r.asid (decisionWrites a.g)
        (ballotReply (sendCancels (modGroup s1 r.die (tagIdx r.word) fun _ => a.g) r.die (tagIdx r.word) a.g a.gone) r
          (BitVec.ofNat 32 a.status)) t
      else t = s1

/-- A unit whose request is answered has the reply in its register, unless a word issued later has written that register (R86). -/
def replied (s t : State) (r : BallotReq) (v : Word) : Prop :=
  ∀ c a, unitAt s r.tid r.slot r.uid = some c → c.unit.awaits.find? (fun x => x.id == r.id) = some a →
    (∀ n, c.unit.wait ≠ .susp n) → (∀ o ∈ c.sheaf.overtaken, o.1 ≠ r.id) →
    ∃ c', unitAt t r.tid r.slot r.uid = some c' ∧ arrived c c' a v

/-- No queued card and no copy on a die carries a tag; no launcher there has yet to be told. -/
def queuesUntagged (s : State) (r : CancelReq) : Prop :=
  (∀ q c, c ∈ (lqueueAt s r.die q).cards → c.tag ≠ r.tag ∧ c.untold = false) ∧ (∀ x ∈ (dieOf s r.die).gather, x.tag ≠ r.tag)
    ∧ ∀ k ∈ s.cores, k.1 / 128 = r.die → ∀ x ∈ (coreOf s k.1).streamer, x.tag ≠ r.tag

/-- Nothing on a die carries a tag: no queued card, no copy, and no team of its context is there; no launcher there has yet to be
told. -/
def nothingTagged (s : State) (r : CancelReq) : Prop :=
  queuesUntagged s r ∧ ∀ t ∈ s.teams, ¬ (t.2.die = r.die ∧ t.2.asid = r.asid)

/-- Every team of a context on a die runs: it stands on its core, and each of its units, of which it has one, is ready. -/
def allRun (s : State) (die asid : Nat) : Prop :=
  ∀ tid t, Tbl.find s.teams tid = some t → t.die = die → t.asid = asid → t.out = false ∧ t.imageHold = false ∧ t.ended = false
    ∧ (∀ sh ∈ t.sheaves, sh.2.splits = []) ∧ teamUnits s tid ≠ [] ∧ ∀ u ∈ teamUnits s tid, u.unit.wait = .ready

/-- No launch queue of a die has a head that its dependences refuse (R351), or one whose descriptor cannot be read (R479), and no
launcher of its cards has yet to be told. -/
def noHeadRefused (s : State) (die : Nat) : Prop :=
  (∀ q c, c ∈ (lqueueAt s die q).cards → c.untold = false)
    ∧ ∀ q c rest, (lqueueAt s die q).cards = c :: rest → c.bad = false ∧ descBad s c.asid = false

/-- A sheaf as a placement starts it (R108, R157, R342). -/
def freshSheaf (c : Card) (slot : Nat) (sh : Sheaf) : Prop :=
  sh.role = roleCode (slotRole c.hdr slot) ∧ sh.allot = roleRegs c.hdr (slotRole c.hdr slot)
    ∧ (∀ r, r < bits (fieldAt c.card 0x60 4) 4 0 → readKey sh (.s r) = BitVec.ofNat 32 (fieldAt c.card (0x80 + 4 * r) 4))
    ∧ (∀ r, r < 80 → bits (fieldAt c.card 0x60 4) 4 0 ≤ r → readKey sh (.s r) = 0)
    ∧ (∀ p r, readKey sh (.v p r) = 0) ∧ (∀ i, readKey sh (.q i) = 0) ∧ (∀ p i, i < 7 → readKey sh (.p p i) = 0)
    ∧ (∀ k, tokAt sh k = ⟨false, 0⟩) ∧ sh.sys = SysRegs.zero ∧ sh.splits = []
    ∧ sh.level = (if c.asid = 0 then .supervisor else .user)
    ∧ ∀ n, n = Min.min 16 (initThreads c.card c.hdr - 16 * slot) →
      (n = 0 → sh.units = [])
      ∧ (0 < n → ∃ id u, sh.units = [(id, u)] ∧ u.mask = BitVec.ofNat 16 (2 ^ n - 1) ∧ u.pc = 0 ∧ u.wait = .ready)
      ∧ ∀ i, i < n → ∃ th, Tbl.find sh.threads i = some th ∧ th.ord = 0 ∧ th.rank = 16 * slot + i ∧ th.tag = c.tag

/-- A team, another unit of it being ready and none at a swath-collective word, to which nothing happens by itself. -/
def settled (s : State) (tid : Nat) : Prop :=
  (∃ u ∈ teamUnits s tid, u.unit.wait = .ready) ∧ ∀ u ∈ teamUnits s tid, u.unit.wait.isSwath = false

/-- A team whose units wait at nothing that they meet at, and of which no side is parked, to which nothing happens by itself either. -/
def plainWaits (s : State) (tid : Nat) : Prop :=
  teamUnits s tid ≠ [] ∧ (∀ u ∈ teamUnits s tid, atRound u.unit.wait = false ∧ atBar u.unit.wait = false ∧ u.unit.wait.isSwath = false)
    ∧ ∀ t, Tbl.find s.teams tid = some t → ∀ sh ∈ t.sheaves, sh.2.splits = []

/-- A record of a die without a command that stands on it has been posted, where its ring has room and its page a walk that succeeds:
`FQHEAD` rises, and the record's words stand in the ring (R380, R381). -/
def recordPosted (s : State) (die : Nat) (r : FRec) (t : State) : Prop :=
  ∀ d pa, Tbl.find s.dies die = some d → postPlace s die = .ok pa → d.fqevn = 0 → (dieOf t die).fqhead = d.fqhead + 1
    ∧ t.mem = (physWrite s pa ((recordWords die d.lost 0 { r with seq := d.fqhead.toNat }).flatMap fun w => toBytes 4 w)).mem

/-- No port owes a write into the map (R438). -/
def portsQuiet (s : State) : Prop := ∀ p ∈ s.ports, p.2.changes = [] ∧ p.2.loadDue = false

/-- Nothing that a test of die and context holds of waits for a field that a re-read would find changed: no round on the pool, no walk on
its release ring, no append on its log ring (R480). -/
def rereadQuiet (s : State) (p : Nat → Nat → Bool) : Prop :=
  (∀ t ∈ s.teams, p t.2.die t.2.asid = true → t.2.hold ≠ .pool)
  ∧ (∀ w ∈ s.walks, p w.home w.asid = true → w.begun = true → w.lowered.isSome = true → w.stopped = true)
  ∧ ∀ k ∈ s.cores, ∀ c ∈ k.2.streamer, p (k.1 / 128) c.asid = true → c.full = false

/-- The state of the host's side only differs between two states. -/
def onlyHost (s t : State) : Prop := { t with host := s.host } = s

/-- Only a die's own registers differ between two states, as `after` says of that die. -/
def onlyDie (s t : State) (die : Nat) (after : Die) : Prop :=
  Tbl.find t.dies die = some after ∧ (∀ d, d ≠ die → Tbl.find t.dies d = Tbl.find s.dies d) ∧ { t with dies := s.dies } = s
/-- An instruction word whose checks 7 to 9 of R44 are those of every word: not an event, and not a word that is none. -/
def isWord (i : Instr) : Bool := encode 3 i != [] || encode 2 i != []

end Sys2Proof.Claims

open Sys2Proof.Claims

/-! ### Uniform words -/

/-- R117 to R120: a U-word writes its destination, a register with the rule's value or a predicate with its truth, and nothing
else changes (R81, R110). -/
def Obligations.UniformWordWritesItsValue : Prop :=
  ∀ (i : Instr) (s : State) (c : Ctx), atIssue i s = some c →
    (∀ sd v, uniformValue c i = some (sd, v) →
      ∃ c', Does i s c c' ∧ RegisterFrame c c' (· = fieldKey c.sheaf sd) ∧ c'.stands (c.next 1)
        ∧ Wrote c c' (fieldKey c.sheaf sd) v)
    ∧ ∀ qd b, uniformTruth c i = some (qd, b) →
      ∃ c', Does i s c c' ∧ RegisterFrame c c' (· = .q qd.toNat) ∧ c'.stands (c.next 1)
        ∧ Wrote c c' (.q qd.toNat) (ofBool b)

/-! ### Lane words -/

/-- R117, R124, R134, R135, R141, R37, R38: the class-A words, integer and floating, alone and in pairs. -/
def Obligations.ClassAWordsRun : Prop :=
  ∀ (i : Instr) (s : State) (c : Ctx) (w : ClassAWord), integerClassA c i = some w ∨ floatingClassA c i = some w →
    Instr.wf c.team.ver i = true → atIssue i s = some c → classARuns i s c w

/-- R122, R125 to R129, R137 to R140, R142, R143: the other lane words that write a vector register. -/
def Obligations.LaneValueWritten : Prop :=
  ∀ (i : Instr) (s : State) (c : Ctx) (h : Hdr) (vd : VReg) (value : Nat → Word),
    laneValue c i = some (h, vd, value) ∨ floatValue c i = some (h, vd, value) →
    atIssue i s = some c → laneRuns i s c h vd value

/-- R109, R127, R136: `cmp` and `fcmp` write their predicate; a write of `p7` is discarded. -/
def Obligations.LanePredicateWritten : Prop :=
  ∀ (i : Instr) (s : State) (c : Ctx) (h : Hdr) (pd : Ix3) (truth : Nat → Bool), laneTruth c i = some (h, pd, truth) →
    atIssue i s = some c →
    ∃ c', Does i s c c' ∧ RegisterFrame c c' (fun k => pd ≠ 7 ∧ ∃ p ∈ activeOf c h, k = .p p pd.toNat)
      ∧ c'.stands (c.next 3)
      ∧ ∀ p ∈ activeOf c h, hasThread c p → pd ≠ 7 → Wrote c c' (.p p pd.toNat) (ofBool (truth p))

/-! ### On-chip memory -/

/-- R196, R200: a load that passes its checks writes the loaded element, from the bytes that it may read, here where its core holds
no copy of a scratchpad line, and changes nothing else. -/
def Obligations.UniformLoadWritesItsValue : Prop :=
  ∀ (s : State) (c : Ctx) (ty : UTy) (spc : Space) (sd sa : SReg) (off : BitVec 7),
    atIssue (.sLd ty spc sd sa off) s = some c → Instr.wf c.team.ver (.sLd ty spc sd sa off) = true →
    uniformChecked c spc sa off.toNat (utyBytes ty) false true →
    ∃ c', Does (.sLd ty spc sd sa off) s c c' ∧ c'.stands (c.next 1)
      ∧ WordFrame c c' noBytes (fun k => k ∈ (uniformLoaded c ty sd 0).map (·.1))
      ∧ ∀ as, as = rawAddrs c spc none (uAddr c spc sa off.toNat) (utyBytes ty) → (∀ x ∈ as, lineFree c spc x) →
          ∃ bs, mayReadAll c spc true as bs ∧ ∀ kv ∈ uniformLoaded c ty sd (leNat bs), Wrote c c' kv.1 kv.2

/-- R196, R290: `ld`, from the bytes that it may read, one that is an acquire from those that stand there now; one with `.rmt` sees the stores of the cores that own the lines it promotes, and
here no other core has one waiting. -/
def Obligations.LaneLoadWritesItsElements : Prop :=
  ∀ (s : State) (c : Ctx) (h : Hdr) (a : Acc) (ty : LTy) (n : Cnt) (vd va : VReg) (off : BitVec 16),
    atIssue (.ld h a ty n vd va off) s = some c → Instr.wf c.team.ver (.ld h a ty n vd va off) = true →
    laneChecked c h a.space va off.toInt (ltyBytes ty * n.num) false true → c.st.tablesSorted = true →
    ∃ c', Does (.ld h a ty n vd va off) s c c' ∧ c'.stands (c.next 3)
      ∧ WordFrame c c' noBytes (fun k => ∃ p ∈ activeOf c h, ∃ j < n.num, k = .v p (vd.toNat + j))
      ∧ (∀ p ∈ activeOf c h, hasThread c p →
          (∀ x ∈ laneBytesAt c a.space va off.toInt (ltyBytes ty * n.num) p,
            lineFree c a.space x ∧ (a.rmt = true → soleStore c a.space x)) →
          ∃ bs, mayReadAll c a.space (a.order == .rlx) (laneBytesAt c a.space va off.toInt (ltyBytes ty * n.num) p) bs
            ∧ ∀ j < n.num, Wrote c c' (.v p (vd.toNat + j)) (laneLoaded ty (leNat ((bs.drop (ltyBytes ty * j)).take (ltyBytes ty)))))

/-- R200: `s.st` stores its register's bytes, as its core sees them, and changes nothing else. -/
def Obligations.UniformStoreStoresItsBytes : Prop :=
  ∀ (s : State) (c : Ctx) (ty : UTy) (spc : Space) (sd sa : SReg) (off : BitVec 7),
    atIssue (.sSt ty spc sd sa off) s = some c → Instr.wf c.team.ver (.sSt ty spc sd sa off) = true →
    uniformChecked c spc sa off.toNat (utyBytes ty) true false →
    ∃ c', Does (.sSt ty spc sd sa off) s c c' ∧ c'.stands (c.next 1)
      ∧ ∀ as, as = rawAddrs c spc none (uAddr c spc sa off.toNat) (utyBytes ty) →
          WordFrame c c' (fun q x => q = spc ∧ x ∈ as) noRegs
          ∧ ∀ j x, as[j]? = some x → seenByte c' spc x = (rdPair c sd).extractLsb' (8 * j) 8

/-- R196: `st` stores each active thread's bytes; where several threads store a byte it holds the value of the last in
rank order. -/
def Obligations.LaneStoreStoresItsBytes : Prop :=
  ∀ (s : State) (c : Ctx) (h : Hdr) (a : Acc) (ty : LTy) (n : Cnt) (vd va : VReg) (off : BitVec 16),
    atIssue (.st h a ty n vd va off) s = some c → Instr.wf c.team.ver (.st h a ty n vd va off) = true →
    laneChecked c h a.space va off.toInt (ltyBytes ty * n.num) true false → c.st.tablesSorted = true →
    ∃ c', Does (.st h a ty n vd va off) s c c' ∧ c'.stands (c.next 3)
      ∧ WordFrame c c' (fun q x => q = a.space ∧
          ∃ p ∈ activeOf c h, x ∈ laneBytesAt c a.space va off.toInt (ltyBytes ty * n.num) p) noRegs
      ∧ ∀ l1 p l2, activeOf c h = l1 ++ p :: l2 →
          ∀ j x, (laneBytesAt c a.space va off.toInt (ltyBytes ty * n.num) p)[j]? = some x →
            (∀ q ∈ l2, x ∉ laneBytesAt c a.space va off.toInt (ltyBytes ty * n.num) q) → soleStore c a.space x →
            seenByte c' a.space x
              = (readReg c (.v p (vd.toNat + j / ltyBytes ty))).extractLsb' (8 * (j % ltyBytes ty)) 8

/-- R197, R200: an atomic returns the old number and leaves the operation's result at its bytes, as its core sees them; a
`cas` that finds a mismatch stores nothing. -/
def Obligations.UniformAtomicExchanges : Prop :=
  ∀ (s : State) (c : Ctx) (op : AOp) (wide : Bool) (spc : Space) (sd sa : SReg),
    atIssue (.sAtom op wide spc sd sa) s = some c → Instr.wf c.team.ver (.sAtom op wide spc sd sa) = true →
    uniformChecked c spc sa 0 (if wide then 8 else 4) true true →
    ∃ c', Does (.sAtom op wide spc sd sa) s c c' ∧ c'.stands (c.next 1)
      ∧ ∀ as old b new, as = rawAddrs c spc none (uAddr c spc sa 0) (if wide then 8 else 4) →
          old = leNat (as.map (seenByte c spc)) →
          b = (if wide then (rdPair c sd).toNat else (rdS c sd).toNat) →
          new = (if wide then (rdPair c (sd + 2)).toNat else (rdS c (sd + 1)).toNat) →
          WordFrame c c' (fun q x => q = spc ∧ x ∈ as ∧ ¬ (op = .cas ∧ old ≠ b))
            (fun k => k ∈ (uniformLoaded c (if wide then .w64 else .b32) sd 0).map (·.1))
          ∧ (∀ kv ∈ uniformLoaded c (if wide then .w64 else .b32) sd old, Wrote c c' kv.1 kv.2)
          ∧ as.map (seenByte c' spc)
              = toBytes as.length (atomLeaves op true (if wide then 64 else 32) old b new)

/-- R197: `atom`: a thread whose bytes no other active thread's word covers receives the old number and leaves the
operation's result, as its core sees the bytes; a `cas` that finds a mismatch stores nothing. -/
def Obligations.LaneAtomicExchanges : Prop :=
  ∀ (s : State) (c : Ctx) (h : Hdr) (op : AOp) (a : Acc) (g : Sgn) (vd va vb vc : VReg) (off : BitVec 13),
    atIssue (.atom h op a g vd va vb vc off) s = some c → Instr.wf c.team.ver (.atom h op a g vd va vb vc off) = true →
    laneChecked c h a.space va off.toInt 4 true true → c.st.tablesSorted = true →
    ∃ c', Does (.atom h op a g vd va vb vc off) s c c' ∧ c'.stands (c.next 3)
      ∧ WordFrame c c' (fun q x => q = a.space ∧ ∃ p ∈ activeOf c h, x ∈ laneBytesAt c a.space va off.toInt 4 p)
          (fun k => ∃ p ∈ activeOf c h, k = .v p vd.toNat)
      ∧ ∀ p ∈ activeOf c h, hasThread c p →
          ∀ as old, as = laneBytesAt c a.space va off.toInt 4 p → old = leNat (as.map (seenByte c a.space)) →
          (∀ q ∈ activeOf c h, q ≠ p → ∀ x ∈ laneBytesAt c a.space va off.toInt 4 q, x ∉ as) → (∀ x ∈ as, soleStore c a.space x) →
          Wrote c c' (.v p vd.toNat) (BitVec.ofNat 32 old)
          ∧ as.map (seenByte c' a.space) = if op = .cas ∧ old ≠ (rdV c p vb).toNat then as.map (seenByte c a.space)
              else toBytes 4 (atomLeaves op (g == .i32) 32 old (rdV c p vb).toNat (rdV c p vc).toNat)

/-- R198, R287, R289: a `fence` reaches its end; with no active thread it changes nothing but its unit's progress, else its scope is
noted for its unit's later stores, and at die scope or wider no store from before it may be missed by its unit's later loads. -/
def Obligations.FencePasses : Prop :=
  ∀ (s : State) (c : Ctx) (h : Hdr) (sc : Scope), atIssue (.fence h sc) s = some c →
    ∃ c', Does (.fence h sc) s c c' ∧ c'.stands (c.next 3) ∧ WordFrame c c' noBytes noRegs
      ∧ (activeOf c h = [] → RegisterFrame c c' noRegs)
      ∧ (activeOf c h ≠ [] → sc ∈ c'.unit.fenced ∧ (Scope.beyond sc = true → c'.unit.view = none))

/-- R154: `isect` gathers up to four bytes at the ranks of the common elements, zero above them. -/
def Obligations.IntersectGathersItsBytes : Prop :=
  ∀ (s : State) (c : Ctx) (h : Hdr) (g : Sgn) (sp : Bool) (vd va vb vc : VReg) (imm : BitVec 16),
    atIssue (.isect h g sp vd va vb vc imm) s = some c →
    (∀ p ∈ activeOf c h, ∀ a ∈ isectOffs c p va vb vc imm,
      accessCause c (if sp then .sp else .sh) (some p) a 1 false true = none) → c.st.tablesSorted = true →
    ∃ c', Does (.isect h g sp vd va vb vc imm) s c c' ∧ c'.stands (c.next 3)
      ∧ WordFrame c c' noBytes (fun k => ∃ p ∈ activeOf c h, k = .v p vd.toNat)
      ∧ ∀ p ∈ activeOf c h, hasThread c p →
          ∀ as, as = (isectOffs c p va vb vc imm).flatMap (fun a => rawAddrs c (if sp then .sp else .sh) (some p) a.toNat 1) →
          (∀ x ∈ as, lineFree c (if sp then .sp else .sh) x) →
          ∃ bs, mayReadAll c (if sp then .sp else .sh) true as bs ∧ Wrote c c' (.v p vd.toNat) (BitVec.ofNat 32 (leNat bs))

/-! ### Cross-thread words, bitmaps and moves -/

/-- R145 to R151: a cross-thread word, for its unit or once for its swath when that meets, writes each participant from
what every participant held before; no other register of its units changes, nor any memory. -/
def Obligations.CrossThreadWordsCombine : Prop :=
  ∀ (i : Instr) (s : State) (c : Ctx) (h : Hdr) (sw : Bool), crossHead i = some (h, sw) → atIssue i s = some c →
    Instr.wf c.team.ver i = true → swathMeets c h sw →
    ∃ t, exec i s = .next t ∧ t.mem = c.st.mem ∧ t.host = c.st.host
      ∧ ∀ u ∈ crossUnits c h sw, ∃ u', unitAt t u.tid u.slot u.uid = some u' ∧ u'.stands (u.next 3)
          ∧ u'.team.shared = u.team.shared ∧ u'.sheaf.stack = u.sheaf.stack ∧ u'.sheaf.sys = u.sheaf.sys
          ∧ (∀ k, (∀ v ∈ crossUnits c h sw, v.slot = u.slot → ∀ p ∈ activeOf v h, k ∉ crossDest p i) →
              readKey u'.sheaf k = readKey u.sheaf k)
          ∧ ∀ p ∈ activeOf u h, hasThread u p →
              (∀ v ∈ crossUnits c h sw, v.slot = u.slot → v ≠ u → p ∉ activeOf v h) →
              ∀ k v, crossWrites c i (u, p) k v → Wrote u u' k v

/-- R152, R122: `bm.and` writes the common bits and whether there are any; `v2s` writes the value of the active thread at the
lowest position, and with none active it writes nothing. -/
def Obligations.BitmapAndLowestThreadWords : Prop :=
  ∀ (s : State) (c : Ctx) (h : Hdr),
    (∀ vd q va vb, atIssue (.bmAnd h vd q va vb) s = some c →
      ∃ c', Does (.bmAnd h vd q va vb) s c c' ∧ c'.stands (c.next 3)
        ∧ RegisterFrame c c' (fun k => ∃ p ∈ activeOf c h, k = .v p vd.toNat ∨ (q ≠ 7 ∧ k = .p p q.toNat))
        ∧ ∀ p ∈ activeOf c h, hasThread c p →
            Wrote c c' (.v p vd.toNat) (rdV c p va &&& rdV c p vb)
            ∧ (q ≠ 7 → Wrote c c' (.p p q.toNat) (ofBool (rdV c p va &&& rdV c p vb != 0))))
    ∧ ∀ sd va, atIssue (.v2s h sd va) s = some c →
      ∃ c', Does (.v2s h sd va) s c c' ∧ c'.stands (c.next 3)
        ∧ RegisterFrame c c' (fun k => activeOf c h ≠ [] ∧ k = fieldKey c.sheaf sd)
        ∧ ∀ p ∈ activeOf c h, (∀ q ∈ activeOf c h, p ≤ q) → Wrote c c' (fieldKey c.sheaf sd) (rdV c p va)

/-! ### Traps and returns -/

/-- R44 checks 7, 8 and 9, R45, R372: a word that fails one of them takes the decode-class trap of the first that fails:
ILLEGAL with REGISTER, ROLE, or PRIV; with a trap already being handled it does not enter a second. At a `sow`, `sow.sg` or
`bar.swath` that fails one, the unit's cancelled threads end first (R389): where they are all of it, the unit is gone.
R31, R91, R94: a word whose header waits for a pending token, or that a value on its way holds, has no effect yet: its unit waits
at it. -/
def Obligations.IssueChecksAndWaits : Prop :=
  (∀ (i : Instr) (s : State) (c : Ctx), isWord i = true → ctxOf s = some c → c.sheaf.sys.sstat.getLsbD 1 = false →
      endsThreadsFirst c i = false →
      (regsOk c i = false → ∃ t, exec i s = .next t
        ∧ trapTaken c 1 7 0 ((encode c.team.ver i).headD 0) c.unit.pc c.unit.mask (BitVec.ofNat 64 (2 ^ 1)) 0 t)
      ∧ (regsOk c i = true → roleOk c i = false → ∃ t, exec i s = .next t
        ∧ trapTaken c 2 0 0 ((encode c.team.ver i).headD 0) c.unit.pc c.unit.mask (BitVec.ofNat 64 (2 ^ 2)) 0 t)
      ∧ (regsOk c i = true → roleOk c i = true → privOk c i = false → ∃ t, exec i s = .next t
        ∧ trapTaken c 3 0 0 ((encode c.team.ver i).headD 0) c.unit.pc c.unit.mask (BitVec.ofNat 64 (2 ^ 3)) 0 t))
  ∧ (∀ (i : Instr) (s : State) (c : Ctx), ctxOf s = some c → endsThreadsFirst c i = true → regsOk c i = false ∨ roleOk c i = false →
      goneAt c = c.unit.mask → c.uid < c.st.nextId → swathFree c → noGangWaits c.st c.tid → othersGoOn c →
      ∃ t, exec i s = .next t ∧ unitAt t c.tid c.slot c.uid = none ∧ t.mem = s.mem)
  ∧ (∀ (i : Instr) (s : State) (c : Ctx), isWord i = true → ctxOf s = some c →
      regsOk c i = true → roleOk c i = true → privOk c i = true →
      (awaited c i = none → tokensPending c.sheaf (waitMask i) = true →
        exec i s = .next (c.modUnit s fun u => { u with wait := .tokens (waitMask i) }))
      ∧ ∀ a, awaited c i = some a → exec i s = .next (c.modUnit s fun u => { u with wait := .reply a.id }))

/-- R44, R371, R398: what is no instruction takes ILLEGAL, of the decode class, with the subcode of the check that failed; a fetch that
fails takes XLATE, XPERM or ECC, of the execution class, with the address of the fetch. -/
def Obligations.NoInstructionTraps : Prop :=
  ∀ (s : State) (c : Ctx), ctxOf s = some c → c.sheaf.sys.sstat.getLsbD 1 = false →
    (∀ f parcel, ∃ t, exec (.illegalWord f parcel) s = .next t ∧ trapTaken c 1
        (match f with | .kind => 1 | .pageEnd => 2 | .opcode => 3 | .pair => 4 | .field => 5 | .modifier => 6 | .register => 7)
        0 parcel c.unit.pc c.unit.mask (BitVec.ofNat 64 (2 ^ 1)) 0 t)
    ∧ ∀ k addr, ∃ t, exec (.fetchFault k addr) s = .next t ∧ trapTaken c
        (match k with | .translation => 9 | .permission => 10 | .accessError => 8) 0 1 0 c.unit.pc c.unit.mask
        (BitVec.ofNat 64 (2 ^ (match k with | .translation => 9 | .permission => 10 | .accessError => 8))) addr t

/-- R375: `trap`, `scall` and `brk` take their call-class trap at every level; SEPC is the word's own place, or the next
word's for `scall`.
R372 step 2: any trap of a sheaf whose SSTAT.ST is 1, of the decode, the execution or the call class, is a double fault: the context's
forced reset with reason 3 (for context 0, of every context). -/
def Obligations.CallsAndDoubleFaults : Prop :=
  (∀ (s : State) (c : Ctx) (imm : Word), c.sheaf.sys.sstat.getLsbD 1 = false →
      (atIssue (.trap imm) s = some c → ∃ t, exec (.trap imm) s = .next t
        ∧ trapTaken c 32 0 2 imm c.unit.pc c.unit.mask (BitVec.ofNat 64 (2 ^ 32)) 0 t)
      ∧ (atIssue (.scall imm) s = some c → ∃ t, exec (.scall imm) s = .next t
        ∧ trapTaken c 33 0 2 imm (c.unit.pc + 8) c.unit.mask (BitVec.ofNat 64 (2 ^ 33)) 0 t)
      ∧ (atIssue (.brk imm) s = some c → ∃ t, exec (.brk imm) s = .next t
        ∧ trapTaken c 34 0 2 imm c.unit.pc c.unit.mask (BitVec.ofNat 64 (2 ^ 34)) 0 t))
  ∧ (∀ (s : State) (c : Ctx), ctxOf s = some c → c.sheaf.sys.sstat.getLsbD 1 = true →
      (∀ f parcel, exec (.illegalWord f parcel) s = .next (doubleFault c s))
      ∧ (∀ k addr, exec (.fetchFault k addr) s = .next (doubleFault c s))
      ∧ (∀ i, isWord i = true → endsThreadsFirst c i = false → regsOk c i = false ∨ roleOk c i = false ∨ privOk c i = false →
          exec i s = .next (doubleFault c s))
      ∧ (∀ sa i, i = .jr sa ∨ i = .ret sa → (rdS c sa).toNat % 4 ≠ 0 → atIssue i s = some c → exec i s = .next (doubleFault c s))
      ∧ (∀ la sn sv sub, nameCheck s c.team.asid c.team.evWin (rdS c sn) = .error sub → atIssue (.evAdd la sn sv) s = some c →
          exec (.evAdd la sn sv) s = .next (doubleFault c s))
      ∧ ∀ imm i, i = .trap imm ∨ i = .scall imm ∨ i = .brk imm → atIssue i s = some c →
          exec i s = .next (doubleFault c (chargeCycles c s 1 [c.tag])))

/-- R373, R377: `eret` returns from the innermost trap to SEPC at the level that SSTAT.PL holds, and from a user handler to
UEPC; registers and memory are unchanged. At the end of a fault continuation it waits for FEVN to reach FTGT (R379), here with no
cancelled thread; at user level with no handler and no continuation, and at supervisor level in no trap, it raises PRIV. -/
def Obligations.ReturnRestoresTheProgram : Prop :=
  ∀ (s : State) (c : Ctx), atIssue .eret s = some c →
    (c.sheaf.level ≠ .user → c.sheaf.sys.sstat.getLsbD 1 = true → ∃ c', Does .eret s c c' ∧ c'.stands c.sheaf.sys.sepc
      ∧ c'.sheaf.level = (if c.sheaf.sys.sstat.getLsbD 0 then .supervisor else .user)
      ∧ c'.sheaf.sys = { c.sheaf.sys with sstat := c.sheaf.sys.sstat &&& 0xFFFFFFFD }
      ∧ c'.sheaf.svFetch = false ∧ c'.sheaf.trapped = none ∧ (∀ k, readKey c'.sheaf k = readKey c.sheaf k)
      ∧ (∀ u, u ≠ c.uid → Tbl.find c'.sheaf.units u = Tbl.find c.sheaf.units u)
      ∧ { c'.st with teams := c.st.teams, lanes := c.st.lanes } = c.st)
    ∧ (c.sheaf.level = .user → c.sheaf.sys.sstat.getLsbD 2 = true → ∃ c', Does .eret s c c' ∧ c'.stands c.sheaf.sys.uepc
      ∧ c'.sheaf.level = .user ∧ c'.sheaf.sys = { c.sheaf.sys with sstat := c.sheaf.sys.sstat &&& 0xFFFFFFFB }
      ∧ (∀ k, readKey c'.sheaf k = readKey c.sheaf k) ∧ { c'.st with teams := c.st.teams, lanes := c.st.lanes } = c.st)
    ∧ (c.sheaf.level = .user → c.sheaf.sys.sstat.getLsbD 2 = false → c.sheaf.sys.sstat.getLsbD 3 = true →
      ∀ k, nameCheck c.st c.team.asid c.team.evWin c.sheaf.sys.fevn = .ok k → cancelledIn c.st c.team.die c.sheaf c.unit.mask = 0 →
      ∃ c', Does .eret s c c' ∧ waitsFor c c' (.susp c.st.nextId) ∧ WordFrame c c' noBytes noRegs
        ∧ c'.st.evReqs = c.st.evReqs ++
            [requestOf c .susp k c.sheaf.sys.ftgt c.sheaf.sys.fret true])
    ∧ (c.sheaf.sys.sstat.getLsbD 1 = false → c.sheaf.level ≠ .user ∨ (c.sheaf.sys.sstat.getLsbD 2 = false ∧
      c.sheaf.sys.sstat.getLsbD 3 = false) → ∃ t, exec .eret s = .next t
        ∧ trapTaken c 3 0 0 ((encode c.team.ver .eret).headD 0) c.unit.pc c.unit.mask (BitVec.ofNat 64 (2 ^ 3)) 0 t)

/-- R373, R378: `eret.fc` to a fault continuation: FRET, FEVN and FTGT are written, SSTAT.FC is set, and the unit runs at
FCONT at user level; with SSTAT.PL or FC set it returns as `eret` does. -/
def Obligations.FaultContinuationIsEntered : Prop :=
  ∀ (s : State) (c : Ctx) (sn st : SReg), atIssue (.eretFc sn st) s = some c → c.sheaf.sys.sstat.getLsbD 1 = true →
    (c.sheaf.sys.sstat.getLsbD 0 = false → c.sheaf.sys.sstat.getLsbD 3 = false → c.sheaf.sys.fcont ≠ 0 →
      ∃ c', Does (.eretFc sn st) s c c' ∧ c'.stands c.sheaf.sys.fcont ∧ c'.sheaf.level = .user
      ∧ c'.sheaf.sys = { c.sheaf.sys with fret := c.sheaf.sys.sepc, fevn := rdS c sn, ftgt := rdS c st,
                                          sstat := (c.sheaf.sys.sstat ||| 8) &&& 0xFFFFFFFD }
      ∧ c'.sheaf.svFetch = false ∧ c'.sheaf.trapped = none ∧ ∀ k, readKey c'.sheaf k = readKey c.sheaf k)
    ∧ (c.sheaf.sys.sstat.getLsbD 0 = true ∨ c.sheaf.sys.sstat.getLsbD 3 = true →
      ∃ c', Does (.eretFc sn st) s c c' ∧ c'.stands c.sheaf.sys.sepc
      ∧ c'.sheaf.level = (if c.sheaf.sys.sstat.getLsbD 0 then .supervisor else .user)
      ∧ c'.sheaf.sys = { c.sheaf.sys with sstat := c.sheaf.sys.sstat &&& 0xFFFFFFFD })

/-! ### Control flow -/

/-- R101, R102, R106, R105: branches, calls and loops go where the rule says, and change no other register; a backward branch
is a cancellation point, here with no cancelled thread.
R24, R44: a `jr` or `ret` to a misaligned target traps with ILLEGAL, FETCH_ALIGN and has no other effect. -/
def Obligations.BranchesGoToTheirTargets : Prop :=
  (∀ (s : State) (c : Ctx), cancelledIn c.st c.team.die c.sheaf c.unit.mask = 0 →
      (atIssue .nop s = some c → ∃ c', Does .nop s c c' ∧ RegisterFrame c c' noRegs ∧ c'.stands (c.unit.pc + 4))
      ∧ (∀ off, atIssue (.br off) s = some c →
          ∃ c', Does (.br off) s c c' ∧ RegisterFrame c c' noRegs ∧ c'.stands (c.unit.pc + off.signExtend 32 * 4))
      ∧ (∀ neg q off, atIssue (.bc neg q off) s = some c →
          ∃ c', Does (.bc neg q off) s c c' ∧ RegisterFrame c c' noRegs
            ∧ c'.stands (c.unit.pc + if rdQ c q != neg then off.signExtend 32 * 4 else 4))
      ∧ (∀ sd off, atIssue (.call sd off) s = some c →
          ∃ c', Does (.call sd off) s c c' ∧ RegisterFrame c c' (· = fieldKey c.sheaf sd)
            ∧ c'.stands (c.unit.pc + off.signExtend 32 * 4) ∧ Wrote c c' (fieldKey c.sheaf sd) (c.unit.pc + 4))
      ∧ (∀ sc off, atIssue (.loop sc off) s = some c →
          ∃ c', Does (.loop sc off) s c c' ∧ RegisterFrame c c' (· = fieldKey c.sheaf sc)
            ∧ c'.stands (c.unit.pc + if rdS c sc - 1 ≠ 0 then off.signExtend 32 * 4 else 4)
            ∧ Wrote c c' (fieldKey c.sheaf sc) (rdS c sc - 1))
      ∧ (∀ sa, atIssue (.jr sa) s = some c → (rdS c sa).toNat % 4 = 0 →
          ∃ c', Does (.jr sa) s c c' ∧ RegisterFrame c c' noRegs ∧ c'.stands (rdS c sa))
      ∧ (∀ sa, atIssue (.ret sa) s = some c → (rdS c sa).toNat % 4 = 0 →
          ∃ c', Does (.ret sa) s c c' ∧ RegisterFrame c c' noRegs ∧ c'.stands (rdS c sa)))
  ∧ (∀ (s : State) (c : Ctx) (sa : SReg), (rdS c sa).toNat % 4 ≠ 0 → c.sheaf.sys.sstat.getLsbD 1 = false →
      ∀ i, i = .jr sa ∨ i = .ret sa → atIssue i s = some c → ∃ t, exec i s = .next t
        ∧ trapTaken c 1 8 0 ((encode c.team.ver i).headD 0) c.unit.pc c.unit.mask (BitVec.ofNat 64 (2 ^ 1)) 0 t)

/-! ### Splits, joins and ends -/

/-- R85, R94: a `bv` with no taker goes on; one that all take branches, here with no cancelled thread; one that divides its unit
leaves the rest in it and makes a new unit of the takers, or parks the rest where the lane is full; with no room for that it
raises SPLIT and has no effect. Its record is its unit's inner record where that has the `bv`'s id, else the free record of
lowest number, whose parent is the inner record; with the whole table in use and no match there is none. A new record opens with the
highest place for its lowest `join`. A side keeps its own inner record where another record parks it, the model's choice (`Side.inner`,
log 21). -/
def Obligations.BranchDividesItsUnit : Prop :=
  ∀ (s : State) (c : Ctx) (neg : Bool) (p : Ix3) (j : BitVec 4) (off : BitVec 16) (tk : BitVec 16) (target : Word),
    atIssue (.bv neg p j off) s = some c → tk = takes c neg p → target = c.unit.pc + off.signExtend 32 * 4 →
    (target.toNat ≤ c.unit.pc.toNat → cancelledIn c.st c.team.die c.sheaf tk = 0 ∧ swathFree c ∧ noGangWaits c.st c.tid) →
    (tk = 0 → ∃ c', Does (.bv neg p j off) s c c' ∧ RegisterFrame c c' noRegs ∧ c'.stands (c.next 1))
    ∧ (tk ≠ 0 → tk = c.unit.mask → ∃ c', Does (.bv neg p j off) s c c' ∧ RegisterFrame c c' noRegs ∧ c'.stands target)
    ∧ (tk ≠ 0 → tk ≠ c.unit.mask → ∀ rid r, splitRecord c.sheaf c.unit j.toNat (laneFull c) = some (rid, r) →
        (laneFull c = false → c.uid < c.st.nextId → ∃ c' d, Does (.bv neg p j off) s c c'
          ∧ unitAt c'.st c.tid c.slot c.st.nextId = some d
          ∧ c'.unit.mask = c.unit.mask &&& ~~~tk ∧ c'.stands (c.next 1) ∧ c'.unit.inner = some rid ∧ c'.unit.age = c.unit.age
          ∧ d.unit.mask = tk ∧ d.stands target ∧ d.unit.inner = some rid ∧ d.unit.age = c.unit.age
          ∧ c'.unit.path = c.unit.path ++ [false] ∧ d.unit.path = c.unit.path ++ [true]
          ∧ Tbl.find c'.sheaf.splits rid = some r ∧ ∀ k, readKey c'.sheaf k = readKey c.sheaf k)
        ∧ (laneFull c = true → r.parked.length < 15 → ∃ c', Does (.bv neg p j off) s c c'
          ∧ c'.unit.mask = tk ∧ c'.stands target ∧ c'.unit.inner = some rid
          ∧ Tbl.find c'.sheaf.splits rid = some { r with parked := r.parked ++ 
            [⟨c.unit.mask &&& ~~~tk, c.next 1, .fresh, c.unit.path ++ [false], c.unit.fenced, none⟩] }
          ∧ ∀ k, readKey c'.sheaf k = readKey c.sheaf k))
    ∧ (tk ≠ 0 → tk ≠ c.unit.mask → c.sheaf.sys.sstat.getLsbD 1 = false →
        (splitRecord c.sheaf c.unit j.toNat (laneFull c) = none
          ∨ ∃ rid r, splitRecord c.sheaf c.unit j.toNat (laneFull c) = some (rid, r) ∧ laneFull c = true ∧ 15 ≤ r.parked.length) →
        ∃ t, exec (.bv neg p j off) s = .next t ∧ trapTaken c 12 0 1 0 c.unit.pc c.unit.mask (BitVec.ofNat 64 (2 ^ 12)) 0 t)
    ∧ ∀ (sh : Sheaf) (u : UnitSt) (id : Nat) (serial : Bool),
      (∀ rid r, u.inner = some rid → Tbl.find sh.splits rid = some r → r.id = id →
        splitRecord sh u id serial = some (rid, { r with live := if serial then r.live else r.live + 1 }))
      ∧ ((∀ rid r, u.inner = some rid → Tbl.find sh.splits rid = some r → r.id ≠ id) →
          (∀ rid, rid < 16 → Tbl.find sh.splits rid = none → (∀ k, k < rid → Tbl.find sh.splits k ≠ none) →
            splitRecord sh u id serial = some (rid, 
              ⟨id, u.inner, if serial then 1 else 2, 0, BitVec.allOnes 32, [], u.age, u.path, u.fenced⟩))
          ∧ ((∀ rid, rid < 16 → Tbl.find sh.splits rid ≠ none) → splitRecord sh u id serial = none))

/-- R84, R83: a `join` that matches no inner record has no effect; one that does ends its unit, and the record's last member
brings its arrived threads together at the word after the lowest `join`, or starts a parked side. Another member's end leaves the rest
as it was where no parked side waits for it to let it run. -/
def Obligations.JoinsMeetAtTheirRecord : Prop :=
  ∀ (s : State) (c : Ctx) (j : BitVec 4), atIssue (.join j) s = some c →
    ((∀ rid r, c.unit.inner = some rid → Tbl.find c.sheaf.splits rid = some r → r.id ≠ j.toNat) →
      ∃ c', Does (.join j) s c c' ∧ RegisterFrame c c' noRegs ∧ c'.stands (c.next 1))
    ∧ ∀ rid r, c.unit.inner = some rid → Tbl.find c.sheaf.splits rid = some r → r.id = j.toNat → swathFree c →
      noGangWaits c.st c.tid → c.uid ≠ c.st.nextId → c.unit.mask ≠ 0 →
      ∀ low, low = (if c.unit.pc.toNat < r.jaddr.toNat then c.unit.pc else r.jaddr) →
      (1 < r.live → othersGoOn c → sidesStay c → ∃ t sh, exec (.join j) s = .next t ∧ sheafAt t c.tid c.slot = some sh
        ∧ Tbl.find sh.units c.uid = none ∧ (∀ u, u ≠ c.uid → Tbl.find sh.units u = Tbl.find c.sheaf.units u)
        ∧ Tbl.find sh.splits rid = some { r with arrived := r.arrived ||| c.unit.mask, jaddr := low, live := r.live - 1,
                                                       fenced := joinScopes r.fenced c.unit.fenced })
      ∧ (r.live ≤ 1 → r.parked = [] → ∃ t d, exec (.join j) s = .next t ∧ unitAt t c.tid c.slot c.uid = none
        ∧ unitAt t c.tid c.slot c.st.nextId = some d ∧ d.unit.mask = r.arrived ||| c.unit.mask ∧ d.stands (low + 4)
        ∧ d.unit.inner = r.parent ∧ d.unit.age = r.age ∧ Tbl.find d.sheaf.splits rid = none
        ∧ ∀ k, readKey d.sheaf k = readKey c.sheaf k)
      ∧ (∀ p ps, r.live ≤ 1 → r.parked = p :: ps → p.mask ≠ 0 → ∃ t d, exec (.join j) s = .next t ∧ unitAt t c.tid c.slot c.uid = none
        ∧ unitAt t c.tid c.slot c.st.nextId = some d ∧ d.unit.mask = p.mask ∧ d.stands p.pc
        ∧ d.unit.inner = some (p.inner.getD rid) ∧ d.unit.path = p.path
        ∧ Tbl.find d.sheaf.splits rid = some { r with arrived := r.arrived ||| c.unit.mask, jaddr := low, live := 1, parked := ps,
                                                       fenced := joinScopes r.fenced c.unit.fenced })

/-- R104, R83, R374: `end` ends its unit; a sheaf left without a live thread retires, in a team that does not sow; in a
supervisor trap it also returns from the trap, and its team counts as faulted. -/
def Obligations.EndedUnitIsGone : Prop :=
  ∀ (s : State) (c : Ctx), atIssue .endw s = some c → c.uid < c.st.nextId → swathFree c → noGangWaits c.st c.tid → othersGoOn c →
    ∃ t tm sh, exec .endw s = .next t ∧ Tbl.find t.teams c.tid = some tm ∧ Tbl.find tm.sheaves c.slot = some sh
      ∧ Tbl.find sh.units c.uid = none ∧ t.mem = c.st.mem ∧ t.host = c.st.host
      ∧ (∀ tid, tid ≠ c.tid → Tbl.find t.teams tid = Tbl.find c.st.teams tid)
      ∧ (∀ k, readKey sh k = readKey c.sheaf k)
      ∧ (c.sheaf.units = [(c.uid, c.unit)] → c.sheaf.splits = [] → c.unit.inner = none → c.team.sowing = false → sh.retired = true)
      ∧ (c.sheaf.level ≠ .user → c.sheaf.sys.sstat.getLsbD 1 = true →
          tm.faulted = true ∧ sh.level = (if c.sheaf.sys.sstat.getLsbD 0 then .supervisor else .user)
          ∧ sh.sys.sstat.getLsbD 1 = false ∧ sh.svFetch = false ∧ sh.trapped = none)
      ∧ ((c.sheaf.level = .user ∨ c.sheaf.sys.sstat.getLsbD 1 = false) → sh.level = c.sheaf.level ∧ sh.sys = c.sheaf.sys)

/-! ### Rounds and barriers -/

/-- R158, R161 to R163: when the last unit of the team arrives at a `sow` or `sow.sg` and the round meets the checks of R160,
with the silo pages that it writes mapped and to be reached and the pool having room, every survivor whose slice index is below the capacity is
placed by that index, with its parent's registers. R157: a round with neither survivor nor record ends its team. -/
def Obligations.SowRoundPlacesSurvivors : Prop :=
  ∀ (s : State) (c : Ctx) (sg : Bool) (h : Hdr) (va : VReg) (i : Instr) (arr : List Arrived),
    i = (if sg then .sowSg h va else .sow h va) → atIssue i s = some c →
    cancelledIn c.st c.team.die c.sheaf c.unit.mask = 0 → lastToArrive c (.round (sowWord sg h va)) → noGangWaits c.st c.tid →
    (∀ u ∈ teamUnits c.st c.tid, u.unit.pc = c.unit.pc) → inRank (arrivalsOf c h va 1) arr →
    planFault c.team sg (planRound c.team arr) = none →
    (planPages c.team (planRound c.team arr) = [] ∨ (descBad c.st c.team.asid = false
      ∧ (∀ p ∈ planPages c.team (planRound c.team arr), rangeWaits c.st c.team.die c.team.asid (siloAddr c.team + 65536 * p) 1 = false)
      ∧ poolShort c.st c.team (planPages c.team (planRound c.team arr)) = false
      ∧ siloUnmapped c.st c.team (planPages c.team (planRound c.team arr)) = none)) →
    (placesSome c arr → ∃ t, exec i s = .next t ∧ roundPlaced c sg arr t)
    ∧ ((arr.map (·.n)).sum = 0 → c.team.levels = [] →
        ∃ t, exec i s = .next t ∧ ∀ tm, Tbl.find t.teams c.tid = some tm → tm.ended = true)

/-- R166: a `sow.q` round writes to each active thread the sum of the counts before it and the total, both saturated; every
unit continues at its next word, and no other register changes. -/
def Obligations.SowqRoundWritesItsSums : Prop :=
  ∀ (s : State) (c : Ctx) (h : Hdr) (vd va : VReg) (arr : List Arrived),
    atIssue (.sowQ h vd va) s = some c → Instr.wf c.team.ver (.sowQ h vd va) = true →
    lastToArrive c (.round ⟨.sowQ, va.toNat, vd.toNat, h.pred.toNat, h.neg⟩) → noGangWaits c.st c.tid →
    (∀ u ∈ teamUnits c.st c.tid, u.unit.pc = c.unit.pc) → inRank (arrivalsOf c h va 0) arr →
    c.st.tablesSorted = true →
    ∃ t, exec (.sowQ h vd va) s = .next t
      ∧ (∀ u ∈ teamUnits c.st c.tid, ∃ u', unitAt t u.tid u.slot u.uid = some u' ∧ u'.stands (u.next 3) ∧ u'.unit.mask = u.unit.mask
          ∧ ∀ k, (∀ a ∈ arr, a.act = true → a.slot = u.slot → k ≠ .v a.pos vd.toNat ∧ k ≠ .v a.pos (vd.toNat + 1)) →
              readKey u'.sheaf k = readKey u.sheaf k)
      ∧ ∀ l1 a l2, arr = l1 ++ a :: l2 → a.act = true → (∀ b ∈ l1 ++ l2, b.act = true → (b.slot, b.pos) ≠ (a.slot, a.pos)) →
          ∀ sh, sheafAt c.st c.tid a.slot = some sh → (Tbl.find sh.threads a.pos).isSome = true →
          ∃ sh', sheafAt t c.tid a.slot = some sh'
          ∧ (drainHolds sh (.v a.pos vd.toNat) = true
              ∨ readKey sh' (.v a.pos vd.toNat) = BitVec.ofNat 32 (Min.min (l1.map (·.n)).sum 0xFFFFFFFF))
          ∧ (drainHolds sh (.v a.pos (vd.toNat + 1)) = true
              ∨ readKey sh' (.v a.pos (vd.toNat + 1)) = BitVec.ofNat 32 (Min.min (arr.map (·.n)).sum 0xFFFFFFFF))

/-- R307: the last unit to arrive at a barrier completes it, and every unit of its scope continues at its next word with its
registers as they were; here no thread of the arriving unit is cancelled. -/
def Obligations.BarriersComplete : Prop :=
  ∀ (s : State) (c : Ctx), cancelledIn c.st c.team.die c.sheaf c.unit.mask = 0 → c.st.tablesSorted = true →
    (atIssue .barTeam s = some c → lastToArrive c .barTeam → noGangWaits c.st c.tid → ∃ t, exec .barTeam s = .next t
      ∧ ∀ u ∈ teamUnits c.st c.tid, ∃ u', unitAt t u.tid u.slot u.uid = some u' ∧ u'.stands (u.next 2)
        ∧ ∀ k, readKey u'.sheaf k = readKey u.sheaf k)
    ∧ (atIssue .barGang s = some c → lastToArrive c .barGang → noGangWaits c.st c.tid →
        (∀ i ∈ gangOf c.st c.team, i ≠ c.tid → ∃ t, Tbl.find c.st.teams i = some t ∧ t.out = false
          ∧ (∀ sh ∈ t.sheaves, sh.2.splits = []) ∧ ∀ u ∈ teamUnits c.st i, u.unit.wait = .barGang) →
        ∃ t, exec .barGang s = .next t ∧ ∀ i ∈ gangOf c.st c.team, ∀ u ∈ teamUnits c.st i,
          ∃ u', unitAt t u.tid u.slot u.uid = some u' ∧ u'.stands (u.next 2) ∧ ∀ k, readKey u'.sheaf k = readKey u.sheaf k)
    ∧ (atIssue .barSwath s = some c → swathAt c →
        (∀ u ∈ swathUnits c.st c.tid c.slot, cancelledIn c.st c.team.die u.sheaf u.unit.mask = 0) →
        ∃ t, exec .barSwath s = .next t ∧ ∀ u ∈ swathUnits c.st c.tid c.slot,
          ∃ u', unitAt t u.tid u.slot u.uid = some u' ∧ u'.stands (u.next 2) ∧ ∀ k, readKey u'.sheaf k = readKey u.sheaf k)

/-! ### Bound rows, copies and rings -/

/-- R267: `bd.set` and `bd.clr` write the rows of their active threads, with no command pending on a named tile, and no other
row of any bound register or buffer. -/
def Obligations.BoundRowsAreWritten : Prop :=
  ∀ (s : State) (c : Ctx) (h : Hdr) (x : BdSrc),
    (∀ va mx, atIssue (.bdSet h mx x va) s = some c → rowsFree c x →
      ∃ c', Does (.bdSet h mx x va) s c c' ∧ c'.stands (c.next 3) ∧ WordFrame c c' noBytes noRegs
        ∧ (∀ p ∈ activeOf c h, ∀ row n, (row = rowOf c p ∧ n = (rdV c p va).extractLsb' 0 16)
              ∨ (x = .w ∧ row = rowOf c p + 64 ∧ n = (rdV c p va).extractLsb' 16 16) →
            rowNow (engineOf c') x row = if mx then bndMax (rowNow (engineOf c) x row) (bndRead n) else bndRead n)
        ∧ (∀ y row, ¬ (y = x ∧ ∃ p ∈ activeOf c h, row ∈ bdRows c x p) → row < 64 ∨ y = .w →
            rowNow (engineOf c') y row = rowNow (engineOf c) y row))
    ∧ (atIssue (.bdClr h x) s = some c → rowsFree c x →
      ∃ c', Does (.bdClr h x) s c c' ∧ c'.stands (c.next 3) ∧ WordFrame c c' noBytes noRegs
        ∧ (∀ p ∈ activeOf c h, ∀ row ∈ bdRows c x p, rowNow (engineOf c') x row = 0)
        ∧ (∀ y row, ¬ (y = x ∧ ∃ p ∈ activeOf c h, row ∈ bdRows c x p) → row < 64 ∨ y = .w →
            rowNow (engineOf c') y row = rowNow (engineOf c) y row))

/-- R210 to R214, R226: a copy that passes its checks enters its engine's queue with everything that it names captured; its token
becomes pending and its ring slot counts it; nothing is copied yet.
R455, R456: an append that passes its checks enters its core's streamer queue; its token becomes pending. -/
def Obligations.CopiesAndAppendsEnterTheirQueue : Prop :=
  (∀ (i : Instr) (s : State) (c : Ctx) (tk : Ix3) (r : Ring) (x : CopyArgs), copyOf c i = some (tk, r, x) → atIssue i s = some c →
      (tokAt c.sheaf tk.toNat).pending = false → (queueFor c x.gather).length < (if x.gather then 256 else 32) →
      (∀ k, ringKey r = some k → (ringAt c.team k).oc < 255) → x.check = none →
      ∃ c' cmd, Does i s c c' ∧ c'.stands (c.next 2) ∧ WordFrame c c' noBytes noRegs
        ∧ queueFor c' x.gather = queueFor c x.gather ++ [cmd]
        ∧ cmd.kind = x.kind ∧ cmd.a = x.a ∧ cmd.b = x.b ∧ cmd.b2 = x.b2 ∧ cmd.n = x.n ∧ cmd.layout = x.layout ∧ cmd.rows = x.rows
        ∧ cmd.tid = c.tid ∧ cmd.slot = c.slot ∧ cmd.tk = tk.toNat ∧ cmd.asid = c.team.asid ∧ cmd.tag = c.tag ∧ cmd.progress = 0
        ∧ cmd.ring = ringKey r
        ∧ tokAt c'.sheaf tk.toNat = ⟨true, 0⟩ ∧ (∀ k, k ≠ tk.toNat → tokAt c'.sheaf k = tokAt c.sheaf k)
        ∧ (∀ k, ringKey r = some k → ringAt c'.team k = { ringAt c.team k with oc := (ringAt c.team k).oc + 1 })
        ∧ ∀ k, ringKey r ≠ some k → ringAt c'.team k = ringAt c.team k)
  ∧ (∀ (i : Instr) (s : State) (c : Ctx) (tk : Ix3) (a sg r : SReg) (kind : Nat), appendOf i = some (tk, a, sg, r, kind) →
      atIssue i s = some c → (tokAt c.sheaf tk.toNat).pending = false → (queueFor c false).length < 32 →
      logCheck c (rdPair c a) (rdS c sg) = none →
      ∃ c' cmd, Does i s c c' ∧ c'.stands (c.next 2) ∧ WordFrame c c' noBytes noRegs
        ∧ queueFor c' false = queueFor c false ++ [cmd] ∧ cmd.kind = .log kind ∧ cmd.a = rdS c sg ∧ cmd.b = rdPair c a
        ∧ cmd.tid = c.tid ∧ cmd.slot = c.slot ∧ cmd.tk = tk.toNat ∧ cmd.res = fieldIx c r ∧ cmd.tag = c.tag ∧ cmd.ring = none
        ∧ tokAt c'.sheaf tk.toNat = ⟨true, 0⟩ ∧ ∀ k, k ≠ tk.toNat → tokAt c'.sheaf k = tokAt c.sheaf k)

/-- R225, R227: `tk.wait` passes once its tokens are complete and `tk.wait.st` then writes their statuses; `rg.acq` passes when
its slot has the phase; `rg.rel` seals its slot, which turns at once where no copy is outstanding. -/
def Obligations.TokenAndRingWordsPass : Prop :=
  ∀ (s : State) (c : Ctx) (la : BitVec 4),
    (∀ mask : BitVec 8, tokensPending c.sheaf mask.toNat = false →
      (atIssue (.tkWait la mask) s = some c → ∃ c', Does (.tkWait la mask) s c c' ∧ c'.stands (c.next 2)
        ∧ WordFrame c c' noBytes noRegs ∧ c'.sheaf.tok = c.sheaf.tok)
      ∧ ∀ sd, atIssue (.tkWaitSt la sd mask) s = some c → (∀ k, (tokAt c.sheaf k).status < 16) →
        ∃ c' v, Does (.tkWaitSt la sd mask) s c c' ∧ c'.stands (c.next 2)
        ∧ WordFrame c c' noBytes (· = fieldKey c.sheaf sd) ∧ c'.sheaf.tok = c.sheaf.tok ∧ Wrote c c' (fieldKey c.sheaf sd) v
        ∧ ∀ k, k < 8 → (v.extractLsb' (4 * k) 4).toNat = if mask.getLsbD k then (tokAt c.sheaf k).status else 0)
    ∧ (∀ (r : RingSlot) (k : Nat) (full : Bool) (i : Instr),
        k = 16 * r.ring.toNat + (r.slot.toNat + if r.dyn then (rdS c r.ea).toNat % 16 else 0) % 16 →
        i = (if full then .rgAcqFull la r else .rgAcqEmpty la r) → atIssue i s = some c →
        ((ringAt c.team k).ph = full → ∃ c', Does i s c c' ∧ c'.stands (c.next 2) ∧ WordFrame c c' noBytes noRegs)
        ∧ ((ringAt c.team k).ph ≠ full →
            exec i s = .next (c.modUnit s fun u => { u with wait := .ring (k / 16) (k % 16) full })))
    ∧ ∀ (r : RingSlot) (k : Nat), k = 16 * r.ring.toNat + (r.slot.toNat + if r.dyn then (rdS c r.ea).toNat % 16 else 0) % 16 →
        atIssue (.rgRel la r) s = some c → ∃ c', Does (.rgRel la r) s c c' ∧ c'.stands (c.next 2) ∧ WordFrame c c' noBytes noRegs
        ∧ (∀ n, n ≠ k → ringAt c'.team n = ringAt c.team n)
        ∧ ((ringAt c.team k).oc = 0 → ringAt c'.team k = ⟨!(ringAt c.team k).ph, false, 0⟩)
        ∧ ((ringAt c.team k).oc ≠ 0 → ringAt c'.team k = { ringAt c.team k with se := true })

/-! ### Matrix words -/

/-- R241 to R247: a matrix word of its group enters the engine's queue with what it captures and the rows of its threads; its
token becomes pending in every sheaf, its units continue, and tiles, bounds and planes are as they were. -/
def Obligations.MatrixWordsEnterTheQueue : Prop :=
  ∀ (i : Instr) (s : State) (c : Ctx) (us : List Ctx) (w : MxWord), atIssue i s = some c → matrixUnits c us →
    matrixOf (leadCtx c us) i = some w → w.check = none → jobClash (engineOf c) (mxSlots c) w.op = false →
    (∀ tk, w.tk = some tk → ∀ u ∈ us, (tokAt u.sheaf tk.toNat).pending = false) → (engineOf c).queue.length < 16 →
    ∃ t cmd, exec i s = .next t
      ∧ (coreOf t c.core).engine.queue = (engineOf c).queue ++ [cmd]
      ∧ cmd.op = w.op ∧ cmd.tid = c.tid ∧ cmd.slots = mxSlots c ∧ cmd.tk = w.tk.map (·.toNat) ∧ cmd.base = mxBase c
      ∧ (∀ row, row < 64 → (cmd.rows.getLsbD row = true ↔ ∃ u ∈ us, ∃ p ∈ positions u.unit.mask, rowOf u p = row))
      ∧ (coreOf t c.core).engine.tiles = (engineOf c).tiles ∧ (coreOf t c.core).engine.bounds = (engineOf c).bounds
      ∧ (coreOf t c.core).engine.active = (engineOf c).active ∧ (coreOf t c.core).engine.shadow = (engineOf c).shadow
      ∧ t.mem = c.st.mem
      ∧ matrixPassed us t fun sh sh' => (∀ tk, w.tk = some tk → tokAt sh' tk.toNat = ⟨true, 0⟩)
          ∧ (∀ k, w.tk.map (·.toNat) ≠ some k → tokAt sh' k = tokAt sh k)
          ∧ (∀ h ∈ sh.held, h ∈ sh'.held)

/-- R254, R255, R270, R276: `mx.fence` leaves no write of its sheaves open; `mx.wait` passes once its token is complete and ends no
job, or ends one whose mode asks for no check, or makes the check of each re-run of an `mx.redo` with its token, where a trip sets FT; `mx.beg` opens a free slot and `mx.redo` a held job's re-run, each entering the
queue. -/
def Obligations.MatrixFencesWaitsAndJobs : Prop :=
  ∀ (s : State) (c : Ctx) (us : List Ctx) (la : BitVec 4), matrixUnits c us →
    (atIssue (.mxFence la) s = some c → ∃ t, exec (.mxFence la) s = .next t ∧ t.mem = c.st.mem
      ∧ matrixPassed us t fun _ sh' => sh'.loose = [] ∧ sh'.looseB = [])
    ∧ (∀ tk : Ix3, atIssue (.mxWait la tk) s = some c → (∀ u ∈ us, (tokAt u.sheaf tk.toNat).pending = false) →
        ∀ redone, redone = (engineOf c).redone.filter (fun j => j.slots == mxSlots c && j.redoTk == some tk.toNat) →
        (redone = [] → endingJob (engineOf c) (mxSlots c) tk.toNat = none → ∃ t, exec (.mxWait la tk) s = .next t
          ∧ t.mem = c.st.mem ∧ (coreOf t c.core).engine = engineOf c ∧ matrixPassed us t fun sh sh' => sh'.tok = sh.tok)
        ∧ (∀ n j, redone = [] → endingJob (engineOf c) (mxSlots c) tk.toNat = some (n, j) → j.state = .opened → j.mode = 0 →
            endingJob (setJob (engineOf c) n Job.zero) (mxSlots c) tk.toNat = none →
            ∃ t, exec (.mxWait la tk) s = .next t ∧ jobOf (coreOf t c.core).engine n = Job.zero
              ∧ matrixPassed us t fun sh sh' => sh'.tok = sh.tok ∧ sh'.sys = sh.sys)
        ∧ (redone ≠ [] → endingJob (engineOf c) (mxSlots c) tk.toNat = none → ∃ t, exec (.mxWait la tk) s = .next t
          ∧ (coreOf t c.core).engine = { engineOf c with
              redone := (engineOf c).redone.filter fun j => !(j.slots == mxSlots c && j.redoTk == some tk.toNat) }
          ∧ matrixPassed us t fun sh sh' => sh'.tok = sh.tok ∧ sh'.sys = redone.foldl (fun r j =>
              if tripRows (engineOf c) j = 0 then r else { r with bmode := r.bmode ||| BitVec.ofNat 32 (2 ^ (16 + j.tile)) }) sh.sys))
    ∧ (∀ (i : Ix3) (n : Bool), atIssue (.mxBeg la i n) s = some c → (engineOf c).queue.length < 16 →
        (jobOf (engineOf c) (if n then 1 else 0)).state = .free →
        (∀ m, m < 2 → (jobOf (engineOf c) m).state = .opened → (jobOf (engineOf c) m).tile ≠ i.toNat) →
        ∃ t cmd, exec (.mxBeg la i n) s = .next t ∧ (coreOf t c.core).engine.queue = (engineOf c).queue ++ [cmd]
          ∧ cmd.op = .beg i.toNat (if n then 1 else 0)
          ∧ (jobOf (coreOf t c.core).engine (if n then 1 else 0)).state = .opened
          ∧ (jobOf (coreOf t c.core).engine (if n then 1 else 0)).tile = i.toNat
          ∧ (jobOf (coreOf t c.core).engine (if n then 1 else 0)).mode = bits (leadCtx c us).sheaf.sys.bmode.toNat 1 0
          ∧ (jobOf (coreOf t c.core).engine (if n then 1 else 0)).tau = (leadCtx c us).sheaf.sys.bthr &&& 0x7FFFFFFF
          ∧ matrixPassed us t fun sh sh' => sh'.tok = sh.tok)
    ∧ ∀ (tk i : Ix3) (n : Bool), atIssue (.mxRedo la tk i n) s = some c → (∀ u ∈ us, (tokAt u.sheaf tk.toNat).pending = false) →
        (engineOf c).queue.length < 16 → (jobOf (engineOf c) (if n then 1 else 0)).state = .held →
        (jobOf (engineOf c) (if n then 1 else 0)).tile = i.toNat →
        ∃ t cmd, exec (.mxRedo la tk i n) s = .next t ∧ (coreOf t c.core).engine.queue = (engineOf c).queue ++ [cmd]
          ∧ cmd.op = .redo i.toNat (if n then 1 else 0)
          ∧ (jobOf (coreOf t c.core).engine (if n then 1 else 0)).state = .rerunning
          ∧ matrixPassed us t fun _ sh' => tokAt sh' tk.toNat = ⟨true, 0⟩

/-! ### Counters and groups -/

/-- R300, R301, R303, R304, R305: a word that names a counter sends its request there and goes on, the value of one that asks for it
on its way to its register; `susp` waits for the wake outside the active set and reads its registers with every window ended; one whose name fails R300 takes EVENT with the subcode of the check. -/
def Obligations.CounterWordsSendRequests : Prop :=
  ∀ (s : State) (c : Ctx) (la : BitVec 4) (sn : SReg),
    (∀ k, nameCheck c.st c.team.asid c.team.evWin (rdS c sn) = .ok k →
      (∀ sv, atIssue (.evAdd la sn sv) s = some c → ∃ c', Does (.evAdd la sn sv) s c c' ∧ c'.stands (c.next 2)
        ∧ WordFrame c c' noBytes noRegs
        ∧ c'.st.evReqs = c.st.evReqs ++ [requestOf c .add k (rdS c sv) 0 false])
      ∧ (∀ sv, atIssue (.evSet la sn sv) s = some c → ∃ c', Does (.evSet la sn sv) s c c' ∧ c'.stands (c.next 2)
        ∧ WordFrame c c' noBytes noRegs
        ∧ c'.st.evReqs = c.st.evReqs ++ [requestOf c .set k (rdS c sv) 0 false])
      ∧ (∀ sd sv, atIssue (.evAddRet la sd sn sv) s = some c → ∃ c', Does (.evAddRet la sd sn sv) s c c'
        ∧ goesOnAwaiting c c' sd la ∧ WordFrame c c' noBytes noRegs
        ∧ c'.st.evReqs = c.st.evReqs ++ [requestOf c .addRet k (rdS c sv) 0 false])
      ∧ (∀ sd, atIssue (.evGet la sd sn) s = some c → ∃ c', Does (.evGet la sd sn) s c c'
        ∧ goesOnAwaiting c c' sd la ∧ WordFrame c c' noBytes noRegs
        ∧ c'.st.evReqs = c.st.evReqs ++ [requestOf c .get k 0 0 false]))
    ∧ (∀ st sc k, nameCheck c.st c.team.asid c.team.evWin (rdS (closed c) sn) = .ok k → atIssue (.susp sn st sc) s = some c →
        (rdS (closed c) sc).toNat % 4 = 0 → cancelledIn c.st c.team.die c.sheaf c.unit.mask = 0 → ∃ c', Does (.susp sn st sc) s c c'
        ∧ waitsFor c c' (.susp c.st.nextId) ∧ c'.unit.active = false ∧ WordFrame c c' noBytes noRegs
        ∧ c'.st.evReqs = c.st.evReqs ++ [requestOf c .susp k (rdS (closed c) st) (rdS (closed c) sc) false])
    ∧ ∀ e sv, nameCheck c.st c.team.asid c.team.evWin (rdS c sn) = .error e → atIssue (.evAdd la sn sv) s = some c →
        c.sheaf.sys.sstat.getLsbD 1 = false → ∃ t, exec (.evAdd la sn sv) s = .next t
        ∧ trapTaken c 19 e 1 0 c.unit.pc c.unit.mask (BitVec.ofNat 64 (2 ^ 19)) 0 t

/-- R301, R303, R304: a request that reaches its counter updates it, answers its unit with the value before, registers the unit
that waits or lets it go on; and an update that reaches a waiter's target moves that waiter to its continuation. -/
def Obligations.CounterTakesItsRequest : Prop :=
  ∀ (s : State) (ix : Nat) (r : EvReq) (d : Die), s.evReqs[ix]? = some r → evBlocked s ix r = false →
    Tbl.find s.dies (r.ctr / 1024) = some d →
    ∃ t, exec (.eventCounterUpdate ix) s = .next t ∧ t.evReqs = dropAt s.evReqs ix
      ∧ (counterAt t r.ctr).tag = (counterAt s r.ctr).tag
      ∧ (∀ k, k ≠ r.ctr → counterAt t k = counterAt s k)
      ∧ (counterAt t r.ctr).value = (match r.op with
          | .add | .addRet => (counterAt s r.ctr).value + r.value
          | .set => r.value
          | .get | .susp => (counterAt s r.ctr).value)
      ∧ (∀ c a, unitAt s r.tid r.slot r.uid = some c → c.unit.awaits.find? (fun x => x.id == r.id) = some a →
          (∀ n, c.unit.wait ≠ .susp n) → (∀ o ∈ c.sheaf.overtaken, o.1 ≠ r.id) → r.op = .addRet ∨ r.op = .get →
          ∃ c', unitAt t r.tid r.slot r.uid = some c' ∧ arrived c c' a (counterAt s r.ctr).value)
      ∧ (∀ c, unitAt s r.tid r.slot r.uid = some c → c.unit.wait = .susp r.id → r.op = .susp →
          (0 ≤ ((counterAt s r.ctr).value - r.value).toInt →
            ∃ c', unitAt t r.tid r.slot r.uid = some c' ∧ c'.stands r.cont ∧ ∀ k, readKey c'.sheaf k = readKey c.sheaf k)
          ∧ (((counterAt s r.ctr).value - r.value).toInt < 0 → (dieOf t (r.ctr / 1024)).susps = d.susps ++ [r]
            ∧ ∃ c', unitAt t r.tid r.slot r.uid = some c' ∧ waitsFor c c' (.susp r.id)))
      ∧ (r.op = .add ∨ r.op = .set → ∀ w ∈ d.susps, w.ctr = r.ctr → (∀ x ∈ d.susps, x.id = w.id → x = w) →
          0 ≤ ((counterAt t r.ctr).value - w.value).toInt → w ∉ (dieOf t (r.ctr / 1024)).susps
          ∧ ∀ c, unitAt s w.tid w.slot w.uid = some c → c.unit.wait = .susp w.id →
            ∃ c', unitAt t w.tid w.slot w.uid = some c' ∧ c'.stands w.cont ∧ ∀ k, readKey c'.sheaf k = readKey c.sheaf k)

/-- R323 to R326, R328, R329, R337: the sibling group words whose checks pass: a join retags its unit's threads, a reading writes its
word once the home die can give it, a request goes to the group's home die and its answer is on its way to its register, and a cancellation point lets the threads that are not cancelled go on. -/
def Obligations.GroupWordsTakeEffect : Prop :=
  ∀ (s : State) (c : Ctx) (la : BitVec 4),
    (∀ sr g, groupNamed c (rdS c sr) true g → atIssue (.sgJoin la sr) s = some c →
      ∃ c', Does (.sgJoin la sr) s c c' ∧ c'.stands (c.next 2) ∧ retagged c c' (rdS c sr) ∧ ∀ k, readKey c'.sheaf k = readKey c.sheaf k)
    ∧ (atIssue (.sgJoinClr la) s = some c →
      ∃ c', Does (.sgJoinClr la) s c c' ∧ c'.stands (c.next 2) ∧ retagged c c' 0 ∧ ∀ k, readKey c'.sheaf k = readKey c.sheaf k)
    ∧ (atIssue (.sgCpt la) s = some c → ∀ gone, gone = goneAt c → (gone ≠ 0 → swathFree c ∧ noGangWaits c.st c.tid) →
      c.unit.mask &&& ~~~gone ≠ 0 → ∃ c', Does (.sgCpt la) s c c' ∧ c'.stands (c.next 2)
        ∧ c'.unit.mask = c.unit.mask &&& ~~~gone ∧ ∀ k, readKey c'.sheaf k = readKey c.sheaf k)
    ∧ (∀ sd g, c.tag.getLsbD 31 = true → groupNamed c c.tag false g →
      (∀ dh, atIssue (.sgVote la sd dh) s = some c → ∃ c', Does (.sgVote la sd dh) s c c' ∧ goesOnAwaiting c c' sd la
        ∧ WordFrame c c' noBytes noRegs
        ∧ c'.st.ballots = c.st.ballots ++ [ballotOf c (.vote (rdPair c dh)) (tagDie c.tag) c.tag])
      ∧ (atIssue (.sgVoteAbst la sd) s = some c → ∃ c', Does (.sgVoteAbst la sd) s c c' ∧ goesOnAwaiting c c' sd la
        ∧ WordFrame c c' noBytes noRegs
        ∧ c'.st.ballots = c.st.ballots ++ [ballotOf c .abst (tagDie c.tag) c.tag]))
    ∧ (∀ sd sg w g, ((∀ x, c.unit.wait ≠ .decision x) ∧ w = rdS c sg ∧ groupNamed c w false g)
          ∨ (c.unit.wait = .decision w ∧ groupAt c.st (tagDie w) (tagIdx w) = some g) → ballotAhead c = false →
      (statBlocked c.st w = false →
        (atIssue (.sgStatSt la sd sg) s = some c → wordWrites (.sgStatSt la sd sg) s c [(fieldKey c.sheaf sd, stateWord g)])
        ∧ (atIssue (.sgStatHash la sd sg) s = some c → Instr.wf c.team.ver (.sgStatHash la sd sg) = true →
          wordWrites (.sgStatHash la sd sg) s c (pairWords c sd (if g.state = .decided then g.dhash else 0)))
        ∧ (atIssue (.sgStatWait la sd sg) s = some c → g.state ≠ .opened →
          wordWrites (.sgStatWait la sd sg) s c [(fieldKey c.sheaf sd, stateWord g)])
        ∧ (atIssue (.sgStatWait la sd sg) s = some c → g.state = .opened → exec (.sgStatWait la sd sg) s =
          .next (c.modUnit s fun u => { u with wait := .decision w })))
      ∧ (statBlocked c.st w = true → ∀ i, i ∈ [Instr.sgStatSt la sd sg, .sgStatHash la sd sg, .sgStatWait la sd sg] →
          atIssue i s = some c → exec i s = .next (c.modUnit s fun u => { u with wait := .decision w })))
    ∧ (∀ sg g, groupNamed c (rdS c sg) false g → atIssue (.sgFree la sg) s = some c →
      ∃ c', Does (.sgFree la sg) s c c' ∧ c'.stands (c.next 2) ∧ WordFrame c c' noBytes noRegs
        ∧ c'.st.ballots = c.st.ballots ++ [ballotOf c .free (tagDie (rdS c sg)) (rdS c sg)])
    ∧ ∀ sd sp w0, w0 = (rdS c sp).toNat → atIssue (.sgNew la sd sp) s = some c → descBad c.st c.team.asid = false →
      newCheck c (rdS c sp) (pair (rdSk c sp 1) (rdSk c sp 2)) (rdSk c sp 3) = none →
      ∃ c' ev, Does (.sgNew la sd sp) s c c' ∧ goesOnAwaiting c c' sd la ∧ WordFrame c c' noBytes noRegs
        ∧ (bitOf w0 31 = false → ev = none)
        ∧ (bitOf w0 31 = true → ∃ k, nameCheck c.st c.team.asid c.team.evWin (rdSk c sp 3) = .ok k ∧ ev = some k)
        ∧ c'.st.ballots = c.st.ballots ++ [ballotOf c
            (.new (pair (rdSk c sp 1) (rdSk c sp 2)).toNat (bits w0 5 0 + 1) (bits w0 13 8 + 1) ev) (bits w0 17 16)
            (descWin c.st c.team.asid 0x40 (bits w0 17 16))]

/-! ### Launches, system registers, translation -/

/-- R348 to R350: a launch word that passes its checks sends its card to its queue: its token becomes pending, and a `lnch` counts a
child of its plot. -/
def Obligations.LaunchWordsSendTheirCards : Prop :=
  ∀ (i : Instr) (s : State) (c : Ctx) (tk : Ix3) (q a : SReg) (child isTry : Bool),
    launchOf i = some (tk, q, a, child, isTry) → atIssue i s = some c → (tokAt c.sheaf tk.toNat).pending = false →
    descBad c.st c.team.asid = false → launchCheck c (rdS c q) (rdPair c a) child = none →
    ∃ c' r, Does i s c c' ∧ c'.stands (c.next 2) ∧ WordFrame c c' noBytes noRegs ∧ c'.st.cardReqs = c.st.cardReqs ++ [r]
      ∧ r.die = bits (rdS c q).toNat 25 24 ∧ r.queue = queueBase c (rdS c q) + bits (rdS c q).toNat 5 0
      ∧ r.addr = (rdPair c a).toNat ∧ r.user = (c.sheaf.level == .user) ∧ (r.user = true → r.asid = c.team.asid) ∧ r.tag = c.tag
      ∧ r.isTry = isTry ∧ r.parent = (if child then some c.team.plot else none)
      ∧ r.depth = (if child then depthOf c + 1 else 1) ∧ r.src = .unit c.tid c.slot tk.toNat ∧ r.stopped = false
      ∧ tokAt c'.sheaf tk.toNat = ⟨true, 0⟩ ∧ (∀ k, k ≠ tk.toNat → tokAt c'.sheaf k = tokAt c.sheaf k)
      ∧ (∀ p, plotOf c.st c.team.plot = some p → plotOf c'.st c.team.plot
          = some { p with children := p.children + if child then 1 else 0 })

/-- R367, R368, R385, R418: `sr.get` writes the register's value: one of 32 bits to its destination, one of 64 to the pair; CYC
and NCYC are values between their last tick's and the next. -/
def Obligations.SystemRegistersAreRead : Prop :=
  ∀ (s : State) (c : Ctx) (la : BitVec 4) (reg : BitVec 12) (sd : SReg), atIssue (.srGet la reg sd) s = some c →
    (∀ v, register32 c reg.toNat = some v → wordWrites (.srGet la reg sd) s c [(fieldKey c.sheaf sd, v)])
    ∧ (∀ v, register64 c reg.toNat = some v → Instr.wf c.team.ver (.srGet la reg sd) = true →
        (reg = 0x1D → descBad c.st c.team.asid = false) → wordWrites (.srGet la reg sd) s c (pairWords c sd v))
    ∧ (∀ d, reg = 1 ∨ reg = 2 → Tbl.find c.st.dies c.team.die = some d → d.cyc ≤ d.cycTick + tickCycles c.team.die d.fcur c.st.mer →
        ∃ c' d' v, Does (.srGet la reg sd) s c c' ∧ c'.stands (c.next 2)
        ∧ WordFrame c c' noBytes (fun k => k ∈ (pairWords c sd v).map (·.1))
        ∧ (Instr.wf c.team.ver (.srGet la reg sd) = true → ∀ kv ∈ pairWords c sd v, Wrote c c' kv.1 kv.2)
        ∧ Tbl.find c'.st.dies c.team.die = some d' ∧ d.cyc ≤ d'.cyc ∧ d'.cyc ≤ d.cycTick + tickCycles c.team.die d.fcur c.st.mer
        ∧ v = BitVec.ofNat 64 (if reg = 1 then d'.cyc else d'.ncyc / 65536))

/-- R367, R368: `sr.set` writes its register: the sheaf's own, `UHI0` to `UHI15`, or one of the device or its die; a value that a
register does not store leaves it as it was. That SVBASE, MVBASE and CDBASE hold whatever is written is the model's reading (log 42). -/
def Obligations.SystemRegistersAreWritten : Prop :=
  ∀ (s : State) (c : Ctx) (la : BitVec 4) (reg : BitVec 12) (ss : SReg) (v : Word) (w : DWord) (d : Die),
    atIssue (.srSet la reg ss) s = some c → v = rdS c ss → w = rdPair c ss →
    Tbl.find c.st.dies c.team.die = some d → d.toPost = [] →
    (∀ r, sysWritten c.sheaf.sys reg.toNat v = some r → ∃ c', Does (.srSet la reg ss) s c c' ∧ c'.stands (c.next 2)
      ∧ c'.sheaf.sys = r ∧ ∀ k, readKey c'.sheaf k = readKey c.sheaf k)
    ∧ (0x100 ≤ reg.toNat → reg.toNat < 0x110 → ∃ c', Does (.srSet la reg ss) s c c' ∧ c'.stands (c.next 2)
      ∧ RegisterFrame c c' (· = .s (reg.toNat - 0xD0)) ∧ Wrote c c' (.s (reg.toNat - 0xD0)) v)
    ∧ (∀ dev : State → DWord, (reg = 0x30 ∧ dev = State.svbase) ∨ (reg = 0x31 ∧ dev = State.mvbase) ∨ (reg = 0x32 ∧ dev = State.cdbase) →
      ∃ c', Does (.srSet la reg ss) s c c' ∧ c'.stands (c.next 2) ∧ dev c'.st = w ∧ c'.sheaf.sys = c.sheaf.sys
        ∧ c'.st.mem = c.st.mem ∧ ∀ k, readKey c'.sheaf k = readKey c.sheaf k)
    ∧ (∀ after : Die,
        (reg = 0x04 ∧ after = { d with fset := if 6 ≤ v.toNat % 32 ∧ v.toNat % 32 ≤ 19 then v.toNat % 32 else d.fset })
        ∨ (reg = 0x33 ∧ after = { d with fqbase := if w.toNat % 4096 = 0 then w else d.fqbase })
        ∨ (reg = 0x34 ∧ after = { d with fqsize := if ringLegal v then v else d.fqsize })
        ∨ (reg = 0x36 ∧ after = { d with fqtail := if d.fqsize.toNat < (d.fqhead - v).toNat then d.fqtail else v })
        ∨ (reg = 0x37 ∧ after = { d with fqevn := v }) →
      ∃ c', Does (.srSet la reg ss) s c c' ∧ c'.stands (c.next 2) ∧ Tbl.find c'.st.dies c.team.die = some after
        ∧ c'.sheaf.sys = c.sheaf.sys ∧ c'.st.mem = c.st.mem ∧ ∀ k, readKey c'.sheaf k = readKey c.sheaf k)

/-- R375, R400 to R403: `idle` goes on once its die's fault queue holds a record or there is no queue, and waits outside the active set
till then; an invalidation that its die's queue takes waits to take effect; after `tlb.sync` those of the unit have, on leaves and on
table entries; a probe writes what its walk found. -/
def Obligations.SupervisorWordsComplete : Prop :=
  ∀ (s : State) (c : Ctx),
    (atIssue .idle s = some c → ((dieOf c.st c.team.die).fqsize = 0 ∨ (dieOf c.st c.team.die).fqhead ≠ (dieOf c.st c.team.die).fqtail) →
      ∃ c', Does .idle s c c' ∧ c'.stands (c.next 2) ∧ RegisterFrame c c' noRegs)
    ∧ (atIssue .idle s = some c → (dieOf c.st c.team.die).fqsize ≠ 0 → (dieOf c.st c.team.die).fqhead = (dieOf c.st c.team.die).fqtail →
      exec .idle s = .next (c.modUnit s fun u => { u with wait := .idle, active := false }))
    ∧ (∀ (i : Instr) (inv : Inval), dieInvals c.st c.team.die < 64 → inv.tid = c.tid → inv.die = c.team.die →
        (∃ sa va, i = .tlbInvPage sa va ∧ (rdPair c va).toNat < 2 ^ 56 ∧ inv.kind = 0 ∧ inv.asid = (rdS c sa).toNat % 4096
            ∧ inv.va = (rdPair c va).toNat)
          ∨ (∃ sa, i = .tlbInvAsid sa ∧ inv.kind = 1 ∧ inv.asid = (rdS c sa).toNat % 4096 ∧ inv.va = 0)
          ∨ (i = .tlbInvAll ∧ inv.kind = 2 ∧ inv.asid = 0 ∧ inv.va = 0) →
        atIssue i s = some c → ∃ c', Does i s c c' ∧ c'.stands (c.next 2) ∧ WordFrame c c' noBytes noRegs
          ∧ c'.st.invals = c.st.invals ++ [inv])
    ∧ (atIssue .tlbSync s = some c → (∀ d, (dieOf c.st d).toPost = []) →
      ∃ c', Does .tlbSync s c c' ∧ c'.stands (c.next 2) ∧ (∀ k, readKey c'.sheaf k = readKey c.sheaf k)
        ∧ (∀ v ∈ c'.st.invals, v.tid ≠ c.tid)
        ∧ (∀ v ∈ c.st.invals, v.tid = c.tid →
            (∀ e ∈ c'.st.tlb, ¬ (v.kind = 2 ∨ (e.asid = v.asid ∧ (v.kind = 1 ∨ e.page = v.va / 2 ^ e.bits))))
            ∧ ∀ w ∈ c'.st.walked, ¬ (v.kind = 2 ∨ (w.asid = v.asid ∧ (v.kind = 1 ∨ w.pre = v.va / 2 ^ levelBits w.level))))
        ∧ (∀ e ∈ c'.st.tlb, e ∈ c.st.tlb) ∧ ∀ w ∈ c'.st.walked, w ∈ c.st.walked)
    ∧ ∀ rd sa va a, a = (rdS c sa).toNat % 4096 → atIssue (.pgProbe rd sa va) s = some c → (rdPair c va).toNat < 2 ^ 56 →
      Instr.wf c.team.ver (.pgProbe rd sa va) = true →
      let key := fun n : Nat => fieldKey c.sheaf (rd + BitVec.ofNat 6 n)
      (∀ e lv, walk c.st a (rdPair c va).toNat = .leaf e lv → wordWrites (.pgProbe rd sa va) s c
        [(key 0, BitVec.ofNat 32 e), (key 1, BitVec.ofNat 32 (e / 2 ^ 32)), (key 2, BitVec.ofNat 32 ((4 - lv) * 16 + lv)), (key 3, 0)])
      ∧ ∀ code e lv, walk c.st a (rdPair c va).toNat = .fail code e lv → wordWrites (.pgProbe rd sa va) s c
        [(key 0, BitVec.ofNat 32 e), (key 1, BitVec.ofNat 32 (e / 2 ^ 32)), (key 2, BitVec.ofNat 32 (code * 256 + lv)), (key 3, 0)]

/-! ### Queues between dies, the fabric, the log -/

/-- R409, R412, R413: a queue without an owner becomes the context's, its numbers starting at 0. A push that its queue and its first
FIFO take sends the 64 bytes with the next number; a pop takes the oldest entry into memory; a `.try` that cannot answers with its
q-status at once, and a plain form waits. The first FIFO is full at 32 entries, and has room below that, other traffic counted; between
the two it may be either, the model's choice (log 14). -/
def Obligations.DieQueueWordsTakeEffect : Prop :=
  ∀ (i : Instr) (s : State) (c : Ctx) (q oc rd : SReg) (push isTry : Bool) (k : Nat) (w : Word) (d : Dq),
    queueWord i = some (q, oc, rd, push, isTry) → atIssue i s = some c → Instr.wf c.team.ver i = true → w = rdS c q → k = dqKey w →
    dqCheck c w (rdS c oc) push = none → c.st.tablesSorted = true →
    ((dqAt c.st k).owner = some c.team.asid ∧ d = dqAt c.st k)
      ∨ ((dqAt c.st k).owner = none ∧ d = { dqAt c.st k with owner := some c.team.asid, next := 0 }) →
    (push = true → (32 ≤ (fifoAt c.st (firstFifo c w)).length → firstFull c w = true)
      ∧ ((fifoAt c.st (firstFifo c w)).length + otherFlits c.st c.team.die (firstFifo c w % 4) < 32 → firstFull c w = false)) ∧
    (push = true → d.stored.length + d.inFlight < 64 → firstFull c w = false →
      ∃ c' f, Does i s c c' ∧ c'.stands (c.next 2) ∧ fifoAt c'.st (firstFifo c w) = fifoAt c.st (firstFifo c w) ++ [f]
        ∧ f.queue = k ∧ f.drop = false ∧ f.asid = c.team.asid ∧ f.entry.seq = d.next ∧ f.entry.bytes = onchipBytes c.st c.team (rdS c oc) 64
        ∧ dqAt c'.st k = { d with next := d.next + 1, inFlight := d.inFlight + 1 }
        ∧ WordFrame c c' noBytes (fun x => x ∈ (pairWords c rd 0).map (·.1))
        ∧ ∀ kv ∈ pairWords c rd (d.next.setWidth 64), Wrote c c' kv.1 kv.2)
    ∧ (push = true → isTry = true → ∀ full, full = decide (64 ≤ d.stored.length + d.inFlight) →
        (full = true ∨ firstFull c w = true) →
        wordWrites i s c (pairWords c rd (if full then 2 ^ 32 else 2 ^ 33)))
    ∧ (push = true → isTry = false → (64 ≤ d.stored.length + d.inFlight ∨ firstFull c w = true) →
        ∃ c', Does i s c c' ∧ waitsFor c c' (.dqPush k) ∧ WordFrame c c' noBytes noRegs ∧ dqAt c'.st k = d)
    ∧ (push = false → ∀ e rest, d.stored = e :: rest → e.bytes.length = 64 →
        ∃ c' spc as, Does i s c c' ∧ c'.stands (c.next 2) ∧ dqAt c'.st k = { d with stored := rest }
          ∧ spc = (if ocSpace (rdS c oc) = some .sp then .sp else .sh)
          ∧ as = (upto 64).map (fun n => (if spc = .sp then spBase c.team.spWin else 0) + ocOff (rdS c oc) + n)
          ∧ WordFrame c c' (fun q x => q = spc ∧ x ∈ as) (fun x => x ∈ (pairWords c rd 0).map (·.1))
          ∧ as.map (seenByte c' spc) = e.bytes ∧ ∀ kv ∈ pairWords c rd (e.seq.setWidth 64), Wrote c c' kv.1 kv.2)
    ∧ (push = false → d.stored = [] →
        (isTry = true → wordWrites i s c (pairWords c rd (3 * 2 ^ 32)))
        ∧ (isTry = false → ∃ c', Does i s c c' ∧ waitsFor c c' (.dqPop k) ∧ WordFrame c c' noBytes noRegs ∧ dqAt c'.st k = d))

/-- R432, R441, R445: a fabric command that passes its checks enters its die's queue with its route and its captured values, and
its packets stand ready to be sent; its token becomes pending, or completes OK at once where it has no byte to move. -/
def Obligations.FabricCommandsGoOut : Prop :=
  ∀ (i : Instr) (s : State) (c : Ctx) (tk : Ix3) (x : NxArgs), fabricOf c i = some (tk, x) → atIssue i s = some c →
    (tokAt c.sheaf tk.toNat).pending = false → (c.st.nxCmds.filter fun n => n.die == c.team.die).length < 256 → x.check = none →
    (¬ ((x.kind = .put ∨ x.kind = .get) ∧ x.n = 0) → ∃ c' cmd, Does i s c c' ∧ c'.stands (c.next 2) ∧ WordFrame c c' noBytes noRegs
      ∧ c'.st.nxCmds = c.st.nxCmds ++ [cmd] ∧ cmd.kind = x.kind ∧ cmd.route = routeWords c.st x.route ∧ cmd.remote = x.remote.toNat
      ∧ cmd.loc = x.loc ∧ cmd.n = x.n ∧ cmd.opnd = x.opnd ∧ cmd.dst = x.dst ∧ cmd.tid = c.tid ∧ cmd.slot = c.slot
      ∧ cmd.tk = tk.toNat ∧ cmd.asid = c.team.asid ∧ cmd.mtag = c.tag ∧ cmd.die = c.team.die
      ∧ packetsCover x cmd.parts ∧ (∀ p ∈ cmd.parts, p.sentAt = none ∧ p.done = none)
      ∧ (∃ ps, c'.st.packets = c.st.packets ++ ps ∧ ps.map (·.tag) = cmd.parts.map (·.tag) ∧ ∀ p ∈ ps, p.port = 31 ∧ p.kind = x.kind.code)
      ∧ tokAt c'.sheaf tk.toNat = ⟨true, 0⟩ ∧ (∀ k, k ≠ tk.toNat → tokAt c'.sheaf k = tokAt c.sheaf k))
    ∧ ((x.kind = .put ∨ x.kind = .get) → x.n = 0 → c.sheaf.retired = false → c.team.ended = false →
        (∀ n ∈ c.st.nxCmds, n.id ≠ c.st.nextId) →
        ∃ c', Does i s c c' ∧ c'.stands (c.next 2) ∧ c'.st.nxCmds = c.st.nxCmds ∧ c'.st.packets = c.st.packets
        ∧ tokAt c'.sheaf tk.toNat = ⟨false, 0⟩ ∧ readKey c'.sheaf (.s x.dst) = 0x80000000)

/-- R440, R449, R451: `nx.topo` and `nx.tree` install the map or the table that passes its checks, writing 0, or leave what was
installed and write the code and the place of the first check that fails; the token completes. The table is read and checked entry by
entry, so that an entry that cannot be read counts only after every earlier one has passed. Here no cache line is held, no report is
awaited, no packet stands at a port, and no access waits for a walker. -/
def Obligations.FabricTablesAreInstalled : Prop :=
  ∀ (s : State) (c : Ctx) (tk : Ix3) (m r : SReg) (a : Nat), a = (rdPair c m).toNat → (tokAt c.sheaf tk.toNat).pending = false →
    (c.st.nxCmds.filter fun n => n.die == c.team.die).length < 256 → (∀ k, (coreOf c.st k).cache = []) → c.sheaf.held = [] →
    c.sheaf.reports = [] → c.st.outbox = [] → (∀ p ∈ c.st.packets, p.leg = none) → descBad c.st 0 = false →
    (atIssue (.nxTopo tk m r) s = some c → rangeWaits c.st c.team.die 0 a 0xA00 = false →
      (∀ b, vread c.st c.team.die 0 a 0xA00 = .ok b →
        ((∀ x ∈ mapChecks b, x.2.2 = true) → ∃ c', Does (.nxTopo tk m r) s c c' ∧ c'.stands (c.next 2)
          ∧ c'.st.topo = some (mapOf a b) ∧ Wrote c c' (fieldKey c.sheaf r) 0 ∧ tokAt c'.sheaf tk.toNat = ⟨false, 0⟩
          ∧ ∀ p, p < 24 → (portAt c'.st p).state = (if bitOf (fieldAt b (0x400 + 16 * p) 4) 31 = false then .disabled
              else if (portAt c.st p).state = .disabled then .training else (portAt c.st p).state))
        ∧ ∀ l1 code off l2, mapChecks b = l1 ++ (code, off, false) :: l2 → (∀ x ∈ l1, x.2.2 = true) → ∃ c', Does (.nxTopo tk m r) s c c'
          ∧ c'.stands (c.next 2) ∧ c'.st.topo = c.st.topo ∧ c'.st.mem = c.st.mem ∧ c'.st.ports = c.st.ports
          ∧ Wrote c c' (fieldKey c.sheaf r) (BitVec.ofNat 32 (off / 16 * 65536 + code)) ∧ tokAt c'.sheaf tk.toNat = ⟨false, 0⟩)
      ∧ (∀ cause va, transRange c.st c.team.die 0 a 0xA00 .read = .fail cause va → ∃ c', Does (.nxTopo tk m r) s c c'
        ∧ c'.stands (c.next 2) ∧ c'.st.topo = c.st.topo ∧ c'.st.mem = c.st.mem ∧ c'.st.ports = c.st.ports
        ∧ Wrote c c' (fieldKey c.sheaf r) 8 ∧ tokAt c'.sheaf tk.toNat = ⟨false, 0⟩))
    ∧ (atIssue (.nxTree tk m r) s = some c → ∀ b n, rangeWaits c.st c.team.die 0 a 64 = false →
        vread c.st c.team.die 0 a 64 = .ok (b.take 64) → n = fieldAt (b.take 64) 0 4 →
        let result := fun (tree : Option (Tbl TreeEntry)) (v : Nat) => ∃ c', Does (.nxTree tk m r) s c c' ∧ c'.stands (c.next 2)
          ∧ c'.st.tree = tree ∧ Wrote c c' (fieldKey c.sheaf r) (BitVec.ofNat 32 v) ∧ tokAt c'.sheaf tk.toNat = ⟨false, 0⟩
        let read := fun j => vread c.st c.team.die 0 (a + 64 + 64 * j) 64 = .ok ((b.drop (64 + 64 * j)).take 64)
        let fault := fun j => entryFault (b.take (128 + 64 * j)) j
        (n < 1 ∨ 1024 < n ∨ zeroAt (b.take 64) 4 60 = false → result c.st.tree 1)
        ∧ (1 ≤ n → n ≤ 1024 → zeroAt (b.take 64) 4 60 = true → b.length = 64 + 64 * n → rangeWaits c.st c.team.die 0 a (64 + 64 * n) = false →
          ((∀ j, j < n → read j ∧ fault j = none) → result (some (treeOf b n)) 0)
          ∧ ∀ j, j < n → (∀ j', j' < j → read j' ∧ fault j' = none) →
            (∀ code, read j → fault j = some code → result c.st.tree (j * 65536 + code))
            ∧ ∀ cause va, vread c.st c.team.die 0 (a + 64 + 64 * j) 64 = .fail cause va → result c.st.tree 8))


/-! ### Events of the engines -/

/-- R215 to R222, R228, R224: a streamer performs the next chunk of its copy, or completes it once its chunks are done: a fill writes its
pattern; a load moves main memory's bytes into team memory, and a store or a main-to-main copy moves its source's bytes to main memory,
each over what stood there or, for a reduction, combined with it word by word; a tensor load of one row writes what lies in the tensor
and zeros beyond it, a tensor store of one row writes what lies in it. A gather engine moves an element from or to the address of its
index, or completes its command. -/
def Obligations.CopyEventsMoveTheirBytes : Prop :=
  ∀ (s : State) (die core : Nat) (x : CopyCmd) (rest : List CopyCmd) (t : Team),
    (headCommand s ⟨false, die, core⟩ x rest t →
      (x.kind = .fillOc → ocSpace x.a = some .sh → x.poison = none → x.ring = none →
        0 < x.n → ∀ o b, o = ocOff x.a → b = o / 4096 + x.progress → 4096 * b < o + x.n →
        ∃ s' tm, exec (.copyChunk die core) s = .next s' ∧ Tbl.find s'.teams x.tid = some tm
          ∧ (∀ a, byteAt tm.shared a = if o ≤ a ∧ a < o + x.n ∧ a / 4096 = b
              then (lowWord x.b).extractLsb' (8 * (a % 4)) 8 else byteAt t.shared a)
          ∧ queueOf s' ⟨false, die, core⟩ = { x with progress := x.progress + 1, poison := none, buf := none } :: rest
          ∧ s'.mem = s.mem ∧ tm.sheaves = t.sheaves)
      ∧ (x.kind = .fillOc → ocSpace x.a = some .sh → x.n = 0 ∨ ocOff x.a + x.n ≤ 4096 * (ocOff x.a / 4096 + x.progress) →
        ∃ s', exec (.copyChunk die core) s = .next s'
          ∧ commandDone s s' ⟨false, die, core⟩ x rest (if x.poison.isSome then 1 else 0))
      ∧ (∀ op o lo hi bs, (x.kind = .blkLd ∧ op = none) ∨ (∃ r, x.kind = .redLd r ∧ op = some r) → ocSpace x.a = some .sh →
        x.poison = none → x.buf = none → t.sharedPz = [] → o = ocOff x.a → o % 4 = 0 → x.n % 4 = 0 → o + x.n ≤ 2 ^ 30 →
        chunkSpan o x.n x.progress lo hi → rangeWaits s t.port x.asid (x.b.toNat + (lo - o)) (hi - lo) = false →
        readMain s t.port x.asid (x.b.toNat + (lo - o)) (hi - lo) = .ok (bs, none) →
        ∃ s' tm, exec (.copyChunk die core) s = .next s' ∧ Tbl.find s'.teams x.tid = some tm ∧ s'.mem = s.mem ∧ tm.sheaves = t.sheaves
          ∧ (∀ a, byteAt tm.shared a = if lo ≤ a ∧ a < hi then chunkByte op (readBytes t.shared lo (hi - lo)) bs (a - lo)
              else byteAt t.shared a)
          ∧ queueOf s' ⟨false, die, core⟩ = { x with progress := x.progress + 1 } :: rest)
      ∧ (∀ op o lo hi bs pa, (((x.kind = .blkSt ∧ op = none) ∨ (∃ r, x.kind = .redSt r ∧ op = some r)) ∧ ocSpace x.a = some .sh
            ∧ t.sharedPz = [] ∧ ocOff x.a + x.n ≤ 2 ^ 30 ∧ bs = readBytes t.shared (ocOff x.a + (lo - o)) (hi - lo))
          ∨ (((x.kind = .blkMm ∧ op = none) ∨ (∃ r, x.kind = .redMm r ∧ op = some r)) ∧ x.buf = none
            ∧ rangeWaits s t.port x.asid (x.b2.toNat + (lo - o)) (hi - lo) = false
            ∧ readMain s t.port x.asid (x.b2.toNat + (lo - o)) (hi - lo) = .ok (bs, none)) →
        x.poison = none → o = x.b.toNat → o % 4 = 0 → x.n % 4 = 0 → chunkSpan o x.n x.progress lo hi →
        rangeWaits s t.port x.asid lo (hi - lo) = false →
        transRange s t.port x.asid lo (hi - lo) (if op.isSome then .both else .write) = .ok [(pa, hi - lo)] →
        (op.isSome = true → physPoisoned s pa (hi - lo) = false) →
        ∃ s' y, exec (.copyChunk die core) s = .next s' ∧ queueOf s' ⟨false, die, core⟩ = y :: rest
          ∧ { y with progress := x.progress, buf := x.buf, bufPz := x.bufPz } = x ∧ y.progress = x.progress + 1
          ∧ s'.mem = (physWrite s pa ((upto (hi - lo)).map (chunkByte op (physRead s pa (hi - lo)) bs))).mem)
      ∧ (∀ l row k len o, l = layoutOf x.layout → boxRows l = [(0, row, k)] → len = l.bytes l.boxInner → o = ocOff x.a →
        x.poison = none → x.buf = none → x.progress = 0 → ocSpace x.a = some .sh → t.sharedPz = [] →
        ∀ va, va = l.base + row * l.stride + l.orgInner * l.half / 2 → rangeWaits s t.port x.asid va k = false →
        (x.kind = .tenLd → 0 < len → k ≤ len → o / 4096 = (o + len - 1) / 4096 → ∀ bs, readMain s t.port x.asid va k = .ok (bs, none) →
          bs.length = k → ∃ s' tm, exec (.copyChunk die core) s = .next s' ∧ Tbl.find s'.teams x.tid = some tm ∧ s'.mem = s.mem
            ∧ ∀ a, byteAt tm.shared a = if o ≤ a ∧ a < o + len then bs.getD (a - o) 0 else byteAt t.shared a)
        ∧ (x.kind = .tenSt → 0 < k → o + k ≤ 2 ^ 30 → va / 4096 = (va + k - 1) / 4096 → ∀ pa,
          transRange s t.port x.asid va k .write = .ok [(pa, k)] → ∃ s', exec (.copyChunk die core) s = .next s'
            ∧ s'.mem = (physWrite s pa (readBytes t.shared o k)).mem)))
    ∧ (headCommand s ⟨true, die, 0⟩ x rest t → ∀ z, x.kind = .gat z ∨ x.kind = .sct z →
      ((x.layout.getD 6 0).toNat ≤ 4096 * x.progress → ∃ s', exec (.gatherBatch die) s = .next s'
        ∧ commandDone s s' ⟨true, die, 0⟩ x rest (if x.err then 1 else if x.bad then 3 else 0))
      ∧ (z = 2 → x.progress = 0 → x.layout.getD 6 0 = 1 → x.err = false → x.bad = false → t.sharedPz = [] →
        isChip (descPair x.layout 2) = true → ocSpace (lowWord (descPair x.layout 2)) = some .sh →
        isChip (descPair x.layout 4) = true → ocSpace (lowWord (descPair x.layout 4)) = some .sh →
        ∀ k a, k = leNat (readBytes t.shared (ocOff (lowWord (descPair x.layout 2))) 4) → k < x.n → x.buf = none →
          a = (descPair x.layout 0).toNat + k * (x.layout.getD 7 0).toNat → a + 4 ≤ 2 ^ 56 → rangeWaits s t.die x.asid a 4 = false →
          (∀ bs, x.kind = .gat z → readMain s t.die x.asid a 4 = .ok (bs, none) →
            ∃ s' tm, exec (.gatherBatch die) s = .next s' ∧ Tbl.find s'.teams x.tid = some tm
              ∧ tm.shared = writeBytes t.shared (ocOff (lowWord (descPair x.layout 4))) bs
              ∧ (∃ y, queueOf s' ⟨true, die, 0⟩ = y :: rest ∧ y.progress = 1
                  ∧ { y with progress := 0, buf := none, bufPz := x.bufPz } = x) ∧ s'.mem = s.mem)
          ∧ (∀ pa, x.kind = .sct z → a % 65536 ≤ 65532 → translate s t.die x.asid a .write = .ok pa →
            ∃ s' tm, exec (.gatherBatch die) s = .next s' ∧ Tbl.find s'.teams x.tid = some tm ∧ tm.shared = t.shared
              ∧ queueOf s' ⟨true, die, 0⟩ = { x with progress := 1 } :: rest
              ∧ s'.mem = (physWrite s pa (readBytes t.shared (ocOff (lowWord (descPair x.layout 4))) 4)).mem)))

/-- R242, R248 to R253, R272, R278: the engine performs the head of its queue (`mx.zero` zeroes the words and bounds of its rows
in its tile, `mx.flip` exchanges the planes, `mx.ldw` captures a tile and its scales in the shadow plane, a pass of `mx.run` or `mx.cmat`
adds to the words of its rows and renews their bounds, and a drain writes the converted words to the registers of its rows), completes
its token in each sheaf, and goes on to the next; a re-run of a tripped job frees its slot and touches no other tile. -/
def Obligations.EngineEventsPerformTheirCommands : Prop :=
  decode 3 [0xC0940000, 0] = .ok (.mxZero 0 0) ∧ decode 3 [0xC0800B68, 0] = .ok (.mxLdw 0 45 40)
  ∧ decode 3 [0xC0840000, 0] = .ok (.mxFlip 0)
  ∧ ∀ (s : State) (die core : Nat) (e : Engine), e = (coreOf s (coreKey die core)).engine →
    (∀ cmd rest t, e.queue = cmd :: rest → behindReRun e cmd.id = false → Tbl.find s.teams cmd.tid = some t → t.ended = false →
      (∀ i, cmd.op = .zero i → ∃ s' e', exec (.matrixCommandPerform die core) s = .next s'
        ∧ e' = (coreOf s' (coreKey die core)).engine ∧ e'.queue = rest ∧ e'.active = e.active ∧ e'.shadow = e.shadow
        ∧ (∀ r j, r < 64 → j < 64 → cmd.rows.getLsbD r = true → Tbl.get 0 e'.tiles (i * 4096 + r * 64 + j) = 0
            ∧ boundRow e' i r = 0)
        ∧ (∀ k, ¬ (∃ r j, r < 64 ∧ j < 64 ∧ cmd.rows.getLsbD r = true ∧ k = i * 4096 + r * 64 + j) →
            Tbl.get 0 e'.tiles k = Tbl.get 0 e.tiles k)
        ∧ (∀ tk sl, cmd.tk = some tk → sl ∈ cmd.slots → ∀ sh, sheafAt s cmd.tid sl = some sh → sh.retired = false →
            tokenDone s' cmd.tid sl tk 0))
      ∧ (cmd.op = .flip → ∃ s' e', exec (.matrixCommandPerform die core) s = .next s'
        ∧ e' = (coreOf s' (coreKey die core)).engine ∧ e'.queue = rest ∧ e'.active = e.shadow ∧ e'.shadow = e.active
        ∧ e'.tiles = e.tiles ∧ e'.bounds = e.bounds)
      ∧ (∀ a d sc, cmd.op = .ldw a d sc → cmd.looseB = [] → ocSpace a = some .sh → ocSpace sc = some .sh →
        readsError s t [(a, 8192), (sc, scaleBytes d true)] = none → ∃ s' e' p, exec (.matrixCommandPerform die core) s = .next s'
          ∧ e' = (coreOf s' (coreKey die core)).engine ∧ e'.queue = rest ∧ e'.active = e.active ∧ e'.shadow = some p
          ∧ e'.tiles = e.tiles ∧ e'.bounds = e.bounds ∧ p.fmt = bits d.toNat 7 0 ∧ p.lblk = bits d.toNat 15 8
          ∧ p.kind = bits d.toNat 23 16 ∧ p.tile = readBytes t.shared (ocOff a) 8192
          ∧ p.scales = if bits d.toNat 23 16 = 0 then [leNat (readBytes t.shared (ocOff sc) 4)]
              else (readBytes t.shared (ocOff sc) (scaleBytes d true)).map (·.toNat))
      ∧ (∀ i p, passTile cmd.op = some i → e.active = some p → readsError s t (opReads cmd.op) = none →
        ∃ s' e', exec (.matrixCommandPerform die core) s = .next s' ∧ e' = (coreOf s' (coreKey die core)).engine ∧ e'.queue = rest
          ∧ e'.active = e.active ∧ e'.shadow = e.shadow
          ∧ (∀ r, r < 64 → cmd.rows.getLsbD r = true → (tileRow e' i r, boundRow e' i r)
              = passRow (rowPass s t cmd p (planeCols p) e.aBuf r).1 (rowPass s t cmd p (planeCols p) e.aBuf r).2
                  (tileRow e i r) (boundRow e i r))
          ∧ (∀ r j n, r < 64 → j < 64 → cmd.rows.getLsbD r = true → p.fmt = 12 → p.kind = 2 → intColumn t cmd p.tile r j = some n →
              Tbl.get 0 e'.tiles (i * 4096 + r * 64 + j) = Tbl.get 0 e.tiles (i * 4096 + r * 64 + j) + BitVec.ofInt 32 n)
          ∧ (∀ k, (∀ r, r < 64 → cmd.rows.getLsbD r = true → k / 64 ≠ i * 64 + r) → Tbl.get 0 e'.tiles k = Tbl.get 0 e.tiles k)
          ∧ ∀ k, (∀ r, r < 64 → cmd.rows.getLsbD r = true → k ≠ i * 64 + r) → Tbl.get 0 e'.bounds k = Tbl.get 0 e.bounds k)
      ∧ (∀ i f sat rm vx vy c0, cmd.op = .drain i f sat rm vx vy c0 → cmd.base % 16 = 0 → cmd.slots.Nodup → vx ≤ vy →
        c0 + (vy - vx + 1) * drainElems f ≤ 64 →
        (∀ r, r < 64 → cmd.rows.getLsbD r = true → cmd.base ≤ r ∧ (r - cmd.base) / 16 < cmd.slots.length) →
        ∃ s' e', exec (.matrixCommandPerform die core) s = .next s' ∧ e' = (coreOf s' (coreKey die core)).engine ∧ e'.queue = rest
          ∧ e'.active = e.active ∧ e'.shadow = e.shadow ∧ e'.tiles = e.tiles
          ∧ ∀ r sl sh m, r < 64 → cmd.rows.getLsbD r = true → cmd.slots[(r - cmd.base) / 16]? = some sl → m ≤ vy - vx →
              sheafAt s cmd.tid sl = some sh → (Tbl.find sh.threads (r % 16)).isSome = true →
              (∀ h ∈ sh.spoilt, h.cmd ≠ cmd.id) → ∃ sh', sheafAt s' cmd.tid sl = some sh'
                ∧ readKey sh' (.v (r % 16) (vx + m)) = drained f sat rm fun h =>
                    Tbl.get 0 e.tiles (i * 4096 + r * 64 + c0 + m * drainElems f + h)))
    ∧ ∀ slot tid t j, slot < 2 → e.holder = some tid → Tbl.find s.teams tid = some t → j = jobOf e slot → reRunDue e slot = true →
        readsError s t (jobReads j) = none → ∃ s' e', exec (.jobReRun die core slot) s = .next s' ∧ e' = (coreOf s' (coreKey die core)).engine
          ∧ jobOf e' slot = Job.zero ∧ jobOf e' (1 - slot) = jobOf e (1 - slot) ∧ e'.queue = e.queue ∧ e'.holder = e.holder
          ∧ (∀ k, k / 4096 ≠ j.tile → Tbl.get 0 e'.tiles k = Tbl.get 0 e.tiles k) ∧ s'.mem = s.mem

/-- R457, R458: a streamer performs the append at its head, here one that puts no record or one: a `.commit` with nothing pending
puts none; a `.tok` puts a TOKEN record, tentative within the horizon, or with ERR where its step does not follow the last; a `.commit`
puts the COMMIT of all that is pending, and a `.void` the VOID of it, or of no step. The record is written, then the slot's PEND, FIRST
and LAST, then WPTR, and the record's index is reported. -/
def Obligations.LogAppendPutsItsRecord : Prop :=
  ∀ (s : State) (die core : Nat) (x : CopyCmd) (rest : List CopyCmd) (t : Team) (sh : Sheaf) (st : List Word)
    (hdr ent : List Byte) (slot recs wptr hor pend first last step : Nat) (tent : Bool),
    queueOf s ⟨false, die, core⟩ = x :: rest → x.stopped = false → (∀ y ∈ rest, y.id ≠ x.id) → olderAppend s x = false →
    Tbl.find s.teams x.tid = some t → t.ended = false → sheafAt s x.tid x.slot = some sh → sh.retired = false →
    (∀ r ∈ sh.reports, r.touched = false) →
    (readChip s t x.a 64).2 = none → st = (upto 16).map (fun i => BitVec.ofNat 32 (fieldAt (readChip s t x.a 64).1 (4 * i) 4)) →
    slot = (st.getD 0 0).toNat % 65536 → vread s t.port x.asid x.b.toNat 64 = .ok hdr →
    vread s t.port x.asid (x.b.toNat + 0x40 + 16 * slot) 16 = .ok ent → rangeWaits s t.port x.asid x.b.toNat 64 = false →
    rangeWaits s t.port x.asid (x.b.toNat + 0x40 + 16 * slot) 16 = false → recs = fieldAt hdr 0 4 → wptr = fieldAt hdr 4 4 →
    badRecord st recs (fieldAt hdr 12 4) = false → hor = fieldAt ent 0 4 % 256 → pend = fieldAt ent 4 4 % 256 → first = fieldAt ent 8 4 →
    last = fieldAt ent 12 4 → step = (st.getD 1 0).toNat → tent = (st.getD 0 0).getLsbD 25 →
    (x.kind = .log 1 → pend = 0 → (wptr + 2 ^ 32 - fieldAt hdr 8 4) % 2 ^ 32 ≤ recs →
      ∃ s' sh', exec (.logAppend die core) s = .next s' ∧ queueOf s' ⟨false, die, core⟩ = rest ∧ s'.mem = s.mem
        ∧ sheafAt s' x.tid x.slot = some sh' ∧ tokAt sh' x.tk = ⟨false, 0⟩ ∧ readKey sh' (.s x.res) = 0xFFFFFFFF
        ∧ ∀ k, k ≠ .s x.res → readKey sh' k = readKey sh k)
    ∧ ∀ rec pend' first' last',
        (let follows := last = 0xFFFFFFFF ∨ step = (last + 1) % 2 ^ 32
         let token := fun flags => [2 ^ 28 + flags + bits (st.getD 0 0).toNat 23 20 * 2 ^ 20 + slot, step, (st.getD 2 0).toNat, wptr]
            ++ (upto 7).map (fun i => (st.getD (4 + i) 0).toNat) ++ List.replicate 5 0
         let covers := fun kind a b => [kind * 2 ^ 28 + (if kind = 3 then 2 ^ 24 else 0) + slot, b, a, wptr] ++ List.replicate 12 0
         (x.kind = .log 0 ∧ follows ∧ (tent = false ∨ hor = 0) ∧ pend = 0 ∧ rec = token 0 ∧ pend' = 0 ∧ first' = first ∧ last' = step)
          ∨ (x.kind = .log 0 ∧ follows ∧ tent = true ∧ pend < hor ∧ rec = token (2 ^ 25) ∧ pend' = pend + 1
              ∧ first' = (if pend = 0 then step else first) ∧ last' = step)
          ∨ (x.kind = .log 0 ∧ ¬ follows ∧ rec = token (2 ^ 26 + if tent then 2 ^ 25 else 0) ∧ pend' = pend ∧ first' = first ∧ last' = last)
          ∨ (x.kind = .log 1 ∧ 0 < pend ∧ rec = covers 2 first (first + pend - 1) ∧ pend' = 0 ∧ first' = first ∧ last' = last)
          ∨ (x.kind = .log 2 ∧ 0 < pend ∧ (st.getD 2 0).toNat ≤ first ∧ rec = covers 3 first (first + pend - 1) ∧ pend' = 0
              ∧ first' = first ∧ last' = last)
          ∨ (x.kind = .log 2 ∧ pend = 0 ∧ rec = covers 3 (last + 1) last ∧ pend' = 0 ∧ first' = first ∧ last' = last)) →
        (wptr + 2 ^ 32 - fieldAt hdr 8 4) % 2 ^ 32 ≤ recs - 1 →
        ∀ s1 s2 s3, wrote s t.port x.asid (x.b.toNat + 0x4000 + 64 * (wptr % recs)) (rec.flatMap (toBytes 4)) s1 →
          wrote s1 t.port x.asid (x.b.toNat + 0x44 + 16 * slot) ([pend', first', last'].flatMap (toBytes 4)) s2 →
          wrote s2 t.port x.asid (x.b.toNat + 4) (toBytes 4 (wptr + 1)) s3 →
          (∀ a n, (a, n) ∈ [(x.b.toNat + 0x4000 + 64 * (wptr % recs), 64), (x.b.toNat + 0x44 + 16 * slot, 12), (x.b.toNat + 4, 4)] →
            rangeWaits s t.port x.asid a n = false ∧ ∃ ps, transRange s t.port x.asid a n .write = .ok ps) →
          ∃ s' sh', exec (.logAppend die core) s = .next s' ∧ queueOf s' ⟨false, die, core⟩ = rest ∧ s'.mem = s3.mem
            ∧ sheafAt s' x.tid x.slot = some sh' ∧ tokAt sh' x.tk = ⟨false, 0⟩ ∧ readKey sh' (.s x.res) = BitVec.ofNat 32 wptr
            ∧ ∀ k, k ≠ .s x.res → readKey sh' k = readKey sh k

/-! ### Events of sibling groups -/

/-- R323, R326, R327, R329: a ballot array accepts a request: a new group takes the lowest free record of its window; the first
vote or abstention of a member counts, and a vote whose hash reaches the quorum decides; the last settlement without a quorum decides
for the hash of most votes, of equal ones the first cast, or for none where no hash was cast; one that does not count answers why and
changes nothing; a free frees, cancelling who is not settled. Here every write to the group area can be made. -/
def Obligations.BallotArrayAcceptsRequests : Prop :=
  ∀ (s : State) (ix : Nat) (r : BallotReq), s.ballots[ix]? = some r → ballotBlocked s ix r = false → ballotWaits s r = false →
    (∃ d, Tbl.find s.dies r.die = some d) → (∀ y ∈ s.ballots, y.id = r.id → y = r) → r.done = 0 →
    (∀ area n q ev, r.op = .new area n q ev →
      (freeGroup s r.die r.word = none → ∃ t, exec (.ballotAccept ix) s = .next t ∧ (r ∉ t.ballots) ∧ replied s t r 0 ∧ t.mem = s.mem)
      ∧ ∀ idx g s1, freeGroup s r.die r.word = some idx → g = ⟨r.asid, .opened, n, q, area, ev, 0, [], [], 0, 0, 0, false⟩ →
        areaMade r.die r.asid (newWrites area n) (modDie { s with ballots := s.ballots.filter fun x => x.id != r.id } r.die fun d =>
          { d with groups := Tbl.put d.groups idx g }) s1 →
        ∃ t, exec (.ballotAccept ix) s = .next t ∧ r ∉ t.ballots ∧ replied s t r (handleOf n r.die idx)
          ∧ groupAt t r.die idx = some g ∧ t.mem = s1.mem)
    ∧ (∀ g m, groupAt s r.die (tagIdx r.word) = some g → m = tagMem r.word → r.op = .abst ∨ (∃ h, r.op = .vote h) →
      ∀ set, set = ((Tbl.find g.settle m).map (·.1)).getD .none →
      (∀ v, (g.state = .freed ∧ v = 5) ∨ (g.state ≠ .freed ∧ set = .cancelled ∧ v = 4)
          ∨ (g.state ≠ .freed ∧ set ≠ .cancelled ∧ set ≠ .none ∧ v = 3) ∨ (g.state = .decided ∧ set = .none ∧ v = 2) →
        ∃ t, exec (.ballotAccept ix) s = .next t ∧ r ∉ t.ballots ∧ groupAt t r.die (tagIdx r.word) = some g ∧ t.mem = s.mem
          ∧ replied s t r v)
      ∧ (m < g.n → g.state = .opened → Tbl.find g.settle m = none → (∀ y ∈ g.hashes, y.count < g.q) →
          (g.hashes.map (·.hash)).Nodup → g.n ≤ 64 → ∀ s2, writesMade s r g s2 →
        (∀ h, r.op = .vote h → votesFor g h + 1 < g.q → settledBy g (· != .none) + 1 < g.n →
          ∃ t g', exec (.ballotAccept ix) s = .next t ∧ r ∉ t.ballots
          ∧ groupAt t r.die (tagIdx r.word) = some g' ∧ g'.state = .opened ∧ g'.seq = g.seq + 1 ∧ votesFor g' h = votesFor g h + 1
          ∧ (∀ k, k ≠ h → votesFor g' k = votesFor g k) ∧ Tbl.find g'.settle m = some (.voted, g.seq)
          ∧ (∀ k, k ≠ m → Tbl.find g'.settle k = Tbl.find g.settle k) ∧ replied s t r 0 ∧ t.mem = s2.mem)
        ∧ (r.op = .abst → settledBy g (· != .none) + 1 < g.n → ∃ t g', exec (.ballotAccept ix) s = .next t ∧ r ∉ t.ballots
          ∧ groupAt t r.die (tagIdx r.word) = some g' ∧ { g' with settle := g.settle } = { g with seq := g.seq + 1 }
          ∧ Tbl.find g'.settle m = some (.abstained, g.seq)
          ∧ (∀ k, k ≠ m → Tbl.find g'.settle k = Tbl.find g.settle k) ∧ replied s t r 0 ∧ t.mem = s2.mem)
        ∧ (∀ h, r.op = .vote h → g.q = votesFor g h + 1 → ∃ t g', exec (.ballotAccept ix) s = .next t ∧ r ∉ t.ballots
          ∧ groupAt t r.die (tagIdx r.word) = some g' ∧ g'.state = .decided ∧ g'.kind = 1 ∧ g'.dhash = h ∧ g'.win = g.q
          ∧ Tbl.find g'.settle m = some (.voted, g.seq)
          ∧ (∀ k, k < g.n → k ≠ m → ((Tbl.find g.settle k).map (·.1)).getD .none = .none → Tbl.find g'.settle k = some (.cancelled, 0)
              ∧ ∀ d, d < 4 → ∃ id, (⟨id, r.die, d, tagWith (handleOf g.n r.die (tagIdx r.word)) k, g.asid⟩ : CancelReq) ∈ t.cancels)
          ∧ replied s t r 1 ∧ t.mem = s2.mem)
        ∧ ∀ hs, (r.op = .abst ∧ hs = g.hashes) ∨ (∃ h, r.op = .vote h ∧ hs = addHash h g.seq g.hashes) → (∀ y ∈ hs, y.count < g.q) →
          settledBy g (· != .none) + 1 = g.n → ∀ kind dhash win, (hs = [] ∧ kind = 3 ∧ dhash = 0 ∧ win = 0)
            ∨ (∃ x ∈ hs, (∀ y ∈ hs, y = x ∨ y.count < x.count ∨ (y.count = x.count ∧ x.first < y.first))
                ∧ kind = 2 ∧ dhash = x.hash ∧ win = x.count) →
          ∃ t g', exec (.ballotAccept ix) s = .next t ∧ r ∉ t.ballots ∧ groupAt t r.die (tagIdx r.word) = some g'
            ∧ g'.state = .decided ∧ g'.kind = kind ∧ g'.dhash = dhash ∧ g'.win = win
            ∧ (∀ k, k ≠ m → Tbl.find g'.settle k = Tbl.find g.settle k) ∧ t.cancels = s.cancels ∧ replied s t r 1 ∧ t.mem = s2.mem))
    ∧ ∀ g s2, r.op = .free → groupAt s r.die (tagIdx r.word) = some g → writesMade s r g s2 → g.n ≤ 64 →
        ∃ t g', exec (.ballotAccept ix) s = .next t ∧ r ∉ t.ballots ∧ groupAt t r.die (tagIdx r.word) = some g' ∧ g'.state = .freed
          ∧ (g.state = .opened → ∀ k, k < g.n → ((Tbl.find g.settle k).map (·.1)).getD .none = .none →
              Tbl.find g'.settle k = some (.cancelled, 0))
          ∧ (g.state ≠ .opened → g'.settle = g.settle) ∧ t.mem = s2.mem

/-- R330 to R333, R335, R316: a cancel instant marks its member at the die: a unit of the member that waits at a `susp` ends there, a
copy completes CANCELLED, and a card of which no team has been placed is discarded, counted and finished; a page release walk reads its
list, lowers the count of its next page, and ends after its last; a freed record with no work left is free again. -/
def Obligations.CancellationEventsTakePlace : Prop :=
  ∀ (s : State) (ix : Nat),
    (∀ r d, s.cancels[ix]? = some r → Tbl.find s.dies r.die = some d → pathAhead s r.src r.die r.id = false →
      (nothingTagged s r → ∃ t, exec (.cancelInstant ix) s = .next t ∧ t.cancels = dropAt s.cancels ix
        ∧ r.tag ∈ (dieOf t r.die).cancelled ∧ t.teams = s.teams ∧ t.mem = s.mem)
      ∧ (∀ c n, queuesUntagged s r → r.tag.getLsbD 31 = true → unitAt s c.tid c.slot c.uid = some c → c.unit.wait = .susp n →
        c.team.die = r.die → c.team.asid = r.asid → (∀ x ∈ s.teams, x.2.die = r.die → x.2.asid = r.asid → x.1 = c.tid) →
        c.team.out = false → c.team.imageHold = false → c.team.ended = false → (∀ sh ∈ c.team.sheaves, sh.2.splits = []) →
        c.sheaf.trapped ≠ some c.uid → (∀ q ∈ positions c.unit.mask, (threadAt c.sheaf q).tag = r.tag) → c.unit.mask ≠ 0 →
        (∃ u ∈ teamUnits s c.tid, (u.slot, u.uid) ≠ (c.slot, c.uid)) →
        (∀ u ∈ teamUnits s c.tid, (u.slot, u.uid) ≠ (c.slot, c.uid) → u.unit.wait = .ready) →
        c.uid < s.nextId → noGangWaits s c.tid → s.tablesSorted = true → ∃ t, exec (.cancelInstant ix) s = .next t
          ∧ r.tag ∈ (dieOf t r.die).cancelled ∧ unitAt t c.tid c.slot c.uid = none ∧ t.mem = s.mem
          ∧ (∀ x ∈ d.susps, x.tid = c.tid → x.slot = c.slot → x.uid = c.uid → x ∉ (dieOf t r.die).susps)
          ∧ ∀ u ∈ teamUnits s c.tid, (u.slot, u.uid) ≠ (c.slot, c.uid) → ∃ u', unitAt t u.tid u.slot u.uid = some u' ∧ u'.unit = u.unit
              ∧ ∀ k, readKey u'.sheaf k = readKey u.sheaf k)
      ∧ (∀ core x rest, queueOf s ⟨false, r.die, core⟩ = x :: rest → core < 128 → x.tag = r.tag → (∀ k, x.kind ≠ .log k) →
        (∀ y ∈ rest, y.id ≠ x.id ∧ y.tag ≠ r.tag) → (∀ y ∈ (dieOf s r.die).gather, y.tag ≠ r.tag) →
        (∀ k ∈ s.cores, k.1 / 128 = r.die → k.1 ≠ coreKey r.die core → ∀ y ∈ (coreOf s k.1).streamer, y.tag ≠ r.tag) →
        (∀ q c, c ∈ (lqueueAt s r.die q).cards → c.tag ≠ r.tag ∧ c.untold = false) → d.toPost = [] →
        (∀ tm, Tbl.find s.teams x.tid = some tm → tm.ended = false) → allRun s r.die r.asid → (∀ x ∈ s.teams, noGangWaits s x.1) →
        ∃ t, exec (.cancelInstant ix) s = .next t ∧ r.tag ∈ (dieOf t r.die).cancelled
          ∧ commandDone s t ⟨false, r.die, core⟩ x rest 2)
      ∧ (∀ q l1 c l2 s1, q < 64 → (lqueueAt s r.die q).cards = l1 ++ c :: l2 → c.tag = r.tag → r.tag.getLsbD 31 = true → c.plot = none →
        c.host = false → c.parent = none → d.reserve = none →
        (∀ p y, y ∈ (lqueueAt s r.die p).cards → y.untold = false ∧ (y.tag = r.tag → p = q ∧ y ∉ l1 ∧ y ∉ l2)) →
        (∀ x ∈ (dieOf s r.die).gather, x.tag ≠ r.tag) → (∀ k ∈ s.cores, k.1 / 128 = r.die → ∀ x ∈ (coreOf s k.1).streamer, x.tag ≠ r.tag) →
        (∀ t ∈ s.teams, ¬ (t.2.die = r.die ∧ t.2.asid = r.asid)) → (∀ x ∈ s.cardReqs, x.id < s.nextId) →
        rangeWaits s r.die c.asid (c.addr + 0x64) 4 = false →
        wrote s r.die c.asid (c.addr + 0x64) (toBytes 4 (2 ^ 31 + 2 * 2 ^ 24)) s1 →
        ∃ t b, exec (.cancelInstant ix) s = .next t ∧ r.tag ∈ (dieOf t r.die).cancelled
          ∧ (lqueueAt t r.die q).cards.map (·.id) = (l1 ++ l2).map (·.id) ∧ t.cardReqs = s.cardReqs ∧ t.mem = s1.mem
          ∧ Tbl.get 0 (dieOf t r.die).launch 2 = Tbl.get 0 d.launch 2 + 1
          ∧ t.ballots = s.ballots ++ [b] ∧ b.op = .account [0, 0, 0, 0, 1, 0, 0, 0] ∧ b.word = r.tag ∧ b.die = tagDie r.tag))
    ∧ (∀ w g, s.walks[ix]? = some w → groupAt s w.home (tagIdx w.tag) = some g → w.stopped = false →
        (∀ y ∈ s.walks, y.tag = w.tag → y = w) →
      (w.begun = false → walkHeld s w = false → heldCounts s (· == w.tag) = false →
        rangeWaits s w.home w.asid (memberAddr g.area (tagMem w.tag)) 12 = false →
        ∀ bs, vread s w.home w.asid (memberAddr g.area (tagMem w.tag)) 12 = .ok bs →
        ∃ t, exec (.pageReleaseWalk ix) s = .next t ∧ t.mem = s.mem
          ∧ (⟨w.tag, w.asid, w.home, true, leNat (bs.take 8), leNat ((bs.drop 8).take 4), w.next, w.lowered, false⟩ : Walk) ∈ t.walks)
      ∧ (w.begun = true → w.count ≤ w.next → ∃ t, exec (.pageReleaseWalk ix) s = .next t ∧ t.mem = s.mem ∧ w ∉ t.walks)
      ∧ (w.begun = true → w.next < w.count → w.lowered = none → descBad s w.asid = false →
        rangeWaits s w.home w.asid (w.plist + 4 * w.next) 4 = false →
        ∀ p n b cb s1, vread s w.home w.asid (w.plist + 4 * w.next) 4 = .ok b → p = leNat b → p < desc s w.asid 0x78 4 →
          rangeWaits s w.home w.asid (desc s w.asid 0x70 8 + 4 * p) 4 = false →
          vread s w.home w.asid (desc s w.asid 0x70 8 + 4 * p) 4 = .ok cb → n = leNat cb → 1 < n →
          wrote s w.home w.asid (desc s w.asid 0x70 8 + 4 * p) (toBytes 4 (n - 1)) s1 →
          ∃ t, exec (.pageReleaseWalk ix) s = .next t ∧ t.mem = s1.mem ∧ { w with next := w.next + 1 } ∈ t.walks))
    ∧ ∀ die idx g, groupAt s die idx = some g → g.state = .freed → workTagged s (ofGroup die idx) = false →
        heldCounts s (ofGroup die idx) = false → decisionWaited s (ofGroup die idx) = false →
        (∀ d ∈ s.dies, ∀ p ∈ d.2.plots, ofGroup die idx p.2.card.tag = false) → (∀ w ∈ s.walks, ofGroup die idx w.tag = false) →
        (∀ r ∈ s.ballots, r.die = die → ofGroup die idx r.word = false) → (∀ r ∈ s.cancels, ofGroup die idx r.tag = false) →
        ∃ t, exec (.groupRecordFree die idx) s = .next t ∧ groupAt t die idx = none
          ∧ (∀ d i, ¬ (d = die ∧ i = idx) → groupAt t d i = groupAt s d i) ∧ t.mem = s.mem ∧ t.teams = s.teams

/-! ### Events of the distributor -/

/-- R341, R350: a card that reaches a queue with room, reads well and passes every check is appended, and a `post`'s token
completes. R347: an empty queue with no acceptance in progress takes a new owner, or none.
R352, R354 to R356, R342, R108: the distributor places the next team of the card that it picks, with its sheaves as R108 starts
them; begins the reserve phase of a gang, and reserves its next core; a plot that is done writes STATUS and is gone. -/
def Obligations.CardsReachTheirPlots : Prop :=
  (∀ (s : State),
      (∀ ix r card hdr, s.cardReqs[ix]? = some r → r.stopped = false → r.verdict = none → r.user = true →
        pathAhead s r.origin r.die r.id = false → (∃ d, Tbl.find s.dies r.die = some d) →
        (lqueueAt s r.die r.queue).cards.length < 32 → addrOk r.addr 256 = true → descBad s r.asid = false →
        rangeWaits s r.die r.asid r.addr 256 = false → rangeWaits s r.die r.asid (fieldAt card 0 8) 128 = false →
        vread s r.die r.asid r.addr 256 = .ok card → cardAddrs card = true → vread s r.die r.asid (fieldAt card 0 8) 128 = .ok hdr →
        cardReason s r.asid card hdr = none → (lqueueAt s r.die r.queue).cards = [] ∨ (lqueueAt s r.die r.queue).owner = some r.asid →
        desc s r.asid 0x14 4 % 4 ≠ 3 →
        ∀ tag, tag = (if (BitVec.ofNat 32 (fieldAt card 0x1C 4)).getLsbD 31 then BitVec.ofNat 32 (fieldAt card 0x1C 4) else r.tag) →
        isCancelled s r.die tag = false →
        ∃ t c, exec (.cardAccept ix) s = .next t ∧ (∀ y ∈ t.cardReqs, y.id ≠ r.id)
          ∧ (lqueueAt t r.die r.queue).cards.length = (lqueueAt s r.die r.queue).cards.length + 1
          ∧ (lqueueAt t r.die r.queue).cards.getLast? = some c ∧ (lqueueAt t r.die r.queue).owner = some r.asid
          ∧ c.addr = r.addr ∧ c.card = card ∧ c.hdr = hdr ∧ c.asid = r.asid ∧ c.tag = tag ∧ c.parent = r.parent ∧ c.plot = none
          ∧ Tbl.get 0 (dieOf t r.die).launch 0 = Tbl.get 0 (dieOf s r.die).launch 0 + 1
          ∧ (∀ tid sl k sh, r.parent = none → r.src = .unit tid sl k → sheafAt s tid sl = some sh → sh.retired = false →
              tokenDone t tid sl k 0) ∧ t.mem = s.mem)
      ∧ ∀ q, (∃ d, Tbl.find s.dies (q / 64 % 4) = some d) → (lqueueAt s (q / 64 % 4) (q % 64)).cards = [] →
          (∀ r ∈ s.cardReqs, r.die = q / 64 % 4 → r.queue = q % 64 → r.stopped = false) →
          (∀ a, ∃ t, exec (.qownSet q a) s = .next t ∧ lqueueAt t (q / 64 % 4) (q % 64) = ⟨[], some (a % 4096)⟩ ∧ t.teams = s.teams)
          ∧ ∃ t, exec (.qownClear q) s = .next t ∧ lqueueAt t (q / 64 % 4) (q % 64) = ⟨[], none⟩ ∧ t.teams = s.teams)
  ∧ (∀ (s : State) (die : Nat) (d : Die), Tbl.find s.dies die = some d →
      noHeadRefused s die →
      (∀ q c f passed p core lanes, d.reserve = none →
        pickHead s die (dieRooms s die) (dieHeads s die) [] = some (.card q c, f, passed) → gangSize c = 1 →
        plotFor s die c = some p → p < 4096 → f = [(core, lanes)] → descBad s c.asid = false → fieldAt c.hdr 0x34 4 = 0 →
        ∃ t tm pl, exec (.teamPlace die) s = .next t ∧ Tbl.find t.teams s.nextId = some tm ∧ plotOf t (die * 4096 + p) = some pl
          ∧ pl.placed = ((plotOf s (die * 4096 + p)).map (·.placed)).getD 0 + 1
          ∧ tm.asid = c.asid ∧ tm.plot = die * 4096 + p ∧ tm.index = c.placed ∧ tm.die = die ∧ tm.core = core
          ∧ tm.ver = fieldAt c.hdr 0 4 % 256 ∧ tm.codeBase = fieldAt c.card 8 8 ∧ tm.shared = [] ∧ tm.round = 0 ∧ tm.rings = []
          ∧ (∀ i, i < slotsOf c.hdr → ∃ sh, Tbl.find tm.sheaves i = some sh ∧ freshSheaf c i sh
              ∧ ∀ l, lanes.find? (fun y => y.1 == i) = some (i, l) → sh.lane = l)
          ∧ (∀ tid, tid ≠ s.nextId → ∀ tm, Tbl.find s.teams tid = some tm → passed = [] → Tbl.find t.teams tid = some tm))
      ∧ (∀ q c f passed, d.reserve = none → pickHead s die (dieRooms s die) (dieHeads s die) [] = some (.card q c, f, passed) →
          1 < gangSize c → ∃ t, exec (.gangReserve die) s = .next t ∧ (dieOf t die).reserve = some ⟨q, [], higherHeads s die q⟩
            ∧ t.mem = s.mem)
      ∧ (∀ r c rest k ls rooms, d.reserve = some r → (lqueueAt s die r.queue).cards = c :: rest → eligibleHead s die c = true →
          (∀ h ∈ higherHeads s die r.queue, h ∈ r.seen) → r.cores.length < gangSize c →
          fitCore (reservedRooms s die (cardNeeds c.hdr) r.cores) (cardNeeds c.hdr) = some (k, ls, rooms) →
          ∃ t, exec (.gangReserve die) s = .next t ∧ onlyDie s t die { d with reserve := some { r with cores := r.cores ++ [k] } })
      ∧ ∀ n p s1, n < 4096 → plotOf s (die * 4096 + n) = some p → plotDone s (die * 4096 + n) p = true →
          bitOf (fieldAt p.card.card 0x34 4) 8 = false → rangeWaits s die p.card.asid (p.card.addr + 0x64) 4 = false →
          wrote s die p.card.asid (p.card.addr + 0x64)
            (toBytes 4 (2 ^ 31 + (if p.faulted then 5 else if p.cancelled then 2 else 0) * 2 ^ 24)) s1 →
          ∃ t, exec (.plotRetire (die * 4096 + n)) s = .next t ∧ plotOf t (die * 4096 + n) = none ∧ t.mem = s1.mem
            ∧ ∀ sh, p.card.host = false → p.card.parent.isSome = true → sheafAt s p.card.tid p.card.slot = some sh → sh.retired = false →
                tokenDone t p.card.tid p.card.slot p.card.tk (if p.faulted then 5 else if p.cancelled then 2 else 0))

/-! ### Events of teams -/

/-- R311, R313: a team that a pre-emption has stopped swaps out: its core is given up and its header fields are set; a team that
the distributor picks for its return stands on its core again.
R174, R172: a round suspended on the pool takes place once the pool has room; the harrow resumes the top level of an idle team:
here its only record is drawn whole, and each of its ordinals runs at the level's word. -/
def Obligations.TeamsSwapAndHarrowGoesOn : Prop :=
  (∀ (s : State) (tid : Nat) (t : Team), Tbl.find s.teams tid = some t →
      (haltedNow s tid t = true → descBad s t.asid = false → rangeWaits s t.die t.asid (saveAddr t) (saveBytes t) = false →
        (∃ ps, transRange s t.die t.asid (saveAddr t) (saveBytes t) .write = .ok ps) →
        ∃ s' tm, exec (.swapOut tid) s = .next s' ∧ Tbl.find s'.teams tid = some tm ∧ tm.out = true ∧ tm.swState = 1
          ∧ tm.swaps = t.swaps + 1 ∧ tm.mOut = s.mer ∧ tm.sheaves = t.sheaves ∧ tm.shared = t.shared ∧ tm.rings = t.rings
          ∧ Tbl.get 0 tm.counters 27 = Tbl.get 0 t.counters 27 + 1
          ∧ (t.tiles ≠ 0 → (coreOf s' (coreKey t.die t.core)).engine = Engine.zero
              ∧ tm.saved = some (coreOf s (coreKey t.die t.core)).engine))
      ∧ ∀ q passes core lanes passed, t.out = true → t.ended = false → (dieOf s t.die).reserve = none → (dieOf s t.die).cancelled = [] →
          pickHead s t.die (dieRooms s t.die) (dieHeads s t.die) [] = some (.back q [tid] passes, [(core, lanes)], passed) →
          passed = [] → settled s tid ∨ plainWaits s tid → noGangWaits s tid → descBad s t.asid = false →
          rangeWaits s t.die t.asid (saveAddr t) (saveBytes t) = false →
          (∃ ps, transRange s t.die t.asid (saveAddr t) (saveBytes t) .read = .ok ps) →
          (∃ ps, transRange s t.die t.asid (saveAddr t) 4096 .write = .ok ps) →
          bodyOk s t = true → ∃ s' tm, exec (.swapReturn tid) s = .next s' ∧ Tbl.find s'.teams tid = some tm ∧ tm.out = false
            ∧ tm.core = core ∧ tm.swState = 2 ∧ tm.mIn = s.mer ∧ tm.shared = t.shared ∧ tm.rings = t.rings ∧ tm.halted = false
            ∧ (∀ sl sh, Tbl.find t.sheaves sl = some sh → ∃ sh', Tbl.find tm.sheaves sl = some sh'
                ∧ (∀ k, readKey sh' k = readKey sh k) ∧ sh'.tok = sh.tok ∧ sh'.sys = sh.sys
                ∧ ∀ l, lanes.find? (fun y => y.1 == sl) = some (sl, l) → sh'.lane = l)
            ∧ ∀ e, t.saved = some e → (coreOf s' (coreKey t.die core)).engine.tiles = e.tiles)
  ∧ ((∀ (s : State) (c : Ctx) (sg : Bool) (h : Hdr) (va : VReg) (arr : List Arrived),
      unitAt s c.tid c.slot c.uid = some c → c.team.hold = .pool → c.team.out = false → c.team.ended = false →
      (∀ u ∈ teamUnits s c.tid, u.unit.wait = .round (sowWord sg h va) ∧ u.unit.pc = c.unit.pc) → (∀ sh ∈ c.team.sheaves, sh.2.splits = []) →
      inRank (arrivalsOf c h va 1) arr → planFault c.team sg (planRound c.team arr) = none → descBad s c.team.asid = false →
      poolShort s c.team (planPages c.team (planRound c.team arr)) = false →
      (∀ p ∈ planPages c.team (planRound c.team arr), rangeWaits s c.team.die c.team.asid (siloAddr c.team + 65536 * p) 1 = false) →
      siloUnmapped s c.team (planPages c.team (planRound c.team arr)) = none → noGangWaits s c.tid → placesSome c arr →
      ∃ t, exec (.sowRoundRetry c.tid) s = .next t ∧ roundPlaced c sg arr t)
    ∧ ∀ (s : State) (tid : Nat) (t : Team) (ls : List SiloLevel) (l : SiloLevel) (bs : List Byte) (w : Nat → Nat),
      Tbl.find s.teams tid = some t → t.out = false → t.ended = false → t.hold ≠ .fault → teamIdle t = true → siloWaits s t = false →
      descBad s t.asid = false →
      t.levels = ls ++ [l] → l.count = 1 → (∃ pa, translate s t.die t.asid (siloAddr t) .write = .ok pa) → vread s t.die t.asid (siloAddr t + l.first) (recBytes t) = .ok bs →
      w = (fun i => leNat ((bs.drop (4 * i)).take 4)) → bitOf (w 1) 24 = false → bitOf (w 1) 23 = false → w 2 ≤ w 3 →
      w 3 - w 2 < t.capacity →
      ∃ s' tm, exec (.siloResumption tid) s = .next s' ∧ Tbl.find s'.teams tid = some tm ∧ tm.round = l.round ∧ tm.levels = ls
        ∧ (∀ sl sh, Tbl.find t.sheaves sl = some sh → ∃ sh', Tbl.find tm.sheaves sl = some sh' ∧ sh'.s = sh.s ∧ sh'.tok = sh.tok
          ∧ (∀ id u, Tbl.find sh'.units id = some u → u.pc = l.pc ∧ u.wait = .ready)
          ∧ ∀ o, o ≤ w 3 - w 2 → o / 16 = sl → ∃ th, Tbl.find sh'.threads (o % 16) = some th ∧ th.ord = BitVec.ofNat 32 (w 2 + o)
            ∧ th.rank = w 0 + bits (w 1) 15 0 * 2 ^ 32 + w 2 + o ∧ th.tag = 0
            ∧ ∀ r, r < t.live → Tbl.get 0 th.v r = BitVec.ofNat 32 (w (8 + r))))

/-! ### Events of links and ports -/

/-- R406, R412: a crossing FIFO's oldest flit moves to its next link, or its entry is stored. R434, R445, R448: a packet for this
device is performed and answered, a request leaves its source, a response completes its packet; a packet without a response
after the timeout is LOST. R438, R440: a link trains, comes up and goes down, which its die writes into the map and then records; a
period's flits become LOAD. That a packet's TAG is its number modulo 2^16 is the model's choice (log 66). -/
def Obligations.LinkAndPortEventsTakePlace : Prop :=
  (∀ (s : State) (link : Nat) (f : Flit) (rest : List Flit), fifoAt s link = f :: rest →
    (f.path = [] → pathAhead s (dqSrc f.queue) (dqDst f.queue) f.id = false → ∃ t, exec (.dqEntryStore link) s = .next t ∧ fifoAt t link = rest
      ∧ (dqAt t f.queue).stored = (if f.drop then (dqAt s f.queue).stored else (dqAt s f.queue).stored ++ [f.entry])
      ∧ (dqAt t f.queue).inFlight = (dqAt s f.queue).inFlight - 1 ∧ (∀ k, k ≠ f.queue → dqAt t k = dqAt s k) ∧ t.mem = s.mem)
    ∧ ∀ n p k, f.path = n :: p → k = link % 4 * 4 + n → k ≠ link → (fifoAt s k).length < 32 →
        ∃ t, exec (.dqEntryStore link) s = .next t ∧ fifoAt t link = rest ∧ fifoAt t k = fifoAt s k ++ [{ f with path := p }]
          ∧ t.dqs = s.dqs ∧ t.mem = s.mem)
  ∧ (∀ (s : State) (ix : Nat) (p : Packet), s.packets[ix]? = some p → p.leg = none → p.port < 24 → 1 ≤ p.nh → p.nh ≤ 10 → p.hi = p.nh → requestWaits s p = false →
      asidEnabled s p.asid = true → hopCheck s { p with rp := updAt p.rp (p.hi - 1) fun _ => p.port } = none →
      portUp s ((updAt p.rp (p.hi - 1) fun _ => p.port).getD (p.nh - 1) 31) = true →
      ∀ pa n, transRange s (p.port / 6) p.asid p.addr n (if p.kind = 1 then .write else .read) = .ok [(pa, n)] → n ≠ 0 →
      (p.kind = 1 → p.poison = false → n = p.data.length → ∃ t a, exec (.fabricPacketReceive ix) s = .next t
        ∧ t.mem = (physWrite s pa p.data).mem ∧ t.packets = dropAt s.packets ix ∧ t.outbox = s.outbox ++ [a]
        ∧ a.kind = 8 ∧ a.tag = p.tag ∧ a.dst = p.src ∧ a.src = p.dst ∧ a.addr = 0 ∧ a.nh = p.nh ∧ a.hi = 1 ∧ a.data = [] ∧ a.port = p.port)
      ∧ (p.kind = 2 → n = p.len → physPoisoned s pa n = false → ∃ t a, exec (.fabricPacketReceive ix) s = .next t
        ∧ t.mem = s.mem ∧ t.packets = dropAt s.packets ix ∧ t.outbox = s.outbox ++ [a]
        ∧ a.kind = 9 ∧ a.tag = p.tag ∧ a.dst = p.src ∧ a.data = physRead s pa n))
  ∧ (∀ (s : State) (ix : Nat) (p : Packet) (n : NxCmd) (part : NxPart), s.packets[ix]? = some p → p.leg = none → p.port = 31 → nxOfTag s p.tag = some n →
      n.kind = .probe → n.parts = [part] → part.tag = p.tag → maySend s n part = true → hopCheck s p = none →
      p.hops.getD 0 0 % 32 / 6 = n.die →
      ∃ t a, exec (.fabricPacketReceive ix) s = .next t ∧ t.packets = dropAt s.packets ix ∧ t.outbox = s.outbox ++ [a]
        ∧ a.hi = 1 ∧ a.tag = p.tag % 65536 ∧ a.port = p.hops.getD 0 0 % 32
        ∧ { n with parts := [{ part with sentAt := some s.mer }] } ∈ t.nxCmds)
  ∧ (∀ (s : State) (ix : Nat) (n : NxCmd) (part : NxPart) (tm : Team) (sh : Sheaf), n.parts = [part] → part.done = none →
      part.sentAt.isSome = true → n.kind = .put → n.bad = none → n.stopped = false →
      Tbl.find s.teams n.tid = some tm → tm.ended = false → sheafAt s n.tid n.slot = some sh → sh.retired = false →
      (∀ r ∈ sh.reports, r.touched = false) →
      (∀ p, s.packets[ix]? = some p → p.leg = none → p.port < 24 → p.port / 6 = n.die → p.kind = 8 → p.hi = p.nh →
        partOfTag s p.tag = some (n, part) → nxOfTag s part.tag = some n → part.lostAt s = false →
        ∃ t sh', exec (.fabricPacketReceive ix) s = .next t ∧ sheafAt t n.tid n.slot = some sh' ∧ tokAt sh' n.tk = ⟨false, 0⟩
          ∧ readKey sh' (.s n.dst) = 0x80000000 ∧ (∀ y ∈ t.nxCmds, y.id ≠ n.id))
      ∧ (s.nxCmds[ix]? = some n → part.came = false → (∀ at', part.sentAt = some at' → at' + Max.max 4096 ((s.topo.map (·.tmo)).getD 0) ≤ s.mer) →
        ∃ t sh', exec (.fabricTimeout ix) s = .next t ∧ sheafAt t n.tid n.slot = some sh' ∧ tokAt sh' n.tk = ⟨false, 10⟩
          ∧ readKey sh' (.s n.dst) = 0x8A000000 ∧ ∀ y ∈ t.nxCmds, y.id ≠ n.id))
  ∧ (∀ (s : State) (port : Nat), port < 24 → (portAt s port).changes = [] → (portAt s port).loadDue = false →
      (portAt s port).stopped = false → ∀ up st old n, old = (portAt s port).state →
      (old, up, st, n) ∈ [(PortState.training, true, PortState.up, 2), (.down, true, .training, 1), (.training, false, .down, 0),
        (.up, false, .down, 0)] →
      (∀ p ∈ s.outbox, p.port ≠ port) → (∀ p ∈ s.packets, p.leg = none) →
      ∀ r, r = { FRec.zero with src := .fabric, cause := 51, body := [BitVec.ofNat 32 port, BitVec.ofNat 32 old.code, BitVec.ofNat 32 n] } →
      (s.topo = none → ∃ t, exec (.linkStateChange port up) s = .next t ∧ (portAt t port).state = st
        ∧ (∀ p, p ≠ port → (portAt t p).state = (portAt s p).state) ∧ recordPosted s (port / 6) r t)
      ∧ ∀ m a bs s', s.topo = some m → mapWaits s m.addr port = false → a = m.addr + 0x400 + 16 * port →
          vread s (port / 6) 0 a 4 = .ok bs →
          vwrite s (port / 6) 0 a (toBytes 4 (leNat bs / 2 ^ 28 * 2 ^ 28 + n * 2 ^ 24 + leNat bs % 2 ^ 24)) = .ok s' →
          ∃ t, exec (.linkStateChange port up) s = .next t ∧ (portAt t port).state = st
            ∧ (∀ p, p ≠ port → (portAt t p).state = (portAt s p).state) ∧ recordPosted s' (port / 6) r t)
  ∧ ∀ (s : State) (first : Nat), s.mer ≠ 0 → s.mer % 65536 = 0 → s.loadAt ≠ s.mer → ∃ t, exec (.fabricLoadUpdate first) s = .next t ∧ t.loadAt = s.mer
      ∧ ∀ p, p < 24 → (portAt t p).flits = 0 ∧ (portAt t p).load = (portAt s p).flits ∧ (portAt t p).state = (portAt s p).state

/-! ### Clocks and power -/

/-- R414 to R419, R476: a tick of the meridian at which nothing else is due advances MER and every die; a relock starts where FCUR is not
what is wanted, lasts 400 ticks, and its end sets FCUR; a write of FSET between 6 and 19 is taken, any other is not. At the end of a 1 ms
window the host reads its power and temperature, and the power loop lowers a ceiling by one step where the cap or 105 degrees is reached,
and after the tenth cool window in a row raises the lowest by one; that the count then starts again is the model's choice (log 44).
R421 to R425, R462, R203: a write of LATTOL is taken and wakes a die whose state exceeds it; a die enters the deepest state
whose conditions have held, A1 or A2, and leaves it where work waits; hourly wear and SBAL's suggestion change only their
registers; a scrub pass without an error only counts. -/
def Obligations.ClocksPowerAndHealthEvents : Prop :=
  (∀ (s : State),
      (tickDue s = false → portsQuiet s → ((s.mer + 1) % 4096 ≠ 0 ∨ rereadQuiet s fun _ _ => true) →
        ∃ t, exec .meridianTick s = .next t ∧ t.mer = s.mer + 1 ∧ t.mem = s.mem
        ∧ t.cores = s.cores ∧ t.svbase = s.svbase
        ∧ (∀ tid, (Tbl.find t.teams tid).map (fun x => { x with eligible := none }) = (Tbl.find s.teams tid).map fun x => { x with eligible := none })
        ∧ ∀ die d, Tbl.find s.dies die = some d → ∃ d', Tbl.find t.dies die = some d'
          ∧ d'.cyc = (if d.busy = true ∨ d.power = .a3 then d.cyc else d.cycTick + tickCycles die d.fcur s.mer)
          ∧ d'.ncyc = 622592 * (s.mer + 1) ∧ d'.fcur = d.fcur ∧ d'.fset = d.fset ∧ d'.wear = d.wear
          ∧ (d.busy = false → Min.min d.fset d.ceiling ≠ d.fcur → d'.busy = true ∧ d'.target = Min.min d.fset d.ceiling
              ∧ d'.relockEnd = s.mer + 401)
          ∧ (d.busy = true ∨ Min.min d.fset d.ceiling = d.fcur → d'.busy = d.busy ∧ d'.relockEnd = d.relockEnd))
      ∧ ∀ die d, Tbl.find s.dies die = some d →
        (d.busy = true → d.relockEnd ≤ s.mer → portsQuiet s → (rereadQuiet s fun x _ => x == die) → (∀ r ∈ d.toPost, r.why ≠ .clock) →
          ∃ t, exec (.relockEnd die) s = .next t ∧ { t with dies := s.dies, ports := s.ports } = s
            ∧ ∀ k x, Tbl.find s.dies k = some x → ∃ x', Tbl.find t.dies k = some x'
              ∧ { x' with queues := x.queues } = (if k = die then { x with busy := false, fcur := d.target } else x))
        ∧ (∀ v : Word, ∃ t, exec (.dfreqWrite die v) s = .next t
          ∧ onlyDie s t die { d with fset := if 6 ≤ v.toNat % 32 ∧ v.toNat % 32 ≤ 19 then v.toNat % 32 else d.fset })
        ∧ ∀ pwr temp : Word, s.mer ≠ 0 → s.mer % 200000 = 0 → s.host.windowAt ≠ s.mer → ∃ t, exec (.powerWindow die ⟨pwr, temp⟩) s = .next t
            ∧ t.host = { s.host with pwr := pwr, temp := temp, windowAt := s.mer, cool := t.host.cool }
            ∧ { t with host := s.host, dies := s.dies } = s ∧ (s.host.boot ≠ .ready → t.dies = s.dies ∧ t.host.cool = s.host.cool)
            ∧ ∀ cap hot warm, s.host.boot = .ready → cap = (if s.host.pcap = 0 then 3000 else s.host.pcap.toNat) →
                hot = (cap < pwr.toNat ∨ 105 ≤ temp.toNat) → warm = (9 * cap ≤ 10 * pwr.toNat ∨ 100 ≤ temp.toNat) →
                (hot → t.host.cool = 0 ∧ (6 < d.ceiling → Tbl.find t.dies die = some { d with ceiling := d.ceiling - 1 }
                  ∧ ∀ k, k ≠ die → Tbl.find t.dies k = Tbl.find s.dies k))
                ∧ (¬ hot → warm → t.host.cool = 0 ∧ t.dies = s.dies)
                ∧ (¬ hot → ¬ warm → s.host.cool < 9 → t.host.cool = s.host.cool + 1 ∧ t.dies = s.dies)
                ∧ (¬ hot → ¬ warm → 9 ≤ s.host.cool → t.host.cool = 0
                  ∧ (d.ceiling < 19 → (∀ k x, (k, x) ∈ s.dies → d.ceiling ≤ x.ceiling) →
                    Tbl.find t.dies die = some { d with ceiling := d.ceiling + 1 } ∧ ∀ k, k ≠ die → Tbl.find t.dies k = Tbl.find s.dies k)))
  ∧ (∀ (s : State) (die : Nat) (d : Die), Tbl.find s.dies die = some d →
      (∀ v : Word, s.host.boot = .ready → (∀ k x, Tbl.find s.dies k = some x → x.power ≠ .a3) → die < 4 →
        ∃ t d', exec (.lattolWrite v) s = .next t ∧ t.lattol = v ∧ t.mem = s.mem ∧ Tbl.find t.dies die = some d'
          ∧ d'.power = (if v.toNat < exitUs d.power.num then .a0 else d.power))
      ∧ (∀ st, st = 1 ∨ st = 2 → deepest s die = st → d.power.num < st → d.busy = false → d.power ≠ .a3 →
          ∃ t, exec (.powerStateEnter die st) s = .next t ∧ Tbl.find t.dies die = some { d with power := if st = 1 then .a1 else .a2 }
            ∧ (∀ e ∈ t.tlb, e ∈ s.tlb ∧ (st = 2 → e.die ≠ die)) ∧ t.mem = s.mem ∧ t.teams = s.teams)
      ∧ (d.power = .a1 ∨ d.power = .a2 → wakeDue s die = true →
          ∃ t, exec (.powerStateExit die) s = .next t ∧ onlyDie s t die { d with power := .a0 })
      ∧ (s.mer ≠ 0 → s.mer % 720000000 = 0 → d.wearAt ≠ s.mer → ∃ t w, exec (.wearRecompute die) s = .next t
          ∧ onlyDie s t die { d with wear := w, wearAt := s.mer }
          ∧ w.getLsbD 63 = true ∧ w.extractLsb' 60 3 = 0)
      ∧ (s.mer ≠ 0 → s.mer % 65536 = 0 → d.sbalAt ≠ s.mer → ∃ t v, exec (.sbalUpdate die) s = .next t
          ∧ onlyDie s t die { d with sbal := v, sbalAt := s.mer, held := engineHeld s die }
          ∧ (d.held = false → engineHeld s die = false → v.extractLsb' 8 8 = 0 ∧ v.extractLsb' 30 2 ≠ 2)
          ∧ v.extractLsb' 16 14 = 0
          ∧ (v.extractLsb' 30 2 = 1 ↔ 64 ≤ (v.extractLsb' 8 8).toNat ∧ (v.extractLsb' 8 8).toNat ≤ (v.extractLsb' 0 8).toNat)
          ∧ (v.extractLsb' 30 2 = 2 → (v.extractLsb' 8 8).toNat < 16) ∧ v.extractLsb' 30 2 ≠ 3)
      ∧ (∃ t st, exec (.scrubPass die none) s = .next t ∧ onlyDie s t die { d with stat := st }
          ∧ ∀ k, k ≠ 0 → Tbl.get 0 st k = Tbl.get 0 d.stat k))

/-! ### Contexts -/

/-- R386, R387: a pre-emption begins with STOP on every die, its second stage stops every team of a swappable plot once its deadline
has passed, and it ends where no team is left; release lets the context go on. R388: a teardown, and a pre-emption past its second
deadline, leave nothing of the context running.
R174, R175, R480, R351: a context whose suspended rounds have stalled for its limit is reported by a record that names their teams, and
its timer ends; a re-read tries its suspended rounds, its paused walks and its appends on a full ring again, here none, and makes the
checks of heads that are due on the dies whose clock runs. R394 to R396: a walk for a page begins on a die with a walker free, and at its end the TLBs and the walk cache of that die hold
no copy that it did not find. -/
def Obligations.ContextsStopAndGoOn : Prop :=
  (∀ (s : State) (a : Nat), 0 < a → a < 4096 → descBad s a = false →
      (desc s a 0x14 4 % 4 ≠ 1 → ∃ t, exec (.pctlPreempt a) s = .next t ∧ (⟨a, s.mer, 1⟩ : Preempt) ∈ t.preempts
        ∧ (∀ p ∈ t.preempts, p.asid = a → p = ⟨a, s.mer, 1⟩) ∧ desc t a 0x14 4 = 1
        ∧ (∀ d, d < 4 → descWin t a 0x60 d = descWin s a 0x60 d ||| 0x80000000#32) ∧ t.teams = s.teams)
      ∧ (∃ t, exec (.pctlRelease a) s = .next t ∧ (∀ p ∈ t.preempts, p.asid ≠ a) ∧ desc t a 0x14 4 = 0
        ∧ (∀ d, d < 4 → descWin t a 0x60 d = descWin s a 0x60 d &&& 0x7FFFFFFF#32)
        ∧ ∀ tid, Tbl.find t.teams tid = (Tbl.find s.teams tid).map fun x => if x.asid = a then { x with halted := false } else x)
      ∧ (∀ i, i = .pctlTeardown a ∨ (i = .preemptStage3 a ∧ ∃ p, preemptOf s a = some p ∧ p.stage = 2 ∧ desc s a 0x1C 4 ≠ 0
            ∧ p.tick + desc s a 0x1C 4 ≤ s.mer ∧ hasResidents s a = true) →
          ∃ t, exec i s = .next t ∧ (∀ x ∈ t.teams, x.2.asid ≠ a) ∧ (∀ x ∈ t.cardReqs, x.asid ≠ a) ∧ (∀ x ∈ t.nxCmds, x.asid ≠ a)
            ∧ (∀ x ∈ t.walks, x.asid ≠ a) ∧ (∀ x ∈ t.tlb, x.asid ≠ a) ∧ ∀ p ∈ t.preempts, p.asid ≠ a)
      ∧ (∀ p, preemptOf s a = some p → p.stage = 1 → p.tick + desc s a 0x18 4 ≤ s.mer →
          ∃ t, exec (.preemptStage2 a) s = .next t ∧ t.mem = s.mem ∧ (∀ q ∈ t.preempts, q.asid = a → q.stage = 2)
            ∧ ∀ tid x, Tbl.find s.teams tid = some x → Tbl.find t.teams tid
              = some (if x.asid = a ∧ x.swapThr ≠ 0 ∧ x.out = false ∧ x.ended = false then { x with halted := true } else x))
      ∧ (∀ p, preemptOf s a = some p → hasResidents s a = false →
          ∃ t, exec (.contextDrained a) s = .next t ∧ (∀ q ∈ t.preempts, q.asid ≠ a)))
  ∧ (∀ (s : State) (a : Nat), a < 4096 →
      (descBad s a = false → descBad s 0 = false → desc s a 0x10 4 ≠ 0 → desc s a 0x10 4 ≤ Tbl.get 0 s.stalls a →
        ∃ t, exec (.siloStall a) s = .next t ∧ Tbl.find t.stalls a = none ∧ (∀ b, b ≠ a → Tbl.find t.stalls b = Tbl.find s.stalls b)
          ∧ ∀ ts, ts = (s.teams.filter fun x => x.2.asid == a && x.2.hold == .pool).map (·.2.index) → ts ≠ [] → ts.length ≤ 46 →
              recordPosted s 0 { FRec.zero with src := .timer, cause := 48, asid := a, body := BitVec.ofNat 32 ts.length :: packHalves ts } t)
      ∧ ((rereadQuiet s fun _ x => x == a) → ∃ t, exec (.fieldReread a) s = .next t ∧ t.teams = s.teams ∧ t.mem = s.mem
          ∧ ∀ die q c rest, (lqueueAt s die q).cards = c :: rest → ∃ c', (lqueueAt t die q).cards = c' :: rest
            ∧ c' = { c with due := c'.due, eligible := c'.eligible, bad := c'.bad }
            ∧ (clockRuns (dieOf s die) = false ∨ c.due = false ∨ descBad s c.asid = true → c' = c)
            ∧ (clockRuns (dieOf s die) = true → c.due = true → descBad s c.asid = false → c'.due = false
              ∧ (c'.eligible = true ↔ c.eligible = true ∨ (c.bad = false ∧ depsState s c = .ok true))
              ∧ (c'.bad = true ↔ c.bad = true ∨ (c.eligible = false ∧ depsState s c = .error ()))))
      ∧ ∀ va, va < 2 ^ 56 →
        (∀ e lv, walk s a va = .leaf e lv → (s.walking.find? fun w => w.asid == a && w.page == va / 65536) = none →
          (∀ d, d < 4 → (s.walking.filter fun w => w.die == d).length < 128 ∧ clockRuns (dieOf s d) = true) → ∃ t n, exec (.pageWalk a va) s = .next t
            ∧ t = { s with walking := s.walking ++ [n] } ∧ n.die < 4 ∧ n.asid = a ∧ n.page = va / 65536
            ∧ (s.walked = [] → n.leaf = some ⟨n.die, none, a, va / 2 ^ leafBits lv, leafBits lv, BitVec.ofNat 64 e⟩))
        ∧ ∀ n, (s.walking.find? fun w => w.asid == a && w.page == va / 65536) = some n → clockRuns (dieOf s n.die) = true →
            (∀ k d, Tbl.find s.dies k = some d → ∀ r ∈ d.toPost, r.why ≠ .walker) → ∃ t, exec (.pageWalk a va) s = .next t
            ∧ t.walking = s.walking.erase n ∧ { t with tlb := s.tlb, walked := s.walked, walking := s.walking, dies := s.dies } = s
            ∧ (∀ k, Tbl.find t.dies k = Tbl.find s.dies k)
            ∧ (∀ y ∈ t.tlb, y ∈ s.tlb ∨ ∃ e, n.leaf = some e ∧ y = { e with core := y.core })
            ∧ ∀ y ∈ t.walked, y ∈ s.walked ∨ y ∈ n.path)

/-- R367, R380, R382: writes of FQSIZE, FQBASE and FQTAIL; R383: the resume and the end action on the record of a stopped copy: it goes
on from its chunk, or its token completes FAULTED; the record is answered once. -/
def Obligations.FaultQueueIsServed : Prop :=
  (∀ (s : State) (die : Nat) (d : Die) (v : Word), Tbl.find s.dies die = some d → ∃ t, exec (.fqtailWrite die v) s = .next t
    ∧ (dieOf t die).fqtail = if d.fqsize.toNat < (d.fqhead - v).toNat then d.fqtail else v)
  ∧ ∀ (s : State) (die : Nat) (d : Die), Tbl.find s.dies die = some d → d.toPost = [] →
    (∀ v : Word, ∃ t, exec (.fqsizeWrite die v) s = .next t
      ∧ onlyDie s t die { d with fqsize := if ringLegal v then v else d.fqsize })
    ∧ (∀ v : DWord, ∃ t, exec (.fqbaseWrite die v) s = .next t
      ∧ onlyDie s t die { d with fqbase := if v.toNat % 4096 = 0 then v else d.fqbase })
    ∧ (∀ v : Word, ∃ t, exec (.fqtailWrite die v) s = .next t
      ∧ onlyDie s t die { d with fqtail := if d.fqsize.toNat < (d.fqhead - v).toNat then d.fqtail else v })
    ∧ ∀ seq r core x rest tm, d.posted.find? (fun y => y.seq == seq) = some r → r.acted = false → r.work = .copy die core x.id →
        queueOf s ⟨false, die, core⟩ = x :: rest → (∀ y ∈ rest, y.id ≠ x.id) → x.kind = .fillOc → d.ftable = [] →
        Tbl.find s.teams x.tid = some tm → tm.ended = false →
        (∃ t, exec (.fqactResume die seq) s = .next t ∧ queueOf t ⟨false, die, core⟩ = { x with stopped := false } :: rest
          ∧ (∀ y ∈ (dieOf t die).posted, y.seq ≠ seq) ∧ t.mem = s.mem)
        ∧ ∃ t, exec (.fqactEnd die seq) s = .next t ∧ commandDone s t ⟨false, die, core⟩ x rest 5
          ∧ ∀ y ∈ (dieOf t die).posted, y.seq ≠ seq

/-! ### The host -/

/-- R465, R466, R468, R469: writes of the host's registers by their own events and by their offsets in BAR0; a submission becomes a
request for its card; a completion record goes into the ring, HCRHEAD rises and MSI-X is signalled.
R464, R469: at READY a host access reads and writes main memory, little-endian; one outside the two tiers reads all ones, and its
write is discarded and counted in status entry 3 (R385) of the die that it names. In RECOVERY WAIT the host writes and reads the recovery
image alone. -/
def Obligations.HostReachesTheDevice : Prop :=
  (∀ (s : State), s.host.boot = .ready →
      (∀ v : Word, (∀ i, i = .hcrtailWrite v ∨ (∃ x : BitVec 64, i = .hostRegisterWrite 0x20 x ∧ x.setWidth 32 = v) →
          exec i s = .next { s with host := { s.host with hcrtail := v } })
        ∧ (∀ i, i = .hcrsizeWrite v ∨ (∃ x : BitVec 64, i = .hostRegisterWrite 0x18 x ∧ x.setWidth 32 = v) →
          exec i s = .next { s with host := { s.host with hcrsize := (if ringLegal v then v else s.host.hcrsize) } }))
      ∧ (∀ x : BitVec 64, exec (.hostRegisterWrite 0x10 x) s = .next { s with host := { s.host with hcrbase := (if x.toNat % 4096 = 0 then x else s.host.hcrbase) } })
      ∧ (∀ x : BitVec 64, (∀ d, dieOf s d = { dieOf s d with power := .a0 }) → (∀ i, i = .hlnchWrite x ∨ i = .hostRegisterWrite 0x28 x →
          ∃ t r, exec i s = .next t ∧ t.cardReqs = s.cardReqs ++ [r] ∧ r.die = bits x.toNat 7 6 ∧ r.queue = bits x.toNat 5 0
            ∧ r.addr = x.toNat / 256 * 256 ∧ r.user = false ∧ r.isTry = true ∧ r.src = .host ∧ r.parent = none ∧ t.mem = s.mem))
      ∧ (∀ r rest, s.host.pending = r :: rest → ringFull s.host = false → ∃ t, exec .hostCompletionRecord s = .next t
          ∧ t.host = { s.host with pending := rest, hcrhead := s.host.hcrhead + 1, msi := s.host.msi + 1 }
          ∧ ∀ base, base = 2 ^ 51 + s.host.hcrbase.toNat + 16 * (s.host.hcrhead.toNat % s.host.hcrsize.toNat) →
              readBytes t.mem base 16 = hostRecBytes r s.host.hcrhead
              ∧ ∀ a, a < base ∨ base + 16 ≤ a → byteAt t.mem a = byteAt s.mem a)
      ∧ (∀ cxl, ∃ b, exec (.hostLinkTraining cxl) s = .next { s with host := { s.host with cxl := cxl, ide := b } })
      ∧ ∀ req, ∃ t, exec (.managementRequest req) s = .next t ∧ onlyHost s t ∧ t.host = { s.host with reply := t.host.reply }
          ∧ (req = 1 → s.host.lc ≠ .decommissioned → t.host.reply.value = s.host.pwr.setWidth 64)
          ∧ (req = 2 → s.host.lc ≠ .decommissioned → t.host.reply.value = s.host.temp.setWidth 64)
          ∧ (req = 0 → t.host.reply.value = BitVec.ofNat 64 (hstat s.host)))
  ∧ (∀ (s : State) (a n : Nat) (bs : List Byte), n ≤ 8 → bs ≠ [] → a + n ≤ 2 ^ 42 → a + bs.length ≤ 2 ^ 42 →
      (s.host.boot = .ready → (∀ d, dieOf s d = { dieOf s d with power := .a0 }) →
        (tierRange a n = true → physPoisoned s a n = false → ∃ t, exec (.hostMemoryRead a n) s = .next t ∧ onlyHost s t
          ∧ t.host.reply = ⟨BitVec.ofNat 64 (leNat (readBytes s.mem a n)), false⟩)
        ∧ (tierRange a n = false → a < 2 ^ 42 → ∃ t, exec (.hostMemoryRead a n) s = .next t ∧ onlyHost s t
          ∧ t.host.reply = ⟨BitVec.ofNat 64 (256 ^ n - 1), false⟩)
        ∧ (tierRange a bs.length = true → s.memPz = [] → ∃ t, exec (.hostMemoryWrite a bs) s = .next t
          ∧ readBytes t.mem a bs.length = bs ∧ ∀ x, x < a ∨ a + bs.length ≤ x → byteAt t.mem x = byteAt s.mem x)
        ∧ (tierRange a bs.length = false → a < 2 ^ 42 → ∃ t, exec (.hostMemoryWrite a bs) s = .next t ∧ t.mem = s.mem ∧ t.host = s.host
          ∧ ∀ k d, k = discardDie a → Tbl.find s.dies k = some d → Tbl.get 0 (dieOf t k).stat 3 = Tbl.get 0 d.stat 3 + 1))
      ∧ (s.host.boot = .recovery → a + n ≤ 67108864 → a + bs.length ≤ 67108864 →
        (∃ t, exec (.hostMemoryRead a n) s = .next t ∧ onlyHost s t ∧ t.host.reply = ⟨BitVec.ofNat 64 (leNat (readBytes s.host.recov a n)), false⟩)
        ∧ ∃ t, exec (.hostMemoryWrite a bs) s = .next t ∧ onlyHost s t ∧ readBytes t.host.recov a bs.length = bs
          ∧ ∀ x, x < a ∨ a + bs.length ≤ x → byteAt t.host.recov x = byteAt s.host.recov x))

/-- R468, R470 to R473, R477: package reset wipes the module and boots the flash image that meets the boot checks, or waits for
recovery; a recovery image is checked once the host asks, and becomes the flash; the life cycle goes one way, by signed commands;
measurements use up one leaf each; a thermal trip resets the package. That a flash image which fails counts as one failed verification, the
form of commands and reports, and the free ROM digest are the model's (log 8). -/
def Obligations.BootAndLifeCycle : Prop :=
  ∀ (s : State),
    (∀ i, i = .packageReset ∨ (i = .thermalTrip ∧ s.host.boot ≠ .ready) → ∃ t, exec i s = .next t
      ∧ t.mer = 0 ∧ t.teams = [] ∧ t.cores = [] ∧ t.tlb = [] ∧ t.nxCmds = [] ∧ t.topo = none ∧ t.dies = State.reset.dies
      ∧ (∀ a, a < 2 ^ 51 → byteAt t.mem a = 0) ∧ t.host.lc = s.host.lc ∧ t.host.minVer = s.host.minVer ∧ t.host.leaves = s.host.leaves
      ∧ t.host.flash = s.host.flash ∧ t.host.owner = s.host.owner ∧ t.host.seed = s.host.seed
      ∧ (s.host.lc ≠ .decommissioned → imageOk s.host s.host.flash = true → t.host.boot = .ready ∧ t.host.fails = 0)
      ∧ (s.host.lc ≠ .decommissioned → imageOk s.host s.host.flash = false → t.host.boot = .recovery ∧ t.host.fails = 1)
      ∧ (s.host.lc = .decommissioned → t.host.boot = .rom))
    ∧ (s.host.boot = .ready → ∃ t, exec .thermalTrip s = .next t ∧ t.mer = 0 ∧ t.teams = [] ∧ t.dies = State.reset.dies
        ∧ ∀ a, a < 2 ^ 51 → byteAt t.mem a = 0)
    ∧ (s.host.boot = .recovery → ∀ i, i = .hrecovWrite 1 ∨ i = .hostRegisterWrite 0x30 1 →
        exec i s = .next { s with host := { s.host with boot := .verify } })
    ∧ (s.host.boot = .verify → ∃ t, exec .recoveryVerifyDone s = .next t ∧ onlyHost s t
        ∧ (imageOk s.host (recovBytes s.host) = true → t.host = { s.host with boot := .ready, flash := recovBytes s.host, recov := [] })
        ∧ (imageOk s.host (recovBytes s.host) = false → t.host = { s.host with boot := .recovery, fails := s.host.fails + 1 }))
    ∧ (∀ bs, (cmdSigned s.host 1 bs = true → s.host.lc = .manufacture → ∃ t,
          exec (.lifeCycleCommand 1 bs) s = .next t ∧ t.host.lc = .provisioned ∧ t.host.seed.isSome = true
            ∧ t.host.owner = BitVec.ofNat 256 (beNat (bs.take 32)) ∧ t.teams = [])
        ∧ (cmdSigned s.host 2 bs = true → s.host.lc = .provisioned → ∃ t,
          exec (.lifeCycleCommand 2 bs) s = .next t ∧ t.host.lc = .deployed ∧ t.teams = [])
        ∧ (cmdSigned s.host 3 bs = true → s.host.lc = .provisioned ∨ s.host.lc = .deployed → ∃ t,
          exec (.lifeCycleCommand 3 bs) s = .next t ∧ t.host.lc = .decommissioned ∧ t.host.seed = none ∧ t.host.boot = .rom)
        ∧ ∀ cmd, cmdSigned s.host cmd bs = false → exec (.lifeCycleCommand cmd bs) s = .next s)
    ∧ ∀ nonce, (∀ k, s.host.seed = some k → s.host.leaves < 2 ^ 25 → ∃ t r, exec (.getMeasurements nonce) s = .next t ∧ onlyHost s t
          ∧ t.host = { s.host with leaves := s.host.leaves + 1, report := some r, signed := identitySign k s.host.leaves (reportBytes r) }
          ∧ r.drop 6 = nonce.map (·.toNat)
          ∧ r.getD 0 0 = Config.romDigest.toNat ∧ r.getD 4 0 = (if s.host.ide then 1 else 0)
          ∧ r.getD 1 0 = beNat (sha256 s.host.flash) ∧ r.getD 3 0 = s.host.minVer ∧ r.getD 5 0 = s.host.leaves)
        ∧ (s.host.seed = none ∨ 2 ^ 25 ≤ s.host.leaves →
          exec (.getMeasurements nonce) s = .next { s with host := { s.host with report := none, signed := [] } })

/-! ### Decoding, the step and the whole machine -/

/-- R28, R29, R31, R36, R39, R40, R43: words of each kind, written out from the tables of the encoding chapter and its worked
examples, decode to the instructions that they stand for; a parcel of zeros, and an assigned opcode in a version without it, do
not. -/
def Obligations.SpecWordsDecode : Prop :=
  (∀ ver, ver = 1 ∨ ver = 2 ∨ ver = 3 →
    decode ver [0x18A48804] = .ok (.sCmpN32Imm .ge 1 8 4) ∧ decode ver [0x44100069] = .ok (.bc false 1 105)
    ∧ decode ver [0x50BFFFE8] = .ok (.loop 11 (-24)) ∧ decode ver [0] = .error .opcode)
  ∧ decode 3 [0x88700000, 0x70225C03, 0x22020002] = .ok (.ld ⟨2, false, 7, 0⟩ ⟨.sh, .rlx, .team, false⟩ .n16 .one 17 23 2)
  ∧ decode 3 [0x80700000, 0x60000C00, 0] = .ok (.sow ⟨0, false, 7, 0⟩ 3)
  ∧ decode 3 [0xC0410344, 0x38000000] = .ok (.cpBlkLd 0 2 ⟨0, 0, false⟩ 13 4 14)
  ∧ decode 3 [0xC0840000, 0] = .ok (.mxFlip 0)
  ∧ decode 3 [0xC0C00105, 0x18000000] = .ok (.susp 4 5 6)
  ∧ decode 3 [0xC1280000, 0] = .ok .eret
  ∧ decode 3 [0xC12C0000, 0x58000003] = .ok (.srGet 0 3 22)
  ∧ decode 3 [0xC1900008, 0x30000000] = .ok (.nxTopo 0 8 12)
  ∧ decode 3 [0xC1A10518, 0x64000000] = .ok (.lgAppTok 0 2 20 24 25)
  ∧ decode 1 [0xC0840000, 0] = .error .kind

/-- R22, R23, R91, R394: where a unit issues, a step is `exec` of the instruction that the bytes at its code base plus PC hold, under
its team's version, in the state that `ready` gives: the action leaves the agenda, the unit is the issuing one and in its lane's
active set, and the free values are new. Bytes that decode to no word are the decode-class fault of R44; a failed fetch is a fetch
fault. A unit that may not issue does nothing. An event that may take place is `exec` of that event, and one that may not has no effect. -/
def Obligations.StepRunsTheNextAction : Prop :=
  ∀ (s : State),
    (∀ tid slot uid c w, nextAction s = .issue tid slot uid → unitAt s tid slot uid = some c → mayIssue s c = true →
      w = ready (issueState s c) (some (tid, slot, uid)) →
      { w with agenda := s.agenda, cur := s.cur, free := s.free, teams := s.teams, cores := s.cores } = s
      ∧ (∀ k, { coreOf w k with icache := (coreOf s k).icache } = coreOf s k)
      ∧ w.agenda = s.agenda.tail ∧ w.free = s.free + 1
      ∧ (∃ c', ctxOf w = some c' ∧ c'.st = w ∧ c'.sheaf = { c.sheaf with units := c'.sheaf.units }
          ∧ c'.unit = { c.unit with active := if c.unit.wait = .idle then c.unit.active else true })
      ∧ ∀ va, va = fetchAddr c →
        (∀ pa w0 n, translate s c.team.port (fetchAsid c) va .fetch = .ok pa → va % 65536 ≤ 65532 →
          w0 = BitVec.ofNat 32 (physNat s pa 4) → n = min (kindParcels w0) ((65536 - va % 65536) / 4) →
          (codePoisoned s c.core pa (4 * n) = true → step s = exec (.fetchFault .accessError va) w)
          ∧ (codePoisoned s c.core pa (4 * n) = false →
            (∀ i, decodeBytes c.team.ver (physRead s pa (4 * n)) = .ok i → step s = exec i w)
            ∧ ∀ e, decodeBytes c.team.ver (physRead s pa (4 * n)) = .error e → step s = exec (.illegalWord e w0) w))
        ∧ (∀ n, translate s c.team.port (fetchAsid c) va .fetch = .fail n →
            step s = exec (.fetchFault (if n = 10 then .permission else if n = 8 then .accessError else .translation) va) w)
        ∧ (translate s c.team.port (fetchAsid c) va .fetch = .descErr →
            step s = .next (descriptorError (ready s none) (fetchAsid c))))
    ∧ (∀ tid slot uid, nextAction s = .issue tid slot uid →
      (∀ c, unitAt s tid slot uid = some c → mayIssue s c = false) → step s = .next (ready s none))
    ∧ (∀ i, nextAction s = .event i →
      (mayRun s i = true → step s = exec i (ready s none)) ∧ (mayRun s i = false → step s = .next (ready s none)))

/-- R22 to R43: decoding the encoding of a well-formed instruction gives it back, with every operand at every value that the encoding
admits, in each of the three versions and whatever parcels follow. -/
def Obligations.DecodeOfEncode : Prop :=
  ∀ (ver : Nat) (i : Instr) (rest : List Word), ver = 1 ∨ ver = 2 ∨ ver = 3 → Instr.wf ver i = true →
    decode ver (encode ver i ++ rest) = .ok i ∧ 0 < (encode ver i).length ∧ (encode ver i).length ≤ 3

/-- Every step keeps the one form that the state's data has: every memory of bytes lists rising addresses and no zero, and the tables
that name teams, sheaves, units and held lines rise, so that each name stands once. -/
def Obligations.StateStaysCanonical : Prop :=
  ∀ (s t : State), s.canonical = true → step s = .next t → t.canonical = true

/-- R44, R91, R96: no state stops the machine: every step goes on, whatever stands in memory, whatever word comes up and whatever
event the surroundings bring about. -/
def Obligations.NoStepStops : Prop := ∀ s, goesOn s

/-- R414, R418, R472, R465: after reset MER, CYC and NCYC read 0 on all four dies, FSET and FCUR are 19, no memory byte is other than 0,
nothing is placed, queued or in flight, BOOT reads ROM, and the state has its canonical form. -/
def Obligations.ResetState : Prop :=
  State.reset.canonical = true ∧ State.reset.mer = 0 ∧ (∀ a, byteAt State.reset.mem a = 0) ∧ State.reset.teams = []
  ∧ State.reset.packets = [] ∧ State.reset.outbox = [] ∧ State.reset.nxCmds = [] ∧ State.reset.cardReqs = [] ∧ State.reset.evReqs = []
  ∧ State.reset.fifos = [] ∧ State.reset.lattol = 0 ∧ hstat State.reset.host = 0 ∧ State.reset.host.hcrsize = 0
  ∧ (∀ die, (Tbl.find State.reset.dies die).isSome = decide (die < 4))
  ∧ ∀ die d, Tbl.find State.reset.dies die = some d → d.cyc = 0 ∧ d.ncyc = 0 ∧ d.fset = 19 ∧ d.fcur = 19 ∧ d.busy = false
      ∧ d.ceiling = 19 ∧ d.power = .a0 ∧ d.gather = [] ∧ (∀ q, lqueueAt State.reset die q = ⟨[], none⟩)
      ∧ ∀ a, byteAt d.sp a = 0
end

