-- ==== Sys2Proof/Laws/State.lean ====
section
/-! SUPPORT. What each update of the state leaves unchanged, field by field. -/

namespace Sys2Proof.Machine

/-! ### modTeam -/

@[simp] theorem modTeam_mer (s : State) (tid : Nat) (f : Team → Team) : (modTeam s tid f).mer = s.mer := rfl
@[simp] theorem modTeam_svbase (s : State) (tid : Nat) (f : Team → Team) : (modTeam s tid f).svbase = s.svbase := rfl
@[simp] theorem modTeam_mvbase (s : State) (tid : Nat) (f : Team → Team) : (modTeam s tid f).mvbase = s.mvbase := rfl
@[simp] theorem modTeam_cdbase (s : State) (tid : Nat) (f : Team → Team) : (modTeam s tid f).cdbase = s.cdbase := rfl
@[simp] theorem modTeam_lattol (s : State) (tid : Nat) (f : Team → Team) : (modTeam s tid f).lattol = s.lattol := rfl
@[simp] theorem modTeam_mem (s : State) (tid : Nat) (f : Team → Team) : (modTeam s tid f).mem = s.mem := rfl
@[simp] theorem modTeam_memPz (s : State) (tid : Nat) (f : Team → Team) : (modTeam s tid f).memPz = s.memPz := rfl
@[simp] theorem modTeam_dies (s : State) (tid : Nat) (f : Team → Team) : (modTeam s tid f).dies = s.dies := rfl
@[simp] theorem modTeam_cores (s : State) (tid : Nat) (f : Team → Team) : (modTeam s tid f).cores = s.cores := rfl
@[simp] theorem modTeam_lanes (s : State) (tid : Nat) (f : Team → Team) : (modTeam s tid f).lanes = s.lanes := rfl
@[simp] theorem modTeam_teams (s : State) (tid : Nat) (f : Team → Team) : (modTeam s tid f).teams = Tbl.modify s.teams tid f := rfl
@[simp] theorem modTeam_evReqs (s : State) (tid : Nat) (f : Team → Team) : (modTeam s tid f).evReqs = s.evReqs := rfl
@[simp] theorem modTeam_ballots (s : State) (tid : Nat) (f : Team → Team) : (modTeam s tid f).ballots = s.ballots := rfl
@[simp] theorem modTeam_cardReqs (s : State) (tid : Nat) (f : Team → Team) : (modTeam s tid f).cardReqs = s.cardReqs := rfl
@[simp] theorem modTeam_cancels (s : State) (tid : Nat) (f : Team → Team) : (modTeam s tid f).cancels = s.cancels := rfl
@[simp] theorem modTeam_walks (s : State) (tid : Nat) (f : Team → Team) : (modTeam s tid f).walks = s.walks := rfl
@[simp] theorem modTeam_preempts (s : State) (tid : Nat) (f : Team → Team) : (modTeam s tid f).preempts = s.preempts := rfl
@[simp] theorem modTeam_stalls (s : State) (tid : Nat) (f : Team → Team) : (modTeam s tid f).stalls = s.stalls := rfl
@[simp] theorem modTeam_tlb (s : State) (tid : Nat) (f : Team → Team) : (modTeam s tid f).tlb = s.tlb := rfl
@[simp] theorem modTeam_walked (s : State) (tid : Nat) (f : Team → Team) : (modTeam s tid f).walked = s.walked := rfl
@[simp] theorem modTeam_walking (s : State) (tid : Nat) (f : Team → Team) : (modTeam s tid f).walking = s.walking := rfl
@[simp] theorem modTeam_invals (s : State) (tid : Nat) (f : Team → Team) : (modTeam s tid f).invals = s.invals := rfl
@[simp] theorem modTeam_dqs (s : State) (tid : Nat) (f : Team → Team) : (modTeam s tid f).dqs = s.dqs := rfl
@[simp] theorem modTeam_fifos (s : State) (tid : Nat) (f : Team → Team) : (modTeam s tid f).fifos = s.fifos := rfl
@[simp] theorem modTeam_ports (s : State) (tid : Nat) (f : Team → Team) : (modTeam s tid f).ports = s.ports := rfl
@[simp] theorem modTeam_loadAt (s : State) (tid : Nat) (f : Team → Team) : (modTeam s tid f).loadAt = s.loadAt := rfl
@[simp] theorem modTeam_topo (s : State) (tid : Nat) (f : Team → Team) : (modTeam s tid f).topo = s.topo := rfl
@[simp] theorem modTeam_tree (s : State) (tid : Nat) (f : Team → Team) : (modTeam s tid f).tree = s.tree := rfl
@[simp] theorem modTeam_nxCmds (s : State) (tid : Nat) (f : Team → Team) : (modTeam s tid f).nxCmds = s.nxCmds := rfl
@[simp] theorem modTeam_packets (s : State) (tid : Nat) (f : Team → Team) : (modTeam s tid f).packets = s.packets := rfl
@[simp] theorem modTeam_outbox (s : State) (tid : Nat) (f : Team → Team) : (modTeam s tid f).outbox = s.outbox := rfl
@[simp] theorem modTeam_host (s : State) (tid : Nat) (f : Team → Team) : (modTeam s tid f).host = s.host := rfl
@[simp] theorem modTeam_agenda (s : State) (tid : Nat) (f : Team → Team) : (modTeam s tid f).agenda = s.agenda := rfl
@[simp] theorem modTeam_cur (s : State) (tid : Nat) (f : Team → Team) : (modTeam s tid f).cur = s.cur := rfl
@[simp] theorem modTeam_free (s : State) (tid : Nat) (f : Team → Team) : (modTeam s tid f).free = s.free := rfl
@[simp] theorem modTeam_nextId (s : State) (tid : Nat) (f : Team → Team) : (modTeam s tid f).nextId = s.nextId := rfl

/-! ### modSheaf -/

@[simp] theorem modSheaf_mer (s : State) (tid slot : Nat) (f : Sheaf → Sheaf) : (modSheaf s tid slot f).mer = s.mer := rfl
@[simp] theorem modSheaf_svbase (s : State) (tid slot : Nat) (f : Sheaf → Sheaf) : (modSheaf s tid slot f).svbase = s.svbase := rfl
@[simp] theorem modSheaf_mvbase (s : State) (tid slot : Nat) (f : Sheaf → Sheaf) : (modSheaf s tid slot f).mvbase = s.mvbase := rfl
@[simp] theorem modSheaf_cdbase (s : State) (tid slot : Nat) (f : Sheaf → Sheaf) : (modSheaf s tid slot f).cdbase = s.cdbase := rfl
@[simp] theorem modSheaf_lattol (s : State) (tid slot : Nat) (f : Sheaf → Sheaf) : (modSheaf s tid slot f).lattol = s.lattol := rfl
@[simp] theorem modSheaf_mem (s : State) (tid slot : Nat) (f : Sheaf → Sheaf) : (modSheaf s tid slot f).mem = s.mem := rfl
@[simp] theorem modSheaf_memPz (s : State) (tid slot : Nat) (f : Sheaf → Sheaf) : (modSheaf s tid slot f).memPz = s.memPz := rfl
@[simp] theorem modSheaf_dies (s : State) (tid slot : Nat) (f : Sheaf → Sheaf) : (modSheaf s tid slot f).dies = s.dies := rfl
@[simp] theorem modSheaf_cores (s : State) (tid slot : Nat) (f : Sheaf → Sheaf) : (modSheaf s tid slot f).cores = s.cores := rfl
@[simp] theorem modSheaf_lanes (s : State) (tid slot : Nat) (f : Sheaf → Sheaf) : (modSheaf s tid slot f).lanes = s.lanes := rfl
@[simp] theorem modSheaf_teams (s : State) (tid slot : Nat) (f : Sheaf → Sheaf) : (modSheaf s tid slot f).teams = Tbl.modify s.teams tid fun t => { t with sheaves := Tbl.modify t.sheaves slot f } := rfl
@[simp] theorem modSheaf_evReqs (s : State) (tid slot : Nat) (f : Sheaf → Sheaf) : (modSheaf s tid slot f).evReqs = s.evReqs := rfl
@[simp] theorem modSheaf_ballots (s : State) (tid slot : Nat) (f : Sheaf → Sheaf) : (modSheaf s tid slot f).ballots = s.ballots := rfl
@[simp] theorem modSheaf_cardReqs (s : State) (tid slot : Nat) (f : Sheaf → Sheaf) : (modSheaf s tid slot f).cardReqs = s.cardReqs := rfl
@[simp] theorem modSheaf_cancels (s : State) (tid slot : Nat) (f : Sheaf → Sheaf) : (modSheaf s tid slot f).cancels = s.cancels := rfl
@[simp] theorem modSheaf_walks (s : State) (tid slot : Nat) (f : Sheaf → Sheaf) : (modSheaf s tid slot f).walks = s.walks := rfl
@[simp] theorem modSheaf_preempts (s : State) (tid slot : Nat) (f : Sheaf → Sheaf) : (modSheaf s tid slot f).preempts = s.preempts := rfl
@[simp] theorem modSheaf_stalls (s : State) (tid slot : Nat) (f : Sheaf → Sheaf) : (modSheaf s tid slot f).stalls = s.stalls := rfl
@[simp] theorem modSheaf_tlb (s : State) (tid slot : Nat) (f : Sheaf → Sheaf) : (modSheaf s tid slot f).tlb = s.tlb := rfl
@[simp] theorem modSheaf_walked (s : State) (tid slot : Nat) (f : Sheaf → Sheaf) : (modSheaf s tid slot f).walked = s.walked := rfl
@[simp] theorem modSheaf_walking (s : State) (tid slot : Nat) (f : Sheaf → Sheaf) : (modSheaf s tid slot f).walking = s.walking := rfl
@[simp] theorem modSheaf_invals (s : State) (tid slot : Nat) (f : Sheaf → Sheaf) : (modSheaf s tid slot f).invals = s.invals := rfl
@[simp] theorem modSheaf_dqs (s : State) (tid slot : Nat) (f : Sheaf → Sheaf) : (modSheaf s tid slot f).dqs = s.dqs := rfl
@[simp] theorem modSheaf_fifos (s : State) (tid slot : Nat) (f : Sheaf → Sheaf) : (modSheaf s tid slot f).fifos = s.fifos := rfl
@[simp] theorem modSheaf_ports (s : State) (tid slot : Nat) (f : Sheaf → Sheaf) : (modSheaf s tid slot f).ports = s.ports := rfl
@[simp] theorem modSheaf_loadAt (s : State) (tid slot : Nat) (f : Sheaf → Sheaf) : (modSheaf s tid slot f).loadAt = s.loadAt := rfl
@[simp] theorem modSheaf_topo (s : State) (tid slot : Nat) (f : Sheaf → Sheaf) : (modSheaf s tid slot f).topo = s.topo := rfl
@[simp] theorem modSheaf_tree (s : State) (tid slot : Nat) (f : Sheaf → Sheaf) : (modSheaf s tid slot f).tree = s.tree := rfl
@[simp] theorem modSheaf_nxCmds (s : State) (tid slot : Nat) (f : Sheaf → Sheaf) : (modSheaf s tid slot f).nxCmds = s.nxCmds := rfl
@[simp] theorem modSheaf_packets (s : State) (tid slot : Nat) (f : Sheaf → Sheaf) : (modSheaf s tid slot f).packets = s.packets := rfl
@[simp] theorem modSheaf_outbox (s : State) (tid slot : Nat) (f : Sheaf → Sheaf) : (modSheaf s tid slot f).outbox = s.outbox := rfl
@[simp] theorem modSheaf_host (s : State) (tid slot : Nat) (f : Sheaf → Sheaf) : (modSheaf s tid slot f).host = s.host := rfl
@[simp] theorem modSheaf_agenda (s : State) (tid slot : Nat) (f : Sheaf → Sheaf) : (modSheaf s tid slot f).agenda = s.agenda := rfl
@[simp] theorem modSheaf_cur (s : State) (tid slot : Nat) (f : Sheaf → Sheaf) : (modSheaf s tid slot f).cur = s.cur := rfl
@[simp] theorem modSheaf_free (s : State) (tid slot : Nat) (f : Sheaf → Sheaf) : (modSheaf s tid slot f).free = s.free := rfl
@[simp] theorem modSheaf_nextId (s : State) (tid slot : Nat) (f : Sheaf → Sheaf) : (modSheaf s tid slot f).nextId = s.nextId := rfl

/-! ### modUnit -/

@[simp] theorem modUnit_mer (s : State) (tid slot uid : Nat) (f : UnitSt → UnitSt) : (modUnit s tid slot uid f).mer = s.mer := rfl
@[simp] theorem modUnit_svbase (s : State) (tid slot uid : Nat) (f : UnitSt → UnitSt) : (modUnit s tid slot uid f).svbase = s.svbase := rfl
@[simp] theorem modUnit_mvbase (s : State) (tid slot uid : Nat) (f : UnitSt → UnitSt) : (modUnit s tid slot uid f).mvbase = s.mvbase := rfl
@[simp] theorem modUnit_cdbase (s : State) (tid slot uid : Nat) (f : UnitSt → UnitSt) : (modUnit s tid slot uid f).cdbase = s.cdbase := rfl
@[simp] theorem modUnit_lattol (s : State) (tid slot uid : Nat) (f : UnitSt → UnitSt) : (modUnit s tid slot uid f).lattol = s.lattol := rfl
@[simp] theorem modUnit_mem (s : State) (tid slot uid : Nat) (f : UnitSt → UnitSt) : (modUnit s tid slot uid f).mem = s.mem := rfl
@[simp] theorem modUnit_memPz (s : State) (tid slot uid : Nat) (f : UnitSt → UnitSt) : (modUnit s tid slot uid f).memPz = s.memPz := rfl
@[simp] theorem modUnit_dies (s : State) (tid slot uid : Nat) (f : UnitSt → UnitSt) : (modUnit s tid slot uid f).dies = s.dies := rfl
@[simp] theorem modUnit_cores (s : State) (tid slot uid : Nat) (f : UnitSt → UnitSt) : (modUnit s tid slot uid f).cores = s.cores := rfl
@[simp] theorem modUnit_lanes (s : State) (tid slot uid : Nat) (f : UnitSt → UnitSt) : (modUnit s tid slot uid f).lanes = s.lanes := rfl
theorem modUnit_teams (s : State) (tid slot uid : Nat) (f : UnitSt → UnitSt) : (modUnit s tid slot uid f).teams = (modSheaf s tid slot fun sh => { sh with units := Tbl.modify sh.units uid f }).teams := rfl
@[simp] theorem modUnit_evReqs (s : State) (tid slot uid : Nat) (f : UnitSt → UnitSt) : (modUnit s tid slot uid f).evReqs = s.evReqs := rfl
@[simp] theorem modUnit_ballots (s : State) (tid slot uid : Nat) (f : UnitSt → UnitSt) : (modUnit s tid slot uid f).ballots = s.ballots := rfl
@[simp] theorem modUnit_cardReqs (s : State) (tid slot uid : Nat) (f : UnitSt → UnitSt) : (modUnit s tid slot uid f).cardReqs = s.cardReqs := rfl
@[simp] theorem modUnit_cancels (s : State) (tid slot uid : Nat) (f : UnitSt → UnitSt) : (modUnit s tid slot uid f).cancels = s.cancels := rfl
@[simp] theorem modUnit_walks (s : State) (tid slot uid : Nat) (f : UnitSt → UnitSt) : (modUnit s tid slot uid f).walks = s.walks := rfl
@[simp] theorem modUnit_preempts (s : State) (tid slot uid : Nat) (f : UnitSt → UnitSt) : (modUnit s tid slot uid f).preempts = s.preempts := rfl
@[simp] theorem modUnit_stalls (s : State) (tid slot uid : Nat) (f : UnitSt → UnitSt) : (modUnit s tid slot uid f).stalls = s.stalls := rfl
@[simp] theorem modUnit_tlb (s : State) (tid slot uid : Nat) (f : UnitSt → UnitSt) : (modUnit s tid slot uid f).tlb = s.tlb := rfl
@[simp] theorem modUnit_walked (s : State) (tid slot uid : Nat) (f : UnitSt → UnitSt) : (modUnit s tid slot uid f).walked = s.walked := rfl
@[simp] theorem modUnit_walking (s : State) (tid slot uid : Nat) (f : UnitSt → UnitSt) : (modUnit s tid slot uid f).walking = s.walking := rfl
@[simp] theorem modUnit_invals (s : State) (tid slot uid : Nat) (f : UnitSt → UnitSt) : (modUnit s tid slot uid f).invals = s.invals := rfl
@[simp] theorem modUnit_dqs (s : State) (tid slot uid : Nat) (f : UnitSt → UnitSt) : (modUnit s tid slot uid f).dqs = s.dqs := rfl
@[simp] theorem modUnit_fifos (s : State) (tid slot uid : Nat) (f : UnitSt → UnitSt) : (modUnit s tid slot uid f).fifos = s.fifos := rfl
@[simp] theorem modUnit_ports (s : State) (tid slot uid : Nat) (f : UnitSt → UnitSt) : (modUnit s tid slot uid f).ports = s.ports := rfl
@[simp] theorem modUnit_loadAt (s : State) (tid slot uid : Nat) (f : UnitSt → UnitSt) : (modUnit s tid slot uid f).loadAt = s.loadAt := rfl
@[simp] theorem modUnit_topo (s : State) (tid slot uid : Nat) (f : UnitSt → UnitSt) : (modUnit s tid slot uid f).topo = s.topo := rfl
@[simp] theorem modUnit_tree (s : State) (tid slot uid : Nat) (f : UnitSt → UnitSt) : (modUnit s tid slot uid f).tree = s.tree := rfl
@[simp] theorem modUnit_nxCmds (s : State) (tid slot uid : Nat) (f : UnitSt → UnitSt) : (modUnit s tid slot uid f).nxCmds = s.nxCmds := rfl
@[simp] theorem modUnit_packets (s : State) (tid slot uid : Nat) (f : UnitSt → UnitSt) : (modUnit s tid slot uid f).packets = s.packets := rfl
@[simp] theorem modUnit_outbox (s : State) (tid slot uid : Nat) (f : UnitSt → UnitSt) : (modUnit s tid slot uid f).outbox = s.outbox := rfl
@[simp] theorem modUnit_host (s : State) (tid slot uid : Nat) (f : UnitSt → UnitSt) : (modUnit s tid slot uid f).host = s.host := rfl
@[simp] theorem modUnit_agenda (s : State) (tid slot uid : Nat) (f : UnitSt → UnitSt) : (modUnit s tid slot uid f).agenda = s.agenda := rfl
@[simp] theorem modUnit_cur (s : State) (tid slot uid : Nat) (f : UnitSt → UnitSt) : (modUnit s tid slot uid f).cur = s.cur := rfl
@[simp] theorem modUnit_free (s : State) (tid slot uid : Nat) (f : UnitSt → UnitSt) : (modUnit s tid slot uid f).free = s.free := rfl
@[simp] theorem modUnit_nextId (s : State) (tid slot uid : Nat) (f : UnitSt → UnitSt) : (modUnit s tid slot uid f).nextId = s.nextId := rfl

/-! ### modDie -/

@[simp] theorem modDie_mer (s : State) (d : Nat) (f : Die → Die) : (modDie s d f).mer = s.mer := rfl
@[simp] theorem modDie_svbase (s : State) (d : Nat) (f : Die → Die) : (modDie s d f).svbase = s.svbase := rfl
@[simp] theorem modDie_mvbase (s : State) (d : Nat) (f : Die → Die) : (modDie s d f).mvbase = s.mvbase := rfl
@[simp] theorem modDie_cdbase (s : State) (d : Nat) (f : Die → Die) : (modDie s d f).cdbase = s.cdbase := rfl
@[simp] theorem modDie_lattol (s : State) (d : Nat) (f : Die → Die) : (modDie s d f).lattol = s.lattol := rfl
@[simp] theorem modDie_mem (s : State) (d : Nat) (f : Die → Die) : (modDie s d f).mem = s.mem := rfl
@[simp] theorem modDie_memPz (s : State) (d : Nat) (f : Die → Die) : (modDie s d f).memPz = s.memPz := rfl
@[simp] theorem modDie_dies (s : State) (d : Nat) (f : Die → Die) : (modDie s d f).dies = Tbl.modify s.dies d f := rfl
@[simp] theorem modDie_cores (s : State) (d : Nat) (f : Die → Die) : (modDie s d f).cores = s.cores := rfl
@[simp] theorem modDie_lanes (s : State) (d : Nat) (f : Die → Die) : (modDie s d f).lanes = s.lanes := rfl
@[simp] theorem modDie_teams (s : State) (d : Nat) (f : Die → Die) : (modDie s d f).teams = s.teams := rfl
@[simp] theorem modDie_evReqs (s : State) (d : Nat) (f : Die → Die) : (modDie s d f).evReqs = s.evReqs := rfl
@[simp] theorem modDie_ballots (s : State) (d : Nat) (f : Die → Die) : (modDie s d f).ballots = s.ballots := rfl
@[simp] theorem modDie_cardReqs (s : State) (d : Nat) (f : Die → Die) : (modDie s d f).cardReqs = s.cardReqs := rfl
@[simp] theorem modDie_cancels (s : State) (d : Nat) (f : Die → Die) : (modDie s d f).cancels = s.cancels := rfl
@[simp] theorem modDie_walks (s : State) (d : Nat) (f : Die → Die) : (modDie s d f).walks = s.walks := rfl
@[simp] theorem modDie_preempts (s : State) (d : Nat) (f : Die → Die) : (modDie s d f).preempts = s.preempts := rfl
@[simp] theorem modDie_stalls (s : State) (d : Nat) (f : Die → Die) : (modDie s d f).stalls = s.stalls := rfl
@[simp] theorem modDie_tlb (s : State) (d : Nat) (f : Die → Die) : (modDie s d f).tlb = s.tlb := rfl
@[simp] theorem modDie_walked (s : State) (d : Nat) (f : Die → Die) : (modDie s d f).walked = s.walked := rfl
@[simp] theorem modDie_walking (s : State) (d : Nat) (f : Die → Die) : (modDie s d f).walking = s.walking := rfl
@[simp] theorem modDie_invals (s : State) (d : Nat) (f : Die → Die) : (modDie s d f).invals = s.invals := rfl
@[simp] theorem modDie_dqs (s : State) (d : Nat) (f : Die → Die) : (modDie s d f).dqs = s.dqs := rfl
@[simp] theorem modDie_fifos (s : State) (d : Nat) (f : Die → Die) : (modDie s d f).fifos = s.fifos := rfl
@[simp] theorem modDie_ports (s : State) (d : Nat) (f : Die → Die) : (modDie s d f).ports = s.ports := rfl
@[simp] theorem modDie_loadAt (s : State) (d : Nat) (f : Die → Die) : (modDie s d f).loadAt = s.loadAt := rfl
@[simp] theorem modDie_topo (s : State) (d : Nat) (f : Die → Die) : (modDie s d f).topo = s.topo := rfl
@[simp] theorem modDie_tree (s : State) (d : Nat) (f : Die → Die) : (modDie s d f).tree = s.tree := rfl
@[simp] theorem modDie_nxCmds (s : State) (d : Nat) (f : Die → Die) : (modDie s d f).nxCmds = s.nxCmds := rfl
@[simp] theorem modDie_packets (s : State) (d : Nat) (f : Die → Die) : (modDie s d f).packets = s.packets := rfl
@[simp] theorem modDie_outbox (s : State) (d : Nat) (f : Die → Die) : (modDie s d f).outbox = s.outbox := rfl
@[simp] theorem modDie_host (s : State) (d : Nat) (f : Die → Die) : (modDie s d f).host = s.host := rfl
@[simp] theorem modDie_agenda (s : State) (d : Nat) (f : Die → Die) : (modDie s d f).agenda = s.agenda := rfl
@[simp] theorem modDie_cur (s : State) (d : Nat) (f : Die → Die) : (modDie s d f).cur = s.cur := rfl
@[simp] theorem modDie_free (s : State) (d : Nat) (f : Die → Die) : (modDie s d f).free = s.free := rfl
@[simp] theorem modDie_nextId (s : State) (d : Nat) (f : Die → Die) : (modDie s d f).nextId = s.nextId := rfl

/-! ### modCore -/

@[simp] theorem modCore_mer (s : State) (k : Nat) (f : Core → Core) : (modCore s k f).mer = s.mer := rfl
@[simp] theorem modCore_svbase (s : State) (k : Nat) (f : Core → Core) : (modCore s k f).svbase = s.svbase := rfl
@[simp] theorem modCore_mvbase (s : State) (k : Nat) (f : Core → Core) : (modCore s k f).mvbase = s.mvbase := rfl
@[simp] theorem modCore_cdbase (s : State) (k : Nat) (f : Core → Core) : (modCore s k f).cdbase = s.cdbase := rfl
@[simp] theorem modCore_lattol (s : State) (k : Nat) (f : Core → Core) : (modCore s k f).lattol = s.lattol := rfl
@[simp] theorem modCore_mem (s : State) (k : Nat) (f : Core → Core) : (modCore s k f).mem = s.mem := rfl
@[simp] theorem modCore_memPz (s : State) (k : Nat) (f : Core → Core) : (modCore s k f).memPz = s.memPz := rfl
@[simp] theorem modCore_dies (s : State) (k : Nat) (f : Core → Core) : (modCore s k f).dies = s.dies := rfl
@[simp] theorem modCore_cores (s : State) (k : Nat) (f : Core → Core) : (modCore s k f).cores = Tbl.set Core.zero s.cores k (f (coreOf s k)) := rfl
@[simp] theorem modCore_lanes (s : State) (k : Nat) (f : Core → Core) : (modCore s k f).lanes = s.lanes := rfl
@[simp] theorem modCore_teams (s : State) (k : Nat) (f : Core → Core) : (modCore s k f).teams = s.teams := rfl
@[simp] theorem modCore_evReqs (s : State) (k : Nat) (f : Core → Core) : (modCore s k f).evReqs = s.evReqs := rfl
@[simp] theorem modCore_ballots (s : State) (k : Nat) (f : Core → Core) : (modCore s k f).ballots = s.ballots := rfl
@[simp] theorem modCore_cardReqs (s : State) (k : Nat) (f : Core → Core) : (modCore s k f).cardReqs = s.cardReqs := rfl
@[simp] theorem modCore_cancels (s : State) (k : Nat) (f : Core → Core) : (modCore s k f).cancels = s.cancels := rfl
@[simp] theorem modCore_walks (s : State) (k : Nat) (f : Core → Core) : (modCore s k f).walks = s.walks := rfl
@[simp] theorem modCore_preempts (s : State) (k : Nat) (f : Core → Core) : (modCore s k f).preempts = s.preempts := rfl
@[simp] theorem modCore_stalls (s : State) (k : Nat) (f : Core → Core) : (modCore s k f).stalls = s.stalls := rfl
@[simp] theorem modCore_tlb (s : State) (k : Nat) (f : Core → Core) : (modCore s k f).tlb = s.tlb := rfl
@[simp] theorem modCore_walked (s : State) (k : Nat) (f : Core → Core) : (modCore s k f).walked = s.walked := rfl
@[simp] theorem modCore_walking (s : State) (k : Nat) (f : Core → Core) : (modCore s k f).walking = s.walking := rfl
@[simp] theorem modCore_invals (s : State) (k : Nat) (f : Core → Core) : (modCore s k f).invals = s.invals := rfl
@[simp] theorem modCore_dqs (s : State) (k : Nat) (f : Core → Core) : (modCore s k f).dqs = s.dqs := rfl
@[simp] theorem modCore_fifos (s : State) (k : Nat) (f : Core → Core) : (modCore s k f).fifos = s.fifos := rfl
@[simp] theorem modCore_ports (s : State) (k : Nat) (f : Core → Core) : (modCore s k f).ports = s.ports := rfl
@[simp] theorem modCore_loadAt (s : State) (k : Nat) (f : Core → Core) : (modCore s k f).loadAt = s.loadAt := rfl
@[simp] theorem modCore_topo (s : State) (k : Nat) (f : Core → Core) : (modCore s k f).topo = s.topo := rfl
@[simp] theorem modCore_tree (s : State) (k : Nat) (f : Core → Core) : (modCore s k f).tree = s.tree := rfl
@[simp] theorem modCore_nxCmds (s : State) (k : Nat) (f : Core → Core) : (modCore s k f).nxCmds = s.nxCmds := rfl
@[simp] theorem modCore_packets (s : State) (k : Nat) (f : Core → Core) : (modCore s k f).packets = s.packets := rfl
@[simp] theorem modCore_outbox (s : State) (k : Nat) (f : Core → Core) : (modCore s k f).outbox = s.outbox := rfl
@[simp] theorem modCore_host (s : State) (k : Nat) (f : Core → Core) : (modCore s k f).host = s.host := rfl
@[simp] theorem modCore_agenda (s : State) (k : Nat) (f : Core → Core) : (modCore s k f).agenda = s.agenda := rfl
@[simp] theorem modCore_cur (s : State) (k : Nat) (f : Core → Core) : (modCore s k f).cur = s.cur := rfl
@[simp] theorem modCore_free (s : State) (k : Nat) (f : Core → Core) : (modCore s k f).free = s.free := rfl
@[simp] theorem modCore_nextId (s : State) (k : Nat) (f : Core → Core) : (modCore s k f).nextId = s.nextId := rfl

end Sys2Proof.Machine
end

