-- ==== Sys2Proof/Laws/Tables.lean ====
section
/-! SUPPORT. Tables: reading after a write, and the order of the keys. -/

namespace Sys2Proof

variable {α : Type}

theorem Tbl.find_put (t : Tbl α) (k : Nat) (v : α) (j : Nat) :
    Tbl.find (Tbl.put t k v) j = if k = j then some v else Tbl.find t j := by
  induction t with
  | nil => simp [Tbl.put, Tbl.find]
  | cons e t ih =>
    obtain ⟨i, w⟩ := e
    simp only [Tbl.put]
    split
    · simp [Tbl.find]
    · split
      · subst_vars; simp only [Tbl.find]; split <;> rfl
      · simp only [Tbl.find, ih]; split <;> split <;> simp_all

@[simp] theorem Tbl.find_put_self (t : Tbl α) (k : Nat) (v : α) : Tbl.find (Tbl.put t k v) k = some v := by
  simp [Tbl.find_put]

theorem Tbl.find_put_other (t : Tbl α) {k j : Nat} (v : α) (h : j ≠ k) :
    Tbl.find (Tbl.put t k v) j = Tbl.find t j := by
  simp [Tbl.find_put, h.symm]

theorem Tbl.find_erase (t : Tbl α) (k j : Nat) :
    Tbl.find (Tbl.erase t k) j = if k = j then none else Tbl.find t j := by
  induction t with
  | nil => simp [Tbl.erase, Tbl.find]
  | cons e t ih =>
    obtain ⟨i, w⟩ := e
    simp only [Tbl.erase]
    split
    · next hk => subst hk; simp only [ih, Tbl.find]; split <;> rfl
    · next hk =>
      simp only [Tbl.find, ih]
      by_cases hj : i = j
      · subst hj; simp [Ne.symm hk]
      · simp [hj]

theorem Tbl.find_modify (t : Tbl α) (k : Nat) (f : α → α) (j : Nat) :
    Tbl.find (Tbl.modify t k f) j = if k = j then (Tbl.find t k).map f else Tbl.find t j := by
  unfold Tbl.modify
  cases h : Tbl.find t k with
  | none => simp only [Option.map_none]; split <;> simp_all
  | some v => simp [Tbl.find_put]

@[simp] theorem Tbl.find_modify_self (t : Tbl α) (k : Nat) (f : α → α) :
    Tbl.find (Tbl.modify t k f) k = (Tbl.find t k).map f := by
  simp [Tbl.find_modify]

theorem Tbl.find_modify_other (t : Tbl α) {k j : Nat} (f : α → α) (h : j ≠ k) :
    Tbl.find (Tbl.modify t k f) j = Tbl.find t j := by
  simp [Tbl.find_modify, h.symm]

theorem Tbl.get_set [DecidableEq α] (d : α) (t : Tbl α) (k : Nat) (v : α) (j : Nat) :
    Tbl.get d (Tbl.set d t k v) j = if k = j then v else Tbl.get d t j := by
  unfold Tbl.get Tbl.set
  split
  · rw [Tbl.find_erase]; split <;> simp_all
  · rw [Tbl.find_put]; split <;> simp

@[simp] theorem Tbl.get_set_self [DecidableEq α] (d : α) (t : Tbl α) (k : Nat) (v : α) :
    Tbl.get d (Tbl.set d t k v) k = v := by
  simp [Tbl.get_set]

theorem Tbl.get_set_other [DecidableEq α] (d : α) (t : Tbl α) {k j : Nat} (v : α) (h : j ≠ k) :
    Tbl.get d (Tbl.set d t k v) j = Tbl.get d t j := by
  simp [Tbl.get_set, h.symm]

/-- Every key of a table lies above `b`. -/
def Tbl.above (b : Nat) (t : Tbl α) : Prop := ∀ e ∈ t, b < e.1

theorem Tbl.sorted_cons (i : Nat) (w : α) (t : Tbl α) :
    Tbl.sorted ((i, w) :: t) = true ↔ Tbl.above i t ∧ Tbl.sorted t = true := by
  induction t generalizing i w with
  | nil => simp [Tbl.sorted, Tbl.above]
  | cons e t ih =>
    obtain ⟨j, v⟩ := e
    simp only [Tbl.sorted, Bool.and_eq_true, decide_eq_true_eq, Tbl.above, List.mem_cons, forall_eq_or_imp]
    constructor
    · rintro ⟨h, hs⟩
      refine ⟨⟨h, fun e he => ?_⟩, hs⟩
      exact Nat.lt_trans h (((ih j v).mp hs).1 e he)
    · rintro ⟨⟨h, -⟩, hs⟩
      exact ⟨h, hs⟩

theorem Tbl.mem_put {t : Tbl α} {k : Nat} {v : α} {e : Nat × α} (h : e ∈ Tbl.put t k v) :
    e = (k, v) ∨ e ∈ t := by
  induction t with
  | nil => simp_all [Tbl.put]
  | cons x t ih =>
    obtain ⟨i, w⟩ := x
    simp only [Tbl.put] at h
    split at h
    · simpa using h
    · split at h <;> simp only [List.mem_cons] at h ⊢
      · rcases h with h | h <;> simp [h]
      · rcases h with h | h
        · simp [h]
        · rcases ih h with h | h <;> simp [h]

theorem Tbl.mem_erase {t : Tbl α} {k : Nat} {e : Nat × α} (h : e ∈ Tbl.erase t k) : e ∈ t := by
  induction t with
  | nil => simp [Tbl.erase] at h
  | cons x t ih =>
    obtain ⟨i, w⟩ := x
    simp only [Tbl.erase] at h
    split at h
    · exact List.mem_cons_of_mem _ (ih h)
    · rcases List.mem_cons.mp h with h | h
      · simp [h]
      · exact List.mem_cons_of_mem _ (ih h)

/-- A write keeps the keys rising. -/
theorem Tbl.sorted_put (t : Tbl α) (k : Nat) (v : α) (h : Tbl.sorted t = true) : Tbl.sorted (Tbl.put t k v) = true := by
  induction t with
  | nil => simp [Tbl.put, Tbl.sorted]
  | cons x t ih =>
    obtain ⟨i, w⟩ := x
    rw [Tbl.sorted_cons] at h
    simp only [Tbl.put]
    split
    · next hk =>
      rw [Tbl.sorted_cons, Tbl.sorted_cons]
      refine ⟨fun e he => ?_, h⟩
      rcases List.mem_cons.mp he with he | he
      · simpa [he] using hk
      · exact Nat.lt_trans hk (h.1 e he)
    · split
      · next hk => subst hk; rw [Tbl.sorted_cons]; exact h
      · rw [Tbl.sorted_cons]
        refine ⟨fun e he => ?_, ih h.2⟩
        rcases Tbl.mem_put he with he | he
        · simp only [he]; omega
        · exact h.1 e he

/-- Removing an entry keeps the keys rising. -/
theorem Tbl.sorted_erase (t : Tbl α) (k : Nat) (h : Tbl.sorted t = true) : Tbl.sorted (Tbl.erase t k) = true := by
  induction t with
  | nil => rfl
  | cons x t ih =>
    obtain ⟨i, w⟩ := x
    rw [Tbl.sorted_cons] at h
    simp only [Tbl.erase]
    split
    · exact ih h.2
    · rw [Tbl.sorted_cons]
      exact ⟨fun e he => h.1 e (Tbl.mem_erase he), ih h.2⟩

/-- Dropping entries keeps the keys rising. -/
theorem Tbl.sorted_filter (t : Tbl α) (p : Nat × α → Bool) (h : Tbl.sorted t = true) :
    Tbl.sorted (List.filter p t : Tbl α) = true := by
  induction t with
  | nil => rfl
  | cons x t ih =>
    obtain ⟨i, w⟩ := x
    rw [Tbl.sorted_cons] at h
    simp only [List.filter_cons]
    split
    · rw [Tbl.sorted_cons]
      exact ⟨fun e he => h.1 e (List.mem_filter.mp he).1, ih h.2⟩
    · exact ih h.2

end Sys2Proof
end

