-- ==== Sys2Proof/Laws/Memory.lean ====
section
/-! SUPPORT. What the operations over memories of bytes do: read after write, other addresses, and the canonical form. -/

namespace Sys2Proof.Machine

/-! ### One memory -/

theorem byteAt_setByte (m : List Host.Cell) (a : Nat) (b : Byte) (x : Nat) :
    byteAt (setByte m a b) x = if a = x then b else byteAt m x := Tbl.get_set 0 m a b x

theorem Memory.wf_iff (m : List Host.Cell) : Memory.wf m = true ↔ Tbl.sorted m = true ∧ ∀ c ∈ m, c.2 ≠ 0 := by
  simp [Memory.wf]

theorem Memory.wf_nil : Memory.wf [] = true := rfl

/-- Storing a byte keeps the canonical form. -/
theorem Memory.wf_setByte (m : List Host.Cell) (a : Nat) (b : Byte) (h : Memory.wf m = true) :
    Memory.wf (setByte m a b) = true := by
  rw [Memory.wf_iff] at h ⊢
  unfold setByte Tbl.set
  split
  · exact ⟨Tbl.sorted_erase m a h.1, fun c hc => h.2 c (Tbl.mem_erase hc)⟩
  · next hb =>
    refine ⟨Tbl.sorted_put m a b h.1, fun c hc => ?_⟩
    rcases Tbl.mem_put hc with rfl | hc
    · exact hb
    · exact h.2 c hc

/-- Dropping cells keeps the canonical form. -/
theorem Memory.wf_filter (m : List Host.Cell) (p : Host.Cell → Bool) (h : Memory.wf m = true) :
    Memory.wf (m.filter p) = true := by
  rw [Memory.wf_iff] at h ⊢
  exact ⟨Tbl.sorted_filter m p h.1, fun c hc => h.2 c (List.mem_filter.mp hc).1⟩

theorem Memory.wf_clearBytes (m : List Host.Cell) (a n : Nat) (h : Memory.wf m = true) :
    Memory.wf (clearBytes m a n) = true := Memory.wf_filter m _ h

/-- Storing bytes at a list of addresses keeps the canonical form. -/
theorem Memory.wf_writeAt (m : List Host.Cell) (as : List Nat) (bs : List Byte) (h : Memory.wf m = true) :
    Memory.wf (writeAt m as bs) = true := by
  unfold writeAt
  generalize as.zip bs = l
  induction l generalizing m with
  | nil => exact h
  | cons x t ih => exact ih _ (Memory.wf_setByte m x.1 x.2 h)

theorem Memory.wf_writeBytes (m : List Host.Cell) (a : Nat) (bs : List Byte) (h : Memory.wf m = true) :
    Memory.wf (writeBytes m a bs) = true := Memory.wf_writeAt m _ bs h

/-- A store leaves every address that it does not name. -/
theorem byteAt_writeAt_other (m : List Host.Cell) (as : List Nat) (bs : List Byte) (x : Nat) (h : x ∉ as) :
    byteAt (writeAt m as bs) x = byteAt m x := by
  unfold writeAt
  induction as generalizing m bs with
  | nil => rfl
  | cons a as ih =>
    cases bs with
    | nil => rfl
    | cons b bs =>
      simp only [List.mem_cons, not_or] at h
      simp only [List.zip_cons_cons, List.foldl_cons]
      rw [ih _ _ h.2, byteAt_setByte, if_neg (Ne.symm h.1)]

/-- Where the addresses are distinct, each holds its byte after the store. -/
theorem byteAt_writeAt_self (m : List Host.Cell) (as : List Nat) (bs : List Byte) (hn : as.Nodup) (i a : Nat) (b : Byte)
    (ha : as[i]? = some a) (hb : bs[i]? = some b) : byteAt (writeAt m as bs) a = b := by
  unfold writeAt
  induction as generalizing m bs i with
  | nil => simp at ha
  | cons x as ih =>
    cases bs with
    | nil => simp at hb
    | cons y bs =>
      rw [List.nodup_cons] at hn
      simp only [List.zip_cons_cons, List.foldl_cons]
      cases i with
      | zero =>
        simp only [List.getElem?_cons_zero, Option.some.injEq] at ha hb
        subst ha hb
        have := byteAt_writeAt_other (setByte m x y) as bs x hn.1
        unfold writeAt at this
        rw [this, byteAt_setByte, if_pos rfl]
      | succ i => exact ih _ bs hn.2 i (by simpa using ha) (by simpa using hb)

theorem mem_upto (n x : Nat) : x ∈ upto n ↔ x < n := List.mem_range

theorem nodup_upto (n : Nat) : (upto n).Nodup := List.nodup_range

/-- A store of bytes from an address leaves every other address. -/
theorem byteAt_writeBytes_other (m : List Host.Cell) (a : Nat) (bs : List Byte) (x : Nat) (h : x < a ∨ a + bs.length ≤ x) :
    byteAt (writeBytes m a bs) x = byteAt m x := by
  refine byteAt_writeAt_other m _ bs x ?_
  simp only [List.mem_map, mem_upto, not_exists, not_and]
  intro i hi
  omega

theorem getElem?_upto (n i : Nat) (h : i < n) : (upto n)[i]? = some i := List.getElem?_range h

/-- A store of bytes from an address puts each in its place. -/
theorem byteAt_writeBytes_self (m : List Host.Cell) (a : Nat) (bs : List Byte) (i : Nat) (h : i < bs.length) :
    byteAt (writeBytes m a bs) (a + i) = bs[i] := by
  refine byteAt_writeAt_self m _ bs ?_ i (a + i) bs[i] ?_ (by simp [h])
  · rw [List.Nodup, List.pairwise_map]
    exact (nodup_upto bs.length).imp fun hxy h => hxy (Nat.add_left_cancel h)
  · rw [List.getElem?_map, getElem?_upto _ _ h]; rfl

/-! ### The canonical form of the state -/

/-- What the canonical form asks of one team. -/
def Team.canonical (t : Team) : Bool :=
  Memory.wf t.shared && Tbl.sorted t.sheaves && t.sheaves.all fun sh => Memory.wf sh.2.stack && Tbl.sorted sh.2.units

theorem State.canonical_iff (s : State) : s.canonical = true ↔
    Memory.wf s.mem = true ∧ (∀ d ∈ s.dies, Memory.wf d.2.sp = true) ∧ Tbl.sorted s.teams = true
    ∧ (∀ t ∈ s.teams, t.2.canonical = true) ∧ ∀ k ∈ s.cores, linesOk k.2.cache = true := by
  simp only [State.canonical, State.memoriesWf, State.tablesSorted, Team.canonical, Team.sorted, Bool.and_eq_true,
    List.all_eq_true]
  constructor
  · rintro ⟨⟨⟨a, b⟩, c⟩, ⟨d, e⟩, f⟩
    exact ⟨a, b, d, fun t ht => ⟨⟨(c t ht).1, (e t ht).1⟩, fun sh hs => ⟨(c t ht).2 sh hs, (e t ht).2 sh hs⟩⟩, f⟩
  · rintro ⟨a, b, d, e, f⟩
    exact ⟨⟨⟨a, b⟩, fun t ht => ⟨(e t ht).1.1, fun sh hs => ((e t ht).2 sh hs).1⟩⟩,
      ⟨d, fun t ht => ⟨(e t ht).1.2, fun sh hs => ((e t ht).2 sh hs).2⟩⟩, f⟩

/-- The canonical form speaks of memory, the scratchpads, the teams and the caches, and of nothing else. -/
theorem State.canonical_congr {s t : State} (hm : t.mem = s.mem) (hd : t.dies.map (fun d => d.2.sp) = s.dies.map fun d => d.2.sp)
    (ht : t.teams = s.teams) (hk : t.cores.map (fun k => k.2.cache) = s.cores.map fun k => k.2.cache) :
    t.canonical = s.canonical := by
  have hd' : ∀ l : List (Nat × Die), (∀ d ∈ l, Memory.wf d.2.sp = true) ↔ ∀ m ∈ l.map (fun d => d.2.sp), Memory.wf m = true := by
    intro l; simp only [List.mem_map, forall_exists_index, and_imp, forall_apply_eq_imp_iff₂]
  have hk' : ∀ l : List (Nat × Core), (∀ d ∈ l, linesOk d.2.cache = true) ↔
      ∀ m ∈ l.map (fun d => d.2.cache), linesOk m = true := by
    intro l; simp only [List.mem_map, forall_exists_index, and_imp, forall_apply_eq_imp_iff₂]
  rw [Bool.eq_iff_iff, State.canonical_iff, State.canonical_iff, hd', hk', hd' s.dies, hk' s.cores, hm, hd, ht, hk]

theorem Tbl.mem_modify {α : Type} {t : Tbl α} {k : Nat} {f : α → α} {e : Nat × α} (h : e ∈ Tbl.modify t k f) :
    e ∈ t ∨ ∃ v, Tbl.find t k = some v ∧ e = (k, f v) := by
  unfold Tbl.modify at h
  split at h
  · next v hv =>
    rcases Tbl.mem_put h with rfl | h
    · exact .inr ⟨v, hv, rfl⟩
    · exact .inl h
  · exact .inl h

theorem Tbl.mem_of_find {α : Type} {t : Tbl α} {k : Nat} {v : α} (h : Tbl.find t k = some v) : (k, v) ∈ t := by
  induction t with
  | nil => simp [Tbl.find] at h
  | cons x t ih =>
    obtain ⟨j, w⟩ := x
    simp only [Tbl.find] at h
    split at h
    · next hj => subst hj; simp only [Option.some.injEq] at h; subst h; exact List.mem_cons_self
    · exact List.mem_cons_of_mem _ (ih h)

theorem Tbl.sorted_modify {α : Type} (t : Tbl α) (k : Nat) (f : α → α) (h : Tbl.sorted t = true) :
    Tbl.sorted (Tbl.modify t k f) = true := by
  unfold Tbl.modify
  split
  · exact Tbl.sorted_put t k _ h
  · exact h

/-- A change of a team keeps the form of the state where it keeps the team's. -/
theorem State.canonical_modTeam {s : State} (h : s.canonical = true) (tid : Nat) (f : Team → Team)
    (hf : ∀ t, Tbl.find s.teams tid = some t → t.canonical = true → (f t).canonical = true) : (modTeam s tid f).canonical = true := by
  rw [State.canonical_iff] at h ⊢
  refine ⟨h.1, h.2.1, Tbl.sorted_modify _ _ _ h.2.2.1, fun t ht => ?_, h.2.2.2.2⟩
  rcases Tbl.mem_modify ht with ht | ⟨v, hv, rfl⟩
  · exact h.2.2.2.1 t ht
  · exact hf v hv (h.2.2.2.1 _ (Tbl.mem_of_find hv))

/-- A change of a sheaf keeps it where it keeps the sheaf's stack and units. -/
theorem State.canonical_modSheaf {s : State} (h : s.canonical = true) (tid slot : Nat) (f : Sheaf → Sheaf)
    (hf : ∀ sh, Memory.wf sh.stack = true → Tbl.sorted sh.units = true →
      Memory.wf (f sh).stack = true ∧ Tbl.sorted (f sh).units = true) : (modSheaf s tid slot f).canonical = true := by
  refine State.canonical_modTeam h tid _ fun t _ ht => ?_
  simp only [Team.canonical, Bool.and_eq_true, List.all_eq_true] at ht ⊢
  refine ⟨⟨ht.1.1, Tbl.sorted_modify _ _ _ ht.1.2⟩, fun sh hs => ?_⟩
  rcases Tbl.mem_modify hs with hs | ⟨v, hv, rfl⟩
  · exact ht.2 sh hs
  · exact hf v (ht.2 _ (Tbl.mem_of_find hv)).1 (ht.2 _ (Tbl.mem_of_find hv)).2

/-- A change of a unit keeps it. -/
theorem State.canonical_modUnit {s : State} (h : s.canonical = true) (tid slot uid : Nat) (f : UnitSt → UnitSt) :
    (modUnit s tid slot uid f).canonical = true :=
  State.canonical_modSheaf h tid slot _ fun _ hs hu => ⟨hs, Tbl.sorted_modify _ _ _ hu⟩

/-- A change of a die keeps it where it keeps the scratchpad's. -/
theorem State.canonical_modDie {s : State} (h : s.canonical = true) (die : Nat) (f : Die → Die)
    (hf : ∀ d, Memory.wf d.sp = true → Memory.wf (f d).sp = true) : (modDie s die f).canonical = true := by
  rw [State.canonical_iff] at h ⊢
  refine ⟨h.1, fun d hd => ?_, h.2.2⟩
  rcases Tbl.mem_modify hd with hd | ⟨v, hv, rfl⟩
  · exact h.2.1 d hd
  · exact hf v (h.2.1 _ (Tbl.mem_of_find hv))

theorem linesOk_iff (t : Tbl CcLine) : linesOk t = true ↔ Tbl.sorted t = true ∧ ∀ l ∈ t, l.2.ok = true := by
  simp only [linesOk, Bool.and_eq_true, List.all_eq_true]

theorem CcLine.ok_iff (l : CcLine) : l.ok = true ↔ Tbl.sorted l.dirty = true ∧ ∀ d ∈ l.dirty, d.1 < 64 := by
  simp only [CcLine.ok, Bool.and_eq_true, List.all_eq_true, decide_eq_true_eq]

/-- The lines that any core holds have their form. -/
theorem State.lines_ok {s : State} (h : s.canonical = true) (core : Nat) : linesOk (coreOf s core).cache = true := by
  rw [State.canonical_iff] at h
  unfold coreOf Tbl.get
  cases hf : Tbl.find s.cores core with
  | none => rfl
  | some k => exact h.2.2.2.2 _ (Tbl.mem_of_find hf)

/-- A change of a core keeps it where it keeps the cache's. -/
theorem State.canonical_modCore {s : State} (h : s.canonical = true) (core : Nat) (f : Core → Core)
    (hf : linesOk (f (coreOf s core)).cache = true) : (modCore s core f).canonical = true := by
  rw [State.canonical_iff] at h ⊢
  refine ⟨h.1, h.2.1, h.2.2.1, h.2.2.2.1, fun k hk => ?_⟩
  simp only [modCore, Tbl.set] at hk
  split at hk
  · exact h.2.2.2.2 k (Tbl.mem_erase hk)
  · rcases Tbl.mem_put hk with rfl | hk
    · exact hf
    · exact h.2.2.2.2 k hk

theorem Tbl.sorted_set {α : Type} [DecidableEq α] (d : α) (t : Tbl α) (k : Nat) (v : α) (h : Tbl.sorted t = true) :
    Tbl.sorted (Tbl.set d t k v) = true := by
  unfold Tbl.set
  split
  · exact Tbl.sorted_erase t k h
  · exact Tbl.sorted_put t k v h

/-- A write of the scratchpad keeps it. -/
theorem State.canonical_spWrite {s : State} (h : s.canonical = true) (die : Nat) (as : List Nat) (bs : List Byte) :
    (spWrite s die as bs).canonical = true :=
  State.canonical_modDie h die _ fun _ hd => Memory.wf_writeAt _ _ _ hd

/-- Fewer lines keep their form. -/
theorem linesOk_erase {t : Tbl CcLine} (h : linesOk t = true) (ln : Nat) : linesOk (Tbl.erase t ln) = true := by
  rw [linesOk_iff] at h ⊢
  exact ⟨Tbl.sorted_erase _ _ h.1, fun l hl => h.2 l (Tbl.mem_erase hl)⟩

/-- A line that has its form may take a place. -/
theorem linesOk_set {t : Tbl CcLine} (h : linesOk t = true) (ln : Nat) (l : CcLine) (hl : l.ok = true) :
    linesOk (Tbl.set CcLine.none t ln l) = true := by
  rw [linesOk_iff] at h ⊢
  refine ⟨Tbl.sorted_set _ _ _ _ h.1, fun e he => ?_⟩
  unfold Tbl.set at he
  split at he
  · exact h.2 e (Tbl.mem_erase he)
  · rcases Tbl.mem_put he with rfl | he
    · exact hl
    · exact h.2 e he

/-- A line that a core holds has its form. -/
theorem State.line_ok {s : State} (h : s.canonical = true) (core ln : Nat) :
    (Tbl.get CcLine.none (coreOf s core).cache ln).ok = true := by
  have hs := ((linesOk_iff _).mp (State.lines_ok h core)).2
  unfold Tbl.get
  cases hf : Tbl.find (coreOf s core).cache ln with
  | none => rfl
  | some l => exact hs _ (Tbl.mem_of_find hf)

/-- A patch leaves a line its form. -/
theorem patchLine_ok (cl : CcLine) (as : List Nat) (bs : List Byte) (h : cl.ok = true) : (patchLine cl as bs).ok = true := by
  rw [CcLine.ok_iff] at h ⊢
  exact ⟨Tbl.sorted_filter _ _ h.1, fun d hd => h.2 d (List.mem_of_mem_filter hd)⟩

/-- Stores that merge into a line leave it its form. -/
theorem mergeStores_ok (l : List (Nat × Byte)) : ∀ cl : CcLine, cl.ok = true →
    ({ cl with dirty := l.foldl (fun d ab => Tbl.put d (ab.1 % 64) ab.2) cl.dirty } : CcLine).ok = true := by
  induction l with
  | nil => exact fun _ h => h
  | cons ab l ih =>
    intro cl h
    refine ih { cl with dirty := Tbl.put cl.dirty (ab.1 % 64) ab.2 } ?_
    rw [CcLine.ok_iff] at h ⊢
    refine ⟨Tbl.sorted_put _ _ _ h.1, fun e he => ?_⟩
    rcases Tbl.mem_put he with rfl | he
    · exact Nat.mod_lt _ (by decide)
    · exact h.2 e he

/-- A change of one line of a core's combining cache keeps it. -/
theorem State.canonical_setLine {s : State} (h : s.canonical = true) (core ln : Nat) (l : CcLine) (hl : l.ok = true) :
    (modCore s core fun k => { k with cache := Tbl.set CcLine.none k.cache ln l }).canonical = true :=
  State.canonical_modCore h core _ (linesOk_set (State.lines_ok h core) _ _ hl)

/-- The eviction of a line keeps it. -/
theorem State.canonical_evictLine {s : State} (h : s.canonical = true) (core : Nat) (e : Nat × CcLine) :
    (evictLine s core e).canonical = true :=
  State.canonical_spWrite (State.canonical_modCore h core _ (linesOk_erase (State.lines_ok h core) _)) _ _ _

/-- Room for a line keeps it. -/
theorem State.canonical_takeLine {s : State} (h : s.canonical = true) (core ln : Nat) : (takeLine s core ln).canonical = true := by
  unfold takeLine
  dsimp only
  split
  · exact h
  · split
    · exact State.canonical_evictLine h core _
    · exact h

/-- A store of the scratchpad keeps it, merged or written. -/
theorem State.canonical_spStore {s : State} (h : s.canonical = true) (core : Nat) (rlx : Bool) (fk : Nat) (as : List Nat)
    (bs : List Byte) : (spStore s core rlx fk as bs).canonical = true := by
  unfold spStore
  dsimp only
  split
  · exact State.canonical_setLine (State.canonical_takeLine h core _) core _ _ (mergeStores_ok _ _ (State.line_ok h core _))
  · exact State.canonical_spWrite (State.canonical_setLine h core _ _ (patchLine_ok _ _ _ (State.line_ok h core _))) _ _ _

/-- A load of the scratchpad keeps it. -/
theorem State.canonical_spLoad {s : State} (h : s.canonical = true) (core : Nat) (rlx : Bool) (fk : Nat) (as : List Nat) :
    (spLoad s core rlx fk as).2.canonical = true := by
  unfold spLoad
  dsimp only
  refine State.canonical_setLine ?_ core _ _ ((CcLine.ok_iff _).mpr ((CcLine.ok_iff _).mp (State.line_ok h core _)))
  split
  · exact State.canonical_takeLine h core _
  · exact h

/-- A release keeps it. -/
theorem State.canonical_flushCore {s : State} (h : s.canonical = true) (core : Nat) : (flushCore s core).canonical = true := by
  unfold flushCore
  have hd := ((linesOk_iff _).mp (State.lines_ok h core)).2
  revert hd
  generalize (coreOf s core).cache = l
  induction l generalizing s with
  | nil => exact fun _ => h
  | cons e l ih =>
    intro hd
    simp only [List.foldl_cons]
    refine ih ?_ fun x hx => hd x (List.mem_cons_of_mem _ hx)
    split
    · exact h
    · exact State.canonical_spWrite (State.canonical_setLine h core _ _ (patchLine_ok _ _ _ (hd e List.mem_cons_self))) _ _ _

theorem Tbl.sorted_map {α β : Type} (t : Tbl α) (f : α → β) (h : Tbl.sorted t = true) :
    Tbl.sorted (List.map (fun e => (e.1, f e.2)) t : Tbl β) = true := by
  induction t with
  | nil => rfl
  | cons x t ih =>
    obtain ⟨i, w⟩ := x
    rw [Tbl.sorted_cons] at h
    simp only [List.map_cons]
    rw [Tbl.sorted_cons]
    refine ⟨fun e he => ?_, ih h.2⟩
    obtain ⟨y, hy, rfl⟩ := List.mem_map.mp he
    exact h.1 y hy

/-- An acquire keeps it. -/
theorem State.canonical_dropClean {s : State} (h : s.canonical = true) (core : Nat) : (dropClean s core).canonical = true := by
  unfold dropClean
  split
  · exact h
  · refine State.canonical_modCore h core _ ((linesOk_iff _).mpr ?_)
    have hs := (linesOk_iff _).mp (State.lines_ok h core)
    refine ⟨Tbl.sorted_map _ (fun v : CcLine => { v with clean := [] }) (Tbl.sorted_filter _ _ hs.1), fun l hl => ?_⟩
    obtain ⟨e, he, rfl⟩ := List.mem_map.mp hl
    exact hs.2 e (List.mem_of_mem_filter he)

/-- A store of the issuing sheaf keeps it. -/
theorem State.canonical_storeOn {s : State} (h : s.canonical = true) (c : Ctx) (spc : Space) (rlx : Bool) (fk : Nat)
    (as : List Nat) (bs : List Byte) : (storeOn c s spc rlx fk as bs).canonical = true := by
  unfold storeOn
  cases spc with
  | sp => exact State.canonical_spStore h _ _ _ _ _
  | stk => exact State.canonical_modSheaf h _ _ _ fun _ hs hu => ⟨Memory.wf_writeAt _ _ _ hs, hu⟩
  | sh =>
    refine State.canonical_modTeam h _ _ fun t _ ht => ?_
    simp only [Team.canonical, Bool.and_eq_true] at ht ⊢
    exact ⟨⟨Memory.wf_writeAt _ _ _ ht.1.1, ht.1.2⟩, ht.2⟩

/-- What a unit has seen is no part of it. -/
theorem State.canonical_look {s : State} (h : s.canonical = true) (c : Ctx) (spc : Space) (n : Nat) (ns : List (Nat × Nat)) :
    (look c s spc n ns).canonical = true := State.canonical_modUnit h _ _ _ _
theorem State.canonical_lookNow {s : State} (h : s.canonical = true) (c : Ctx) (spc : Space) (n : Nat) (as : List Nat) :
    (lookNow c s spc n as).canonical = true := State.canonical_look h _ _ _ _

/-- A store that is noted for the other units of its team keeps it. -/
theorem State.canonical_noteStore {s : State} (h : s.canonical = true) (c : Ctx) (spc : Space) (w : Nat) (rel : List Scope)
    (atom : Bool) (as : List Nat) : (noteStore c s spc w rel atom as).canonical = true := by
  unfold noteStore
  split
  · exact h
  · split
    · exact h
    · dsimp only
      refine State.canonical_lookNow (State.canonical_modTeam h _ _ ?_) _ _ _ _
      intro _ _ ht
      exact ht

/-- An acquire of the issuing sheaf keeps it. -/
theorem State.canonical_hear {s : State} (h : s.canonical = true) (c : Ctx) (sc : Scope) (spc : Space) (as : List Nat) :
    (hear c s sc spc as).canonical = true := by
  unfold hear
  split
  · exact State.canonical_modUnit h _ _ _ _
  · split
    · exact h
    · exact State.canonical_modUnit h _ _ _ _

theorem State.canonical_pastLoad {s : State} (h : s.canonical = true) (c : Ctx) (t : Team) (spc : Space) (mem : List Host.Cell)
    (rlx : Bool) (fk w : Nat) (as : List Nat) : (pastLoad c s t spc mem rlx fk w as).2.canonical = true := by
  unfold pastLoad
  split
  · exact h
  · split
    · exact h
    · split
      · exact State.canonical_look h _ _ _ _
      · exact State.canonical_lookNow h _ _ _ _

/-- A load of the issuing sheaf keeps it. -/
theorem State.canonical_loadOn {s : State} (h : s.canonical = true) (c : Ctx) (spc : Space) (rlx : Bool) (fk w : Nat) (as : List Nat) :
    (loadOn c s spc rlx fk w as).2.canonical = true := by
  unfold loadOn
  split
  · exact h
  · split
    · exact State.canonical_pastLoad h _ _ _ _ _ _ _ _
    · split
      · exact State.canonical_pastLoad h _ _ _ _ _ _ _ _
      · exact h
    · dsimp only
      split
      · exact State.canonical_spLoad h _ _ _ _
      · exact State.canonical_lookNow (State.canonical_spLoad h _ _ _ _) _ _ _ _

/-- A byte as of an earlier number is what stands there now, or what a noted store to it found there. -/
theorem byteAsOf_cases (c : Ctx) (t : Team) (spc : Space) (n a : Nat) (now : Byte) :
    byteAsOf c t spc n a now = now ∨ ∃ e ∈ t.past, e.within c spc = true ∧ e.addr = a ∧ e.old = byteAsOf c t spc n a now := by
  unfold byteAsOf
  cases h : t.past.find? fun e => e.within c spc && e.addr == a && decide (n ≤ e.id) with
  | none => exact .inl rfl
  | some e =>
    have hp := List.find?_some h
    simp only [Bool.and_eq_true, beq_iff_eq, decide_eq_true_eq] at hp
    exact .inr ⟨e, List.mem_of_find?_eq_some h, hp.1.1, hp.1.2, rfl⟩

/-- The runs of a load are its bytes, in order. -/
theorem byteRuns_flatten (c : Ctx) (t : Team) (spc : Space) (w : Nat) (as : List Nat) : (byteRuns c t spc w as).flatten = as := by
  have key : ∀ (f : Nat × Nat → List (List Nat) → List (List Nat)), (∀ x runs, (f x runs).flatten = x.1 :: runs.flatten) →
      ∀ l : List (Nat × Nat), (l.foldr f []).flatten = l.map (·.1) := by
    intro f hf l
    induction l with
    | nil => rfl
    | cons x l ih => rw [List.foldr_cons, hf, ih, List.map_cons]
  refine (key _ (fun x runs => ?_) _).trans (List.zipIdx_map_fst 0 as)
  dsimp only
  split
  · split <;> simp
  · simp

/-- A relaxed load reads each of its bytes as of one number. -/
theorem lookTimes_map_fst {c : Ctx} {s : State} {t : Team} {u : UnitSt} {spc : Space} {rlx : Bool} {fk w : Nat} {as : List Nat}
    {ns : List (Nat × Nat)} (h : lookTimes c s t u spc rlx fk w as = some ns) : rlx = true ∧ ns.map (·.1) = as := by
  unfold lookTimes at h
  cases rlx with
  | false => simp at h
  | true =>
    obtain ⟨v, -, rfl⟩ := by simpa using h
    refine ⟨rfl, ?_⟩
    conv_rhs => rw [← byteRuns_flatten c t spc w as, ← List.zipIdx_map_fst 0 (byteRuns c t spc w as)]
    generalize (byteRuns c t spc w as).zipIdx = l
    induction l with
    | nil => rfl
    | cons x l ih => simp [Function.comp_def, ih]

/-- A load of team memory or a stack returns, byte by byte, what stands there now or, if it is relaxed, what a noted store found. -/
theorem pastLoad_bytes (c : Ctx) (s : State) (t : Team) (spc : Space) (mem : List Host.Cell) (rlx : Bool) (fk w : Nat) (as : List Nat)
    (b : Byte) (x : Nat) (h : (x, b) ∈ as.zip (pastLoad c s t spc mem rlx fk w as).1) :
    b = byteAt mem x ∨ (rlx = true ∧ ∃ e ∈ t.past, e.within c spc = true ∧ e.addr = x ∧ e.old = b) := by
  have now : ∀ {α : Type} (l : List α) (g : α → Nat) (f : α → Byte), (x, b) ∈ (l.map g).zip (l.map f) → ∃ a ∈ l, g a = x ∧ f a = b := by
    intro α l g f hm
    rw [List.zip_map', List.mem_map] at hm
    obtain ⟨a, ha, he⟩ := hm
    exact ⟨a, ha, congrArg Prod.fst he, congrArg Prod.snd he⟩
  have plain : (x, b) ∈ as.zip (readAt mem as) → b = byteAt mem x := by
    intro hm
    obtain ⟨a, -, rfl, rfl⟩ := now as id (byteAt mem) (by simpa [readAt] using hm)
    rfl
  unfold pastLoad at h
  split at h
  · exact .inl (plain h)
  · split at h
    · exact .inl (plain h)
    · split at h
      · next ns hn =>
        obtain ⟨hr, hf⟩ := lookTimes_map_fst hn
        rw [← hf] at h
        obtain ⟨a, -, rfl, hb⟩ := now ns _ _ h
        rcases byteAsOf_cases c t spc a.2 a.1 (byteAt mem a.1) with h1 | ⟨e, he, hw, ha, ho⟩
        · exact .inl (hb.symm.trans h1)
        · exact .inr ⟨hr, e, he, hw, ha, ho.trans hb⟩
      · exact .inl (plain h)

/-- A write of main memory keeps it. -/
theorem State.canonical_physWrite {s : State} (h : s.canonical = true) (a : Nat) (bs : List Byte) :
    (physWrite s a bs).canonical = true := by
  have line : ∀ (s : State) (a : Nat) (bs : List Byte), s.canonical = true → (physLine s a bs).canonical = true := by
    intro s a bs h
    have hc := State.canonical_modDie h (discardDie a) (fun d => { d with stat := bump d.stat 3 1 }) fun _ hd => hd
    have hw : ∀ p, ({ s with mem := writeBytes s.mem (physPlace a) bs, memPz := p } : State).canonical = true := by
      intro p
      rw [State.canonical_iff] at h ⊢
      exact ⟨Memory.wf_writeBytes _ _ _ h.1, h.2⟩
    unfold physLine countDiscard
    dsimp only
    split
    · exact hc
    · split
      · split
        · exact hw _
        · exact hc
      · exact hw _
  unfold physWrite
  generalize bs.length / 64 + 2 = n
  induction n generalizing s a bs with
  | zero => exact h
  | succ n ih =>
    unfold physWriteN
    split
    · exact h
    · exact ih (line s a _ h) _ _

/-- The machine after reset has the canonical form. -/
theorem State.canonical_reset : State.reset.canonical = true := by decide

end Sys2Proof.Machine
end

