-- ==== Sys2Proof/Laws/Registers.lean ====
section
/-! SUPPORT. What a word that writes registers can do: its issue, its writes and its end, each said once. -/

namespace Sys2Proof.Machine

/-! ### Finding units -/

/-- The unit that a context speaks of stands in the context's state. -/
def Ctx.placed (c : Ctx) : Prop :=
  Tbl.find c.st.teams c.tid = some c.team ∧ Tbl.find c.team.sheaves c.slot = some c.sheaf
    ∧ Tbl.find c.sheaf.units c.uid = some c.unit

theorem unitAt_eq_some {s : State} {tid slot uid : Nat} {c : Ctx} (h : unitAt s tid slot uid = some c) :
    c.placed ∧ c.st = s ∧ c.tid = tid ∧ c.slot = slot ∧ c.uid = uid := by
  unfold unitAt at h
  cases h1 : Tbl.find s.teams tid with
  | none => simp [h1] at h
  | some t =>
    cases h2 : Tbl.find t.sheaves slot with
    | none => simp [h1, h2] at h
    | some sh =>
      cases h3 : Tbl.find sh.units uid with
      | none => simp [h1, h2, h3] at h
      | some u =>
        simp only [h1, h2, h3, Option.some.injEq] at h
        subst h
        exact ⟨⟨h1, h2, h3⟩, rfl, rfl, rfl, rfl⟩

theorem unitAt_of_find {s : State} {tid slot uid : Nat} {t : Team} {sh : Sheaf} {u : UnitSt}
    (h1 : Tbl.find s.teams tid = some t) (h2 : Tbl.find t.sheaves slot = some sh) (h3 : Tbl.find sh.units uid = some u) :
    unitAt s tid slot uid = some ⟨s, tid, slot, uid, t, sh, u⟩ := by
  simp [unitAt, h1, h2, h3]

theorem ctxOf_eq_some {s : State} {c : Ctx} (h : ctxOf s = some c) :
    c.placed ∧ c.st = s ∧ s.cur = some (c.tid, c.slot, c.uid) := by
  unfold ctxOf at h
  split at h
  · simp at h
  · next hc =>
    obtain ⟨hp, hs, h1, h2, h3⟩ := unitAt_eq_some h
    exact ⟨hp, hs, by rw [hc, h1, h2, h3]⟩

/-! ### The issue of a word -/

/-- A word that passes its checks and waits runs at its context. -/
theorem issue_of_atIssue {i : Instr} {s : State} {c : Ctx} (h : atIssue i s = some c) (k : Ctx → Res) : issue i s k = k c := by
  unfold atIssue at h
  unfold issue
  cases hc : ctxOf s with
  | none => simp [hc] at h
  | some c0 =>
    simp only [hc, Option.ite_none_right_eq_some, Bool.and_eq_true, Bool.not_eq_true'] at h
    obtain ⟨⟨⟨⟨⟨h1, h2⟩, h3⟩, ha⟩, h4⟩, h5⟩ := h
    simp only [waitMask] at h4 h5
    simp only [h1, h2, h3, h4, Option.isNone_iff_eq_none.mp ha]
    by_cases hm : Option.getD (Option.map (fun x => BitVec.toNat x.wait) (hdrOf i)) 0 = 0
    · simp only [hm, if_true, Option.some.injEq] at h5 ⊢; simp [h5]
    · simp only [hm, if_false] at h5 ⊢; simp [h5]

theorem placed_of_atIssue {i : Instr} {s : State} {c : Ctx} (h : atIssue i s = some c) : c.placed := by
  unfold atIssue at h
  cases hc : ctxOf s with
  | none => simp [hc] at h
  | some c0 =>
    simp only [hc, Option.ite_none_right_eq_some] at h
    obtain ⟨-, h5⟩ := h
    split at h5
    · rw [← Option.some.inj h5]; exact (ctxOf_eq_some hc).1
    · exact (unitAt_eq_some h5).1

/-! ### One register write -/

theorem find_threads_writeKey (sh : Sheaf) (k : RegKey) (w : Word) (p : Nat) :
    (Tbl.find (writeKey sh k w).threads p).map (fun t => (t.ord, t.rank, t.tag))
      = (Tbl.find sh.threads p).map fun t => (t.ord, t.rank, t.tag) := by
  cases k with
  | v pos r =>
    simp only [writeKey, Tbl.find_modify]
    split
    · next h => subst h; cases Tbl.find sh.threads pos <;> rfl
    · rfl
  | p pos i =>
    simp only [writeKey]
    split
    · rfl
    · simp only [Tbl.find_modify]
      split
      · next h => subst h; cases Tbl.find sh.threads pos <;> rfl
      · rfl
  | s r => simp only [writeKey]; split <;> rfl
  | q i => rfl

theorem setBit8_getLsbD (b : BitVec 8) (i j : Nat) (v : Bool) :
    (setBit8 b i v).getLsbD j = if i = j ∧ j < 8 then v else b.getLsbD j := by
  have key : (BitVec.ofNat 8 (2 ^ i)).getLsbD j = (decide (j < 8) && decide (i = j)) := by
    rw [BitVec.getLsbD, BitVec.toNat_ofNat, Nat.testBit_mod_two_pow, Nat.testBit_two_pow]
  unfold setBit8
  cases v
  · simp only [Bool.false_eq_true, if_false, BitVec.getLsbD_and, BitVec.getLsbD_not, key]
    by_cases hj : j < 8
    · by_cases h : i = j <;> simp only [h, hj] <;> simp
    · have hb : b.getLsbD j = false := BitVec.getLsbD_of_ge b j (by omega)
      simp [hb, hj]
  · simp only [if_true, BitVec.getLsbD_or, key]
    by_cases hj : j < 8
    · by_cases h : i = j <;> simp only [h, hj] <;> simp
    · simp only [hj]; simp

/-- A write leaves every other register. -/
theorem readKey_writeKey_other (sh : Sheaf) (k j : RegKey) (w : Word) (h : j ≠ k) :
    readKey (writeKey sh k w) j = readKey sh j := by
  cases k with
  | v pos r =>
    cases j with
    | v pos' r' =>
      simp only [writeKey, readKey, threadAt, Tbl.find_modify]
      split
      · next hp =>
        subst hp
        cases Tbl.find sh.threads pos with
        | none => rfl
        | some t =>
          simp only [Option.map_some, Option.getD_some]
          exact Tbl.get_set_other _ _ _ (by rintro rfl; exact h rfl)
      · rfl
    | p pos' i =>
      simp only [writeKey, readKey, threadAt, Tbl.find_modify]
      split
      · rfl
      · split
        · next hp => subst hp; cases Tbl.find sh.threads pos <;> rfl
        · rfl
    | s r' => rfl
    | q i => rfl
  | p pos i =>
    simp only [writeKey]
    split
    · rfl
    cases j with
    | v pos' r' =>
      simp only [readKey, threadAt, Tbl.find_modify]
      split
      · next hp => subst hp; cases Tbl.find sh.threads pos <;> rfl
      · rfl
    | p pos' i' =>
      simp only [readKey, threadAt, Tbl.find_modify]
      split
      · rfl
      · split
        · next hp =>
          subst hp
          cases Tbl.find sh.threads pos with
          | none => rfl
          | some t =>
            simp only [Option.map_some, Option.getD_some, setBit8_getLsbD]
            rw [if_neg]
            rintro ⟨rfl, -⟩; exact h rfl
        · rfl
    | s r' => rfl
    | q i => rfl
  | s r =>
    simp only [writeKey]
    split
    · cases j with
      | s r' =>
        simp only [readKey]
        split
        · exact Tbl.get_set_other _ _ _ (by rintro rfl; exact h rfl)
        · rfl
      | _ => rfl
    · cases j with
      | s r' =>
        simp only [readKey]
        split
        · rfl
        · exact Tbl.get_set_other _ _ _ (by intro e; exact h (by congr 1; omega))
      | _ => rfl
  | q i =>
    cases j with
    | q i' =>
      simp only [writeKey, readKey, setBit8_getLsbD]
      rw [if_neg]
      rintro ⟨rfl, -⟩; exact h rfl
    | _ => rfl

/-- A register that a write can reach, with a value that it can hold. -/
def RegKey.holds (sh : Sheaf) (v : Word) : RegKey → Prop
  | .v pos _ => (Tbl.find sh.threads pos).isSome = true
  | .p pos i => (Tbl.find sh.threads pos).isSome = true ∧ i < 7 ∧ ∃ b, v = ofBool b
  | .s _ => True
  | .q i => i < 8 ∧ ∃ b, v = ofBool b

/-- A write is read back. -/
theorem readKey_writeKey_self (sh : Sheaf) (k : RegKey) (w : Word) (h : k.holds sh w) :
    readKey (writeKey sh k w) k = w := by
  cases k with
  | v pos r =>
    obtain ⟨t, ht⟩ := Option.isSome_iff_exists.mp h
    simp [writeKey, readKey, threadAt, ht]
  | p pos i =>
    obtain ⟨h1, h2, b, rfl⟩ := h
    obtain ⟨t, ht⟩ := Option.isSome_iff_exists.mp h1
    have : i ≠ 7 := by omega
    simp only [writeKey, readKey, threadAt, this, if_false, Tbl.find_modify_self, ht, Option.map_some, Option.getD_some,
      setBit8_getLsbD]
    rw [if_pos ⟨trivial, by omega⟩]
    cases b <;> rfl
  | s r =>
    simp only [writeKey]
    split
    · next hr => simp [readKey, hr]
    · next hr => simp [readKey, hr]
  | q i =>
    obtain ⟨h1, b, rfl⟩ := h
    simp only [writeKey, readKey, setBit8_getLsbD]
    rw [if_pos ⟨trivial, h1⟩]
    cases b <;> rfl

/-! ### The writes of a word -/

/-- What register writes leave of a sheaf, the writing unit `uid` keeping all but its windows. -/
structure SheafFrame (uid : Nat) (a b : Sheaf) : Prop where
  rest    : { b with s := a.s, ss := a.ss, q := a.q, threads := a.threads, units := a.units, spoilt := a.spoilt,
                     loose := a.loose, reports := a.reports, overtaken := a.overtaken } = a
  threads : ∀ p, (Tbl.find b.threads p).map (fun t => (t.ord, t.rank, t.tag))
                  = (Tbl.find a.threads p).map fun t => (t.ord, t.rank, t.tag)
  units   : ∀ u, u ≠ uid → Tbl.find b.units u = Tbl.find a.units u
  unit    : (Tbl.find b.units uid).map (fun u => { u with wins := [] })
              = (Tbl.find a.units uid).map fun u => { u with wins := [] }

theorem SheafFrame.refl (uid : Nat) (a : Sheaf) : SheafFrame uid a a := ⟨rfl, fun _ => rfl, fun _ _ => rfl, rfl⟩

theorem SheafFrame.trans {uid : Nat} {a b d : Sheaf} (h : SheafFrame uid a b) (k : SheafFrame uid b d) :
    SheafFrame uid a d where
  rest := by
    have h1 := h.rest
    have h2 := k.rest
    rw [← h1, ← h2]
  threads p := (k.threads p).trans (h.threads p)
  units u hu := (k.units u hu).trans (h.units u hu)
  unit := k.unit.trans h.unit

theorem SheafFrame.hasThread {uid : Nat} {a b : Sheaf} (h : SheafFrame uid a b) (p : Nat) :
    (Tbl.find b.threads p).isSome = (Tbl.find a.threads p).isSome := by
  have := congrArg Option.isSome (h.threads p)
  simpa using this

theorem RegKey.holds_frame {uid : Nat} {a b : Sheaf} (h : SheafFrame uid a b) {v : Word} {k : RegKey} (hk : k.holds a v) :
    k.holds b v := by
  cases k <;> simp only [RegKey.holds, h.hasThread] at hk ⊢ <;> exact hk

/-- A note of a write that comes after those of earlier requests changes nothing else. -/
theorem overtake_frame (uid w : Nat) (p : Nat → Bool) (k : RegKey) (sh : Sheaf) : SheafFrame uid sh (overtake w p k sh) := by
  unfold overtake
  cases k with
  | s r =>
    dsimp only
    split
    · exact .refl _ _
    · exact ⟨rfl, fun _ => rfl, fun _ _ => rfl, rfl⟩
  | _ => exact .refl _ _

@[simp] theorem readKey_overtake (w : Nat) (p : Nat → Bool) (k : RegKey) (sh : Sheaf) (j : RegKey) :
    readKey (overtake w p k sh) j = readKey sh j := by
  unfold overtake
  cases k with
  | s r =>
    dsimp only
    split
    · rfl
    · cases j <;> rfl
  | _ => rfl

theorem putOne_frame (c : Ctx) (la : Nat) (sh : Sheaf) (kv : RegKey × Word) :
    SheafFrame c.uid sh (putOne c la sh kv) := by
  have key : ∀ w, SheafFrame c.uid sh (writeNoted (mayCommand c.team c.sheaf) (keyFree c kv.1) sh kv.1 w) := fun w => by
    unfold writeNoted
    generalize (if drainHolds sh kv.1 then _ else w : Word) = w
    refine ⟨?_, fun p => ?_, fun u _ => ?_, ?_⟩
    · cases kv.1 <;> simp only [noteWrite, writeKey] <;> (try split) <;> rfl
    · exact find_threads_writeKey sh kv.1 w p
    · cases kv.1 <;> simp only [noteWrite, writeKey] <;> (try split) <;> rfl
    · cases kv.1 <;> simp only [noteWrite, writeKey] <;> (try split) <;> rfl
  unfold putOne
  dsimp only
  split
  · exact key _
  · refine (key _).trans ⟨rfl, fun _ => rfl, fun u hu => Tbl.find_modify_other _ _ hu, ?_⟩
    simp only [Tbl.find_modify_self, Option.map_map]
    rfl

theorem commitOne_frame (c : Ctx) (la : Nat) (sh : Sheaf) (kv : RegKey × Word) :
    SheafFrame c.uid sh (commitOne c la sh kv) := (putOne_frame c la sh kv).trans (overtake_frame ..)

theorem readKey_noteWrite (t : Bool) (k : RegKey) (o : Word) (sh : Sheaf) (j : RegKey) :
    readKey (noteWrite t k o sh) j = readKey sh j := by
  cases j <;> rfl

theorem readKey_writeNoted (t : Bool) (fv : BitVec 64) (sh : Sheaf) (k : RegKey) (w : Word) (j : RegKey) :
    readKey (writeNoted t fv sh k w) j = readKey (writeKey sh k (if drainHolds sh k then fv.setWidth 32 else w)) j :=
  readKey_noteWrite ..

/-- What a word may leave in a register that it writes (R95, R247, R443). -/
theorem readKey_commitOne (c : Ctx) (la : Nat) (sh : Sheaf) (kv : RegKey × Word) (j : RegKey) :
    readKey (commitOne c la sh kv) j = readKey (writeKey sh kv.1 (if drainHolds sh kv.1 then (keyFree c kv.1).setWidth 32 else
      if eitherWrite c kv.1 && (keyFree c kv.1).getLsbD 63 then readKey sh kv.1 else kv.2)) j := by
  unfold commitOne putOne
  rw [readKey_overtake]
  dsimp only
  split
  · exact readKey_writeNoted ..
  · rw [← readKey_writeNoted (mayCommand c.team c.sheaf)]
    cases j <;> rfl

theorem commitOne_other (c : Ctx) (la : Nat) (sh : Sheaf) (kv : RegKey × Word) (j : RegKey) (h : j ≠ kv.1) :
    readKey (commitOne c la sh kv) j = readKey sh j := by
  rw [readKey_commitOne, readKey_writeKey_other _ _ _ _ h]

theorem holds_readKey {sh : Sheaf} {k : RegKey} {v : Word} (h : k.holds sh v) : k.holds sh (readKey sh k) := by
  cases k with
  | v pos r => exact h
  | p pos i => exact ⟨h.1, h.2.1, _, if_neg (by have := h.2.1; omega)⟩
  | s r => trivial
  | q i => exact ⟨h.1, _, rfl⟩

theorem commitOne_self (c : Ctx) (la : Nat) (sh : Sheaf) (kv : RegKey × Word) (h : kv.1.holds sh kv.2) :
    readKey (commitOne c la sh kv) kv.1 = kv.2
      ∨ (MayKeep c kv.1 ∧ readKey (commitOne c la sh kv) kv.1 = readKey sh kv.1) ∨ drainHolds sh kv.1 = true := by
  rw [readKey_commitOne]
  split
  · next hd => exact .inr (.inr hd)
  · split
    · next hw =>
      refine .inr (.inl ?_)
      simp only [eitherWrite, Bool.and_eq_true, Bool.or_eq_true, List.any_eq_true, beq_iff_eq] at hw
      exact ⟨hw.1, readKey_writeKey_self _ _ _ (holds_readKey h)⟩
    · exact .inl (readKey_writeKey_self _ _ _ h)

theorem commits_frame (c : Ctx) (la : Nat) (ws : List (RegKey × Word)) (sh : Sheaf) :
    SheafFrame c.uid sh (ws.foldl (commitOne c la) sh) := by
  induction ws generalizing sh with
  | nil => exact .refl _ _
  | cons w ws ih => exact (commitOne_frame c la sh w).trans (ih _)

theorem SheafFrame.drainHolds {uid : Nat} {a b : Sheaf} (h : SheafFrame uid a b) (k : RegKey) :
    drainHolds b k = drainHolds a k := by
  have := congrArg Sheaf.held h.rest
  simp only at this
  simp only [Machine.drainHolds, this]

theorem commits_other (c : Ctx) (la : Nat) (ws : List (RegKey × Word)) (sh : Sheaf) (j : RegKey) (h : j ∉ ws.map (·.1)) :
    readKey (ws.foldl (commitOne c la) sh) j = readKey sh j := by
  induction ws generalizing sh with
  | nil => rfl
  | cons w ws ih =>
    simp only [List.map_cons, List.mem_cons, not_or] at h
    rw [List.foldl_cons, ih _ h.2, commitOne_other _ _ _ _ _ h.1]

theorem commits_self (c : Ctx) (la : Nat) (ws : List (RegKey × Word)) (sh : Sheaf) (hn : (ws.map (·.1)).Nodup)
    (kv : RegKey × Word) (hm : kv ∈ ws) (h : kv.1.holds sh kv.2) :
    readKey (ws.foldl (commitOne c la) sh) kv.1 = kv.2
      ∨ (MayKeep c kv.1 ∧ readKey (ws.foldl (commitOne c la) sh) kv.1 = readKey sh kv.1) ∨ drainHolds sh kv.1 = true := by
  induction ws generalizing sh with
  | nil => simp at hm
  | cons w ws ih =>
    simp only [List.map_cons, List.nodup_cons] at hn
    rw [List.foldl_cons]
    rcases List.mem_cons.mp hm with rfl | hm
    · rw [commits_other _ _ _ _ _ hn.1]
      exact commitOne_self c la sh kv h
    · have hk : kv.1 ≠ w.1 := by rintro e; exact hn.1 (e ▸ List.mem_map_of_mem hm)
      have := ih (commitOne c la sh w) hn.2 hm (RegKey.holds_frame (commitOne_frame c la sh w) h)
      rwa [commitOne_other _ _ _ _ _ hk, (commitOne_frame c la sh w).drainHolds] at this

/-! ### The end of a word -/

theorem charge_frame (g : Word) (n : Nat) (t : Team) :
    { charge g 0 n t with acct := t.acct } = t := by
  unfold charge
  split <;> rfl

theorem updAt_other {α : Type} (l : List α) (i j : Nat) (f : α → α) (d : α) (h : j ≠ i) :
    (updAt l i f).getD j d = l.getD j d := by
  induction l generalizing i j with
  | nil => rfl
  | cons x l ih =>
    cases i with
    | zero =>
      cases j with
      | zero => exact absurd rfl h
      | succ j => rfl
    | succ i =>
      cases j with
      | zero => rfl
      | succ j => simp only [updAt, List.getD_cons_succ]; exact ih i j (by omega)

/-- A team's account of a tag word, zero where it has none. -/
theorem charge_acct (g : Word) (n : Nat) (t : Team) (k ix : Nat) (h : ix ≠ 0) :
    (Tbl.get (List.replicate 8 0) (charge g 0 n t).acct k).getD ix 0
      = (Tbl.get (List.replicate 8 0) t.acct k).getD ix 0 := by
  unfold charge
  split
  · rfl
  · simp only [Tbl.get, Tbl.find_put]
    split
    · next hk => subst hk; simp only [Option.getD_some]; exact updAt_other _ _ _ _ _ h
    · rfl

/-- What the charge of a word's lane cycles leaves of its team. -/
theorem charges_frame (tags : List Word) (t : Team) :
    { tags.foldl (fun t g => charge g 0 1 t) t with acct := t.acct } = t
    ∧ ∀ k ix, ix ≠ 0 → (Tbl.get (List.replicate 8 0) (tags.foldl (fun t g => charge g 0 1 t) t).acct k).getD ix 0
        = (Tbl.get (List.replicate 8 0) t.acct k).getD ix 0 := by
  induction tags generalizing t with
  | nil => exact ⟨rfl, fun _ _ _ => rfl⟩
  | cons g tags ih =>
    obtain ⟨h1, h2⟩ := ih (charge g 0 1 t)
    refine ⟨?_, fun k ix hx => (h2 k ix hx).trans (charge_acct g 1 t k ix hx)⟩
    have h3 := charge_frame g 1 t
    rw [List.foldl_cons]
    rw [← h3]
    conv_lhs => rw [h3]
    rw [← h1]
    simp [h1]

/-- The charge of a word's lane cycles changes a team's account only. -/
theorem charges_eq (tags : List Word) (t : Team) :
    ∃ a, tags.foldl (fun t g => charge g 0 1 t) t = { t with acct := a }
      ∧ ∀ k ix, ix ≠ 0 → (Tbl.get (List.replicate 8 0) a k).getD ix 0 = (Tbl.get (List.replicate 8 0) t.acct k).getD ix 0 := by
  obtain ⟨h1, h2⟩ := charges_frame tags t
  generalize tags.foldl (fun t g => charge g 0 1 t) t = t' at h1 h2
  refine ⟨t'.acct, ?_, h2⟩
  conv_rhs => rw [← h1]

/-- A word that writes registers and ends: everything that it does to the state. -/
theorem commit_retire (c : Ctx) (hp : c.placed) (la : Nat) (ws : List (RegKey × Word)) (cyc : Nat) (tags : List Word) (pc : Word) :
    ∃ c', unitAt (advance c (chargeCycles c (commit c c.st la ws) cyc tags) pc) c.tid c.slot c.uid = some c'
      ∧ c'.st = advance c (chargeCycles c (commit c c.st la ws) cyc tags) pc
      ∧ RegisterFrame c c' (fun k => k ∈ ws.map (·.1)) ∧ c'.stands pc
      ∧ ((ws.map (·.1)).Nodup → ∀ kv ∈ ws, kv.1.holds c.sheaf kv.2 → Wrote c c' kv.1 kv.2) := by
  obtain ⟨ht, hs, hu⟩ := hp
  obtain ⟨sh1, hsh1⟩ : ∃ x, x = ws.foldl (commitOne c la) c.sheaf := ⟨_, rfl⟩
  have fr : SheafFrame c.uid c.sheaf sh1 := hsh1 ▸ commits_frame c la ws c.sheaf
  obtain ⟨u1, hu1⟩ : ∃ u1, Tbl.find sh1.units c.uid = some u1 := by
    have := congrArg Option.isSome fr.unit
    simp only [hu, Option.map_some, Option.isSome_map, Option.isSome_some] at this
    exact Option.isSome_iff_exists.mp this
  have hu2 : { u1 with wins := [] } = { c.unit with wins := [] } := by
    have := fr.unit
    simpa only [hu1, hu, Option.map_some, Option.some.injEq] using this
  let t1 : Team := { c.team with sheaves := Tbl.put c.team.sheaves c.slot sh1 }
  obtain ⟨a, ht2, hacct⟩ := charges_eq tags { count 0 cyc t1 with eligible := none }
  let t2 : Team := { count 0 cyc t1 with eligible := none, acct := a }
  let k := laneKey c.team c.sheaf
  let ln := Tbl.put c.st.lanes k (laneIssue (Tbl.get Lane.zero c.st.lanes k) (c.tid, c.slot, c.uid) (laneNow c.st k) cyc)
  let now := laneNow { c.st with lanes := ln } k
  let u3 : UnitSt := { u1 with pc := pc, wait := .ready, wins := tickWins u1.wins, last := now, awaits := tickAwaits u1.awaits }
  let sh3 : Sheaf := { sh1 with units := Tbl.put sh1.units c.uid u3 }
  let t3 : Team := { t2 with sheaves := Tbl.put t2.sheaves c.slot sh3 }
  let st' : State := { c.st with lanes := ln, teams := Tbl.put (Tbl.put (Tbl.put c.st.teams c.tid t1) c.tid t2) c.tid t3 }
  have hst : advance c (chargeCycles c (commit c c.st la ws) cyc tags) pc = st' := by
    have e1 : commit c c.st la ws = { c.st with teams := Tbl.put c.st.teams c.tid t1 } := by
      simp only [commit, Ctx.modSheaf, modSheaf, modTeam, Tbl.modify, ht, hs, t1, hsh1]
    have hf2 : Tbl.find t2.sheaves c.slot = some sh1 := Tbl.find_put_self ..
    rw [e1]
    simp only [advance, chargeCycles, Ctx.modUnit, modUnit, modSheaf, modTeam, Tbl.modify, Tbl.find_put_self]
    simp only [ht2]
    simp only [show Tbl.find (count 0 cyc t1).sheaves c.slot = some sh1 from hf2, hu1]
    rfl
  have hfind : unitAt st' c.tid c.slot c.uid = some ⟨st', c.tid, c.slot, c.uid, t3, sh3, u3⟩ :=
    unitAt_of_find (Tbl.find_put_self ..) (Tbl.find_put_self ..) (Tbl.find_put_self ..)
  have hread : ∀ j, readKey sh3 j = readKey sh1 j := fun j => by cases j <;> rfl
  refine ⟨⟨st', c.tid, c.slot, c.uid, t3, sh3, u3⟩, hst ▸ hfind, hst.symm, ?_, ⟨rfl, rfl⟩, ?_⟩
  · refine ⟨?_, ?_, ?_, ?_, ?_, ?_, ?_, ?_, ?_, ?_, ?_, ?_, ?_⟩
    · rfl
    · intro j hj
      exact congrArg (·.getD Lane.zero) (Tbl.find_put_other _ _ hj)
    · intro tid h
      simp only [st', Tbl.find_put_other _ _ h]
    · rfl
    · intro j hj
      exact Tbl.get_set_other _ _ _ hj
    · exact hacct
    · intro sl h
      simp only [t3, t2, count, t1, Tbl.find_put_other _ _ h]
    · have := congrArg (fun t : Sheaf => { t with units := c.sheaf.units }) fr.rest
      exact this
    · exact fr.threads
    · intro j hj
      rw [hread, hsh1]
      exact commits_other c la ws c.sheaf j hj
    · intro u h
      simp only [sh3, Tbl.find_put_other _ _ h]
      exact fr.units u h
    · have := congrArg (fun u : UnitSt => { u with pc := c.unit.pc, wait := c.unit.wait, wins := c.unit.wins, last := c.unit.last,
                                                   awaits := c.unit.awaits }) hu2
      exact this
    · have : u1.awaits = c.unit.awaits := by simpa using congrArg UnitSt.awaits hu2
      exact congrArg tickAwaits this
  · intro hn kv hm hh
    have := commits_self c la ws c.sheaf hn kv hm hh
    simp only [Wrote, hread, hsh1]
    exact this

/-! ### The shapes of register words -/

theorem Does.mk {i : Instr} {s : State} {c c' : Ctx} (he : exec i s = .next c'.st)
    (hu : unitAt c'.st c.tid c.slot c.uid = some c') : Does i s c c' := ⟨he, hu⟩

/-- A U-word that computes registers. -/
theorem uniformOp_runs {i : Instr} {s : State} {c : Ctx} (h : atIssue i s = some c) (f : Ctx → List (RegKey × Word))
    (he : exec i s = uniformOp i s f) :
    ∃ c', Does i s c c' ∧ RegisterFrame c c' (fun k => k ∈ (f c).map (·.1)) ∧ c'.stands (c.next 1)
      ∧ (((f c).map (·.1)).Nodup → ∀ kv ∈ f c, kv.1.holds c.sheaf kv.2 → Wrote c c' kv.1 kv.2) := by
  obtain ⟨c', h1, h2, h3⟩ := commit_retire c (placed_of_atIssue h) 0 (f c) 1 [c.tag] (c.next 1)
  refine ⟨c', ⟨?_, h2 ▸ h1⟩, h3⟩
  rw [he, uniformOp, issue_of_atIssue h, h2, retire]

/-- An L-word that computes each active thread's registers. -/
theorem laneOp_runs {i : Instr} {s : State} {c : Ctx} (h : atIssue i s = some c) (hd : Hdr) (w : Nat)
    (f : Ctx → Nat → List (RegKey × Word)) (he : exec i s = laneOp i hd w s f) :
    ∃ c', Does i s c c' ∧ RegisterFrame c c' (fun k => k ∈ ((activeOf c hd).flatMap (f c)).map (·.1)) ∧ c'.stands (c.next w)
      ∧ ((((activeOf c hd).flatMap (f c)).map (·.1)).Nodup →
          ∀ kv ∈ (activeOf c hd).flatMap (f c), kv.1.holds c.sheaf kv.2 → Wrote c c' kv.1 kv.2) := by
  obtain ⟨c', h1, h2, h3⟩ := commit_retire c (placed_of_atIssue h) hd.la.toNat ((activeOf c hd).flatMap (f c))
    (Max.max 1 (activeOf c hd).length) ((activeOf c hd).map fun p => (threadAt c.sheaf p).tag) (c.next w)
  refine ⟨c', ⟨?_, h2 ▸ h1⟩, h3⟩
  rw [he, laneOp, issue_of_atIssue h, h2]
  rfl

/-! ### The active threads of a word -/

theorem insertRank_perm (sh : Sheaf) (p : Nat) (l : List Nat) : (insertRank sh p l).Perm (p :: l) := by
  induction l with
  | nil => exact .refl _
  | cons q l ih =>
    simp only [insertRank]
    split
    · exact .refl _
    · exact (ih.cons q).trans (.swap p q l)

theorem byRank_perm (sh : Sheaf) (l : List Nat) : (byRank sh l).Perm l := by
  induction l with
  | nil => exact .refl _
  | cons p l ih => exact (insertRank_perm sh p _).trans (ih.cons p)

/-- Each active thread executes once. -/
theorem activeOf_nodup (c : Ctx) (h : Hdr) : (activeOf c h).Nodup :=
  (byRank_perm _ _).nodup_iff.mpr ((List.nodup_range.filter _).filter _)

theorem mem_activeOf (c : Ctx) (h : Hdr) (p : Nat) :
    p ∈ activeOf c h ↔ p < 16 ∧ bitOf c.unit.mask.toNat p = true ∧ (rdP c p h.pred != h.neg) = true := by
  rw [activeOf, (byRank_perm _ _).mem_iff]
  simp [positions, maskList, and_comm]

end Sys2Proof.Machine
end

