-- ==== Sys2Proof/Laws/Issue.lean ====
section
/-! SUPPORT. What the issue of a word can do, what taking a trap does, and that both go on. -/

namespace Sys2Proof.Machine

/-! ### The unit after a wait -/

/-- A unit stands where it stood after a change of its sheaf that leaves the units. -/
theorem unitAt_modSheaf_units {s : State} {tid slot uid : Nat} {c : Ctx} (h : unitAt s tid slot uid = some c) (f : Sheaf → Sheaf)
    (hf : (f c.sheaf).units = c.sheaf.units) :
    unitAt (modSheaf s tid slot f) tid slot uid
      = some ⟨modSheaf s tid slot f, tid, slot, uid, { c.team with sheaves := Tbl.put c.team.sheaves slot (f c.sheaf) },
          f c.sheaf, c.unit⟩ := by
  obtain ⟨⟨h1, h2, h3⟩, rfl, rfl, rfl, rfl⟩ := unitAt_eq_some h
  refine unitAt_of_find ?_ (Tbl.find_put_self ..) (by rw [hf]; exact h3)
  simp only [modSheaf, modTeam, Tbl.modify, h1, h2, Tbl.find_put_self]

/-- A unit after a change of its own. -/
theorem unitAt_modUnit {s : State} {tid slot uid : Nat} {c : Ctx} (h : unitAt s tid slot uid = some c) (f : UnitSt → UnitSt) :
    unitAt (modUnit s tid slot uid f) tid slot uid
      = some ⟨modUnit s tid slot uid f, tid, slot, uid,
          { c.team with sheaves := Tbl.put c.team.sheaves slot { c.sheaf with units := Tbl.put c.sheaf.units uid (f c.unit) } },
          { c.sheaf with units := Tbl.put c.sheaf.units uid (f c.unit) }, f c.unit⟩ := by
  obtain ⟨⟨h1, h2, h3⟩, rfl, rfl, rfl, rfl⟩ := unitAt_eq_some h
  refine unitAt_of_find ?_ (Tbl.find_put_self ..) (Tbl.find_put_self ..)
  simp only [modUnit, modSheaf, modTeam, Tbl.modify, h1, h2, h3, Tbl.find_put_self]

/-- A core's cache is no part of a unit. -/
theorem unitAt_dropClean {s : State} {tid slot uid : Nat} {c : Ctx} (core : Nat) (h : unitAt s tid slot uid = some c) :
    unitAt (dropClean s core) tid slot uid = some { c with st := dropClean s core } := by
  obtain ⟨⟨h1, h2, h3⟩, rfl, rfl, rfl, rfl⟩ := unitAt_eq_some h
  refine unitAt_of_find ?_ h2 h3
  unfold dropClean
  split <;> exact h1

/-- After its token wait the unit stands where it stood, and has heard every store (R292); its sheaf has released the registers held
for those tokens and their reports. -/
theorem unitAt_waitedFor {s : State} {c : Ctx} (h : ctxOf s = some c) (m : Nat) :
    ∃ c', unitAt (waitedFor c s m) c.tid c.slot c.uid = some c' ∧ c'.st = waitedFor c s m
      ∧ c'.unit = { c.unit with view := c'.unit.view } ∧ c'.sheaf = { c.sheaf with
          held := c'.sheaf.held, spoilt := c'.sheaf.spoilt, reports := c'.sheaf.reports, units := c'.sheaf.units } := by
  obtain ⟨hp, hs, -⟩ := ctxOf_eq_some h
  subst hs
  have hu : unitAt c.st c.tid c.slot c.uid = some c := unitAt_of_find hp.1 hp.2.1 hp.2.2
  unfold waitedFor
  split
  · exact ⟨c, hu, rfl, rfl, rfl⟩
  · next hm =>
    unfold acquired
    rw [if_neg hm]
    exact ⟨_, unitAt_modSheaf_units (unitAt_dropClean _ (unitAt_modSheaf_units (unitAt_modUnit hu _) _ rfl)) _ rfl, rfl, rfl, rfl⟩

/-! ### The issue of a word -/

/-- Everything that the issue of a word can do: the trap of the first check that fails, a wait for a value on its way, a wait at a token, or the word. -/
theorem issue_cases {i : Instr} {s t : State} {k : Ctx → Res} (h : issue i s k = .next t) :
    ∃ c, ctxOf s = some c ∧
      ((regsOk c i = false ∧ t = decodeTrap c s 1 7 ((encode c.team.ver i).headD 0))
      ∨ (regsOk c i = true ∧ roleOk c i = false ∧ t = decodeTrap c s 2 0 ((encode c.team.ver i).headD 0))
      ∨ (regsOk c i = true ∧ roleOk c i = true ∧ privOk c i = false ∧ t = decodeTrap c s 3 0 ((encode c.team.ver i).headD 0))
      ∨ (∃ a, awaited c i = some a ∧ t = waitAt c s (.reply a.id))
      ∨ (tokensPending c.sheaf (waitMask i) = true ∧ t = waitAt c s (.tokens (waitMask i)))
      ∨ ∃ c', atIssue i s = some c' ∧ k c' = .next t) := by
  cases hc : ctxOf s with
  | none => simp [issue, hc] at h
  | some c =>
    refine ⟨c, rfl, ?_⟩
    simp only [issue, hc] at h
    cases h1 : regsOk c i with
    | false => simp only [h1, Bool.not_false, if_true, Host.Outcome.next.injEq] at h; exact .inl ⟨rfl, h.symm⟩
    | true =>
      cases h2 : roleOk c i with
      | false =>
        simp only [h1, h2, Bool.not_true, Bool.not_false, Bool.false_eq_true, if_true, if_false, Host.Outcome.next.injEq] at h
        exact .inr (.inl ⟨rfl, rfl, h.symm⟩)
      | true =>
        cases h3 : privOk c i with
        | false =>
          simp only [h1, h2, h3, Bool.not_true, Bool.not_false, Bool.false_eq_true, if_true, if_false, Host.Outcome.next.injEq] at h
          exact .inr (.inr (.inl ⟨rfl, rfl, rfl, h.symm⟩))
        | true =>
          simp only [h1, h2, h3, Bool.not_true, Bool.false_eq_true, if_false] at h
          refine .inr (.inr (.inr ?_))
          cases ha : awaited c i with
          | some a => simp only [ha, Host.Outcome.next.injEq] at h; exact .inl ⟨a, rfl, h.symm⟩
          | none =>
          simp only [ha] at h
          change (if tokensPending c.sheaf (waitMask i) = true then Host.Outcome.next (waitAt c s (.tokens (waitMask i)))
            else if waitMask i = 0 then k c else _) = _ at h
          cases h4 : tokensPending c.sheaf (waitMask i) with
          | true =>
            simp only [h4, if_true, Host.Outcome.next.injEq] at h
            exact .inr (.inl ⟨rfl, h.symm⟩)
          | false =>
            simp only [h4, Bool.false_eq_true, if_false] at h
            refine .inr (.inr ?_)
            unfold atIssue
            simp only [hc, h1, h2, h3, ha, h4, Option.isNone_none, Bool.not_false, Bool.and_self, if_true]
            split at h
            · next hm => exact ⟨c, by simp [hm], h⟩
            · next hm =>
              split at h
              · simp at h
              · next c1 hc1 => exact ⟨c1, by rw [if_neg hm]; exact hc1, h⟩

/-- With an issuing unit, a word goes on where its meaning does. -/
theorem issue_goesOn {i : Instr} {s : State} {c : Ctx} {k : Ctx → Res} (hc : ctxOf s = some c)
    (hk : ∀ c', ∃ t, k c' = .next t) : ∃ t, issue i s k = .next t := by
  obtain ⟨c1, hc1, -⟩ := unitAt_waitedFor hc (waitMask i)
  change unitAt (waitedFor c s (((hdrOf i).map (·.wait.toNat)).getD 0)) c.tid c.slot c.uid = some c1 at hc1
  unfold issue
  simp only [hc]
  split
  · exact ⟨_, rfl⟩
  · split
    · exact ⟨_, rfl⟩
    · split
      · exact ⟨_, rfl⟩
      · split
        · exact ⟨_, rfl⟩
        · split
          · exact ⟨_, rfl⟩
          · split
            · exact hk c
            · rw [hc1]; exact hk c1

/-! ### Taking a trap -/

/-- Outside a trap, a unit enters it: its sheaf changes as `enterTrap` says, and nothing else does. -/
theorem takeTrap_enters (c : Ctx) (s : State) (t : TrapInfo) (h : c.sheaf.sys.sstat.getLsbD 1 = false) :
    takeTrap c s t = c.modSheaf s (enterTrap c.uid s.svbase t) := by
  unfold takeTrap
  rw [h]
  rfl

/-- Inside a trap, a second is a double fault of its context. -/
theorem takeTrap_double (c : Ctx) (s : State) (t : TrapInfo) (h : c.sheaf.sys.sstat.getLsbD 1 = true) :
    takeTrap c s t = if c.team.asid = 0 then resetAll s 3 else forcedReset s c.team.asid 3 := by
  unfold takeTrap
  rw [if_pos h]

@[simp] theorem enterTrap_sepc (uid : Nat) (base : DWord) (t : TrapInfo) (sh : Sheaf) : (enterTrap uid base t sh).sys.sepc = t.epc := rfl
@[simp] theorem enterTrap_scause (uid : Nat) (base : DWord) (t : TrapInfo) (sh : Sheaf) :
    (enterTrap uid base t sh).sys.scause = BitVec.ofNat 32 (t.cls * 2 ^ 16 + t.sub * 2 ^ 8 + t.cause) := rfl
@[simp] theorem enterTrap_sinfo (uid : Nat) (base : DWord) (t : TrapInfo) (sh : Sheaf) : (enterTrap uid base t sh).sys.sinfo = t.info := rfl
@[simp] theorem enterTrap_saddr (uid : Nat) (base : DWord) (t : TrapInfo) (sh : Sheaf) :
    (enterTrap uid base t sh).sys.saddr = BitVec.ofNat 64 t.addr := rfl
@[simp] theorem enterTrap_level (uid : Nat) (base : DWord) (t : TrapInfo) (sh : Sheaf) : (enterTrap uid base t sh).level = .supervisor := rfl
@[simp] theorem enterTrap_trapped (uid : Nat) (base : DWord) (t : TrapInfo) (sh : Sheaf) : (enterTrap uid base t sh).trapped = some uid := rfl
@[simp] theorem enterTrap_svFetch (uid : Nat) (base : DWord) (t : TrapInfo) (sh : Sheaf) : (enterTrap uid base t sh).svFetch = true := rfl
@[simp] theorem enterTrap_svAt (uid : Nat) (base : DWord) (t : TrapInfo) (sh : Sheaf) : (enterTrap uid base t sh).svAt = base := rfl
@[simp] theorem readKey_enterTrap (uid : Nat) (base : DWord) (t : TrapInfo) (sh : Sheaf) (k : RegKey) :
    readKey (enterTrap uid base t sh) k = readKey sh k := by cases k <;> rfl
@[simp] theorem readKey_leaveTrap (sh : Sheaf) (k : RegKey) : readKey (leaveTrap sh) k = readKey sh k := by cases k <;> rfl

/-! ### Waiting -/

/-- A unit that waits keeps the canonical form of the state. -/
theorem State.canonical_waitAt {s : State} (h : s.canonical = true) (c : Ctx) (w : Wait) : (waitAt c s w).canonical = true :=
  State.canonical_modUnit h _ _ _ _

/-- Entering a trap keeps it. -/
theorem State.canonical_enterTrap {s : State} (h : s.canonical = true) (c : Ctx) (t : TrapInfo) :
    (c.modSheaf s (enterTrap c.uid s.svbase t)).canonical = true :=
  State.canonical_modSheaf h _ _ _ fun _ hs hu => ⟨hs, Tbl.sorted_modify _ _ _ hu⟩

/-- The end of a word keeps it. -/
theorem State.canonical_advance {s : State} (h : s.canonical = true) (c : Ctx) (pc : Word) : (advance c s pc).canonical = true :=
  State.canonical_modUnit h _ _ _ _

end Sys2Proof.Machine
end

