-- ==== Sys2Proof/Laws/PerInstr.lean ====
section
/-! SUPPORT. Facts that hold of each instruction as syntax, one lemma per constructor. -/

namespace Sys2Proof.Machine

/-- The two kind bits of the first parcel give the number of parcels (R22); an event has none. -/
def wordShape : List Word → Prop
  | [] => True
  | p :: t => kindParcels p = t.length + 1

/-- The kind of a parcel by its top two bits. -/
theorem kindParcels_append (k : BitVec 2) (r : BitVec 30) :
    kindParcels ((k ++ r : BitVec 32)) = if k = 2 then 3 else if k = 3 then 2 else 1 := by
  have h : bits (k ++ r : BitVec 32).toNat 31 30 = k.toNat := by
    unfold bits
    rw [BitVec.toNat_append, Nat.shiftLeft_eq, Nat.mul_comm, ← Nat.two_pow_add_eq_or_of_lt r.isLt]
    have h1 := k.isLt
    have h2 := r.isLt
    omega
  unfold kindParcels
  rw [h]
  clear h
  revert k
  decide

theorem shape_encU (op sd sa : BitVec 6) (low : BitVec 12) : wordShape (encU op sd sa low) := by
  have h : URaw.word ⟨op, sd, sa, low⟩ = (0 : BitVec 2) ++ (op ++ sd ++ sa ++ low : BitVec 30) := by
    apply BitVec.eq_of_toNat_eq
    simp only [URaw.word, BitVec.toNat_append, Nat.shiftLeft_or_distrib, ← Nat.shiftLeft_add, Nat.or_assoc]
  show kindParcels (URaw.word ⟨op, sd, sa, low⟩) = 1
  rw [h, kindParcels_append]; rfl
theorem shape_encUR (op : BitVec 6) (sd sa sb : SReg) (ctl : BitVec 5) : wordShape (encUR op sd sa sb ctl) := shape_encU ..
theorem shape_encUI (op : BitVec 6) (sd sa : SReg) (imm : BitVec 11) : wordShape (encUI op sd sa imm) := shape_encU ..
theorem shape_encI (op : BitVec 4) (reg : BitVec 6) (imm : BitVec 20) : wordShape (encI op reg imm) := by
  have h : IRaw.word ⟨op, reg, imm⟩ = (1 : BitVec 2) ++ (op ++ reg ++ imm : BitVec 30) := by
    apply BitVec.eq_of_toNat_eq
    simp only [IRaw.word, BitVec.toNat_append, Nat.shiftLeft_or_distrib, ← Nat.shiftLeft_add, Nat.or_assoc]
  show kindParcels (IRaw.word ⟨op, reg, imm⟩) = 1
  rw [h, kindParcels_append]; rfl
theorem kind_encH (h : Hdr) (mode : BitVec 2) : kindParcels (encH h mode) = 3 := by
  have h : encH h mode = (2 : BitVec 2) ++ (h.la ++ mode ++ BitVec.ofBool h.neg ++ h.pred ++ h.wait ++ (0 : BitVec 12) : BitVec 30) := by
    apply BitVec.eq_of_toNat_eq
    simp only [encH, HRaw.word, BitVec.toNat_append, Nat.shiftLeft_or_distrib, ← Nat.shiftLeft_add, Nat.or_assoc]
  rw [h, kindParcels_append]; rfl
theorem shape_encL (h : Hdr) (a : SRaw) (x : XRaw) : wordShape (encL h a x) := kind_encH h 0
theorem shape_encPair (ver : Nat) (h : Hdr) (c : ClassA) (vd va vb : VReg) (p : PairOp) :
    wordShape (encPair ver h c vd va vb p) := kind_encH h 1
theorem shape_encBin (ver : Nat) (h : Hdr) (c : ClassA) (vd : VReg) (x : Bin) : wordShape (encBin ver h c vd x) := by
  cases x <;> exact kind_encH h _
theorem shape_encUn (ver : Nat) (h : Hdr) (c : ClassA) (vd : VReg) (x : Un) : wordShape (encUn ver h c vd x) := by
  cases x <;> exact kind_encH h _
theorem shape_encFBin (ver : Nat) (h : Hdr) (c : ClassA) (vd : VReg) (x : FBin) : wordShape (encFBin ver h c vd x) := by
  cases x <;> exact kind_encH h _
theorem shape_encFSel (ver : Nat) (h : Hdr) (c : ClassA) (vd : VReg) (x : FSel) : wordShape (encFSel ver h c vd x) := by
  cases x <;> exact kind_encH h _
theorem shape_encFTri (ver : Nat) (h : Hdr) (c : ClassA) (vd : VReg) (x : FTri) : wordShape (encFTri ver h c vd x) := by
  cases x <;> exact kind_encH h _
theorem shape_encL0 (h : Hdr) (op : BitVec 8) (vd va vb : VReg) (ty : Ix3) (vc : VReg) (ctl : BitVec 7) :
    wordShape (encL0 h op vd va vb ty vc ctl) := kind_encH h 0
theorem shape_encLB (h : Hdr) (op : BitVec 8) (vd va : VReg) (b : SrcB) (ty : Ix3) (vc : VReg) (ctl : BitVec 7) :
    wordShape (encLB h op vd va b ty vc ctl) := kind_encH h 0
theorem shape_encE (la : BitVec 4) (op : BitVec 8) (tk sub : Ix3) (ea eb ec : SReg) (vx vy : VReg) (ctl : BitVec 12) :
    wordShape (encE la op tk sub ea eb ec vx vy ctl) := by
  have h : CRaw.word ⟨la, op, tk, sub, ea, eb⟩ = (3 : BitVec 2) ++ (la ++ op ++ tk ++ sub ++ ea ++ eb : BitVec 30) := by
    apply BitVec.eq_of_toNat_eq
    simp only [CRaw.word, BitVec.toNat_append, Nat.shiftLeft_or_distrib, ← Nat.shiftLeft_add, Nat.or_assoc]
  show kindParcels (CRaw.word ⟨la, op, tk, sub, ea, eb⟩) = 2
  rw [h, kindParcels_append]; rfl
theorem shape_encEI (op : BitVec 8) (imm : Word) : wordShape (encEI op imm) := shape_encE 0 op 0 0 0 0 0 0 0 0

end Sys2Proof.Machine

namespace Sys2Proof.Laws.F

/-- R22: the kind bits of an instruction's first parcel give the number of its parcels, in every version. -/
def Statement (i : Instr) : Prop := ∀ ver, Machine.wordShape (encode ver i)

open Machine

theorem nop : Statement .nop := fun _ => shape_encU ..
theorem endw : Statement .endw := fun _ => shape_encU ..
theorem ret (sa : SReg) : Statement (.ret sa) := fun _ => shape_encU ..
theorem jr (sa : SReg) : Statement (.jr sa) := fun _ => shape_encU ..
theorem sAdd (sd : SReg) (sa : SReg) (sb : SReg) : Statement (.sAdd sd sa sb) := fun _ => shape_encUR ..
theorem sAddImm (sd : SReg) (sa : SReg) (imm : BitVec 11) : Statement (.sAddImm sd sa imm) := fun _ => shape_encUI ..
theorem sSub (sd : SReg) (sa : SReg) (sb : SReg) : Statement (.sSub sd sa sb) := fun _ => shape_encUR ..
theorem sSubImm (sd : SReg) (sa : SReg) (imm : BitVec 11) : Statement (.sSubImm sd sa imm) := fun _ => shape_encUI ..
theorem sMul (sd : SReg) (sa : SReg) (sb : SReg) : Statement (.sMul sd sa sb) := fun _ => shape_encUR ..
theorem sMulImm (sd : SReg) (sa : SReg) (imm : BitVec 11) : Statement (.sMulImm sd sa imm) := fun _ => shape_encUI ..
theorem sMulhI32 (sd : SReg) (sa : SReg) (sb : SReg) : Statement (.sMulhI32 sd sa sb) := fun _ => shape_encUR ..
theorem sMulhI32Imm (sd : SReg) (sa : SReg) (imm : BitVec 11) : Statement (.sMulhI32Imm sd sa imm) := fun _ => shape_encUI ..
theorem sMulhN32 (sd : SReg) (sa : SReg) (sb : SReg) : Statement (.sMulhN32 sd sa sb) := fun _ => shape_encUR ..
theorem sMulhN32Imm (sd : SReg) (sa : SReg) (imm : BitVec 11) : Statement (.sMulhN32Imm sd sa imm) := fun _ => shape_encUI ..
theorem sAnd (sd : SReg) (sa : SReg) (sb : SReg) : Statement (.sAnd sd sa sb) := fun _ => shape_encUR ..
theorem sAndImm (sd : SReg) (sa : SReg) (imm : BitVec 11) : Statement (.sAndImm sd sa imm) := fun _ => shape_encUI ..
theorem sOr (sd : SReg) (sa : SReg) (sb : SReg) : Statement (.sOr sd sa sb) := fun _ => shape_encUR ..
theorem sOrImm (sd : SReg) (sa : SReg) (imm : BitVec 11) : Statement (.sOrImm sd sa imm) := fun _ => shape_encUI ..
theorem sXor (sd : SReg) (sa : SReg) (sb : SReg) : Statement (.sXor sd sa sb) := fun _ => shape_encUR ..
theorem sXorImm (sd : SReg) (sa : SReg) (imm : BitVec 11) : Statement (.sXorImm sd sa imm) := fun _ => shape_encUI ..
theorem sShl (sd : SReg) (sa : SReg) (sb : SReg) : Statement (.sShl sd sa sb) := fun _ => shape_encUR ..
theorem sShlImm (sd : SReg) (sa : SReg) (imm : BitVec 11) : Statement (.sShlImm sd sa imm) := fun _ => shape_encUI ..
theorem sShr (sd : SReg) (sa : SReg) (sb : SReg) : Statement (.sShr sd sa sb) := fun _ => shape_encUR ..
theorem sShrImm (sd : SReg) (sa : SReg) (imm : BitVec 11) : Statement (.sShrImm sd sa imm) := fun _ => shape_encUI ..
theorem sSra (sd : SReg) (sa : SReg) (sb : SReg) : Statement (.sSra sd sa sb) := fun _ => shape_encUR ..
theorem sSraImm (sd : SReg) (sa : SReg) (imm : BitVec 11) : Statement (.sSraImm sd sa imm) := fun _ => shape_encUI ..
theorem sMinI32 (sd : SReg) (sa : SReg) (sb : SReg) : Statement (.sMinI32 sd sa sb) := fun _ => shape_encUR ..
theorem sMinI32Imm (sd : SReg) (sa : SReg) (imm : BitVec 11) : Statement (.sMinI32Imm sd sa imm) := fun _ => shape_encUI ..
theorem sMinN32 (sd : SReg) (sa : SReg) (sb : SReg) : Statement (.sMinN32 sd sa sb) := fun _ => shape_encUR ..
theorem sMinN32Imm (sd : SReg) (sa : SReg) (imm : BitVec 11) : Statement (.sMinN32Imm sd sa imm) := fun _ => shape_encUI ..
theorem sMaxI32 (sd : SReg) (sa : SReg) (sb : SReg) : Statement (.sMaxI32 sd sa sb) := fun _ => shape_encUR ..
theorem sMaxI32Imm (sd : SReg) (sa : SReg) (imm : BitVec 11) : Statement (.sMaxI32Imm sd sa imm) := fun _ => shape_encUI ..
theorem sMaxN32 (sd : SReg) (sa : SReg) (sb : SReg) : Statement (.sMaxN32 sd sa sb) := fun _ => shape_encUR ..
theorem sMaxN32Imm (sd : SReg) (sa : SReg) (imm : BitVec 11) : Statement (.sMaxN32Imm sd sa imm) := fun _ => shape_encUI ..
theorem sCmpI32 (cc : Cond) (qd : Ix3) (sa : SReg) (sb : SReg) : Statement (.sCmpI32 cc qd sa sb) := fun _ => shape_encUR ..
theorem sCmpI32Imm (cc : Cond) (qd : Ix3) (sa : SReg) (imm : BitVec 11) : Statement (.sCmpI32Imm cc qd sa imm) := fun _ => shape_encUI ..
theorem sCmpN32 (cc : Cond) (qd : Ix3) (sa : SReg) (sb : SReg) : Statement (.sCmpN32 cc qd sa sb) := fun _ => shape_encUR ..
theorem sCmpN32Imm (cc : Cond) (qd : Ix3) (sa : SReg) (imm : BitVec 11) : Statement (.sCmpN32Imm cc qd sa imm) := fun _ => shape_encUI ..
theorem sSel (sd : SReg) (sa : SReg) (sb : SReg) (neg : Bool) (q : Ix3) : Statement (.sSel sd sa sb neg q) := fun _ => shape_encUR ..
theorem sMov (sd : SReg) (sa : SReg) : Statement (.sMov sd sa) := fun _ => shape_encUR ..
theorem sMovSpecial (sd : SReg) (x : Special) : Statement (.sMovSpecial sd x) := fun _ => shape_encUR ..
theorem sAddi (sd : SReg) (sa : SReg) (imm : BitVec 12) : Statement (.sAddi sd sa imm) := fun _ => shape_encU ..
theorem sBfx (sd : SReg) (sa : SReg) (width : BitVec 6) (pos : BitVec 5) : Statement (.sBfx sd sa width pos) := fun _ => shape_encU ..
theorem sPopc (sd : SReg) (sa : SReg) : Statement (.sPopc sd sa) := fun _ => shape_encU ..
theorem sClz (sd : SReg) (sa : SReg) : Statement (.sClz sd sa) := fun _ => shape_encU ..
theorem sQop (op : QOp) (qd : Ix3) (qa : Ix3) (qb : Ix3) : Statement (.sQop op qd qa qb) := fun _ => shape_encU ..
theorem sLd (ty : UTy) (space : Space) (sd : SReg) (sa : SReg) (off : BitVec 7) : Statement (.sLd ty space sd sa off) := fun _ => shape_encU ..
theorem sSt (ty : UTy) (space : Space) (sd : SReg) (sa : SReg) (off : BitVec 7) : Statement (.sSt ty space sd sa off) := fun _ => shape_encU ..
theorem sAtom (op : AOp) (wide : Bool) (space : Space) (sd : SReg) (sa : SReg) : Statement (.sAtom op wide space sd sa) := fun _ => shape_encU ..
theorem br (off : BitVec 20) : Statement (.br off) := fun _ => shape_encI ..
theorem bc (neg : Bool) (q : Ix3) (off : BitVec 20) : Statement (.bc neg q off) := fun _ => shape_encI ..
theorem bv (neg : Bool) (p : Ix3) (j : BitVec 4) (off : BitVec 16) : Statement (.bv neg p j off) := fun _ => shape_encI ..
theorem call (sd : SReg) (off : BitVec 20) : Statement (.call sd off) := fun _ => shape_encI ..
theorem loop (sc : SReg) (off : BitVec 20) : Statement (.loop sc off) := fun _ => shape_encI ..
theorem join (j : BitVec 4) : Statement (.join j) := fun _ => shape_encI ..
theorem sMovi (sd : SReg) (imm : BitVec 20) : Statement (.sMovi sd imm) := fun _ => shape_encI ..
theorem sLui (sd : SReg) (imm : BitVec 20) : Statement (.sLui sd imm) := fun _ => shape_encI ..
theorem add (h : Hdr) (vd : VReg) (x : Bin) : Statement (.add h vd x) := fun _ => shape_encBin ..
theorem sub (h : Hdr) (vd : VReg) (x : Bin) : Statement (.sub h vd x) := fun _ => shape_encBin ..
theorem mul (h : Hdr) (vd : VReg) (x : Bin) : Statement (.mul h vd x) := fun _ => shape_encBin ..
theorem mulh (h : Hdr) (g : Sgn) (vd : VReg) (x : Bin) : Statement (.mulh h g vd x) := fun _ => shape_encBin ..
theorem and (h : Hdr) (vd : VReg) (x : Bin) : Statement (.and h vd x) := fun _ => shape_encBin ..
theorem or (h : Hdr) (vd : VReg) (x : Bin) : Statement (.or h vd x) := fun _ => shape_encBin ..
theorem xor (h : Hdr) (vd : VReg) (x : Bin) : Statement (.xor h vd x) := fun _ => shape_encBin ..
theorem andn (h : Hdr) (vd : VReg) (x : Bin) : Statement (.andn h vd x) := fun _ => shape_encBin ..
theorem shl (h : Hdr) (vd : VReg) (x : Bin) : Statement (.shl h vd x) := fun _ => shape_encBin ..
theorem shr (h : Hdr) (vd : VReg) (x : Bin) : Statement (.shr h vd x) := fun _ => shape_encBin ..
theorem sra (h : Hdr) (vd : VReg) (x : Bin) : Statement (.sra h vd x) := fun _ => shape_encBin ..
theorem rot (h : Hdr) (vd : VReg) (x : Bin) : Statement (.rot h vd x) := fun _ => shape_encBin ..
theorem min (h : Hdr) (g : Sgn) (vd : VReg) (x : Bin) : Statement (.min h g vd x) := fun _ => shape_encBin ..
theorem max (h : Hdr) (g : Sgn) (vd : VReg) (x : Bin) : Statement (.max h g vd x) := fun _ => shape_encBin ..
theorem mov (h : Hdr) (vd : VReg) (x : Un) : Statement (.mov h vd x) := fun _ => shape_encUn ..
theorem not (h : Hdr) (vd : VReg) (x : Un) : Statement (.not h vd x) := fun _ => shape_encUn ..
theorem abs (h : Hdr) (vd : VReg) (x : Un) : Statement (.abs h vd x) := fun _ => shape_encUn ..
theorem neg (h : Hdr) (vd : VReg) (x : Un) : Statement (.neg h vd x) := fun _ => shape_encUn ..
theorem clz (h : Hdr) (vd : VReg) (x : Un) : Statement (.clz h vd x) := fun _ => shape_encUn ..
theorem popc (h : Hdr) (vd : VReg) (x : Un) : Statement (.popc h vd x) := fun _ => shape_encUn ..
theorem brev (h : Hdr) (vd : VReg) (x : Un) : Statement (.brev h vd x) := fun _ => shape_encUn ..
theorem movi (h : Hdr) (vd : VReg) (imm : Word) : Statement (.movi h vd imm) := fun _ => kind_encH _ 2
theorem mad (h : Hdr) (vd : VReg) (va : VReg) (b : SrcB) (vc : VReg) : Statement (.mad h vd va b vc) := fun _ => shape_encLB ..
theorem sad (h : Hdr) (g : Sgn) (vd : VReg) (va : VReg) (b : SrcB) (vc : VReg) : Statement (.sad h g vd va b vc) := fun _ => shape_encLB ..
theorem dot4 (h : Hdr) (g : Sgn) (sat : Bool) (vd : VReg) (va : VReg) (b : SrcB) (vc : VReg) : Statement (.dot4 h g sat vd va b vc) := fun _ => shape_encLB ..
theorem bfx (h : Hdr) (g : Sgn) (vd : VReg) (va : VReg) (pos : BitVec 5) (width : BitVec 6) : Statement (.bfx h g vd va pos width) := fun _ => shape_encL ..
theorem bfi (h : Hdr) (vd : VReg) (va : VReg) (vb : VReg) (pos : BitVec 5) (width : BitVec 6) : Statement (.bfi h vd va vb pos width) := fun _ => shape_encL ..
theorem sel (h : Hdr) (vd : VReg) (va : VReg) (b : SrcB) (neg : Bool) (p : Ix3) : Statement (.sel h vd va b neg p) := fun _ => shape_encLB ..
theorem cmp (h : Hdr) (g : Sgn) (cc : Cond) (pd : Ix3) (va : VReg) (b : SrcB) : Statement (.cmp h g cc pd va b) := fun _ => shape_encLB ..
theorem div (h : Hdr) (g : Sgn) (vd : VReg) (va : VReg) (b : SrcB) : Statement (.div h g vd va b) := fun _ => shape_encLB ..
theorem rem (h : Hdr) (g : Sgn) (vd : VReg) (va : VReg) (b : SrcB) : Statement (.rem h g vd va b) := fun _ => shape_encLB ..
theorem fadd (h : Hdr) (vd : VReg) (x : FBin) : Statement (.fadd h vd x) := fun _ => shape_encFBin ..
theorem fsub (h : Hdr) (vd : VReg) (x : FBin) : Statement (.fsub h vd x) := fun _ => shape_encFBin ..
theorem fmul (h : Hdr) (vd : VReg) (x : FBin) : Statement (.fmul h vd x) := fun _ => shape_encFBin ..
theorem fmin (h : Hdr) (vd : VReg) (x : FSel) : Statement (.fmin h vd x) := fun _ => shape_encFSel ..
theorem fmax (h : Hdr) (vd : VReg) (x : FSel) : Statement (.fmax h vd x) := fun _ => shape_encFSel ..
theorem ffma (h : Hdr) (vd : VReg) (x : FTri) : Statement (.ffma h vd x) := fun _ => shape_encFTri ..
theorem fcmp (h : Hdr) (cc : Cond) (pd : Ix3) (va : VReg) (vb : VReg) : Statement (.fcmp h cc pd va vb) := fun _ => shape_encL0 ..
theorem fclass (h : Hdr) (f : FFmt) (vd : VReg) (va : VReg) : Statement (.fclass h f vd va) := fun _ => shape_encL0 ..
theorem frcp (h : Hdr) (rm : Rm) (vd : VReg) (va : VReg) : Statement (.frcp h rm vd va) := fun _ => shape_encL0 ..
theorem frsq (h : Hdr) (vd : VReg) (va : VReg) : Statement (.frsq h vd va) := fun _ => shape_encL0 ..
theorem fsqrt (h : Hdr) (rm : Rm) (vd : VReg) (va : VReg) : Statement (.fsqrt h rm vd va) := fun _ => shape_encL0 ..
theorem fex2 (h : Hdr) (vd : VReg) (va : VReg) : Statement (.fex2 h vd va) := fun _ => shape_encL0 ..
theorem flg2 (h : Hdr) (vd : VReg) (va : VReg) : Statement (.flg2 h vd va) := fun _ => shape_encL0 ..
theorem fsin (h : Hdr) (vd : VReg) (va : VReg) : Statement (.fsin h vd va) := fun _ => shape_encL0 ..
theorem fcos (h : Hdr) (vd : VReg) (va : VReg) : Statement (.fcos h vd va) := fun _ => shape_encL0 ..
theorem ftanh (h : Hdr) (vd : VReg) (va : VReg) : Statement (.ftanh h vd va) := fun _ => shape_encL0 ..
theorem fcvt (h : Hdr) (sat : Bool) (rm : Rm) (dst : Fmt) (src : Fmt) (vd : VReg) (va : VReg) : Statement (.fcvt h sat rm dst src vd va) := fun _ => shape_encL0 ..
theorem frnd (h : Hdr) (rm : Rm) (vd : VReg) (va : VReg) : Statement (.frnd h rm vd va) := fun _ => shape_encL0 ..
theorem badd2 (h : Hdr) (vd : VReg) (x : FBin) : Statement (.badd2 h vd x) := fun _ => shape_encFBin ..
theorem bmul2 (h : Hdr) (vd : VReg) (x : FBin) : Statement (.bmul2 h vd x) := fun _ => shape_encFBin ..
theorem bfma2 (h : Hdr) (vd : VReg) (x : FTri) : Statement (.bfma2 h vd x) := fun _ => shape_encFTri ..
theorem bfma2V2 (h : Hdr) (vd : VReg) (x : FTri) : Statement (.bfma2V2 h vd x) := fun _ => shape_encFTri ..
theorem shfl (h : Hdr) (m : ShMode) (sw : Bool) (vd : VReg) (va : VReg) (b : SrcB) : Statement (.shfl h m sw vd va b) := fun _ => shape_encLB ..
theorem bal (h : Hdr) (sw : Bool) (vd : VReg) (neg : Bool) (p : Ix3) : Statement (.bal h sw vd neg p) := fun _ => shape_encL0 ..
theorem scan (h : Hdr) (op : ScanOp) (ex : Bool) (sw : Bool) (vd : VReg) (va : VReg) : Statement (.scan h op ex sw vd va) := fun _ => shape_encL0 ..
theorem red (h : Hdr) (op : ScanOp) (sw : Bool) (vd : VReg) (va : VReg) : Statement (.red h op sw vd va) := fun _ => shape_encL0 ..
theorem cx (h : Hdr) (ty : CxTy) (sw : Bool) (vd : VReg) (va : VReg) (b : SrcB) (neg : Bool) (p : Ix3) : Statement (.cx h ty sw vd va b neg p) := fun _ => shape_encLB ..
theorem vany (h : Hdr) (sw : Bool) (pd : Ix3) (neg : Bool) (p : Ix3) : Statement (.vany h sw pd neg p) := fun _ => shape_encL0 ..
theorem vall (h : Hdr) (sw : Bool) (pd : Ix3) (neg : Bool) (p : Ix3) : Statement (.vall h sw pd neg p) := fun _ => shape_encL0 ..
theorem meq (h : Hdr) (sw : Bool) (vd : VReg) (va : VReg) : Statement (.meq h sw vd va) := fun _ => shape_encL0 ..
theorem bmAnd (h : Hdr) (vd : VReg) (p : Ix3) (va : VReg) (vb : VReg) : Statement (.bmAnd h vd p va vb) := fun _ => shape_encL0 ..
theorem bmRank (h : Hdr) (vd : VReg) (va : VReg) (b : SrcB) (vc : VReg) : Statement (.bmRank h vd va b vc) := fun _ => shape_encLB ..
theorem bmSel (h : Hdr) (vd : VReg) (va : VReg) (b : SrcB) : Statement (.bmSel h vd va b) := fun _ => shape_encLB ..
theorem isect (h : Hdr) (g : Sgn) (sp : Bool) (vd : VReg) (va : VReg) (vb : VReg) (vc : VReg) (imm : BitVec 16) : Statement (.isect h g sp vd va vb vc imm) := fun _ => shape_encL ..
theorem sow (h : Hdr) (va : VReg) : Statement (.sow h va) := fun _ => shape_encL0 ..
theorem sowSg (h : Hdr) (va : VReg) : Statement (.sowSg h va) := fun _ => shape_encL0 ..
theorem sowQ (h : Hdr) (vd : VReg) (va : VReg) : Statement (.sowQ h vd va) := fun _ => shape_encL0 ..
theorem v2s (h : Hdr) (sd : SReg) (va : VReg) : Statement (.v2s h sd va) := fun _ => shape_encL0 ..
theorem s2v (h : Hdr) (vd : VReg) (sa : SReg) : Statement (.s2v h vd sa) := fun _ => shape_encL0 ..
theorem bdGet (h : Hdr) (vd : VReg) (src : BdSrc) : Statement (.bdGet h vd src) := fun _ => shape_encL0 ..
theorem bdSet (h : Hdr) (mx : Bool) (dst : BdSrc) (va : VReg) : Statement (.bdSet h mx dst va) := fun _ => shape_encL0 ..
theorem bdClr (h : Hdr) (dst : BdSrc) : Statement (.bdClr h dst) := fun _ => shape_encL0 ..
theorem ld (h : Hdr) (a : Acc) (ty : LTy) (n : Cnt) (vd : VReg) (va : VReg) (off : BitVec 16) : Statement (.ld h a ty n vd va off) := fun _ => shape_encL ..
theorem st (h : Hdr) (a : Acc) (ty : LTy) (n : Cnt) (vd : VReg) (va : VReg) (off : BitVec 16) : Statement (.st h a ty n vd va off) := fun _ => shape_encL ..
theorem atom (h : Hdr) (op : AOp) (a : Acc) (g : Sgn) (vd : VReg) (va : VReg) (vb : VReg) (vc : VReg) (off : BitVec 13) : Statement (.atom h op a g vd va vb vc off) := fun _ => shape_encL ..
theorem fence (h : Hdr) (scope : Scope) : Statement (.fence h scope) := fun _ => shape_encL0 ..
theorem cpBlkLd (la : BitVec 4) (tk : Ix3) (r : Ring) (oc : SReg) (m : SReg) (n : SReg) : Statement (.cpBlkLd la tk r oc m n) := fun _ => shape_encE ..
theorem cpBlkSt (la : BitVec 4) (tk : Ix3) (r : Ring) (oc : SReg) (m : SReg) (n : SReg) : Statement (.cpBlkSt la tk r oc m n) := fun _ => shape_encE ..
theorem cpBlkMm (la : BitVec 4) (tk : Ix3) (r : Ring) (src : SReg) (dst : SReg) (n : SReg) : Statement (.cpBlkMm la tk r src dst n) := fun _ => shape_encE ..
theorem cpTenLd (la : BitVec 4) (tk : Ix3) (r : Ring) (oc : SReg) (l : SReg) : Statement (.cpTenLd la tk r oc l) := fun _ => shape_encE ..
theorem cpTenSt (la : BitVec 4) (tk : Ix3) (r : Ring) (oc : SReg) (l : SReg) : Statement (.cpTenSt la tk r oc l) := fun _ => shape_encE ..
theorem cpTenLdBnd (la : BitVec 4) (tk : Ix3) (r : Ring) (oc : SReg) (l : SReg) (i : Ix3) : Statement (.cpTenLdBnd la tk r oc l i) := fun _ => shape_encE ..
theorem cpTenStBnd (la : BitVec 4) (tk : Ix3) (r : Ring) (oc : SReg) (l : SReg) (i : Ix3) : Statement (.cpTenStBnd la tk r oc l i) := fun _ => shape_encE ..
theorem cpTenLdBnda (la : BitVec 4) (tk : Ix3) (r : Ring) (oc : SReg) (l : SReg) : Statement (.cpTenLdBnda la tk r oc l) := fun _ => shape_encE ..
theorem cpTenLdBndw (la : BitVec 4) (tk : Ix3) (r : Ring) (oc : SReg) (l : SReg) : Statement (.cpTenLdBndw la tk r oc l) := fun _ => shape_encE ..
theorem cpRed (la : BitVec 4) (tk : Ix3) (r : Ring) (dir : BitVec 2) (op : RedOp) (ea : SReg) (eb : SReg) (n : SReg) : Statement (.cpRed la tk r dir op ea eb n) := fun _ => shape_encE ..
theorem cpFillOc (la : BitVec 4) (tk : Ix3) (r : Ring) (oc : SReg) (pat : SReg) (n : SReg) : Statement (.cpFillOc la tk r oc pat n) := fun _ => shape_encE ..
theorem cpFillMm (la : BitVec 4) (tk : Ix3) (r : Ring) (pat : SReg) (m : SReg) (n : SReg) : Statement (.cpFillMm la tk r pat m n) := fun _ => shape_encE ..
theorem cpGat (la : BitVec 4) (tk : Ix3) (r : Ring) (z : Ix3) (d : SReg) (lim : SReg) : Statement (.cpGat la tk r z d lim) := fun _ => shape_encE ..
theorem cpSct (la : BitVec 4) (tk : Ix3) (r : Ring) (z : Ix3) (d : SReg) (lim : SReg) : Statement (.cpSct la tk r z d lim) := fun _ => shape_encE ..
theorem tkWait (la : BitVec 4) (mask : BitVec 8) : Statement (.tkWait la mask) := fun _ => shape_encE ..
theorem tkWaitSt (la : BitVec 4) (sd : SReg) (mask : BitVec 8) : Statement (.tkWaitSt la sd mask) := fun _ => shape_encE ..
theorem rgAcqEmpty (la : BitVec 4) (r : RingSlot) : Statement (.rgAcqEmpty la r) := fun _ => shape_encE ..
theorem rgAcqFull (la : BitVec 4) (r : RingSlot) : Statement (.rgAcqFull la r) := fun _ => shape_encE ..
theorem rgRel (la : BitVec 4) (r : RingSlot) : Statement (.rgRel la r) := fun _ => shape_encE ..
theorem mxLdw (la : BitVec 4) (w : SReg) (f : SReg) : Statement (.mxLdw la w f) := fun _ => shape_encE ..
theorem mxFlip (la : BitVec 4) : Statement (.mxFlip la) := fun _ => shape_encE ..
theorem mxRun (la : BitVec 4) (tk : Ix3) (i : Ix3) (a : SReg) (f : SReg) : Statement (.mxRun la tk i a f) := fun _ => shape_encE ..
theorem mxRunV (la : BitVec 4) (tk : Ix3) (i : Ix3) (vx : VReg) (f : SReg) : Statement (.mxRunV la tk i vx f) := fun _ => shape_encE ..
theorem mxCmatId (la : BitVec 4) (tk : Ix3) (i : Ix3) : Statement (.mxCmatId la tk i) := fun _ => shape_encE ..
theorem mxCmatTr (la : BitVec 4) (tk : Ix3) (i : Ix3) : Statement (.mxCmatTr la tk i) := fun _ => shape_encE ..
theorem mxCmatPerm (la : BitVec 4) (tk : Ix3) (i : Ix3) (vx : VReg) : Statement (.mxCmatPerm la tk i vx) := fun _ => shape_encE ..
theorem mxCmatSum (la : BitVec 4) (tk : Ix3) (i : Ix3) : Statement (.mxCmatSum la tk i) := fun _ => shape_encE ..
theorem mxDrain (la : BitVec 4) (tk : Ix3) (i : Ix3) (fmt : Fmt) (sat : Bool) (rm : Rm) (vx : VReg) (vy : VReg) (c : SReg) : Statement (.mxDrain la tk i fmt sat rm vx vy c) := fun _ => shape_encE ..
theorem mxZero (la : BitVec 4) (i : Ix3) : Statement (.mxZero la i) := fun _ => shape_encE ..
theorem mxFence (la : BitVec 4) : Statement (.mxFence la) := fun _ => shape_encE ..
theorem mxWait (la : BitVec 4) (tk : Ix3) : Statement (.mxWait la tk) := fun _ => shape_encE ..
theorem mxBeg (la : BitVec 4) (i : Ix3) (n : Bool) : Statement (.mxBeg la i n) := fun _ => shape_encE ..
theorem mxRedo (la : BitVec 4) (tk : Ix3) (i : Ix3) (n : Bool) : Statement (.mxRedo la tk i n) := fun _ => shape_encE ..
theorem susp (sn : SReg) (st : SReg) (sc : SReg) : Statement (.susp sn st sc) := fun _ => shape_encE ..
theorem evAdd (la : BitVec 4) (sn : SReg) (sv : SReg) : Statement (.evAdd la sn sv) := fun _ => shape_encE ..
theorem evAddRet (la : BitVec 4) (sd : SReg) (sn : SReg) (sv : SReg) : Statement (.evAddRet la sd sn sv) := fun _ => shape_encE ..
theorem evSet (la : BitVec 4) (sn : SReg) (sv : SReg) : Statement (.evSet la sn sv) := fun _ => shape_encE ..
theorem evGet (la : BitVec 4) (sd : SReg) (sn : SReg) : Statement (.evGet la sd sn) := fun _ => shape_encE ..
theorem barSwath : Statement .barSwath := fun _ => shape_encE ..
theorem barTeam : Statement .barTeam := fun _ => shape_encE ..
theorem barGang : Statement .barGang := fun _ => shape_encE ..
theorem sgNew (la : BitVec 4) (sd : SReg) (sp : SReg) : Statement (.sgNew la sd sp) := fun _ => shape_encE ..
theorem sgJoin (la : BitVec 4) (st : SReg) : Statement (.sgJoin la st) := fun _ => shape_encE ..
theorem sgJoinClr (la : BitVec 4) : Statement (.sgJoinClr la) := fun _ => shape_encE ..
theorem sgVote (la : BitVec 4) (sd : SReg) (dh : SReg) : Statement (.sgVote la sd dh) := fun _ => shape_encE ..
theorem sgVoteAbst (la : BitVec 4) (sd : SReg) : Statement (.sgVoteAbst la sd) := fun _ => shape_encE ..
theorem sgCpt (la : BitVec 4) : Statement (.sgCpt la) := fun _ => shape_encE ..
theorem sgStatSt (la : BitVec 4) (sd : SReg) (sg : SReg) : Statement (.sgStatSt la sd sg) := fun _ => shape_encE ..
theorem sgStatHash (la : BitVec 4) (sd : SReg) (sg : SReg) : Statement (.sgStatHash la sd sg) := fun _ => shape_encE ..
theorem sgStatWait (la : BitVec 4) (sd : SReg) (sg : SReg) : Statement (.sgStatWait la sd sg) := fun _ => shape_encE ..
theorem sgFree (la : BitVec 4) (sg : SReg) : Statement (.sgFree la sg) := fun _ => shape_encE ..
theorem lnch (la : BitVec 4) (tk : Ix3) (q : SReg) (card : SReg) : Statement (.lnch la tk q card) := fun _ => shape_encE ..
theorem lnchTry (la : BitVec 4) (tk : Ix3) (q : SReg) (card : SReg) : Statement (.lnchTry la tk q card) := fun _ => shape_encE ..
theorem post (la : BitVec 4) (tk : Ix3) (q : SReg) (card : SReg) : Statement (.post la tk q card) := fun _ => shape_encE ..
theorem postTry (la : BitVec 4) (tk : Ix3) (q : SReg) (card : SReg) : Statement (.postTry la tk q card) := fun _ => shape_encE ..
theorem trap (imm : Word) : Statement (.trap imm) := fun _ => shape_encEI ..
theorem scall (imm : Word) : Statement (.scall imm) := fun _ => shape_encEI ..
theorem brk (imm : Word) : Statement (.brk imm) := fun _ => shape_encEI ..
theorem eretFc (sn : SReg) (st : SReg) : Statement (.eretFc sn st) := fun _ => shape_encE ..
theorem srGet (la : BitVec 4) (reg : BitVec 12) (sd : SReg) : Statement (.srGet la reg sd) := fun _ => shape_encE ..
theorem srSet (la : BitVec 4) (reg : BitVec 12) (ss : SReg) : Statement (.srSet la reg ss) := fun _ => shape_encE ..
theorem tlbInvPage (sa : SReg) (va : SReg) : Statement (.tlbInvPage sa va) := fun _ => shape_encE ..
theorem tlbInvAsid (sa : SReg) : Statement (.tlbInvAsid sa) := fun _ => shape_encE ..
theorem pgProbe (rd : SReg) (sa : SReg) (va : SReg) : Statement (.pgProbe rd sa va) := fun _ => shape_encE ..
theorem dqPush (la : BitVec 4) (q : SReg) (oc : SReg) (rd : SReg) : Statement (.dqPush la q oc rd) := fun _ => shape_encE ..
theorem dqPushTry (la : BitVec 4) (q : SReg) (oc : SReg) (rd : SReg) : Statement (.dqPushTry la q oc rd) := fun _ => shape_encE ..
theorem dqPop (la : BitVec 4) (q : SReg) (oc : SReg) (rd : SReg) : Statement (.dqPop la q oc rd) := fun _ => shape_encE ..
theorem dqPopTry (la : BitVec 4) (q : SReg) (oc : SReg) (rd : SReg) : Statement (.dqPopTry la q oc rd) := fun _ => shape_encE ..
theorem nxPut (tk : Ix3) (d : SReg) (n : SReg) (r : SReg) : Statement (.nxPut tk d n r) := fun _ => shape_encE ..
theorem nxGet (tk : Ix3) (d : SReg) (n : SReg) (r : SReg) : Statement (.nxGet tk d n r) := fun _ => shape_encE ..
theorem nxAtom (tk : Ix3) (op : AOp) (d : SReg) (v : SReg) (r : SReg) : Statement (.nxAtom tk op d v r) := fun _ => shape_encE ..
theorem nxSig (tk : Ix3) (d : SReg) (v : SReg) (r : SReg) : Statement (.nxSig tk d v r) := fun _ => shape_encE ..
theorem nxProbe (tk : Ix3) (rt : SReg) (r : SReg) : Statement (.nxProbe tk rt r) := fun _ => shape_encE ..
theorem nxTopo (tk : Ix3) (m : SReg) (r : SReg) : Statement (.nxTopo tk m r) := fun _ => shape_encE ..
theorem nxTree (tk : Ix3) (m : SReg) (r : SReg) : Statement (.nxTree tk m r) := fun _ => shape_encE ..
theorem lgAppTok (la : BitVec 4) (tk : Ix3) (a : SReg) (s : SReg) (r : SReg) : Statement (.lgAppTok la tk a s r) := fun _ => shape_encE ..
theorem lgAppCommit (la : BitVec 4) (tk : Ix3) (a : SReg) (s : SReg) (r : SReg) : Statement (.lgAppCommit la tk a s r) := fun _ => shape_encE ..
theorem lgAppVoid (la : BitVec 4) (tk : Ix3) (a : SReg) (s : SReg) (r : SReg) : Statement (.lgAppVoid la tk a s r) := fun _ => shape_encE ..
theorem illegalWord (f : DecFault) (parcel : Word) : Statement (.illegalWord f parcel) := fun _ => trivial
theorem fetchFault (c : FetchCause) (addr : Nat) : Statement (.fetchFault c addr) := fun _ => trivial
theorem copyChunk (die : Nat) (core : Nat) : Statement (.copyChunk die core) := fun _ => trivial
theorem gatherBatch (die : Nat) : Statement (.gatherBatch die) := fun _ => trivial
theorem matrixCommandPerform (die : Nat) (core : Nat) : Statement (.matrixCommandPerform die core) := fun _ => trivial
theorem jobReRun (die : Nat) (core : Nat) (slot : Nat) : Statement (.jobReRun die core slot) := fun _ => trivial
theorem eventCounterUpdate (ix : Nat) : Statement (.eventCounterUpdate ix) := fun _ => trivial
theorem swapOut (tid : Nat) : Statement (.swapOut tid) := fun _ => trivial
theorem swapReturn (tid : Nat) : Statement (.swapReturn tid) := fun _ => trivial
theorem ballotAccept (ix : Nat) : Statement (.ballotAccept ix) := fun _ => trivial
theorem cancelInstant (ix : Nat) : Statement (.cancelInstant ix) := fun _ => trivial
theorem pageReleaseWalk (ix : Nat) : Statement (.pageReleaseWalk ix) := fun _ => trivial
theorem groupRecordFree (die : Nat) (g : Nat) : Statement (.groupRecordFree die g) := fun _ => trivial
theorem cardAccept (ix : Nat) : Statement (.cardAccept ix) := fun _ => trivial
theorem teamPlace (die : Nat) : Statement (.teamPlace die) := fun _ => trivial
theorem gangReserve (die : Nat) : Statement (.gangReserve die) := fun _ => trivial
theorem plotRetire (plot : Nat) : Statement (.plotRetire plot) := fun _ => trivial
theorem dqEntryStore (link : Nat) : Statement (.dqEntryStore link) := fun _ => trivial
theorem fabricPacketReceive (ix : Nat) : Statement (.fabricPacketReceive ix) := fun _ => trivial
theorem fabricTimeout (ix : Nat) : Statement (.fabricTimeout ix) := fun _ => trivial
theorem logAppend (die : Nat) (core : Nat) : Statement (.logAppend die core) := fun _ => trivial
theorem sowRoundRetry (tid : Nat) : Statement (.sowRoundRetry tid) := fun _ => trivial
theorem siloResumption (tid : Nat) : Statement (.siloResumption tid) := fun _ => trivial
theorem powerStateEnter (die : Nat) (st : Nat) : Statement (.powerStateEnter die st) := fun _ => trivial
theorem powerStateExit (die : Nat) : Statement (.powerStateExit die) := fun _ => trivial
theorem wearRecompute (die : Nat) : Statement (.wearRecompute die) := fun _ => trivial
theorem sbalUpdate (die : Nat) : Statement (.sbalUpdate die) := fun _ => trivial
theorem siloStall (asid : Nat) : Statement (.siloStall asid) := fun _ => trivial
theorem contextDrained (asid : Nat) : Statement (.contextDrained asid) := fun _ => trivial
theorem relockEnd (die : Nat) : Statement (.relockEnd die) := fun _ => trivial
theorem preemptStage2 (asid : Nat) : Statement (.preemptStage2 asid) := fun _ => trivial
theorem preemptStage3 (asid : Nat) : Statement (.preemptStage3 asid) := fun _ => trivial
theorem pageWalk (asid : Nat) (va : Nat) : Statement (.pageWalk asid va) := fun _ => trivial
theorem hrecovWrite (v : Word) : Statement (.hrecovWrite v) := fun _ => trivial
theorem hlnchWrite (v : BitVec 64) : Statement (.hlnchWrite v) := fun _ => trivial
theorem hcrtailWrite (v : Word) : Statement (.hcrtailWrite v) := fun _ => trivial
theorem hostRegisterWrite (off : Nat) (v : BitVec 64) : Statement (.hostRegisterWrite off v) := fun _ => trivial
theorem hostMemoryRead (addr : Nat) (len : Nat) : Statement (.hostMemoryRead addr len) := fun _ => trivial
theorem hostMemoryWrite (addr : Nat) (bytes : List Byte) : Statement (.hostMemoryWrite addr bytes) := fun _ => trivial
theorem managementRequest (req : Nat) : Statement (.managementRequest req) := fun _ => trivial
theorem lifeCycleCommand (cmd : Nat) (bytes : List Byte) : Statement (.lifeCycleCommand cmd bytes) := fun _ => trivial
theorem getMeasurements (nonce : List Byte) : Statement (.getMeasurements nonce) := fun _ => trivial
theorem powerWindow (die : Nat) (reading : PowerReading) : Statement (.powerWindow die reading) := fun _ => trivial
theorem fqsizeWrite (die : Nat) (v : Word) : Statement (.fqsizeWrite die v) := fun _ => trivial
theorem fqbaseWrite (die : Nat) (v : BitVec 64) : Statement (.fqbaseWrite die v) := fun _ => trivial
theorem hcrsizeWrite (v : Word) : Statement (.hcrsizeWrite v) := fun _ => trivial
theorem hostLinkTraining (cxl : Bool) : Statement (.hostLinkTraining cxl) := fun _ => trivial
theorem fqtailWrite (die : Nat) (v : Word) : Statement (.fqtailWrite die v) := fun _ => trivial
theorem pctlPreempt (asid : Nat) : Statement (.pctlPreempt asid) := fun _ => trivial
theorem pctlTeardown (asid : Nat) : Statement (.pctlTeardown asid) := fun _ => trivial
theorem pctlRelease (asid : Nat) : Statement (.pctlRelease asid) := fun _ => trivial
theorem qownSet (queue : Nat) (asid : Nat) : Statement (.qownSet queue asid) := fun _ => trivial
theorem qownClear (queue : Nat) : Statement (.qownClear queue) := fun _ => trivial
theorem dfreqWrite (die : Nat) (v : Word) : Statement (.dfreqWrite die v) := fun _ => trivial
theorem lattolWrite (v : Word) : Statement (.lattolWrite v) := fun _ => trivial
theorem fqactResume (die : Nat) (index : Nat) : Statement (.fqactResume die index) := fun _ => trivial
theorem fqactEnd (die : Nat) (index : Nat) : Statement (.fqactEnd die index) := fun _ => trivial
theorem linkStateChange (port : Nat) (up : Bool) : Statement (.linkStateChange port up) := fun _ => trivial
theorem fabricLoadUpdate (first : Nat) : Statement (.fabricLoadUpdate first) := fun _ => trivial
theorem scrubPass (die : Nat) (err : Option ScrubErr) : Statement (.scrubPass die err) := fun _ => trivial
theorem fieldReread (asid : Nat) : Statement (.fieldReread asid) := fun _ => trivial
theorem tlbInvAll : Statement .tlbInvAll := fun _ => shape_encE ..
theorem tlbSync : Statement .tlbSync := fun _ => shape_encE ..
theorem idle : Statement .idle := fun _ => shape_encE ..
theorem eret : Statement .eret := fun _ => shape_encE ..
theorem meridianTick : Statement .meridianTick := fun _ => trivial
theorem packageReset : Statement .packageReset := fun _ => trivial
theorem recoveryVerifyDone : Statement .recoveryVerifyDone := fun _ => trivial
theorem hostCompletionRecord : Statement .hostCompletionRecord := fun _ => trivial
theorem thermalTrip : Statement .thermalTrip := fun _ => trivial

end Sys2Proof.Laws.F
end

