-- ==== Sys2Proof/Tests/Slice0.lean ====
section
/-! SUPPORT. The author's tests: words of each family written out from the encoding tables, terms that are no instructions, what
single words do, and for each statement a state that meets its hypotheses. Expected values come from the rules named. -/

open Sys2Proof Sys2Proof.Machine Sys2Proof.Claims

namespace Sys2Proof.Tests

/-! ### Decoding -/

/-- Version 3 reads each of these words as its instruction. -/
def reads (l : List (List Word × Instr)) : Bool := l.all fun x => match decode 3 x.1 with | .ok i => decide (i = x.2) | .error _ => false

/-- R25, R28. -/
theorem test_decode_uniform_two_source : reads [
    ([0x081460E0], .sAdd 5 6 7),
    ([0x08146FFD], .sAddImm 5 6 (-3)),
    ([0x091460E0], .sSub 5 6 7),
    ([0x09146FFD], .sSubImm 5 6 (-3)),
    ([0x0A1460E0], .sMul 5 6 7),
    ([0x0A146FFD], .sMulImm 5 6 (-3)),
    ([0x0B1460E0], .sMulhI32 5 6 7),
    ([0x0B146FFD], .sMulhI32Imm 5 6 (-3)),
    ([0x0C1460E0], .sMulhN32 5 6 7),
    ([0x0C146FFD], .sMulhN32Imm 5 6 (-3)),
    ([0x0D1460E0], .sAnd 5 6 7),
    ([0x0D146FFD], .sAndImm 5 6 (-3)),
    ([0x0E1460E0], .sOr 5 6 7),
    ([0x0E146FFD], .sOrImm 5 6 (-3)),
    ([0x0F1460E0], .sXor 5 6 7),
    ([0x0F146FFD], .sXorImm 5 6 (-3)),
    ([0x101460E0], .sShl 5 6 7),
    ([0x10146FFD], .sShlImm 5 6 (-3)),
    ([0x111460E0], .sShr 5 6 7),
    ([0x11146FFD], .sShrImm 5 6 (-3)),
    ([0x121460E0], .sSra 5 6 7),
    ([0x12146FFD], .sSraImm 5 6 (-3)),
    ([0x131460E0], .sMinI32 5 6 7),
    ([0x13146FFD], .sMinI32Imm 5 6 (-3)),
    ([0x141460E0], .sMinN32 5 6 7),
    ([0x14146FFD], .sMinN32Imm 5 6 (-3)),
    ([0x151460E0], .sMaxI32 5 6 7),
    ([0x15146FFD], .sMaxI32Imm 5 6 (-3)),
    ([0x161460E0], .sMaxN32 5 6 7),
    ([0x16146FFD], .sMaxN32Imm 5 6 (-3))] = true := by decide

/-- R25, R26, R28, R30. -/
theorem test_decode_uniform_other : reads [
    ([0x01000000], .nop),
    ([0x02000000], .endw),
    ([0x03009000], .ret 9),
    ([0x04009000], .jr 9),
    ([0x174C60E0], .sCmpI32 .lt 3 6 7),
    ([0x17886FFF], .sCmpI32Imm .gt 2 6 (-1)),
    ([0x186C60E0], .sCmpN32 .le 3 6 7),
    ([0x18248804], .sCmpN32Imm .ne 1 8 4),
    ([0x191460EC], .sSel 5 6 7 true 4),
    ([0x1A146000], .sMov 5 6),
    ([0x1A205010], .sMovSpecial 8 .sheaf),
    ([0x1B146FFE], .sAddi 5 6 (-2)),
    ([0x1C146983], .sBfx 5 6 12 3),
    ([0x1D146000], .sPopc 5 6),
    ([0x1E146000], .sClz 5 6),
    ([0x1F1460E3], .sQop .andn 5 6 7),
    ([0x20146889], .sLd .n16 .sp 5 6 9),
    ([0x21106B08], .sSt .w64 .stk 4 6 8),
    ([0x22106AF0], .sAtom .cas true .sp 4 6)] = true := by decide

/-- R27, R29. -/
theorem test_decode_uniform_immediate : reads [
    ([0x400FFFFB], .br (-5)),
    ([0x44B00069], .bc true 3 105),
    ([0x48930028], .bv true 1 3 40),
    ([0x4EE0000C], .call 46 12),
    ([0x50BFFFE8], .loop 11 (-24)),
    ([0x54030000], .join 3),
    ([0x58A04000], .sMovi 10 16384),
    ([0x5D200400], .sLui 18 0x400)] = true := by decide

/-- R31 to R33, R36, R37, R123, R124. -/
theorem test_decode_lane_class_a : reads [
    ([0x80700000, 0x012854B0, 0x00000000], .add ⟨0, false, 7, 0⟩ 20 (.one (.reg 21) (.reg 22))),
    ([0x80700000, 0x022854B0, 0x00000000], .sub ⟨0, false, 7, 0⟩ 20 (.one (.reg 21) (.reg 22))),
    ([0x80700000, 0x032854B0, 0x00000000], .mul ⟨0, false, 7, 0⟩ 20 (.one (.reg 21) (.reg 22))),
    ([0x80700000, 0x042854B1, 0x00000000], .mulh ⟨0, false, 7, 0⟩ .n32 20 (.one (.reg 21) (.reg 22))),
    ([0x80700000, 0x052854B0, 0x00000000], .and ⟨0, false, 7, 0⟩ 20 (.one (.reg 21) (.reg 22))),
    ([0x80700000, 0x062854B0, 0x00000000], .or ⟨0, false, 7, 0⟩ 20 (.one (.reg 21) (.reg 22))),
    ([0x80700000, 0x072854B0, 0x00000000], .xor ⟨0, false, 7, 0⟩ 20 (.one (.reg 21) (.reg 22))),
    ([0x80700000, 0x082854B0, 0x00000000], .andn ⟨0, false, 7, 0⟩ 20 (.one (.reg 21) (.reg 22))),
    ([0x80700000, 0x092854B0, 0x00000000], .shl ⟨0, false, 7, 0⟩ 20 (.one (.reg 21) (.reg 22))),
    ([0x80700000, 0x0A2854B0, 0x00000000], .shr ⟨0, false, 7, 0⟩ 20 (.one (.reg 21) (.reg 22))),
    ([0x80700000, 0x0B2854B0, 0x00000000], .sra ⟨0, false, 7, 0⟩ 20 (.one (.reg 21) (.reg 22))),
    ([0x80700000, 0x0C2854B0, 0x00000000], .rot ⟨0, false, 7, 0⟩ 20 (.one (.reg 21) (.reg 22))),
    ([0x80700000, 0x0D2854B0, 0x00000000], .min ⟨0, false, 7, 0⟩ .i32 20 (.one (.reg 21) (.reg 22))),
    ([0x80700000, 0x0E2854B1, 0x00000000], .max ⟨0, false, 7, 0⟩ .n32 20 (.one (.reg 21) (.reg 22))),
    ([0x80700000, 0x01281000, 0x0180FFFC], .add ⟨0, false, 7, 0⟩ 20 (.one (.special .lane) (.imm (-4)))),
    ([0x8DA05000, 0x01080410, 0x020A0418], .add ⟨3, true, 2, 5⟩ 4 (.pair 1 2 ⟨.sub, 5, 1, 3⟩)),
    ([0x81700000, 0x09080410, 0x140A0C00], .shl ⟨0, false, 7, 0⟩ 4 (.pair 1 2 ⟨.clz, 5, 3, 0⟩)),
    ([0x80700000, 0x10285400, 0x00000000], .mov ⟨0, false, 7, 0⟩ 20 (.one (.reg 21))),
    ([0x80700000, 0x11285400, 0x00000000], .not ⟨0, false, 7, 0⟩ 20 (.one (.reg 21))),
    ([0x80700000, 0x12285400, 0x00000000], .abs ⟨0, false, 7, 0⟩ 20 (.one (.reg 21))),
    ([0x80700000, 0x13285400, 0x00000000], .neg ⟨0, false, 7, 0⟩ 20 (.one (.reg 21))),
    ([0x80700000, 0x14285400, 0x00000000], .clz ⟨0, false, 7, 0⟩ 20 (.one (.reg 21))),
    ([0x80700000, 0x15285400, 0x00000000], .popc ⟨0, false, 7, 0⟩ 20 (.one (.reg 21))),
    ([0x80700000, 0x16285400, 0x00000000], .brev ⟨0, false, 7, 0⟩ 20 (.one (.reg 21)))] = true := by decide

/-- R122, R125 to R129. -/
theorem test_decode_lane_integer : reads [
    ([0x82700000, 0x172E0000, 0x12345678], .movi ⟨0, false, 7, 0⟩ 23 0x12345678),
    ([0x80700000, 0x18285400, 0x2D00FFF9], .mad ⟨0, false, 7, 0⟩ 20 21 (.imm (-7)) 22),
    ([0x80700000, 0x192854BD, 0x2C000000], .sad ⟨0, false, 7, 0⟩ .n32 20 21 (.reg 23) 22),
    ([0x80700000, 0x1A2854BC, 0x2C010000], .dot4 ⟨0, false, 7, 0⟩ .i32 true 20 21 (.reg 23) 22),
    ([0x80700000, 0x1B285400, 0x00000C03], .bfx ⟨0, false, 7, 0⟩ .i32 20 21 3 12),
    ([0x80700000, 0x1C2854B0, 0x00000905], .bfi ⟨0, false, 7, 0⟩ 20 21 22 5 9),
    ([0x80700000, 0x1D2854B0, 0x000B0000], .sel ⟨0, false, 7, 0⟩ 20 21 (.reg 22) true 3),
    ([0x80700000, 0x1E020011, 0x00100000], .cmp ⟨0, false, 7, 0⟩ .n32 .lt 1 0 (.reg 2)),
    ([0x80700000, 0x20285401, 0x0100000A], .div ⟨0, false, 7, 0⟩ .n32 20 21 (.imm 10)),
    ([0x80700000, 0x212854B0, 0x00000000], .rem ⟨0, false, 7, 0⟩ .i32 20 21 (.reg 22)),
    ([0x80700000, 0x64645400, 0x00000000], .v2s ⟨0, false, 7, 0⟩ 50 21),
    ([0x80700000, 0x6528CC00, 0x00000000], .s2v ⟨0, false, 7, 0⟩ 20 51)] = true := by decide

/-- R131, R132, R142, R143. -/
theorem test_decode_lane_floating : reads [
    ([0x80700000, 0x302854B0, 0x00200000], .fadd ⟨0, false, 7, 0⟩ 20 (.one 21 22 .zero)),
    ([0x80700000, 0x312854B0, 0x00400000], .fsub ⟨0, false, 7, 0⟩ 20 (.one 21 22 .up)),
    ([0x80700000, 0x322854B0, 0x00600000], .fmul ⟨0, false, 7, 0⟩ 20 (.one 21 22 .down)),
    ([0x80700000, 0x332854B0, 0x00000000], .fmin ⟨0, false, 7, 0⟩ 20 (.one 21 22)),
    ([0x80700000, 0x342854B0, 0x00000000], .fmax ⟨0, false, 7, 0⟩ 20 (.one 21 22)),
    ([0x80700000, 0x352854B0, 0x2E000000], .ffma ⟨0, false, 7, 0⟩ 20 (.one 21 22 23 .ne)),
    ([0x80700000, 0x360454B0, 0x00280000], .fcmp ⟨0, false, 7, 0⟩ .ge 2 21 22),
    ([0x80700000, 0x37285403, 0x00000000], .fclass ⟨0, false, 7, 0⟩ .e5m2 20 21),
    ([0x80700000, 0x38285400, 0x00400000], .frcp ⟨0, false, 7, 0⟩ .up 20 21),
    ([0x80700000, 0x39285400, 0x00000000], .frsq ⟨0, false, 7, 0⟩ 20 21),
    ([0x80700000, 0x3A285400, 0x00600000], .fsqrt ⟨0, false, 7, 0⟩ .down 20 21),
    ([0x80700000, 0x3B285400, 0x00000000], .fex2 ⟨0, false, 7, 0⟩ 20 21),
    ([0x80700000, 0x3C285400, 0x00000000], .flg2 ⟨0, false, 7, 0⟩ 20 21),
    ([0x80700000, 0x3D285400, 0x00000000], .fsin ⟨0, false, 7, 0⟩ 20 21),
    ([0x80700000, 0x3E285400, 0x00000000], .fcos ⟨0, false, 7, 0⟩ 20 21),
    ([0x80700000, 0x3F285400, 0x00000000], .ftanh ⟨0, false, 7, 0⟩ 20 21),
    ([0x80700000, 0x40020002, 0x00100000], .fcvt ⟨0, false, 7, 0⟩ true .ne (.flt .e4m3) (.flt .f32) 1 0),
    ([0x80700000, 0x40040C0C, 0x00200000], .fcvt ⟨0, false, 7, 0⟩ false .zero (.int .i8) (.flt .f32) 2 3),
    ([0x80700000, 0x41285400, 0x00200000], .frnd ⟨0, false, 7, 0⟩ .zero 20 21),
    ([0x80700000, 0x422854B1, 0x00000000], .badd2 ⟨0, false, 7, 0⟩ 20 (.one 21 22 .ne)),
    ([0x80700000, 0x432854B1, 0x00400000], .bmul2 ⟨0, false, 7, 0⟩ 20 (.one 21 22 .up)),
    ([0x80700000, 0x442854B1, 0x2E000000], .bfma2 ⟨0, false, 7, 0⟩ 20 (.one 21 22 23 .ne))] = true := by decide

/-- R146 to R154, R166. -/
theorem test_decode_cross_thread_and_bitmap : reads [
    ([0x80700000, 0x500C1000, 0x01180001], .shfl ⟨0, false, 7, 0⟩ .xor false 6 4 (.imm 1)),
    ([0x80700000, 0x51280000, 0x2A4B0000], .bal ⟨0, false, 7, 0⟩ true 20 true 3),
    ([0x80700000, 0x52285402, 0x004C0000], .scan ⟨0, false, 7, 0⟩ .minf true true 20 21),
    ([0x80700000, 0x53285400, 0x00280000], .red ⟨0, false, 7, 0⟩ .xor false 20 21),
    ([0x80700000, 0x542854B2, 0x000B0000], .cx ⟨0, false, 7, 0⟩ .f32 false 20 21 (.reg 22) true 3),
    ([0x80700000, 0x55040000, 0x00430000], .vany ⟨0, false, 7, 0⟩ true 2 false 3),
    ([0x80700000, 0x56040000, 0x000B0000], .vall ⟨0, false, 7, 0⟩ false 2 true 3),
    ([0x80700000, 0x57285400, 0x2A400000], .meq ⟨0, false, 7, 0⟩ true 20 21),
    ([0x80700000, 0x58121430, 0x00020000], .bmAnd ⟨0, false, 7, 0⟩ 9 2 5 6),
    ([0x80700000, 0x59141400, 0x0F000005], .bmRank ⟨0, false, 7, 0⟩ 10 5 (.imm 5) 7),
    ([0x80700000, 0x5A162400, 0x01000003], .bmSel ⟨0, false, 7, 0⟩ 11 9 (.imm 3)),
    ([0x80700000, 0x5B181434, 0x0E000000], .isect ⟨0, false, 7, 0⟩ .i32 false 12 5 6 7 0),
    ([0x80700000, 0x60000C00, 0x00000000], .sow ⟨0, false, 7, 0⟩ 3),
    ([0x80700000, 0x60000C00, 0x00010000], .sowSg ⟨0, false, 7, 0⟩ 3),
    ([0x80700000, 0x61080C00, 0x0A000000], .sowQ ⟨0, false, 7, 0⟩ 4 3)] = true := by decide

/-- R194 to R198, R266. -/
theorem test_decode_bounds_and_lane_memory : reads [
    ([0x80700000, 0x68240000, 0x00000000], .bdGet ⟨0, false, 7, 0⟩ 18 (.tile 0)),
    ([0x80700000, 0x69001000, 0x00220000], .bdSet ⟨0, false, 7, 0⟩ true (.tile 2) 4),
    ([0x80700000, 0x6A000000, 0x00100000], .bdClr ⟨0, false, 7, 0⟩ .w),
    ([0x88700000, 0x70225C03, 0x22020002], .ld ⟨2, false, 7, 0⟩ ⟨.sh, .rlx, .team, false⟩ .n16 .one 17 23 2),
    ([0x80700000, 0x70285400, 0x2B2BFFF8], .ld ⟨0, false, 7, 0⟩ ⟨.sp, .acq, .die, true⟩ .b32 .two 20 21 (-8)),
    ([0x80100000, 0x71105400, 0x16220000], .st ⟨0, false, 1, 0⟩ ⟨.sp, .rlx, .team, false⟩ .b32 .four 8 21 0),
    ([0x80700000, 0x72060820, 0x06020008], .atom ⟨0, false, 7, 0⟩ .add ⟨.sh, .rlx, .team, false⟩ .i32 3 2 4 3 8),
    ([0x80700000, 0x72060821, 0x123CFFFC], .atom ⟨0, false, 7, 0⟩ .cas ⟨.sp, .ar, .device, false⟩ .n32 3 2 4 9 (-4)),
    ([0x80700000, 0x73000000, 0x00040000], .fence ⟨0, false, 7, 0⟩ .device)] = true := by decide

/-- R210, R211, R219, R225, R227. -/
theorem test_decode_copies : reads [
    ([0xC0410344, 0x38000000], .cpBlkLd 0 2 ⟨0, 0, false⟩ 13 4 14),
    ([0xCC411344, 0x38000458], .cpBlkSt 3 2 ⟨4, 5, true⟩ 13 4 14),
    ([0xC0412304, 0x38000000], .cpBlkMm 0 2 ⟨0, 0, false⟩ 12 4 14),
    ([0xC0450350, 0x00000000], .cpTenLd 0 2 ⟨0, 0, false⟩ 13 16),
    ([0xC0451350, 0x00000000], .cpTenSt 0 2 ⟨0, 0, false⟩ 13 16),
    ([0xC0454350, 0x0000012B], .cpTenLdBnd 0 2 ⟨1, 2, true⟩ 13 16 3),
    ([0xC0455350, 0x00000003], .cpTenStBnd 0 2 ⟨0, 0, false⟩ 13 16 3),
    ([0xC0456350, 0x00000000], .cpTenLdBnda 0 2 ⟨0, 0, false⟩ 13 16),
    ([0xC0457350, 0x00000000], .cpTenLdBndw 0 2 ⟨0, 0, false⟩ 13 16),
    ([0xC0511344, 0x38000006], .cpRed 0 2 ⟨0, 0, false⟩ 1 .maxi32 13 4 14),
    ([0xC0550345, 0x38000000], .cpFillOc 0 2 ⟨0, 0, false⟩ 13 5 14),
    ([0xC0552344, 0x38000000], .cpFillMm 0 2 ⟨0, 0, false⟩ 13 4 14),
    ([0xC0493400, 0x38000000], .cpGat 0 2 ⟨0, 0, false⟩ 3 16 14),
    ([0xC04D7400, 0x38000000], .cpSct 0 2 ⟨0, 0, false⟩ 7 16 14),
    ([0xC0580000, 0x00000024], .tkWait 0 0x24),
    ([0xC0581240, 0x00000024], .tkWaitSt 0 9 0x24),
    ([0xC05C0000, 0x00000350], .rgAcqEmpty 0 ⟨3, 5, false, 0⟩),
    ([0xC05C1240, 0x00000308], .rgAcqFull 0 ⟨3, 0, true, 9⟩),
    ([0xC0600000, 0x00000350], .rgRel 0 ⟨3, 5, false, 0⟩)] = true := by decide

/-- R243, R253, R270, R276. -/
theorem test_decode_matrix : reads [
    ([0xC0800B68, 0x00000000], .mxLdw 0 45 40),
    ([0xC0840000, 0x00000000], .mxFlip 0),
    ([0xC0898B28, 0x00000000], .mxRun 0 3 0 44 40),
    ([0xC0899028, 0x0103F001], .mxRunV 0 3 1 32 40),
    ([0xC08D8000, 0x00000001], .mxCmatId 0 3 1),
    ([0xC08D9000, 0x00000001], .mxCmatTr 0 3 1),
    ([0xC08DA000, 0x00489001], .mxCmatPerm 0 3 1 9),
    ([0xC08DB000, 0x00000001], .mxCmatSum 0 3 1),
    ([0xC0918300, 0x0040B291], .mxDrain 0 3 1 (.flt .e4m3) true .up 8 11 12),
    ([0xC0940000, 0x00000000], .mxZero 0 0),
    ([0xC0980000, 0x00000000], .mxFence 0),
    ([0xC09D8000, 0x00000000], .mxWait 0 3),
    ([0xC0A00000, 0x00000008], .mxBeg 0 0 true),
    ([0xC0A68000, 0x00000008], .mxRedo 0 5 0 true)] = true := by decide

/-- R302, R321, R348. -/
theorem test_decode_waiting_and_siblings : reads [
    ([0xC0C00105, 0x18000000], .susp 4 5 6),
    ([0xC0C40107, 0x00000000], .evAdd 0 4 7),
    ([0xC0C41107, 0x24000000], .evAddRet 0 9 4 7),
    ([0xC0C80107, 0x00000000], .evSet 0 4 7),
    ([0xC0CC0100, 0x20000000], .evGet 0 8 4),
    ([0xC0D00000, 0x00000000], .barSwath),
    ([0xC0D01000, 0x00000000], .barTeam),
    ([0xC0D02000, 0x00000000], .barGang),
    ([0xC0E00300, 0x20000000], .sgNew 0 8 12),
    ([0xC0E402C0, 0x00000000], .sgJoin 0 11),
    ([0xC0E41000, 0x00000000], .sgJoinClr 0),
    ([0xC0E80014, 0x24000000], .sgVote 0 9 20),
    ([0xC0E81000, 0x24000000], .sgVoteAbst 0 9),
    ([0xC0EC0000, 0x00000000], .sgCpt 0),
    ([0xC0F00200, 0x28000000], .sgStatSt 0 10 8),
    ([0xC0F01200, 0x28000000], .sgStatHash 0 10 8),
    ([0xC0F02200, 0x28000000], .sgStatWait 0 10 8),
    ([0xC0F40200, 0x00000000], .sgFree 0 8),
    ([0xC1008254, 0x00000000], .lnch 0 1 9 20),
    ([0xC1009254, 0x00000000], .lnchTry 0 1 9 20),
    ([0xC1050254, 0x00000000], .post 0 2 9 20),
    ([0xC1059204, 0x00000000], .postTry 0 3 8 4)] = true := by decide

/-- R368, R373, R375, R400, R410, R441, R455. -/
theorem test_decode_system_fabric_and_log : reads [
    ([0xC1200000, 0x00000007], .trap 7),
    ([0xC1240000, 0xFFFFFFFF], .scall 0xFFFFFFFF),
    ([0xC1340000, 0x00000009], .brk 9),
    ([0xC1280000, 0x00000000], .eret),
    ([0xC1281105, 0x00000000], .eretFc 4 5),
    ([0xC1380000, 0x00000000], .idle),
    ([0xC12C0000, 0xC8000001], .srGet 0 1 50),
    ([0xC1300500, 0x00000010], .srSet 0 0x10 20),
    ([0xC140020A, 0x00000000], .tlbInvPage 8 10),
    ([0xC1401200, 0x00000000], .tlbInvAsid 8),
    ([0xC1402000, 0x00000000], .tlbInvAll),
    ([0xC1440000, 0x00000000], .tlbSync),
    ([0xC148020A, 0x50000000], .pgProbe 20 8 10),
    ([0xC1600106, 0x20000000], .dqPush 0 4 6 8),
    ([0xC1601106, 0x20000000], .dqPushTry 0 4 6 8),
    ([0xC1640147, 0x28000000], .dqPop 0 5 7 10),
    ([0xC1641147, 0x28000000], .dqPopTry 0 5 7 10),
    ([0xC1808409, 0x28000000], .nxPut 1 16 9 10),
    ([0xC1848409, 0x28000000], .nxGet 1 16 9 10),
    ([0xC1898404, 0x14000000], .nxAtom 3 .add 16 4 5),
    ([0xC18D040B, 0x30000000], .nxSig 2 16 11 12),
    ([0xC1900008, 0x30000000], .nxTopo 0 8 12),
    ([0xC1940008, 0x30000000], .nxTree 0 8 12),
    ([0xC19A0500, 0x58000000], .nxProbe 4 20 22),
    ([0xC1A10518, 0x64000000], .lgAppTok 0 2 20 24 25),
    ([0xC1A11518, 0x64000000], .lgAppCommit 0 2 20 24 25),
    ([0xC1A12518, 0x64000000], .lgAppVoid 0 2 20 24 25)] = true := by decide

/-! ### A small machine: one team with one sheaf of sixteen threads at the supervisor's context, about to issue -/

/-- The staged team with its unit issuing. -/
def base : State := { stage State.reset [] with cur := some (0, 0, 1), agenda := [] }
/-- A change of its team. -/
def onTeam (f : Team → Team) (s : State := base) : State := modTeam s 0 f
/-- A change of its sheaf. -/
def onSheaf (f : Sheaf → Sheaf) (s : State := base) : State := modSheaf s 0 0 f
/-- A change of its unit. -/
def onUnit (f : UnitSt → UnitSt) (s : State := base) : State := modUnit s 0 0 1 f
/-- A change of die 0. -/
def onDie (f : Die → Die) (s : State := base) : State := modDie s 0 f
/-- Values in uniform registers. -/
def regs (l : Tbl Word) (s : State := base) : State := onSheaf (fun sh => { sh with s := l }) s
/-- The values that thread `p` holds in its vector registers. -/
def lane (p : Nat) (l : Tbl Word) (s : State := base) : State :=
  onSheaf (fun sh => { sh with threads := Tbl.modify sh.threads p fun t => { t with v := l } }) s
/-- The sheaf as user code runs. -/
def user (s : State := base) : State := onSheaf (fun sh => { sh with level := .user }) s
/-- The unit of a second sheaf, in slot 1 on lane 1, as `w` says. -/
def beside (w : Wait) (s : State := base) : State :=
  onTeam (fun t => { t with slots := 2, sheaves := t.sheaves ++ (Tbl.find t.sheaves 0).toList.map fun sh =>
    (1, { sh with lane := 1, threads := (upto 16).map fun i => (i, ⟨[], 0, 0, 16 + i, 0⟩)
                  units := [(9, { newUnit 0xFFFF 0 none 9 0 with wait := w })] }) }) { s with nextId := 10 }
/-- Its sheaf is the first of a swath of role M; the units of the other three wait as `w` says. -/
def swath (w : Wait) (s : State := base) : State :=
  onTeam (fun t => { t with slots := 4, hasM := true, sheaves := ((Tbl.find t.sheaves 0).toList.map fun sh => (0, { sh with role := .m }))
    ++ ((Tbl.find t.sheaves 0).toList.flatMap fun sh => [1, 2, 3].map fun n =>
      (n, { sh with role := .m, lane := n, threads := (upto 16).map fun i => (i, ⟨[], 0, 0, 16 * n + i, 0⟩)
                    units := [(10 + n, { newUnit 0xFFFF 0 none 9 0 with wait := w })] })) }) { s with nextId := 20 }
/-- The instruction is at its issue and its context is as `p` says. -/
def meets (i : Instr) (s : State) (p : Ctx → Bool) : Bool := (atIssue i s).any p
/-- The next state is as `p` says. -/
def after (i : Instr) (s : State) (p : State → Bool) : Bool :=
  match exec i s with
  | .next t => p t
  | _ => false
/-- The issuing unit of the next state is as `p` says. -/
def gives (i : Instr) (s : State) (p : Ctx → Bool) : Bool := after i s fun t => (ctxOf t).any p
/-- The header of a word for all sixteen threads. -/
def h0 : Hdr := ⟨0, false, 7, 0⟩

/-- Every active thread's access passes its checks, and its core holds no copy of a line that it reaches. -/
def laneOk (c : Ctx) (h : Hdr) (spc : Space) (va : VReg) (off : Int) (n : Nat) (wr rd : Bool) : Bool :=
  (activeOf c h).all fun p => accessCause c spc (some p) (laneAddr c spc va off p) n wr rd == none
    && (laneBytesAt c spc va off n p).all fun x => spc != .sp || (Tbl.find (coreOf c.st c.core).cache (x / 64)).isNone
/-- The same of a uniform access. -/
def uniformOk (c : Ctx) (spc : Space) (sa : SReg) (off n : Nat) (wr rd : Bool) : Bool :=
  accessCause c spc none (uAddr c spc sa off : Nat) n wr rd == none
    && (rawAddrs c spc none (uAddr c spc sa off) n).all fun x => spc != .sp || (Tbl.find (coreOf c.st c.core).cache (x / 64)).isNone

/-- The sheaf with `w` in SSTAT, at user level where `us`. -/
def status (us : Bool) (w : Word) (s : State := base) : State :=
  onSheaf (fun sh => { sh with level := if us then .user else .supervisor, sys := { sh.sys with sstat := w } }) s
/-- A counter that context 0 owns, named 0 in its window of die 0. -/
def events (s : State := base) : State :=
  onDie (fun d => { d with counters := [(0, ⟨5, some 0⟩)] }) (onTeam (fun t => { t with evWin := [0x80010000] }) s)
/-- The unit stands in a split record of identifier 3 as `r` says. -/
def split (r : Split → Split) (s : State := base) : State :=
  onUnit (fun u => { u with inner := some 0, mask := 0xFF }) (onSheaf (fun sh => { sh with splits := [(0, r ⟨3, none, 2, 0, 0, [], 1, [], []⟩)] }) s)

/-- Bytes in main memory. -/
def withMem (a : Nat) (bs : List Byte) (s : State := base) : State := { s with mem := writeBytes s.mem a bs }
/-- The engine of core 0. -/
def onEngine (f : Engine → Engine) (s : State := base) : State := modCore s 0 fun k => { k with engine := f k.engine }
/-- Every unit of the swath stands at the word, and no older swath's word is pending on one of its lanes. -/
def swathOk (c : Ctx) : Bool :=
  !swathRetired c.st c.tid c.slot && decide ((swathUnits c.st c.tid c.slot).map fun u => (u.slot, u.uid)).Nodup
    && (swathUnits c.st c.tid c.slot).all fun u => u.place == c.place && u.unit.awaits.isEmpty && !yieldsTo c.st (swathUnits c.st c.tid c.slot) u
/-- No other team of a gang waits at its barrier. -/
def noGang (s : State) (tid : Nat) : Bool :=
  s.teams.all fun t => (gangOf s t.2).contains tid || !(teamUnits s t.1).any fun u => u.unit.wait == .barGang
/-- Every other unit of the team waits as `w` says, and the team is on its core with no split record. -/
def lastOf (c : Ctx) (w : Wait) : Bool :=
  !c.team.out && !c.team.ended && c.team.hold != .fault
    && (teamUnits c.st c.tid).all (fun u => decide ((u.slot, u.uid) = (c.slot, c.uid)) || u.unit.wait == w)
    && c.team.sheaves.all fun sh => sh.2.splits.isEmpty
/-- A list of arrivals rises in rank. -/
def ranked : List Arrived → Bool
  | [] => true
  | a :: l => l.all (fun b => decide (a.th.rank < b.th.rank)) && ranked l
/-- The engine's active plane, of zeros. -/
def plane : Plane := ⟨0, 0, 0, List.replicate 8 0, [], 0, 0, false, 0⟩
/-- A job slot of tile 0 as `st` says. -/
def job (st : JobState) (tk : Option Nat) : Job := { Job.zero with state := st, slots := [0], lastTk := tk }

/-- A group of two members of context 0 in record 0 of die 0, as `f` says, and its window. -/
def groups (f : Group → Group) (s : State := base) : State :=
  withMem 0x40 [0, 0, 1, 0x80] (onDie (fun d => { d with groups := [(0, f ⟨0, .opened, 2, 2, 0x200000, none, 0, [], [], 0, 0, 0, false⟩)] }) s)
/-- Every thread carries a tag word. -/
def tagged (w : Word) (s : State := base) : State :=
  onSheaf (fun sh => { sh with threads := sh.threads.map fun t => (t.1, { t.2 with tag := w }) }) s
/-- No unit issues, and the unit waits as `w` says. -/
def waiting (w : Wait) (s : State := base) : State := onUnit (fun u => { u with wait := w }) { s with cur := none }
/-- Port 0 of node 0 leads to node 1, and context 0 may use the fabric. -/
def fabric (s : State := base) : State :=
  { s with topo := some { addr := 0, self := 0, nnodes := 2, tmo := 0, asidEn := [1], ports := [(0, (true, 1, 0))]
                          turn := [(0, 0x80000000), (124, 1)] }
           ports := [(0, ⟨.up, 0, 0, [], false, false⟩)] }
/-- The route to node 1, a remote and a local address, from s8; a length in s4. -/
def routed (n : Word) (s : State := base) : State :=
  fabric (regs [(4, n), (8, 0x10000000), (10, 0x00010000), (12, 0x100000), (14, 0x200000), (20, 0x10000000), (22, 0x00010000)] s)

/-! ### Terms that the checks of `Instr.wf` refuse, and their neighbours that pass -/

/-- R36, R37: two destinations in one bank, four sources, two sources in one bank, an operation that is no class A in this
version, and a second source of an operation that has one. -/
theorem test_wf_pairs :
    ([(3, Instr.add h0 4 (.pair 1 2 ⟨.sub, 8, 1, 3⟩)), (3, .add h0 4 (.pair 1 2 ⟨.sub, 5, 3, 4⟩)), (3, .add h0 4 (.pair 1 5 ⟨.sub, 5, 1, 1⟩)),
      (1, .add h0 4 (.pair 1 2 ⟨.bfma2, 5, 1, 2⟩)), (3, .add h0 4 (.pair 1 2 ⟨.clz, 5, 1, 1⟩))].all fun x => !Instr.wf x.1 x.2) = true
    ∧ ([Instr.add h0 4 (.pair 1 2 ⟨.sub, 5, 1, 3⟩), .add h0 4 (.pair 1 2 ⟨.clz, 5, 1, 0⟩)].all fun i => Instr.wf 3 i) = true := by
  decide

/-- R26, R28, R119, R126, R194, R197: fields of U-words and lane words. -/
theorem test_wf_words :
    ([(3, Instr.sBfx 1 2 0 3), (3, .sBfx 1 2 33 0), (3, .sQop .not 1 2 3), (3, .sLd .w64 .sh 3 2 0), (3, .sSt .w64 .sh 3 2 0),
      (3, .sAtom .add false .stk 4 2), (3, .sAtom .cas false .sh 5 2), (3, .bfx h0 .n32 1 2 0 33), (3, .bfi h0 1 2 3 0 0),
      (2, .bfma2 h0 1 (.one 2 3 4 .ne)), (3, .bfma2V2 h0 1 (.one 2 3 4 .ne)), (3, .bal h0 true 127 false 0), (3, .meq h0 true 127 4),
      (1, .isect h0 .n32 false 1 2 3 4 0), (3, .sow ⟨1, false, 7, 0⟩ 3), (3, .sowSg ⟨1, false, 7, 0⟩ 3), (2, .sowQ h0 4 3),
      (3, .sowQ ⟨1, false, 7, 0⟩ 4 3), (3, .sowQ h0 127 3), (3, .ld h0 ⟨.sh, .rel, .team, false⟩ .b32 .one 1 2 0),
      (3, .ld h0 ⟨.sh, .rlx, .team, false⟩ .n16 .two 1 2 0), (3, .ld h0 ⟨.sh, .rlx, .team, false⟩ .b32 .four 125 2 0),
      (3, .st h0 ⟨.sh, .acq, .team, false⟩ .b32 .one 1 2 0), (3, .atom h0 .add ⟨.stk, .rlx, .team, false⟩ .i32 1 2 3 1 0),
      (3, .atom h0 .add ⟨.sh, .rlx, .team, false⟩ .i32 1 2 3 4 0)].all fun x => !Instr.wf x.1 x.2) = true
    ∧ ([Instr.sBfx 1 2 32 31, .sAtom .cas false .sh 4 2, .sowQ h0 126 3, .ld h0 ⟨.sh, .acq, .team, false⟩ .b32 .four 124 2 0,
      .atom h0 .add ⟨.sh, .rlx, .team, false⟩ .i32 1 2 3 1 0].all fun i => Instr.wf 3 i) = true := by
  decide

/-- R39 to R43: the register rules and versions of the E-words; no event has an encoding. -/
theorem test_wf_extended :
    ([(1, Instr.cpBlkLd 0 0 ⟨0, 0, false⟩ 1 2 3), (3, .cpBlkLd 0 0 ⟨0, 0, false⟩ 1 3 3), (3, .cpTenLd 0 0 ⟨0, 0, false⟩ 1 4),
      (3, .cpRed 0 0 ⟨0, 0, false⟩ 3 .addi32 1 2 3), (3, .cpRed 0 0 ⟨0, 0, false⟩ 2 .addi32 1 2 3), (3, .cpFillMm 0 0 ⟨0, 0, false⟩ 1 3 3),
      (3, .cpGat 0 0 ⟨0, 0, false⟩ 0 4 3), (3, .rgRel 0 ⟨0, 0, false, 5⟩), (3, .mxLdw 0 1 2), (3, .mxRun 0 0 0 1 6), (3, .mxRunV 0 0 0 97 4),
      (3, .mxDrain 0 0 0 (.flt .f32) true .ne 1 2 3), (3, .mxDrain 0 0 0 (.int .n8) false .ne 1 2 3),
      (3, .mxDrain 0 0 0 (.flt .bf16) false .ne 3 2 3), (3, .mxDrain 0 0 0 (.flt .bf16) false .ne 0 16 3), (2, .mxRedo 0 0 0 false),
      (3, .sgNew 0 1 2), (3, .sgVote 0 1 3), (3, .sgStatHash 0 1 2), (3, .lnch 0 0 1 3), (3, .srGet 0 0x7FF 2), (3, .srGet 0 3 5),
      (3, .srSet 0 3 4), (3, .tlbInvPage 1 3), (3, .pgProbe 2 1 4), (3, .dqPush 0 1 2 3), (3, .nxPut 0 4 1 2),
      (3, .nxAtom 0 .cas 8 3 1), (3, .nxProbe 0 2 4), (3, .nxTopo 0 3 1), (3, .lgAppTok 0 0 3 1 2), (3, .meridianTick), (3, .swapOut 0),
      (3, .illegalWord .kind 0)].all fun x => !Instr.wf x.1 x.2) = true
    ∧ ([Instr.cpTenLd 0 0 ⟨0, 0, false⟩ 1 8, .mxRunV 0 0 0 96 4, .mxDrain 0 0 0 (.flt .bf16) false .ne 0 15 3, .srGet 0 3 4, .pgProbe 4 1 2].all
      fun i => Instr.wf 3 i) = true := by
  decide

/-! ### What single words do, by hand from the rules -/

/-- A uniform register after a word. -/
def sReg (i : Instr) (s : State) (r : Nat) (v : Word) : Bool := gives i s fun c => readKey c.sheaf (.s r) == v
/-- A vector register of thread 0 after a word. -/
def vReg (i : Instr) (s : State) (r : Nat) (v : Word) : Bool := gives i s fun c => readKey c.sheaf (.v 0 r) == v
/-- Thread 0 with three operands. -/
def three (x y z : Word) : State := lane 0 [(5, x), (6, y), (7, z)]

/-- R117 to R119: wrap, the high half, a shift of more than the width, a field past bit 31. -/
theorem test_uniform_words :
    (sReg (.sAddi 1 2 1) (regs [(2, 0xFFFFFFFF)]) 1 0 && sReg (.sMulhN32 1 2 2) (regs [(2, 0xFFFFFFFF)]) 1 0xFFFFFFFE
    && sReg (.sMulhI32 1 2 2) (regs [(2, 0xFFFFFFFF)]) 1 0 && sReg (.sShl 1 2 3) (regs [(2, 1), (3, 32)]) 1 0
    && sReg (.sSra 1 2 3) (regs [(2, 0x80000000), (3, 40)]) 1 0xFFFFFFFF && sReg (.sBfx 1 2 8 28) (regs [(2, 0x80000000)]) 1 8
    && sReg (.sLui 1 0xFFFFF) base 1 0xFFFFF000 && sReg (.sMovi 1 0x80000) base 1 0xFFF80000) = true := by
  decide

/-- R25, R110: at supervisor level the fields 48 to 63 name the supervisor's own registers. -/
theorem test_supervisor_registers :
    (gives (.sMovi 48 7) base (fun c => readKey c.sheaf (fieldKey c.sheaf 48) == 7 && readKey c.sheaf (.s 48) == 0)
    && gives (.sMovi 48 7) user fun c => readKey c.sheaf (.s 48) == 7) = true := by
  decide

/-- R37, R38: both operations of a pair read before either writes. -/
theorem test_pair_exchanges :
    gives (.mov h0 5 (.pair 6 ⟨.mov, 6, 5, 0⟩)) (three 1 2 0) (fun c =>
      readKey c.sheaf (.v 0 5) == 2 && readKey c.sheaf (.v 0 6) == 1) = true := by
  decide

/-- R128: division by zero, and of the most negative number by -1. -/
theorem test_division_corners :
    (vReg (.div h0 .i32 4 5 (.reg 6)) (three 7 0 0) 4 0xFFFFFFFF && vReg (.rem h0 .i32 4 5 (.reg 6)) (three 7 0 0) 4 7
    && vReg (.div h0 .i32 4 5 (.reg 6)) (three 0x80000000 0xFFFFFFFF 0) 4 0x80000000
    && vReg (.rem h0 .i32 4 5 (.reg 6)) (three 0x80000000 0xFFFFFFFF 0) 4 0
    && vReg (.div h0 .i32 4 5 (.reg 6)) (three 0xFFFFFFF9 2 0) 4 0xFFFFFFFD) = true := by
  decide

/-- R59, R134: a tie to even, a directed rounding, an overflow to infinity, the default NaN; subnormal results are kept. -/
theorem test_float_words :
    (vReg (.fadd h0 4 (.one 5 6 .ne)) (three 0x3F800000 0x33800000 0) 4 0x3F800000
    && vReg (.fadd h0 4 (.one 5 6 .up)) (three 0x3F800000 0x33800000 0) 4 0x3F800001
    && vReg (.fmul h0 4 (.one 5 6 .ne)) (three 0x7F7FFFFF 0x40000000 0) 4 0x7F800000
    && vReg (.fsub h0 4 (.one 5 6 .ne)) (three 0x7F800000 0x7F800000 0) 4 0x7FC00000
    && vReg (.fmul h0 4 (.one 5 6 .ne)) (three 0x00800000 0x3F000000 0) 4 0x00400000
    && vReg (.ffma h0 4 (.one 5 6 7 .ne)) (three 0x40000000 0x40400000 0x3F800000) 4 0x40E00000) = true := by
  decide

/-- R126, R128: fields and a select by a negated predicate. -/
theorem test_lane_fields :
    (vReg (.bfx h0 .i32 4 5 4 4) (three 0x000000F0 0 0) 4 0xFFFFFFFF && vReg (.bfi h0 4 5 6 28 8) (three 0 0xFF 0) 4 0xF0000000
    && vReg (.sel h0 4 5 (.reg 6) true 0) (three 1 2 0) 4 1 && vReg (.mad h0 4 5 (.imm 0xFFFF) 7) (three 3 0 5) 4 2) = true := by
  decide

/-- R147, R150: a shuffle past the end keeps its own value; an exclusive scan begins with the identity. -/
theorem test_cross_thread_words :
    (vReg (.shfl h0 .up false 4 5 (.imm 1)) (three 9 0 0) 4 9 && vReg (.shfl h0 .down false 4 5 (.imm 1)) (three 9 0 0) 4 0
    && gives (.scan h0 .addn false false 4 5) (three 9 0 0) (fun c => readKey c.sheaf (.v 0 4) == 9 && readKey c.sheaf (.v 15 4) == 9)
    && vReg (.scan h0 .minn true false 4 5) (three 9 0 0) 4 0xFFFFFFFF && vReg (.bal h0 false 4 false 7) base 4 0xFFFF) = true := by
  decide

/-- R196, R200: a loaded byte is sign-extended, a store is little-endian. -/
theorem test_on_chip_words :
    (sReg (.sLd .i8 .sh 1 2 7) (onTeam (fun t => { t with window := 64, shared := [(63, 0x80)] }) (regs [(2, 56)])) 1 0xFFFFFF80
    && gives (.sSt .b32 .sh 3 2 4) (onTeam (fun t => { t with window := 64 }) (regs [(2, 56), (3, 0x01020304)])) fun c =>
      c.team.shared == [(60, 4), (61, 3), (62, 2), (63, 1)]) = true := by
  decide

/-- The flag and its data of R289: of two sheaves of a team the other has stored 42 at byte 64 and then the flag at byte 0, as one
word of value 1 and at the scope given; the issuing unit may have seen neither. -/
def flagged (sc : Scope) : State :=
  let at_ := fun (a id : Nat) (rel : List Scope) => (upto 4).map fun i => (⟨.sh, 0, a + i, 0, id, 1, rel, false⟩ : PastByte)
  onUnit (fun u => { u with view := some ⟨0, []⟩ }) (onTeam (fun t => { t with
    window := 128, shared := [(0, 1), (64, 42)], stores := 2, past := at_ 64 0 [] ++ at_ 0 1 [sc] }) (beside .ready))

/-- R286, R288, R289: an acquire at team scope that reads the whole flag comes after the data, if the flag was released at team
scope; not if the release reaches its own sheaf alone, nor if the load reads half of the flag. -/
theorem test_flag_and_data :
    (gives (.ld h0 ⟨.sh, .acq, .team, false⟩ .b32 .one 4 1 0) (flagged .team) (fun c => c.unit.view == some ⟨2, []⟩)
    && gives (.ld h0 ⟨.sh, .acq, .team, false⟩ .b32 .one 4 1 0) (flagged .sheaf) (fun c => (c.unit.view.map (·.since)) == some 0)
    && gives (.ld h0 ⟨.sh, .acq, .team, false⟩ .n16 .one 4 1 0) (flagged .team) (fun c => (c.unit.view.map (·.since)) == some 0)) = true := by
  decide

/-- R105, R101: a loop of count 0 wraps and goes back; a call links the next word. -/
theorem test_control_flow :
    (gives (.loop 2 0xFFFFF) base (fun c => c.unit.pc == 0xFFFFFFFC && readKey c.sheaf (.s 2) == 0xFFFFFFFF)
    && gives (.call 3 2) base (fun c => c.unit.pc == 8 && readKey c.sheaf (.s 3) == 4)
    && gives (.bc true 0 16) base (fun c => c.unit.pc == 64)) = true := by
  decide

/-- R307: a unit that arrives at a barrier changes places with the side that its record parks, which runs. -/
theorem test_barrier_frees_side : after .barTeam (split fun r => { r with live := 1, parked := [⟨0xFF00, 12, .fresh, [], [], none⟩] }) (fun t =>
    (sheafAt t 0 0).any fun sh => sh.units.map (fun u => (u.2.mask, u.2.pc, u.2.wait)) == [(0xFF00, 12, .ready)]
      && sh.splits.map (fun r => r.2.parked.map fun p => (p.mask, p.arrived)) == [[(0xFF, .atBar false)]]) = true := by
  decide

/-- R370, R372, R375: `scall` enters its handler and saves the next word's place. -/
theorem test_trap_entry :
    gives (.scall 5) user (fun c => c.sheaf.level == .supervisor && c.unit.pc == 512 && c.sheaf.sys.sepc == 8
      && c.sheaf.sys.scause == 0x20021 && c.sheaf.sys.sinfo == 5 && c.sheaf.sys.sstat == 2 && c.sheaf.sys.smask == 0xFFFF) = true := by
  decide

/-- R377: `eret` goes back to SEPC and to user level. -/
theorem test_return :
    gives .eret (onSheaf (fun sh => { sh with sys := { sh.sys with sepc := 64, sstat := 2 } })) (fun c =>
      c.sheaf.level == .user && c.unit.pc == 64 && c.sheaf.sys.sstat == 0) = true := by
  decide

/-- R249, R253: `mx.flip` exchanges the planes when the engine performs it. -/
theorem test_planes_flip :
    after (.matrixCommandPerform 0 0) (onEngine fun e => { e with active := some plane, queue := [⟨7, .flip, 0, [0], 0, 0xFFFF, none, 0, [], []⟩] }) (fun t =>
      (coreOf t 0).engine.active == none && (coreOf t 0).engine.shadow == some plane && (coreOf t 0).engine.queue.isEmpty) = true := by
  decide

/-- R418, R476: a write of DFREQ below 600 MHz changes nothing; the power loop lowers no ceiling below 6, and at 105 degrees that of the
hottest die. -/
theorem test_clock_registers :
    (after (.dfreqWrite 3 5) base (fun t => (dieOf t 3).fset == 19) && after (.dfreqWrite 3 6) base (fun t => (dieOf t 3).fset == 6)
    && after (.powerWindow 0 ⟨3001, 20⟩) { onDie (fun d => { d with ceiling := 6 }) with mer := 200000 } (fun t => (dieOf t 0).ceiling == 6 && t.host.pwr == 3001)
    && after (.powerWindow 2 ⟨1000, 105⟩) { base with mer := 200000 } (fun t => (dieOf t 2).ceiling == 18 && (dieOf t 0).ceiling == 19)) = true := by
  decide

/-- R43: version 2 has `sad` and `dot4` at each other's codes of version 3 and `bfma2` at 0x47; version 1 has no `isect`, and version 3
no 0x47. -/
theorem test_decode_by_version :
    (([([0x80700000, 0x472854B1, 0x2E000000], .bfma2V2 h0 20 (.one 21 22 23 .ne)),
      ([0x80700000, 0x1A2854BD, 0x2C000000], .sad h0 .n32 20 21 (.reg 23) 22),
      ([0x80700000, 0x192854BC, 0x2C010000], .dot4 h0 .i32 true 20 21 (.reg 23) 22)] : List (List Word × Instr)).all fun x => match decode 2 x.1 with | .ok i => decide (i = x.2) | .error _ => false) = true
    ∧ decode 3 [0x80700000, 0x47282AB1, 0x2E000000] = .error .opcode ∧ decode 1 [0x80700000, 0x5B282AB1, 0x2E000000] = .error .opcode := by
  refine ⟨by decide, by rfl, by rfl⟩

/-! ### Witnesses: concrete states and operands that meet the hypotheses of each statement, clause by clause -/

theorem witness_uniformWordWritesItsValue :
    (meets (.sAddImm 1 2 0x7FF) (regs [(2, 5)]) (fun c => decide (uniformValue c (.sAddImm 1 2 0x7FF) = some (1, 4)))
    && meets (.sCmpI32 .lt 7 2 3) (regs [(2, 0x80000000)]) (fun c => decide (uniformTruth c (.sCmpI32 .lt 7 2 3) = some (7, true)))) = true := by
  decide

theorem witness_classAWordsRun :
    ([(Instr.add h0 4 (.one (.reg 5) (.imm 0xFFFF))), .fadd h0 4 (.pair 5 6 ⟨.fmul, 9, 5, 7⟩)].all fun i =>
      meets i base fun c => Instr.wf c.team.ver i && ((integerClassA c i).isSome || (floatingClassA c i).isSome)) = true := by
  decide

theorem witness_laneValueWritten :
    ([(Instr.div h0 .i32 4 5 (.imm 0)), .fclass h0 .f32 4 5].all fun i =>
      meets i base fun c => (laneValue c i).isSome || (floatValue c i).isSome) = true := by
  decide

theorem witness_lanePredicateWritten :
    ([(Instr.cmp h0 .i32 .lt 7 5 (.imm 0)), .fcmp h0 .lt 0 5 6].all fun i =>
      meets i base fun c => (laneTruth c i).isSome) = true := by
  decide

/-- Shared memory of 64 bytes, addressed by s2 and, for thread 0 alone, by v2; a scratchpad window of a segment. -/
def sharedTop : State := onTeam (fun t => { t with window := 64, shared := [(60, 1), (63, 2)], spWin := 0xC0010000 })
  (lane 0 [(2, 56), (5, 0x01010101)] (onUnit (fun u => { u with mask := 1 }) (regs [(2, 56)]
    (onDie fun d => { d with spTag := [(0, 0)] }))))

theorem witness_uniformLoadWritesItsValue :
    ([(UTy.b32, Space.sh, (4 : BitVec 7)), (.w64, .sh, 0), (.i8, .sh, 7), (.n16, .sp, 0)].all fun x =>
      meets (.sLd x.1 x.2.1 4 2 x.2.2) sharedTop fun c => Instr.wf c.team.ver (.sLd x.1 x.2.1 4 2 x.2.2)
        && uniformOk c x.2.1 2 x.2.2.toNat (utyBytes x.1) false true) = true := by
  decide

theorem witness_uniformStoreStoresItsBytes :
    ([(UTy.b32, Space.sh, (4 : BitVec 7)), (.w64, .sh, 0), (.i8, .sh, 7), (.n16, .sp, 0)].all fun x =>
      meets (.sSt x.1 x.2.1 4 2 x.2.2) sharedTop fun c => Instr.wf c.team.ver (.sSt x.1 x.2.1 4 2 x.2.2)
        && uniformOk c x.2.1 2 x.2.2.toNat (utyBytes x.1) true false) = true := by
  decide

theorem witness_laneLoadWritesItsElements :
    ([(Space.sh, LTy.b32, Cnt.two), (.sh, .n8, .one), (.sp, .i16, .one)].all fun x =>
      meets (.ld h0 ⟨x.1, .rlx, .team, false⟩ x.2.1 x.2.2 8 2 0) sharedTop fun c =>
        Instr.wf c.team.ver (.ld h0 ⟨x.1, .rlx, .team, false⟩ x.2.1 x.2.2 8 2 0)
        && laneOk c h0 x.1 2 0 (ltyBytes x.2.1 * x.2.2.num) false true && decide (activeOf c h0 = [0]) && c.st.tablesSorted
        && c.st.cores.all fun k => k.2.cache.isEmpty) = true
    ∧ meets (.ld h0 ⟨.sp, .acq, .die, true⟩ .b32 .one 8 2 0) sharedTop (fun c => Instr.wf c.team.ver (.ld h0 ⟨.sp, .acq, .die, true⟩ .b32 .one 8 2 0)
        && laneOk c h0 .sp 2 0 4 false true && c.st.tablesSorted && c.st.cores.all fun k => k.2.cache.isEmpty) = true := by
  decide

theorem witness_laneStoreStoresItsBytes :
    ([(Space.sh, LTy.b32, Cnt.two), (.sh, .n8, .one), (.sp, .i16, .one)].all fun x =>
      meets (.st h0 ⟨x.1, .rlx, .team, false⟩ x.2.1 x.2.2 8 2 0) sharedTop fun c =>
        Instr.wf c.team.ver (.st h0 ⟨x.1, .rlx, .team, false⟩ x.2.1 x.2.2 8 2 0)
        && laneOk c h0 x.1 2 0 (ltyBytes x.2.1 * x.2.2.num) true false && c.st.tablesSorted && c.st.cores.all fun k => k.2.cache.isEmpty) = true := by
  decide

theorem witness_uniformAtomicExchanges :
    ([(AOp.add, false, Space.sh, (4 : SReg)), (.cas, true, .sh, 4), (.cas, false, .sp, 4)].all fun x =>
      meets (.sAtom x.1 x.2.1 x.2.2.1 x.2.2.2 2) sharedTop fun c => Instr.wf c.team.ver (.sAtom x.1 x.2.1 x.2.2.1 x.2.2.2 2)
        && uniformOk c x.2.2.1 2 0 (if x.2.1 then 8 else 4) true true) = true := by
  decide

theorem witness_laneAtomicExchanges :
    ([(AOp.max, Space.sh, (6 : VReg), (5 : VReg)), (.cas, .sh, 6, 9), (.cas, .sp, 6, 9)].all fun x =>
      meets (.atom h0 x.1 ⟨x.2.1, .rlx, .team, false⟩ .i32 5 2 x.2.2.1 x.2.2.2 0) sharedTop fun c =>
        Instr.wf c.team.ver (.atom h0 x.1 ⟨x.2.1, .rlx, .team, false⟩ .i32 5 2 x.2.2.1 x.2.2.2 0)
        && laneOk c h0 x.2.1 2 0 4 true true && c.st.tablesSorted && c.st.cores.all fun k => k.2.cache.isEmpty) = true := by
  decide

theorem witness_fencePasses :
    (meets (.fence h0 .team) base (fun c => activeOf c h0 != [])
    && meets (.fence ⟨0, false, 0, 0⟩ .device) base (fun c => activeOf c ⟨0, false, 0, 0⟩ == [])) = true := by
  decide

theorem witness_intersectGathersItsBytes :
    meets (.isect h0 .n32 false 8 5 6 7 0) (lane 0 [(5, 0x80000001), (6, 0xFFFFFFFF)] sharedTop) (fun c =>
      c.st.tablesSorted && (activeOf c h0).all fun p => (isectOffs c p 5 6 7 0).length == 2
        && (isectOffs c p 5 6 7 0).all fun a => accessCause c .sh (some p) a 1 false true == none) = true := by
  decide

theorem witness_crossThreadWordsCombine :
    ([(Instr.shfl h0 .xor false 4 5 (.imm 1)), .bal h0 true 4 false 0, .meq h0 true 4 5, .vany h0 true 7 true 7,
      .vall h0 false 0 false 1, .scan h0 .addf true true 4 5, .red h0 .minn false 4 5, .cx h0 .f32 true 4 5 (.imm 63) false 7].all fun i =>
      ((crossHead i).map fun x => meets i (swath (.swath .lane)) fun c => Instr.wf c.team.ver i
        && (!x.2 || (swathOk c && (swathUnits c.st c.tid c.slot).all fun u => !tokensPending u.sheaf x.1.wait.toNat))
        && (crossUnits c x.1 x.2).length == (if x.2 then 4 else 1)).getD false) = true := by
  decide

theorem witness_bitmapAndLowestThreadWords :
    (meets (.bmAnd h0 4 7 5 6) base (fun _ => true) && meets (.v2s h0 4 5) base (fun _ => true)) = true := by
  decide

/-- Every thread of the sheaf is cancelled and may use sixteen registers, and another unit of the team is ready. -/
def gone (s : State := base) : State :=
  onDie (fun d => { d with cancelled := [0x80080000] }) (beside .ready (onSheaf (fun sh => { sh with
    allot := 16, threads := sh.threads.map fun t => (t.1, { t.2 with tag := 0x80080000 }) }) s))
/-- Another unit of the team is ready, and no swath or gang waits. -/
def aloneOk (c : Ctx) : Bool :=
  (teamUnits c.st c.tid).any (fun u => (u.slot, u.uid) != (c.slot, c.uid) && u.unit.wait == .ready) && noGang c.st c.tid
    && (swathUnits c.st c.tid c.slot).all fun u => !u.unit.wait.isSwath

theorem witness_issueChecksAndWaits_gone :
    [Instr.sow h0 16, .sowSg h0 16].all (fun i => (ctxOf gone).any fun c => endsThreadsFirst c i && !regsOk c i && goneAt c == c.unit.mask
      && decide (c.uid < c.st.nextId) && aloneOk c) = true := by
  decide

theorem witness_issueChecksAndWaits :
    ((ctxOf (onSheaf fun sh => { sh with allot := 16 })).any (fun c => isWord (.movi h0 16 0) && !endsThreadsFirst c (.movi h0 16 0) && !regsOk c (.movi h0 16 0) && !c.sheaf.sys.sstat.getLsbD 1)
    && (ctxOf (onSheaf fun sh => { sh with role := .v })).any (fun c => regsOk c (.cpFillOc 0 0 ⟨0, 0, false⟩ 1 2 3) && !roleOk c (.cpFillOc 0 0 ⟨0, 0, false⟩ 1 2 3))
    && (ctxOf user).any (fun c => regsOk c .idle && roleOk c .idle && !privOk c .idle && !c.sheaf.sys.sstat.getLsbD 1)
    && (ctxOf (onSheaf fun sh => { sh with tok := [(7, ⟨true, 0⟩)] })).any (fun c => regsOk c (.movi ⟨0, false, 7, 0x80⟩ 127 0)
      && roleOk c (.movi ⟨0, false, 7, 0x80⟩ 127 0) && privOk c (.movi ⟨0, false, 7, 0x80⟩ 127 0)
      && (awaited c (.movi ⟨0, false, 7, 0x80⟩ 127 0)).isNone && tokensPending c.sheaf (waitMask (.movi ⟨0, false, 7, 0x80⟩ 127 0)))
    && (ctxOf (onUnit fun u => { u with awaits := [⟨7, 2, 0⟩] })).any (fun c => regsOk c (.sAdd 1 2 3) && roleOk c (.sAdd 1 2 3)
      && privOk c (.sAdd 1 2 3) && (awaited c (.sAdd 1 2 3)).any fun a => a.id == 7)) = true := by
  decide

theorem witness_noInstructionTraps : (ctxOf base).any (fun c => !c.sheaf.sys.sstat.getLsbD 1) = true := by decide

theorem witness_callsAndDoubleFaults :
    ([Instr.trap 7, .scall 0, .brk 9].all (fun i => meets i user fun c => !c.sheaf.sys.sstat.getLsbD 1)
    && meets (.trap 7) (status false 2) (fun c => c.sheaf.sys.sstat.getLsbD 1 && c.team.asid == 0)
    && (ctxOf (status true 2)).any (fun c => c.sheaf.sys.sstat.getLsbD 1 && isWord .idle && !endsThreadsFirst c .idle && !privOk c .idle)
    && (ctxOf (onSheaf (fun sh => { sh with allot := 16 }) (status false 2))).any (fun c => isWord (.movi h0 16 0) && !regsOk c (.movi h0 16 0))
    && [Instr.jr 1, .ret 1].all (fun i => meets i (onSheaf (fun sh => { sh with s := [(1, 2)] }) (status false 2)) fun c =>
      (rdS c 1).toNat % 4 != 0 && c.sheaf.sys.sstat.getLsbD 1)
    && meets (.evAdd 0 4 5) (events (onSheaf (fun sh => { sh with s := [(4, 1)] }) (status false 2))) (fun c => c.sheaf.sys.sstat.getLsbD 1
      && (match nameCheck c.st c.team.asid c.team.evWin (rdS c 4) with | .error e => e == 2 | .ok _ => false))) = true := by
  decide

theorem witness_returnRestoresTheProgram :
    (meets .eret (status false 2) (fun c => c.sheaf.level != .user && c.sheaf.sys.sstat.getLsbD 1)
    && meets .eret (status true 4) (fun c => c.sheaf.level == .user && c.sheaf.sys.sstat.getLsbD 2)
    && meets .eret (events (status true 8)) (fun c => c.sheaf.level == .user && !c.sheaf.sys.sstat.getLsbD 2 && c.sheaf.sys.sstat.getLsbD 3
      && (match nameCheck c.st c.team.asid c.team.evWin c.sheaf.sys.fevn with | .ok k => k == 0 | .error _ => false)
      && cancelledIn c.st c.team.die c.sheaf c.unit.mask == 0)
    && meets .eret (status true 0) (fun c => c.sheaf.level == .user && c.sheaf.sys.sstat.extractLsb' 1 3 == 0)
    && meets .eret (status false 0) (fun c => c.sheaf.level != .user && !c.sheaf.sys.sstat.getLsbD 1)) = true := by
  decide

theorem witness_faultContinuationIsEntered :
    (meets (.eretFc 4 5) (onSheaf (fun sh => { sh with sys := { sh.sys with fcont := 64 } }) (status false 2)) (fun c =>
      c.sheaf.sys.sstat.getLsbD 1 && !c.sheaf.sys.sstat.getLsbD 0 && !c.sheaf.sys.sstat.getLsbD 3 && c.sheaf.sys.fcont != 0)
    && meets (.eretFc 4 5) (status false 3) (fun c => c.sheaf.sys.sstat.getLsbD 1 && c.sheaf.sys.sstat.getLsbD 0)
    && meets (.eretFc 4 5) (status false 10) (fun c => c.sheaf.sys.sstat.getLsbD 1 && c.sheaf.sys.sstat.getLsbD 3)) = true := by
  decide

theorem witness_branchesGoToTheirTargets :
    ([Instr.nop, .br 0xFFFFF, .bc true 7 0x80000, .call 3 0, .loop 2 0xFFFFF, .jr 1, .ret 1].all (fun i => meets i (regs [(1, 0xFFFFFFFC), (2, 1)])
      fun c => cancelledIn c.st c.team.die c.sheaf c.unit.mask == 0 && (rdS c 1).toNat % 4 == 0)
    && [Instr.jr 1, .ret 1].all (fun i => meets i (regs [(1, 2)]) fun c => (rdS c 1).toNat % 4 != 0 && !c.sheaf.sys.sstat.getLsbD 1)) = true := by
  decide

/-- Thread 3 alone takes the branch, and a lane of 24 units has no room for another. -/
def taker (full : Bool) (s : State := base) : State :=
  onSheaf (fun sh => { sh with
    threads := Tbl.modify sh.threads 3 fun t => { t with p := 1 }
    units := sh.units ++ if full then (upto 23).map fun n => (30 + n, newUnit 0x0100 0 none 30 0) else [] }) { s with nextId := 60 }

theorem witness_branchDividesItsUnit :
    (meets (.bv false 0 3 0xFFFF) base (fun c => takes c false 0 == 0 && c.unit.mask != 0)
    && meets (.bv true 0 3 0xFFFF) base (fun c => takes c true 0 == c.unit.mask && cancelledIn c.st c.team.die c.sheaf (takes c true 0) == 0
      && noGang c.st c.tid && (swathUnits c.st c.tid c.slot).all fun u => !u.unit.wait.isSwath)
    && meets (.bv false 0 3 8) (taker false) (fun c => takes c false 0 == 8 && c.unit.mask != 8 && !laneFull c && decide (c.uid < c.st.nextId)
      && (splitRecord c.sheaf c.unit 3 (laneFull c)).isSome)
    && meets (.bv false 0 3 8) (taker true) (fun c => takes c false 0 == 8 && laneFull c
      && ((splitRecord c.sheaf c.unit 3 (laneFull c)).any fun x => decide (x.2.parked.length < 15)))
    && meets (.bv false 0 3 8) (split (fun r => { r with id := 5 }) (taker false)) (fun c =>
      (splitRecord c.sheaf c.unit 3 false).any fun x => x.1 == 1)
    && meets (.bv false 0 3 8) (onSheaf (fun sh => { sh with splits := (upto 16).map fun n => (n, ⟨5, none, 2, 0, 0, [], 1, [], []⟩) }) (taker false))
      (fun c => takes c false 0 == 8 && splitRecord c.sheaf c.unit 3 (laneFull c) == none && !c.sheaf.sys.sstat.getLsbD 1)
    && meets (.bv false 0 3 8) (split (fun r => { r with parked := List.replicate 15 ⟨1, 0, .fresh, [], [], none⟩ }) (taker true)) (fun c =>
      takes c false 0 == 8 && laneFull c && (splitRecord c.sheaf c.unit 3 (laneFull c)).any fun x => x.1 == 0 && decide (15 ≤ x.2.parked.length))) = true := by
  decide

theorem witness_joinsMeetAtTheirRecord :
    (meets (.join 4) (split id) (fun c => decide (c.unit.inner = some 0) && (Tbl.find c.sheaf.splits 0).all fun r => r.id != 4)
    && meets (.join 3) (split id (beside .ready)) (fun c => decide (c.uid ≠ c.st.nextId) && c.unit.mask != 0
      && (Tbl.find c.sheaf.splits 0).any (fun r => r.id == 3 && decide (1 < r.live)) && c.sheaf.splits.all (fun r => r.2.parked.isEmpty)
      && (teamUnits c.st c.tid).any (fun u => u.slot == 1 && u.unit.wait == .ready) && noGang c.st c.tid
      && (swathUnits c.st c.tid c.slot).all fun u => !u.unit.wait.isSwath)
    && meets (.join 3) (split fun r => { r with live := 1, arrived := 0xFF00, jaddr := 8 }) (fun c => decide (c.uid ≠ c.st.nextId)
      && (Tbl.find c.sheaf.splits 0).any fun r => r.id == 3 && decide (r.live ≤ 1) && r.parked.isEmpty)
    && meets (.join 3) (split fun r => { r with live := 1, parked := [⟨0xFF00, 12, .fresh, [], [], none⟩] }) (fun c =>
      (Tbl.find c.sheaf.splits 0).any fun r => r.id == 3 && decide (r.live ≤ 1) && !r.parked.isEmpty)) = true := by
  decide

theorem witness_endedUnitIsGone :
    (meets .endw (beside .ready) (fun c => decide (c.uid < c.st.nextId) && decide (c.sheaf.units = [(c.uid, c.unit)]) && c.sheaf.splits.isEmpty
      && c.unit.inner.isNone && noGang c.st c.tid
      && (teamUnits c.st c.tid).any (fun u => u.slot == 1 && u.unit.wait == .ready)
      && (swathUnits c.st c.tid c.slot).all fun u => !u.unit.wait.isSwath)
    && meets .endw (status false 2 (beside .ready)) (fun c => c.sheaf.level != .user && c.sheaf.sys.sstat.getLsbD 1)
    && meets .endw (onTeam (fun t => { t with sowing := false }) (status true 0 (beside .ready))) (fun c => c.sheaf.level == .user && !c.team.sowing)) = true := by
  decide

/-- Two sheaves of which the first is the last to arrive at a round, each thread counting `n`. -/
def round (w : RoundWord) (n : Word) : State :=
  onSheaf (fun sh => { sh with threads := sh.threads.map fun t => (t.1, { t.2 with v := [(5, n)] }) })
    (withMem 8 [16] (onTeam (fun t => { t with siloBase := 0x100000, capacity := 32 }) (beside (.round w))))

theorem witness_sowRoundPlacesSurvivors :
    ([(false, (1 : Word)), (true, 3), (false, 0)].all fun x =>
      meets (if x.1 then .sowSg h0 5 else .sow h0 5) (round (sowWord x.1 h0 5) x.2) fun c =>
        let arr := arrivalsOf c h0 5 1
        cancelledIn c.st c.team.die c.sheaf c.unit.mask == 0 && lastOf c (.round (sowWord x.1 h0 5)) && noGang c.st c.tid
        && (0 == (arr.map (·.n)).sum) == (x.2 == 0) && c.team.levels.isEmpty
        && (teamUnits c.st c.tid).all (fun u => u.unit.pc == c.unit.pc) && ranked arr && planFault c.team x.1 (planRound c.team arr) == none
        && (planPages c.team (planRound c.team arr)).isEmpty != x.1 && !descBad c.st c.team.asid
        && (planPages c.team (planRound c.team arr)).all (fun p => !rangeWaits c.st c.team.die c.team.asid (siloAddr c.team + 65536 * p) 1)
        && !poolShort c.st c.team (planPages c.team (planRound c.team arr))
        && (siloUnmapped c.st c.team (planPages c.team (planRound c.team arr))).isNone) = true := by
  decide

theorem witness_sowqRoundWritesItsSums :
    meets (.sowQ h0 126 5) (round ⟨.sowQ, 5, 126, 7, false⟩ 0xFFFFFFFF) (fun c => Instr.wf c.team.ver (.sowQ h0 126 5)
      && lastOf c (.round ⟨.sowQ, 5, 126, 7, false⟩) && noGang c.st c.tid && (teamUnits c.st c.tid).all (fun u => u.unit.pc == c.unit.pc)
      && ranked (arrivalsOf c h0 5 0) && c.st.tablesSorted && (arrivalsOf c h0 5 0).any fun a => a.act) = true := by
  decide

/-- A second team of the gang, whose units wait at the barrier. -/
def gang : State :=
  let s := beside .barGang
  { s with teams := s.teams ++ (Tbl.find s.teams 0).toList.map fun t => (5, { t with index := 1, core := 1, sheaves := t.sheaves.drop 1 }) }

theorem witness_barriersComplete :
    (meets .barTeam (beside .barTeam) (fun c => cancelledIn c.st c.team.die c.sheaf c.unit.mask == 0 && c.st.tablesSorted && lastOf c .barTeam && noGang c.st c.tid)
    && meets .barGang gang (fun c => c.st.tablesSorted && lastOf c .barGang && noGang c.st c.tid && decide (gangOf c.st c.team = [0, 5])
      && (Tbl.find c.st.teams 5).any (fun t => !t.out && t.sheaves.all fun sh => sh.2.splits.isEmpty)
      && (teamUnits c.st 5).all fun u => u.unit.wait == .barGang)
    && meets .barSwath (swath (.swath .bar)) (fun c => c.st.tablesSorted && swathOk c
      && (swathUnits c.st c.tid c.slot).all fun u => cancelledIn c.st c.team.die u.sheaf u.unit.mask == 0)) = true := by
  decide

theorem witness_boundRowsAreWritten :
    ([BdSrc.tile 0, .a, .w].all fun x => meets (.bdSet h0 true x 5) base (fun c => !tilePending (engineOf c) 0)
      && meets (.bdClr h0 x) base fun c => !tilePending (engineOf c) 0) = true := by
  decide

/-- Operands for copies: on-chip address 0, main address 1 MiB, length 64, and a gather of one element. -/
def copyBase : State := onTeam (fun t => { t with window := 64 })
  (regs [(1, 0), (2, 0x100000), (4, 64), (8, 0x100000), (11, 0x80000000), (12, 32), (13, 0x80000000), (14, 1), (15, 4)])

theorem witness_copiesAndAppendsEnterTheirQueue :
    ([Instr.cpFillOc 0 7 ⟨15, 15, true⟩ 1 2 4, .cpBlkLd 0 0 ⟨0, 0, false⟩ 1 2 4, .cpRed 0 0 ⟨0, 0, false⟩ 1 .maxf32 1 2 4,
      .cpGat 0 1 ⟨0, 0, false⟩ 2 8 14].all (fun i =>
      meets i copyBase fun c => (copyOf c i).any fun x => !(tokAt c.sheaf x.1.toNat).pending && decide ((queueFor c x.2.2.gather).length < 32)
        && (match ringKey x.2.1 with | some k => decide ((ringAt c.team k).oc < 255) | none => true) && x.2.2.check == none)
    && meets (.lgAppVoid 0 3 2 1 5) copyBase (fun c => !(tokAt c.sheaf 3).pending && decide ((queueFor c false).length < 32)
      && logCheck c (rdPair c 2) (rdS c 1) == none && decide (appendOf (.lgAppVoid 0 3 2 1 5) = some (3, 2, 1, 5, 2)))) = true := by
  decide

theorem witness_tokenAndRingWordsPass :
    (meets (.tkWait 0 0x7F) (onSheaf fun sh => { sh with tok := [(7, ⟨true, 0⟩)] }) (fun c => !tokensPending c.sheaf 0x7F)
    && meets (.tkWaitSt 0 4 0xFF) (onSheaf fun sh => { sh with tok := [(7, ⟨false, 15⟩)] }) (fun c => !tokensPending c.sheaf 0xFF
      && (upto 8).all fun k => decide ((tokAt c.sheaf k).status < 16))
    && meets (.rgAcqEmpty 0 ⟨15, 14, true, 1⟩) (regs [(1, 17)]) (fun c => !(ringAt c.team 255).ph && (rdS c 1).toNat % 16 == 1)
    && meets (.rgAcqFull 0 ⟨0, 0, false, 0⟩) base (fun c => !(ringAt c.team 0).ph)
    && meets (.rgRel 0 ⟨0, 3, false, 0⟩) base (fun c => (ringAt c.team 3).oc == 0)
    && meets (.rgRel 0 ⟨0, 3, false, 0⟩) (onTeam fun t => { t with rings := [(3, ⟨true, false, 1⟩)] }) (fun c => (ringAt c.team 3).oc != 0)) = true := by
  decide

theorem witness_matrixWordsEnterTheQueue :
    ([Instr.mxZero 0 0, .mxCmatSum 0 3 0, .mxFlip 0].all fun i =>
      meets i (onEngine fun e => { e with active := some plane }) (fun c => (matrixOf (leadCtx c [c]) i).any fun w => w.check == none
        && !jobClash (engineOf c) (mxSlots c) w.op && w.tk.all (fun tk => !(tokAt c.sheaf tk.toNat).pending)
        && decide ((engineOf c).queue.length < 16) && !inSwath c.sheaf)
      && meets i (swath (.swath .matrix) (onEngine fun e => { e with active := some plane })) fun c =>
        let us := swathUnits c.st c.tid c.slot
        (matrixOf (leadCtx c us) i).any fun w => w.check == none && inSwath c.sheaf && swathOk c) = true := by
  decide

theorem witness_matrixFencesWaitsAndJobs :
    (meets (.mxFence 0) base (fun c => !inSwath c.sheaf)
    && meets (.mxWait 0 3) base (fun c => !(tokAt c.sheaf 3).pending && (endingJob (engineOf c) (mxSlots c) 3).isNone && (engineOf c).redone.isEmpty)
    && meets (.mxWait 0 3) (onEngine fun e => { e with job0 := job .opened (some 3) }) (fun c => !(tokAt c.sheaf 3).pending && (engineOf c).redone.isEmpty
      && (match endingJob (engineOf c) (mxSlots c) 3 with
        | some (n, j) => j.state == .opened && j.mode == 0 && j.redoTk == none && (endingJob (setJob (engineOf c) n Job.zero) (mxSlots c) 3).isNone
        | none => false))
    && meets (.mxBeg 0 0 true) base (fun c => decide ((engineOf c).queue.length < 16) && (upto 2).all fun m => (jobOf (engineOf c) m).state == .free)
    && meets (.mxRedo 0 5 0 false) (onEngine fun e => { e with job0 := job .held none }) (fun c => !(tokAt c.sheaf 5).pending
      && (jobOf (engineOf c) 0).state == .held && (jobOf (engineOf c) 0).tile == 0 && decide ((engineOf c).queue.length < 16))) = true := by
  decide

theorem witness_matrixFencesWaitsAndJobs_redone :
    meets (.mxWait 0 3) (onEngine fun e => { e with
      redone := [0, 2].map fun n => { job .held none with redoTk := some 3, rows := n }, bounds := [(1, 0x7F80)] }) (fun c =>
      !(tokAt c.sheaf 3).pending && (endingJob (engineOf c) (mxSlots c) 3).isNone
        && ((engineOf c).redone.filter fun j => j.slots == mxSlots c && j.redoTk == some 3).map (fun j => tripRows (engineOf c) j == 0) == [true, false]) = true := by
  decide +kernel

/-- A check answers with a value. -/
def okWith {α β : Type} (x : Except α β) (p : β → Bool) : Bool :=
  match x with
  | .ok b => p b
  | .error _ => false

/-- A read of main memory gives what is asked. -/
def readsWith (x : VRes (List Byte)) (p : List Byte → Bool) : Bool :=
  match x with
  | .ok b => p b
  | _ => false

theorem witness_counterWordsSendRequests :
    ([Instr.evAdd 0 4 5, .evSet 0 4 5, .evAddRet 15 6 4 5, .evGet 1 6 4, .susp 4 5 7].all (fun i => meets i (events (regs [(7, 8)])) fun c =>
      okWith (nameCheck c.st c.team.asid c.team.evWin (rdS c 4)) (· == 0) && (rdS (closed c) 7).toNat % 4 == 0
      && okWith (nameCheck c.st c.team.asid c.team.evWin (rdS (closed c) 4)) (· == 0)
      && cancelledIn c.st c.team.die c.sheaf c.unit.mask == 0)
    && meets (.evAdd 0 4 5) (events (regs [(4, 1)])) (fun c =>
      (match nameCheck c.st c.team.asid c.team.evWin (rdS c 4) with | .error e => e == 2 | .ok _ => false) && !c.sheaf.sys.sstat.getLsbD 1)) = true := by
  decide

/-- Register 6 waits for the value of request 2. -/
def awaiting (s : State) : State := onUnit (fun u => { u with awaits := [⟨2, 6, 0⟩] }) s
/-- A request of the waiting unit at counter 0, whose value is 5, where another unit's continuation waits for 7. -/
def request (op : EvOp) (v : Word) (w : Wait) : State :=
  { awaiting (waiting w (events (beside (.susp 3)))) with
    evReqs := [⟨2, op, 0, v, 0, 0, 1, 64, false, 0⟩]
    dies := Tbl.modify (events (beside (.susp 3))).dies 0 fun d => { d with susps := [⟨3, .susp, 0, 7, 0, 1, 9, 32, false, 0⟩] } }

theorem witness_counterTakesItsRequest :
    ([(request .add 2 .ready, EvOp.add), (request .set 7 .ready, .set), (request .addRet 2 .ready, .addRet), (request .get 0 (.reply 2), .get),
      (request .susp 5 (.susp 2), .susp), (request .susp 6 (.susp 2), .susp)].all fun x =>
      match x.1.evReqs[0]? with
      | none => false
      | some r => r.op == x.2 && !evBlocked x.1 0 r && (Tbl.find x.1.dies (r.ctr / 1024)).isSome
        && (unitAt x.1 r.tid r.slot r.uid).any fun c => c.sheaf.overtaken.isEmpty && (c.unit.awaits.find? fun a => a.id == r.id).isSome
          && (match c.unit.wait with | .susp n => x.2 == .susp && n == r.id | _ => x.2 != .susp)) = true := by
  decide

theorem witness_groupWordsTakeEffect :
    (meets (.sgJoin 0 11) (groups id (regs [(11, 0x82080000)])) (fun c => !descBad c.st c.team.asid
      && (groupCheck c.st c.team.asid (rdS c 11) true).isNone && (groupAt c.st (tagDie (rdS c 11)) (tagIdx (rdS c 11))).isSome)
    && meets (.sgJoinClr 0) base (fun _ => true)
    && meets (.sgCpt 0) (onDie (fun d => { d with cancelled := [0x80080000] }) (onSheaf (fun sh =>
      { sh with threads := Tbl.modify sh.threads 0 fun t => { t with tag := 0x80080000 } }))) (fun c =>
      cancelledIn c.st c.team.die c.sheaf c.unit.mask == 1 && goneAt c == 1 && noGang c.st c.tid && (swathUnits c.st c.tid c.slot).all fun u => !u.unit.wait.isSwath)
    && [Instr.sgVote 0 9 20, .sgVoteAbst 15 9].all (fun i => meets i (groups id (tagged 0x82080000)) fun c => c.tag.getLsbD 31
      && (groupCheck c.st c.team.asid c.tag false).isNone && (groupAt c.st (tagDie c.tag) (tagIdx c.tag)).isSome)
    && [Instr.sgStatSt 0 10 11, .sgStatHash 0 10 11, .sgStatWait 0 10 11, .sgFree 0 11].all (fun i => [GState.opened, .decided].all fun st =>
      meets i (groups (fun g => { g with state := st }) (regs [(11, 0x80080000)])) fun c => !ballotAhead c && Instr.wf c.team.ver i
      && (match c.unit.wait with | .decision _ => false | _ => true) && !statBlocked c.st (rdS c 11)
      && (groupCheck c.st c.team.asid (rdS c 11) false).isNone && (groupAt c.st 0 0).any fun g => g.state == st)
    && meets (.sgStatWait 0 10 11) (onUnit (fun u => { u with wait := .decision 0x80080000 }) (groups (fun g => { g with state := .freed, stopped := true }))) (fun c =>
      c.unit.wait == .decision 0x80080000 && !ballotAhead c && statBlocked c.st 0x80080000 && (groupAt c.st 0 0).isSome)
    && [0x80000103, (0x00000103 : Word)].all (fun w => meets (.sgNew 0 8 12) (groups id (events (regs [(12, w), (13, 0x200000)]))) fun c =>
      !descBad c.st c.team.asid && newCheck c (rdS c 12) (pair (rdSk c 12 1) (rdSk c 12 2)) (rdSk c 12 3) == none)) = true := by
  decide

theorem witness_launchWordsSendTheirCards :
    ([Instr.lnch 0 1 9 20, .lnchTry 0 1 9 20, .post 0 1 9 20, .postTry 0 1 9 20].all fun i => [Level.user, .supervisor].all fun lv =>
      meets i (withMem 0x50 [5, 0, 1, 0x80] (onSheaf (fun sh => { sh with level := lv }) (regs [(20, 0x100)]))) fun c => (launchOf i).any fun x =>
        !(tokAt c.sheaf x.1.toNat).pending && !descBad c.st c.team.asid && launchCheck c (rdS c 9) (rdPair c 20) x.2.2.2.1 == none
        && (plotOf c.st c.team.plot).isSome && decide (queueBase c (rdS c 9) = if lv = .user then 5 else 0)) = true := by
  decide

theorem witness_systemRegistersAreRead :
    ((([0x004, 0x01A, 0x026, 0x100, 0x10F] : List (BitVec 12)).all fun r => meets (.srGet 0 r 5) base fun c => (register32 c r.toNat).isSome)
    && ((([0x003, 0x01D, 0x032, 0x400, 0x416, 0x4FF] : List (BitVec 12))).all fun r => meets (.srGet 0 r 4) base fun c =>
      (register64 c r.toNat).isSome && Instr.wf c.team.ver (.srGet 0 r 4) && !descBad c.st c.team.asid)
    && ([1, 2] : List (BitVec 12)).all fun r => meets (.srGet 0 r 4) base fun c => Instr.wf c.team.ver (.srGet 0 r 4)
      && (Tbl.find c.st.dies c.team.die).any fun d => d.cyc == 0 && d.cycTick == 0) = true := by
  decide

theorem witness_systemRegistersAreWritten :
    (([0x010, 0x012, 0x020, 0x026, 0x100, 0x10F, 0x030, 0x031, 0x032, 0x004, 0x033, 0x034, 0x036, 0x037] : List (BitVec 12)).all fun r =>
      meets (.srSet 0 r 4) (onSheaf fun sh => { sh with level := .monitor }) fun c => Instr.wf c.team.ver (.srSet 0 r 4)
        && (Tbl.find c.st.dies c.team.die).any fun d => d.toPost.isEmpty) = true := by
  decide

theorem witness_supervisorWordsComplete :
    (meets .idle base (fun c => (dieOf c.st c.team.die).fqsize == 0)
    && meets .idle (onDie fun d => { d with fqsize := 16 }) (fun c => (dieOf c.st c.team.die).fqsize != 0
      && (dieOf c.st c.team.die).fqhead == (dieOf c.st c.team.die).fqtail)
    && meets .idle (onDie fun d => { d with fqsize := 16, fqhead := 1 }) (fun c => (dieOf c.st c.team.die).fqhead != (dieOf c.st c.team.die).fqtail)
    && [Instr.tlbInvPage 8 10, .tlbInvAsid 8, .tlbInvAll].all (fun i => meets i (regs [(10, 0xFFFFFFFF), (11, 0x00FFFFFF)]) fun c =>
      decide (dieInvals c.st c.team.die < 64) && decide ((rdPair c 10).toNat < 2 ^ 56))
    && meets .tlbSync { base with invals := [⟨2, 0, 0, 0, 0⟩] } (fun c => c.st.dies.all fun d => d.2.toPost.isEmpty)
    && meets (.pgProbe 20 8 10) base (fun c => Instr.wf c.team.ver (.pgProbe 20 8 10)
      && (match walk c.st 0 (rdPair c 10).toNat with | .leaf _ _ => true | _ => false))
    && meets (.pgProbe 20 8 10) (regs [(11, 0x00FFFFFF)]) (fun c => decide ((rdPair c 10).toNat < 2 ^ 56)
      && (match walk c.st 0 (rdPair c 10).toNat with | .fail _ _ _ => true | _ => false))) = true := by
  decide

/-- A queue from die 0 to die 1 that context 0 owns, as `f` says; the crossing FIFO holds `n` entries; name word 0x01000000 or, for a pop on
die 1, a queue from die 1 to die 0. -/
def queue (w : Word) (f : Dq → Dq) (n : Nat) : State :=
  { onTeam (fun t => { t with window := 64 }) (regs [(4, w)]) with
    dqs := [(dqKey w, f ⟨[], 0, 7, some 0⟩)], fifos := [(1, List.replicate n ⟨0, 0, ⟨0, []⟩, [], 0, false⟩)] }

/-- An entry of 64 bytes. -/
def entry : DqEntry := ⟨9, List.replicate 64 1⟩

theorem witness_dieQueueWordsTakeEffect :
    ([(Instr.dqPushTry 0 4 6 8, queue 0x01000000 id 31), (.dqPush 0 4 6 8, queue 0x01000000 id 32), (.dqPushTry 0 4 6 8, queue 0x01000000 id 32),
      (.dqPushTry 0 4 6 8, queue 0x01000000 (fun q => { q with inFlight := 64 }) 0), (.dqPush 0 4 6 8, queue 0x01000000 (fun q => { q with inFlight := 64 }) 0),
      (.dqPop 0 4 6 8, queue 0x10000000 (fun q => { q with stored := [entry] }) 0), (.dqPop 0 4 6 8, queue 0x10000000 id 0),
      (.dqPopTry 0 4 6 8, queue 0x10000000 id 0), (.dqPush 0 4 6 8, queue 0x01000000 (fun q => { q with owner := none }) 0)].all fun x =>
      meets x.1 x.2 fun c => (queueWord x.1).any fun q => Instr.wf c.team.ver x.1 && dqCheck c (rdS c 4) (rdS c 6) q.2.2.2.1 == none
        && (dqAt c.st (dqKey (rdS c 4))).owner.all (· == c.team.asid) && c.st.tablesSorted
        && (!q.2.2.2.1 || firstFull c (rdS c 4) == (32 ≤ (fifoAt c.st (firstFifo c (rdS c 4))).length))) = true := by
  decide

theorem witness_fabricCommandsGoOut :
    ([Instr.nxPut 1 8 4 2, .nxGet 1 8 4 2, .nxAtom 1 .add 8 4 2, .nxSig 1 8 4 2, .nxProbe 1 20 2].all fun i => [(0 : Word), 260].all fun n =>
      meets i (routed n) fun c => (fabricOf c i).any fun x => !(tokAt c.sheaf x.1.toNat).pending && c.st.nxCmds.isEmpty && x.2.check == none
        && !c.sheaf.retired && !c.team.ended) = true := by
  decide

set_option maxRecDepth 20000 in
theorem witness_fabricTablesAreInstalled_tree :
    ([(0x80 : Byte), 0].all (fun x => meets (.nxTree 0 8 12) (withMem 0x100000 [1] (withMem 0x100044 [0xFF, 0xFF, x] (regs [(8, 0x100000)]))) fun c =>
      !rangeWaits c.st c.team.die 0 (rdPair c 8).toNat 64 && !rangeWaits c.st c.team.die 0 (rdPair c 8).toNat 128
      && readsWith (vread c.st c.team.die 0 (rdPair c 8).toNat 64) (fun h => fieldAt h 0 4 == 1 && zeroAt h 4 60)
      && readsWith (vread c.st c.team.die 0 ((rdPair c 8).toNat + 64) 64) fun e => (entryFault (List.replicate 64 0 ++ e) 0).isNone == (x == 0))
    && meets (.nxTree 0 8 12) (regs [(8, 0x100000)]) (fun c => readsWith (vread c.st c.team.die 0 (rdPair c 8).toNat 64) fun h => fieldAt h 0 4 == 0)
    && meets (.nxTree 0 8 12) (withMem 0x3FFFFFC0 [1] (regs [(8, 0x3FFFFFC0)])) (fun c => !rangeWaits c.st c.team.die 0 (rdPair c 8).toNat 128
      && readsWith (vread c.st c.team.die 0 (rdPair c 8).toNat 64) (fun h => fieldAt h 0 4 == 1 && zeroAt h 4 60)
      && (match vread c.st c.team.die 0 ((rdPair c 8).toNat + 64) 64 with | .fail .. => true | _ => false))) = true := by
  decide

theorem witness_fabricTablesAreInstalled_map :
    meets (.nxTopo 0 8 12) (withMem 0x100000 [1, 0, 0, 0, 0, 0, 0, 0, 1] (regs [(8, 0x100000)])) (fun c => !(tokAt c.sheaf 0).pending
      && c.st.nxCmds.isEmpty && c.st.cores.all (fun k => k.2.cache.isEmpty) && c.sheaf.held.isEmpty && c.sheaf.reports.isEmpty
      && c.st.outbox.isEmpty && c.st.packets.isEmpty && !descBad c.st 0 && !rangeWaits c.st c.team.die 0 (rdPair c 8).toNat 0xA00
      && readsWith (vread c.st c.team.die 0 (rdPair c 8).toNat 0xA00) fun b => (mapChecks b).all fun x => x.2.2) = true := by
  decide +kernel

theorem witness_fabricTablesAreInstalled_others :
    (meets (.nxTopo 0 8 12) (regs [(8, 0x100000)]) (fun c => !rangeWaits c.st c.team.die 0 (rdPair c 8).toNat 0xA00
      && readsWith (vread c.st c.team.die 0 (rdPair c 8).toNat 0xA00) fun b => (mapChecks b).head? == some (1, 0, false))
    && meets (.nxTopo 0 8 12) (regs [(9, 0x00FFFFFF)]) (fun c => !rangeWaits c.st c.team.die 0 (rdPair c 8).toNat 0xA00
      && match transRange c.st c.team.die 0 (rdPair c 8).toNat 0xA00 .read with | .fail .. => true | _ => false)) = true := by
  decide +kernel

/-- A copy command of the team's sheaf 0 that carries token 3. -/
def copy (kind : CopyKind) : CopyCmd :=
  { id := 7, kind := kind, tid := 0, slot := 0, tk := 3, ring := none, asid := 0, tag := 0, a := 0, b := 0, b2 := 0, n := 0, layout := []
    rows := [], parcel0 := 0, parcel1 := 0, progress := 0, stopped := false, poison := none, bad := false, err := false, buf := none, bufPz := [], res := 0, full := false }
/-- A copy at the head of the streamer of core 0. -/
def streamer (x : CopyCmd) (s : State := base) : State :=
  modCore (onTeam (fun t => { t with window := 8192 }) s) 0 fun k => { k with streamer := [x] }
/-- A gather at the head of die 0's engine. -/
def gatherer (x : CopyCmd) (s : State := base) : State := onDie (fun d => { d with gather := [x] }) (onTeam (fun t => { t with window := 64 }) s)
/-- The head of a queue is there for its engine. -/
def headOk (s : State) (k : EngineKey) : Bool :=
  match queueOf s k with
  | x :: rest => !x.stopped && rest.isEmpty && (Tbl.find s.teams x.tid).any (fun t => !t.ended) && !isCancelled s k.die x.tag
  | [] => false

/-- A range of main memory translates to one piece at core 0's port. -/
def onePiece (s : State) (a n : Nat) (need : Need) : Bool :=
  !rangeWaits s 4 0 a n && match transRange s 4 0 a n need with | .ok [(pa, k)] => k == n && !physPoisoned s pa n | _ => false
/-- A range of main memory can be read whole at core 0's port. -/
def mainOk (s : State) (a n : Nat) : Bool :=
  !rangeWaits s 4 0 a n && match readMain s 4 0 a n with | .ok (bs, none) => bs.length == n | _ => false

theorem witness_copyEventsMoveTheirBytes_blocks :
    ([CopyKind.blkLd, .redLd .addi32, .blkSt, .redSt .maxf32, .blkMm, .redMm .addf32].all (fun k =>
      let s := streamer { copy k with a := 4088, b := 0x100FF8, b2 := 0x200000, n := 64, progress := 1 }
      headOk s ⟨false, 0, 0⟩ && (Tbl.find s.teams 0).any (fun t => t.sharedPz.isEmpty && t.port == 4)
        && mainOk s 0x101000 56 && mainOk s 0x200008 56 && onePiece s 0x101000 56 .write && onePiece s 0x101000 56 .both
        && ocSpace 4088 == some .sh)
    && [CopyKind.tenLd, .tenSt].all (fun k =>
      let s := streamer { copy k with a := 4096, layout := [0x100000, 0, 0x0001003C, 64, 2, 0x00010040, 0, 0] }
      let l := layoutOf [0x100000, 0, 0x0001003C, 64, 2, 0x00010040, 0, 0]
      headOk s ⟨false, 0, 0⟩ && boxRows l == [(0, 0, 60)] && l.bytes l.boxInner == 64 && mainOk s 0x100000 60 && onePiece s 0x100000 60 .write)
    && (let s := gatherer { copy (.sct 2) with layout := [0x100000, 0, 0, 0x80000000, 32, 0x80000000, 1, 4], n := 1 }
      headOk s ⟨true, 0, 0⟩ && !rangeWaits s 0 0 0x100000 4 && match translate s 0 0 0x100000 .write with | .ok _ => true | _ => false)) = true := by
  decide

theorem witness_copyEventsMoveTheirBytes :
    ([4096, (4092 : Word)].all (fun o =>
      let s := streamer { copy .fillOc with a := o, n := 4, b := 0xA5 }
      headOk s ⟨false, 0, 0⟩ && (queueOf s ⟨false, 0, 0⟩).all fun x => ocSpace x.a == some .sh && decide (4096 * (ocOff x.a / 4096 + x.progress) < ocOff x.a + x.n))
    && [(0, 0), (4, 1)].all (fun n =>
      let s := streamer { copy .fillOc with a := 4096, n := n.1, progress := n.2 }
      headOk s ⟨false, 0, 0⟩ && (queueOf s ⟨false, 0, 0⟩).all fun x => x.n == 0 || decide (ocOff x.a + x.n ≤ 4096 * (ocOff x.a / 4096 + x.progress)))
    && (let s := gatherer { copy (.gat 2) with layout := [0x100000, 0, 0, 0x80000000, 32, 0x80000000, 1, 4], n := 1 }
      headOk s ⟨true, 0, 0⟩ && (queueOf s ⟨true, 0, 0⟩).all fun x => x.progress == 0 && x.layout.getD 6 0 == 1 && !x.err && !x.bad
        && isChip (descPair x.layout 2) && ocSpace (lowWord (descPair x.layout 2)) == some .sh
        && isChip (descPair x.layout 4) && ocSpace (lowWord (descPair x.layout 4)) == some .sh
        && (Tbl.find s.teams 0).any fun t => t.sharedPz.isEmpty && decide (leNat (readBytes t.shared (ocOff (lowWord (descPair x.layout 2))) 4) < x.n)
          && (match readMain s t.die x.asid 0x100000 4 with | .ok (_, none) => true | _ => false))
    && headOk (gatherer { copy (.gat 2) with layout := [0, 0, 0, 0, 0, 0, 1, 4], progress := 1 }) ⟨true, 0, 0⟩) = true := by
  decide

/-- A matrix command at the head of the engine's queue. -/
def matrix (op : MxOp) : State := onEngine fun e => { e with queue := [⟨7, op, 0, [0], 0, 0xFFFF, some 3, 0, [], []⟩] }

/-- An INT8 plane without scales. -/
def intPlane : Plane := ⟨12, 2, 0, [], [], 0, 0, false, 0⟩

theorem witness_engineEventsPerformTheirCommands_passes :
    (([MxOp.run 0 0 0x2000C 0, .cmatId 1, .cmatTr 2, .cmatSum 7].all fun op =>
      let s := onEngine fun e => { e with active := some intPlane, queue := [⟨7, op, 0, [0], 0, 0xFFFF, some 3, 0, [], []⟩] }
      (Tbl.find s.teams 0).any fun t => !t.ended && (readsError s t (opReads op)).isNone && (passTile op).isSome
        && (coreOf s 0).engine.queue.all fun x => !behindReRun (coreOf s 0).engine x.id && (intColumn t x intPlane.tile 15 63).isSome)
    && (Tbl.find (matrix (.ldw 0 0x2000C 0)).teams 0).any (fun t => ocSpace 0 == some .sh
      && (readsError (matrix (.ldw 0 0x2000C 0)) t [(0, 8192), (0, scaleBytes 0x2000C true)]).isNone)
    && [(Fmt.flt .f32, 63), (.flt .bf16, 62), (.int .i8, 60)].all (fun x =>
      let s := matrix (.drain 0 x.1 false .ne 5 5 x.2)
      (coreOf s 0).engine.queue.all fun y => y.base % 16 == 0 && decide y.slots.Nodup && decide (x.2 + 1 * drainElems x.1 ≤ 64)
        && (rowList y.rows).all (fun r => decide ((r - y.base) / 16 < y.slots.length))
        && (sheafAt s 0 0).any fun sh => sh.spoilt.isEmpty && (Tbl.find sh.threads 15).isSome)) = true := by
  decide

theorem witness_engineEventsPerformTheirCommands :
    ([MxOp.zero 7, .flip].all (fun op =>
      (coreOf (matrix op) (coreKey 0 0)).engine.queue.all fun x => x.op == op && !behindReRun (coreOf (matrix op) (coreKey 0 0)).engine x.id && (Tbl.find (matrix op).teams x.tid).any fun t => !t.ended)
    && (let s := onEngine fun e => { e with job1 := job .rerunning (some 3) }
      let e := (coreOf s (coreKey 0 0)).engine
      e.holder == some 0 && reRunDue e 1 && (Tbl.find s.teams 0).any fun t => (readsError s t (jobReads (jobOf e 1))).isNone)) = true := by
  decide

/-- An append at the head of the streamer with the staging words `st`, a log area of 64 records at 1 MiB and the entry `ent` of its slot 0. -/
def append (kind : Nat) (st ent : List Nat) : State :=
  withMem 0x100000 ([64, 0, 0, 0] ++ toBytes 4 0xFFFFFFFF ++ toBytes 4 0xFFFFFFF0 ++ [1]) (withMem 0x100040 (ent.flatMap (toBytes 4))
    (streamer { copy (.log kind) with b := 0x100000 } (onTeam fun t => { t with shared := writeBytes [] 0 (st.flatMap (toBytes 4)) })))
/-- An area write at core 0's port that waits for no walk and can be made. -/
def areaWritten (s : State) (a n : Nat) : Bool :=
  !rangeWaits s 4 0 a n && (match transRange s 4 0 a n .write, vwrite s 4 0 a (List.replicate n 0) with | .ok _, .ok _ => true | _, _ => false)

set_option maxRecDepth 20000 in
theorem witness_logAppendPutsItsRecord :
    ([(1, [0, 0, 0], [0, 0, 0, 0xFFFFFFFF]), (0, [0, 7, 0], [0, 0, 0, 0xFFFFFFFF]), (0, [2 ^ 25, 7, 0], [2, 1, 6, 6]), (0, [2 ^ 25, 9, 0], [2, 1, 6, 6]),
      (1, [0, 0, 0], [2, 2, 5, 6]), (2, [0, 0, 5], [2, 2, 5, 6]), (2, [0, 0, 7], [2, 0, 5, 6])].all fun k =>
      let s := append k.1 k.2.1 k.2.2
      headOk s ⟨false, 0, 0⟩ && (queueOf s ⟨false, 0, 0⟩).all (fun x => !olderAppend s x)
        && (sheafAt s 0 0).any (fun sh => !sh.retired && sh.reports.isEmpty) && (Tbl.find s.teams 0).any fun t =>
        let st := (upto 16).map fun i => BitVec.ofNat 32 (fieldAt (readChip s t 0 64).1 (4 * i) 4)
        (readChip s t 0 64).2.isNone && st.take 3 == k.2.1.map (BitVec.ofNat 32) && !rangeWaits s 4 0 0x100000 64 && !rangeWaits s 4 0 0x100040 16
        && readsWith (vread s 4 0 0x100000 64) (fun h => !badRecord st (fieldAt h 0 4) (fieldAt h 12 4)
          && decide ((fieldAt h 4 4 + 2 ^ 32 - fieldAt h 8 4) % 2 ^ 32 ≤ fieldAt h 0 4 - 1) && fieldAt h 4 4 == 0xFFFFFFFF)
        && readsWith (vread s 4 0 0x100040 16) (fun e => (upto 4).map (fun i => fieldAt e (4 * i) 4) == k.2.2)
        && areaWritten s (0x104000 + 64 * 63) 64 && areaWritten s 0x100044 12 && areaWritten s 0x100004 4) = true := by
  decide

/-- A ballot request of the waiting unit. -/
def ballot (op : BallotOp) (w : Word) (f : Group → Group) : State :=
  { awaiting (waiting (.reply 2) (groups f)) with ballots := [⟨2, op, 0, w, 0, 0, 0, 1, false, 0, 0⟩] }
/-- The state after writes to a group area. -/
def areaDone (ws : AreaWrites) (s : State) : Option State :=
  ws.foldl (fun o w => o.bind fun s => match vwrite s 0 0 w.1 w.2 with | .ok t => some t | _ => none) (some s)
/-- The request may go on, and every write that its acceptance makes can be made. -/
def ballotOk (s : State) : Bool :=
  match s.ballots[0]? with
  | none => false
  | some r => !ballotBlocked s 0 r && !ballotWaits s r && r.done == 0 && (Tbl.find s.dies r.die).isSome && s.ballots.length == 1
    && (unitAt s r.tid r.slot r.uid).any (fun c => c.unit.wait == .reply r.id && (c.unit.awaits.find? fun a => a.id == r.id).isSome
      && c.sheaf.overtaken.isEmpty)
    && match groupAt s 0 0 with
      | none => false
      | some g =>
        let a := acceptAt r g
        match areaDone a.writes { s with ballots := [] } with
        | none => false
        | some _ => !a.event || (areaDone (decisionWrites a.g) (ballotReply (sendCancels (modGroup { s with ballots := [] } 0 0 fun _ => a.g) 0 0 a.g a.gone) r
          (BitVec.ofNat 32 a.status))).isSome

theorem witness_ballotArrayAcceptsRequests_new :
    (ballotOk (ballot (.new 0x200000 2 1 none) 0x80010000 id) && (freeGroup (ballot (.new 0x200000 2 1 none) 0x80010000 id) 0 0x80010000).isNone
    && (freeGroup (ballot (.new 0x200000 2 1 none) 0x80020000 id) 0 0x80020000 == some 1)
    && (areaDone (newWrites 0x200000 2) (ballot (.new 0x200000 2 1 none) 0x80020000 id)).isSome) = true := by
  decide

/-- A group in which member 0 has voted for hash 9. -/
def oneVote (g : Group) : Group := { g with settle := [(0, (.voted, 0))], hashes := [⟨9, 1, 0⟩], seq := 1 }

theorem witness_ballotArrayAcceptsRequests :
    ([(BallotOp.vote 9, fun g => { g with n := 3, q := 3 }), (.abst, fun g => { g with n := 3, q := 3 })].all (fun x =>
      let s := ballot x.1 0x82080000 x.2
      ballotOk s && (groupAt s 0 0).any fun g => decide (votesFor g 9 + 1 < g.q)
        && decide (settledBy g (· != .none) + 1 < g.n) && (Tbl.find g.settle 1).isNone && g.state == .opened)
    && ballotOk (ballot (.vote 9) 0x82080000 oneVote)
    && (groupAt (ballot (.vote 9) 0x82080000 oneVote) 0 0).any (fun g =>
      g.q == votesFor g 9 + 1 && (Tbl.find g.settle 1).isNone && g.hashes.all fun y => decide (y.count < g.q))
    && [(BallotOp.vote 7, oneVote), (.abst, oneVote), (.abst, fun g => { g with settle := [(0, (.abstained, 0))], seq := 1 })].all (fun x =>
      let s := ballot x.1 0x82080000 x.2
      ballotOk s && (groupAt s 0 0).any fun g => settledBy g (· != .none) + 1 == g.n && g.hashes.all (fun y => decide (y.count < g.q))
        && (addHash 7 g.seq g.hashes).all fun y => decide (y.count < g.q))
    && [(BallotOp.vote 9, fun g => { g with state := .freed }), (.abst, fun g => { g with settle := [(1, (.cancelled, 0))] }),
        (.vote 9, fun g => { g with settle := [(1, (.voted, 0))] }), (.abst, fun g => { g with state := .decided })].all (fun x =>
      ballotOk (ballot x.1 0x82080000 x.2))
    && ballotOk (ballot .free 0x80080000 id) && ballotOk (ballot .free 0x80080000 fun g => { g with state := .decided })) = true := by
  decide

/-- A page release walk of member 1, its list of one page at 3 MiB. -/
def walker (begun : Bool) (next : Nat) : State :=
  withMem 0x78 [16] (withMem 0x70 (toBytes 8 0x400000) (withMem 0x300000 [5, 0, 0, 0] (withMem 0x400014 [2]
    { groups id with walks := [⟨0x82080000, 0, 0, begun, 0x300000, 1, next, none, false⟩] })))

/-- A kernel header of one sheaf of role G with sixteen threads, and a card of it for `n` teams in gangs of `n`. -/
def header : List Byte := ([3, 1, 0, 0, 0, 0, 16, 16, 4] ++ List.replicate 23 0).flatMap (toBytes 4)
/-- Its card. -/
def cardBytes (n : Nat) : List Byte := ([0x100100, 0, 0x10000, 0, n - 1, n - 1] ++ List.replicate 58 0).flatMap (toBytes 4)
/-- The card in launch queue 5 of die 0. -/
def queued (n : Nat) : Card := ⟨1, 0x100000, cardBytes n, header, 0, 0, none, 0, 0, 0, 1, false, true, none, 0, 0, 0, false, false, false⟩
/-- A cancel instant of member 1 at die 0. -/
def cancelling (s : State) : State := { s with cancels := [⟨0, 0, 0, 0x82080000, 0⟩] }
/-- It can take place, and nothing but cards of its queues carries its tag outside the teams. -/
def cancelOk (s : State) : Bool :=
  !pathAhead s 0 0 0 && s.cancels.length == 1 && (dieOf s 0).gather.isEmpty && s.tablesSorted
    && (dieOf s 0).toPost.isEmpty && (dieOf s 0).reserve.isNone && (dieOf s 0).queues.all fun q => q.2.cards.all fun c => !c.untold
/-- No copy is queued, and no card. -/
def noQueues (s : State) : Bool := (dieOf s 0).queues.isEmpty && s.cores.all fun k => k.2.streamer.isEmpty
/-- Units other than the first of sheaf 0 are there, and they are ready. -/
def othersReady (s : State) : Bool :=
  let us := (teamUnits s 0).filter fun u => u.slot != 0 || u.uid != 1
  !us.isEmpty && us.all fun u => u.unit.wait == .ready

theorem witness_cancellationEventsTakePlace :
    ((let s := cancelling { groups id with teams := [] }
      cancelOk s && noQueues s)
    && (let s := cancelling (onDie (fun d => { d with susps := [⟨3, .susp, 0, 7, 0, 0, 1, 32, false, 0⟩] }) (tagged 0x82080000 (beside .ready (groups id))))
      let s := modUnit s 0 0 1 fun u => { u with wait := .susp 3 }
      cancelOk s && noQueues s && othersReady s && (unitAt s 0 0 1).any fun c => c.unit.wait == .susp 3 && !c.team.out && !c.team.imageHold && !c.team.ended
        && c.team.sheaves.all (fun sh => sh.2.splits.isEmpty) && c.sheaf.trapped.isNone && c.unit.mask != 0 && decide (c.uid < s.nextId)
        && (positions c.unit.mask).all fun q => (threadAt c.sheaf q).tag == 0x82080000)
    && (let s := cancelling (streamer { copy .blkMm with tag := 0x82080000 } (groups id))
      cancelOk s && (dieOf s 0).queues.isEmpty && (queueOf s ⟨false, 0, 0⟩).length == 1 && s.teams.all fun t =>
        !t.2.out && !t.2.imageHold && !t.2.ended && t.2.sheaves.all (fun sh => sh.2.splits.isEmpty) && !(teamUnits s t.1).isEmpty
          && (teamUnits s t.1).all fun u => u.unit.wait == .ready)
    && (let s := cancelling { onDie (fun d => { d with queues := [(5, ⟨[{ queued 1 with tag := 0x82080000 }], some 0⟩)] }) (groups id) with teams := [] }
      cancelOk s && s.cardReqs.isEmpty && s.cores.all (fun k => k.2.streamer.isEmpty) && !rangeWaits s 0 0 0x100064 4
        && (match vwrite s 0 0 0x100064 (toBytes 4 (2 ^ 31 + 2 * 2 ^ 24)) with | .ok _ => true | _ => false))) = true := by
  decide

theorem witness_cancellationEventsTakePlace_walks :
    ([(false, 0), (true, 0), (true, 1)].all (fun x => let s := walker x.1 x.2
      (match s.walks[0]? with
        | none => false
        | some w => (groupAt s w.home (tagIdx w.tag)).isSome && !w.stopped && w.begun == x.1 && s.walks.length == 1
          && (if !x.1 then !walkHeld s w && !heldCounts s (· == w.tag) && !rangeWaits s 0 0 (memberAddr 0x200000 1) 12
              && readsWith (vread s 0 0 (memberAddr 0x200000 1) 12) (fun _ => true)
            else w.lowered.isNone && if x.2 = 1 then decide (w.count ≤ w.next)
            else !descBad s 0 && !rangeWaits s 0 0 w.plist 4 && !rangeWaits s 0 0 (desc s 0 0x70 8 + 20) 4
              && readsWith (vread s 0 0 w.plist 4) (fun b => leNat b == 5 && decide (5 < desc s 0 0x78 4))
              && readsWith (vread s 0 0 (desc s 0 0x70 8 + 20) 4) (fun b => leNat b == 2)
              && (match vwrite s 0 0 (desc s 0 0x70 8 + 20) [1, 0, 0, 0] with | .ok _ => true | _ => false))))
    && (let s := groups fun g => { g with state := .freed }
      (groupAt s 0 0).any (fun g => g.state == .freed) && !workTagged s (ofGroup 0 0) && !heldCounts s (ofGroup 0 0) && !decisionWaited s (ofGroup 0 0)
      && s.walks.isEmpty && s.ballots.isEmpty && s.cancels.isEmpty
      && s.dies.all fun d => d.2.plots.all fun p => !ofGroup 0 0 p.2.card.tag)) = true := by
  decide

/-- A die with that queue, and with a reserve phase. -/
def launch (n : Nat) (r : Option Reserve) : State :=
  onDie (fun d => { d with queues := [(5, ⟨[queued n], some 0⟩)], reserve := r })
/-- A request for the card, read at 1 MiB. -/
def carded : State :=
  withMem 0x100000 (cardBytes 1 ++ header) { waiting (.tokens 1) with cardReqs := [⟨2, 0, 5, 0x100000, true, 0, 0, false, none, 1, .unit 0 0 0, false, none, 0⟩] }

set_option maxRecDepth 20000 in
theorem witness_cardsReachTheirPlots_acceptance :
    ((match carded.cardReqs[0]? with
      | none => false
      | some r => !r.stopped && r.verdict.isNone && r.user && !rangeWaits carded r.die r.asid r.addr 256 && !rangeWaits carded r.die r.asid 0x100100 128
        && !pathAhead carded r.origin r.die r.id && (lqueueAt carded 0 5).cards.isEmpty && addrOk r.addr 256 && !descBad carded 0
        && readsWith (vread carded 0 0 r.addr 256) (fun card => cardAddrs card && fieldAt card 0 8 == 0x100100
          && readsWith (vread carded 0 0 0x100100 128) fun hdr => (cardReason carded 0 card hdr).isNone)
        && desc carded 0 0x14 4 % 4 != 3 && !isCancelled carded 0 r.tag)
    && (lqueueAt base 3 63).cards.isEmpty && base.cardReqs.isEmpty && (Tbl.find base.dies (255 / 64 % 4)).isSome) = true := by
  decide

set_option maxRecDepth 20000 in
theorem witness_cardsReachTheirPlots_placement :
    ([1, 2].all (fun n => let s := launch n none
      (match pickHead s 0 (dieRooms s 0) (dieHeads s 0) [] with
        | some (.card q c, f, passed) => q == 5 && gangSize c == n && passed.isEmpty && f.length == n && plotFor s 0 c == some 1
          && (lqueueAt s 0 5).cards.all (fun c => c.eligible && !c.bad && !c.untold) && !descBad s 0 && fieldAt c.hdr 0x34 4 == 0
        | _ => false))
    && (let s := launch 2 (some ⟨5, [0], []⟩)
      eligibleHead s 0 (queued 2) && (higherHeads s 0 5).isEmpty
      && (fitCore (reservedRooms s 0 (cardNeeds header) [0]) (cardNeeds header)).isSome)
    && (let p : Plot := ⟨queued 1, 1, 1, 1, 0, true, false, false⟩
      let s := { onDie (fun d => { d with plots := [(4095, p)] }) with teams := [] }
      plotDone s 4095 p && !bitOf (fieldAt p.card.card 0x34 4) 8 && !rangeWaits s 0 0 0x100064 4
      && (match vwrite s 0 0 0x100064 (toBytes 4 (2 ^ 31 + 5 * 2 ^ 24)) with | .ok _ => true | _ => false))) = true := by
  decide

/-- The team's round waits for the pool. -/
def pooled : State :=
  onTeam (fun t => { t with hold := .pool }) (withMem 8 [16] (onTeam (fun t => { t with siloBase := 0x100000 })
    (waiting (.round (sowWord false h0 5)) (onSheaf fun sh => { sh with threads := sh.threads.map fun t => (t.1, { t.2 with v := [(5, 2)] }) }))))
/-- An idle team with one record of ordinals 3 to 18 in its silo. -/
def idleTeam : State :=
  withMem 0x101000 ([0, 0, 3, 18].flatMap (toBytes 4)) (onTeam (fun t => { t with siloBase := 0x100000, capacity := 17, levels := [⟨4096, 1, 2, 64, [[]]⟩], top := 4096 + 64 })
    (onSheaf fun sh => { sh with units := [] }))

theorem witness_teamsSwapAndHarrowGoesOn :
    ((let s := onTeam fun t => { t with halted := true, saveBase := 0x100000 }
      (Tbl.find s.teams 0).any fun t => haltedNow s 0 t && t.tiles != 0 && !descBad s 0 && !rangeWaits s 0 0 (saveAddr t) (saveBytes t)
        && (match transRange s 0 0 (saveAddr t) (saveBytes t) .write with | .ok _ => true | _ => false))
    && ((unitAt pooled 0 0 1).any fun c => c.team.hold == .pool && (teamUnits pooled 0).all (fun u => u.unit.wait == .round (sowWord false h0 5))
      && ranked (arrivalsOf c h0 5 1) && noGang pooled 0 && decide (0 < ((arrivalsOf c h0 5 1).map (·.n)).sum) && (planFault c.team false (planRound c.team (arrivalsOf c h0 5 1))).isNone && !descBad pooled 0
      && !poolShort pooled c.team (planPages c.team (planRound c.team (arrivalsOf c h0 5 1)))
      && (planPages c.team (planRound c.team (arrivalsOf c h0 5 1))).all (fun p => !rangeWaits pooled 0 0 (siloAddr c.team + 65536 * p) 1)
      && c.team.sheaves.all (fun sh => sh.2.splits.isEmpty)
      && (siloUnmapped pooled c.team (planPages c.team (planRound c.team (arrivalsOf c h0 5 1)))).isNone)
    && ((Tbl.find idleTeam.teams 0).any fun t => teamIdle t && t.hold != .fault && t.levels.length == 1 && !siloWaits idleTeam t && !descBad idleTeam 0 && !t.out && !t.ended
      && (match translate idleTeam 0 0 (siloAddr t) .write with | .ok _ => true | _ => false)
      && readsWith (vread idleTeam 0 0 (siloAddr t + 4096) (recBytes t)) fun bs =>
        let w := fun i => leNat ((bs.drop (4 * i)).take 4)
        !bitOf (w 1) 24 && !bitOf (w 1) 23 && decide (w 2 ≤ w 3) && decide (w 3 - w 2 < t.capacity))) = true := by
  decide

/-- A swapped-out team without tiles, whose save region lies at 1 MiB. -/
def outTeam : Team := { stageTeam 0 with out := true, returning := true, tiles := 0, saveBase := 0x100000, swState := 1 }
/-- Cells from an address on. -/
def cells (a : Nat) (bs : List Byte) : List Host.Cell := (upto bs.length).map fun i => (a + i, bs.getD i 0)
/-- The bytes of its descriptor and of the page tables, zeros too. -/
def tables : List Host.Cell :=
  (upto 256 ++ (upto 8).map (0x1000 + ·) ++ (upto 8).map (0x2000 + ·) ++ (upto 8).map (0x3000 + ·)).map fun a => (a, byteAt base.mem a)
/-- Its device, with the check word and the body that its swap-out wrote. -/
def swappedOut : State :=
  { base with teams := [(0, outTeam)], cores := []
              mem := tables ++ (cells 0x10000C (toBytes 4 (checkWord outTeam)) ++ cells 0x101000 (bodyBytes outTeam)) }

theorem find_append_out (l r : List Host.Cell) (k : Nat) (h : ∀ c ∈ l, c.1 ≠ k) : Tbl.find (l ++ r) k = Tbl.find r k := by
  induction l with
  | nil => rfl
  | cons c l ih =>
    simp only [List.cons_append, Tbl.find, h c List.mem_cons_self, if_false]
    exact ih fun d hd => h d (List.mem_cons_of_mem c hd)

theorem find_map_range (n i a : Nat) (f : Nat → Byte) (r : List Host.Cell) (h : i < n) :
    Tbl.find ((List.range n).map (fun j => (a + j, f j)) ++ r) (a + i) = some (f i) := by
  induction n generalizing r with
  | zero => omega
  | succ n ih =>
    rw [List.range_succ, List.map_append, List.append_assoc]
    by_cases hi : i < n
    · exact ih _ hi
    · obtain rfl : i = n := by omega
      rw [find_append_out]
      · simp [Tbl.find]
      · intro c hc
        obtain ⟨j, hj, rfl⟩ := List.mem_map.mp hc
        have := List.mem_range.mp hj
        simp only; omega

theorem readBytes_cells (l r : List Host.Cell) (a : Nat) (bs : List Byte) (h : ∀ c ∈ l, c.1 < a ∨ a + bs.length ≤ c.1) :
    readBytes (l ++ (cells a bs ++ r)) a bs.length = bs := by
  apply List.ext_getElem
  · simp [readBytes, upto]
  · intro i h1 h2
    have hf : Tbl.find (l ++ (cells a bs ++ r)) (a + i) = some (bs.getD i 0) := by
      rw [find_append_out]
      · exact find_map_range bs.length i a (fun j => bs.getD j 0) r h2
      · intro c hc; have := h c hc; omega
    simp [readBytes, upto, byteAt, Tbl.get, hf, List.getD_eq_getElem?_getD, h2]

theorem okList_eq {x : VRes (List (Nat × Nat))} {l : List (Nat × Nat)}
    (h : (match x with | .ok y => decide (y = l) | _ => false) = true) : x = .ok l := by
  cases x <;> simp_all

theorem bodyOk_swappedOut : bodyOk swappedOut outTeam = true := by
  have hb : bodyBytes outTeam = bodyBytes outTeam := rfl
  have hl : (bodyBytes outTeam).length = 61440 := by
    simp only [bodyBytes, upto, List.length_map, List.length_range]; decide
  have hlow : ∀ c ∈ tables, c.1 < 0x100000 := by decide +kernel
  have hc : physRead swappedOut 0x10000C 4 = toBytes 4 (checkWord outTeam) :=
    readBytes_cells tables _ 0x10000C (toBytes 4 (checkWord outTeam)) fun c h => .inl (by have := hlow c h; omega)
  have hd : physRead swappedOut 0x101000 61440 = bodyBytes outTeam := by
    have h := readBytes_cells (tables ++ cells 0x10000C (toBytes 4 (checkWord outTeam))) [] 0x101000 (bodyBytes outTeam) (by
      intro c h
      rcases List.mem_append.mp h with h | h
      · have := hlow c h; omega
      · obtain ⟨j, hj, rfl⟩ := List.mem_map.mp h
        have : j < 4 := List.mem_range.mp hj
        simp only; omega)
    rw [hl] at h
    simpa [physRead, swappedOut, physPlace] using h
  have t1 : transRange swappedOut 0 0 0x10000C 4 .read = .ok [(0x10000C, 4)] := okList_eq (by decide +kernel)
  have t2 : transRange swappedOut 0 0 0x101000 61440 .read = .ok [(0x101000, 61440)] := okList_eq (by decide +kernel)
  have p1 : physPoisoned swappedOut 0x10000C 4 = false := by decide
  have p2 : physPoisoned swappedOut 0x101000 61440 = false := by decide
  have v1 : vread swappedOut 0 0 0x10000C 4 = .ok (toBytes 4 (checkWord outTeam)) := by
    simp [vread, t1, p1, hc]
  have v2 : vread swappedOut 0 0 0x101000 61440 = .ok (bodyBytes outTeam) := by
    simp [vread, t2, p2, hd]
  have hn : leNat (toBytes 4 (checkWord outTeam)) = checkWord outTeam := by
    have : checkWord outTeam < 2 ^ 32 := Nat.mod_lt _ (by decide)
    simp [toBytes, upto, List.range_succ, leNat]; omega
  have e1 : saveAddr outTeam + 0xC = 0x10000C := by decide
  have e2 : saveAddr outTeam + 4096 = 0x101000 := by decide
  have e3 : saveBytes outTeam - 4096 = 61440 := by decide
  simp [bodyOk, e1, e2, e3, show outTeam.die = 0 from rfl, show outTeam.asid = 0 from rfl, v1, v2, hn]

set_option maxRecDepth 20000 in
theorem witness_teamsSwapAndHarrowGoesOn_return :
    ((match pickHead swappedOut 0 (dieRooms swappedOut 0) (dieHeads swappedOut 0) [] with
      | some (.back _ [0] _, [_], passed) => passed.isEmpty
      | _ => false)
    && outTeam.out && !outTeam.ended && (dieOf swappedOut 0).reserve.isNone && (dieOf swappedOut 0).cancelled.isEmpty
    && noGang swappedOut 0 && !descBad swappedOut 0 && (teamUnits swappedOut 0).any (fun u => u.unit.wait == .ready) && (teamUnits swappedOut 0).all (fun u => !u.unit.wait.isSwath)
    && !rangeWaits swappedOut 0 0 (saveAddr outTeam) (saveBytes outTeam)
    && (match transRange swappedOut 0 0 (saveAddr outTeam) (saveBytes outTeam) .read, transRange swappedOut 0 0 (saveAddr outTeam) 4096 .write with
      | .ok _, .ok _ => true
      | _, _ => false)) = true
    ∧ Tbl.find swappedOut.teams 0 = some outTeam ∧ bodyOk swappedOut outTeam = true :=
  ⟨by decide, rfl, bodyOk_swappedOut⟩

/-- A packet at a port. -/
def packet (kind port hi : Nat) : Packet :=
  { kind := kind, hi := hi, nh := 1, asid := 0, dst := 0, src := 1, hops := [0], rp := [0], tag := 9, addr := 0x100000, opnd := 0, aop := .add
    len := 4, data := if kind = 1 then [1, 2, 3, 4] else [], poison := false, port := port, leg := none }
/-- A command of the sheaf of one packet of tag 9. -/
def command (kind : NxKind) (sent : Option Nat) : NxCmd :=
  { id := 7, kind := kind, die := 0, tid := 0, slot := 0, tk := 3, asid := 0, mtag := 0, route := [0x10000000, 0, 0x10000, 0], remote := 0, loc := 0
    n := 4, opnd := 0, dst := 5, parts := [⟨9, 0, 4, sent, false, none⟩], value := none, bad := none, stopped := false }
/-- A device with one packet and one command. -/
def net (p : Packet) (n : List NxCmd) : State := { fabric with packets := [p], nxCmds := n }

theorem witness_linkAndPortEventsTakePlace_packets :
    ([([], (1 : Nat)), ([3], 1)].all (fun x => let s := { base with fifos := [(x.2, [⟨0, 64 * 0 + 16, entry, x.1, 0, false⟩])] }
      (match fifoAt s x.2 with | f :: _ => f.path == x.1 && !pathAhead s (dqSrc f.queue) (dqDst f.queue) f.id && (fifoAt s 7).isEmpty | [] => false))
    && [packet 1 0 1, packet 2 0 1].all (fun p => let s := net p []
      decide (p.port < 24) && !requestWaits s p && asidEnabled s p.asid && (hopCheck s { p with rp := updAt p.rp (p.hi - 1) fun _ => p.port }).isNone
      && portUp s ((updAt p.rp (p.hi - 1) fun _ => p.port).getD (p.nh - 1) 31)
      && (match transRange s 0 p.asid p.addr 4 (if p.kind = 1 then .write else .read) with | .ok [(_, n)] => n == 4 | _ => false)
      && !physPoisoned s 0x100000 4)
    && (let s := net (packet 5 31 0) [command .probe none]
      (nxOfTag s 9).any (fun n => n.kind == .probe && n.parts.length == 1 && n.parts.all fun p => p.tag == 9 && maySend s n p)
      && (hopCheck s (packet 5 31 0)).isNone)
    && [(100 : Nat), 4096].all (fun m => let s := { net (packet 8 0 1) [command .put (some 0)] with mer := m }
      (nxOfTag s 9).any (fun n => n.bad.isNone && !n.stopped && n.parts.all fun p => p.done.isNone && p.sentAt == some 0 && !p.came
        && partOfTag s 9 == some (n, p) && p.lostAt s == (m == 4096))
      && (sheafAt s 0 0).any (fun sh => !sh.retired && sh.reports.isEmpty)
      && decide (0 + Max.max 4096 ((s.topo.map (·.tmo)).getD 0) ≤ s.mer) == (m == 4096))) = true := by
  decide

theorem witness_linkAndPortEventsTakePlace :
    ([PortState.training, .down, .up].all (fun st => [base, fabric].all fun b =>
      let s := { b with ports := [(23, ⟨st, 0, 0, [], false, false⟩)] }
      (portAt s 23).state == st && (portAt s 23).changes.isEmpty && !(portAt s 23).loadDue && !(portAt s 23).stopped && s.outbox.isEmpty && s.packets.isEmpty
      && s.topo.all fun m => !mapWaits s m.addr 23 && (match vread s 3 0 (m.addr + 0x570) 4, vwrite s 3 0 (m.addr + 0x570) [0, 0, 0, 0] with
        | .ok _, .ok _ => true
        | _, _ => false))
    && (let s := { base with mer := 65536 }
      s.mer != 0 && s.mer % 65536 == 0 && s.loadAt != s.mer)) = true := by
  decide

/-- The device with nothing on it, its time and its dies as given. -/
def quiet (mer : Nat) (f : Die → Die) : State :=
  { State.reset with mer := mer, lattol := 40, dies := State.reset.dies.map fun d => (d.1, f d.2), host := { HostSt.reset with boot := .ready } }

/-- Nothing of a device is due at its ports, and nothing waits for a field. -/
def still (s : State) : Bool :=
  s.ports.all (fun p => p.2.changes.isEmpty && !p.2.loadDue) && s.teams.all (fun t => t.2.hold != .pool) && s.walks.isEmpty
    && s.cores.all fun k => k.2.streamer.all fun c => !c.full

theorem witness_clocksPowerAndHealthEvents :
    ([quiet 5 fun d => { d with fset := 6 }, quiet 5 id, quiet 5 fun d => { d with busy := true, relockEnd := 9 }, quiet 4095 id].all (fun s => !tickDue s && still s)
    && (quiet 5 fun d => { d with fset := 6 }).dies.all (fun d => !d.2.busy && Min.min d.2.fset d.2.ceiling != d.2.fcur)
    && (quiet 400 fun d => { d with busy := true, relockEnd := 400, target := 6 }).dies.all (fun d => d.2.busy && decide (d.2.relockEnd ≤ 400)
      && d.2.toPost.isEmpty) && still (quiet 400 fun d => { d with busy := true, relockEnd := 400, target := 6 })
    && [(0, Boot.ready), (9, .ready), (0, .recovery)].all (fun c =>
      let s := { quiet 200000 (fun d => { d with ceiling := 18 }) with host := { HostSt.reset with boot := c.2, cool := c.1 } }
      s.host.windowAt != s.mer && s.mer % 200000 == 0 && s.host.boot == c.2 && s.host.cool == c.1 && s.dies.all fun d => decide (6 < d.2.ceiling ∧ d.2.ceiling < 19))
    && (quiet 5 fun d => { d with power := .a2 }).dies.all (fun d => d.2.power != .a3)
    && deepest (quiet 5 fun d => { d with quiet := [(1, 200)] }) 3 == 1 && deepest (quiet 5 fun d => { d with quiet := [(2, 200)] }) 3 == 2
    && wakeDue (onDie fun d => { d with power := .a1 }) 0
    && (quiet 720000000 id).dies.all (fun d => d.2.wearAt != 720000000) && 720000000 % 720000000 == 0
    && (quiet 65536 id).dies.all (fun d => d.2.sbalAt != 65536 && !d.2.held) && !engineHeld (quiet 65536 id) 0) = true := by
  decide

/-- The descriptor of context 1, with a pool limit, deadlines of 5 ticks and a stall limit of 3, and a team of context 0. -/
def context (f : State → State) : State :=
  f (withMem 0x110 [3, 0, 0, 0, 0, 0, 0, 0, 5, 0, 0, 0, 5] (withMem 0x160 [1] { base with mer := 10 }))

theorem witness_contextsStopAndGoOn :
    (!descBad (context id) 1 && desc (context id) 1 0x14 4 != 1
    && (let s := context fun s => { s with preempts := [⟨1, 5, 2⟩] }
      (preemptOf s 1).any (fun p => p.stage == 2 && decide (p.tick + desc s 1 0x1C 4 ≤ s.mer)) && desc s 1 0x1C 4 != 0 && hasResidents s 1)
    && (let s := context fun s => { s with preempts := [⟨1, 5, 1⟩] }
      (preemptOf s 1).any fun p => p.stage == 1 && decide (p.tick + desc s 1 0x18 4 ≤ s.mer))
    && (let s := { withMem 0x160 [0] (context id) with preempts := [⟨1, 0, 2⟩] }
      (preemptOf s 1).isSome && !hasResidents s 1)
    && (let s := context fun s => onTeam (fun t => { t with asid := 1, hold := .pool }) { s with stalls := [(1, 3)] }
      !descBad s 0 && !descBad s 1 && desc s 1 0x10 4 == 3 && decide (desc s 1 0x10 4 ≤ Tbl.get 0 s.stalls 1)
      && (s.teams.filter fun x => x.2.asid == 1 && x.2.hold == .pool).map (·.2.index) == [0])
    && [false, true].all (fun due =>
      let s := onDie (fun d => { d with queues := [(5, ⟨[{ queued 1 with due := due, eligible := false }], some 0⟩)] })
      still s && clockRuns (dieOf s 0) && !descBad s 0
      && (lqueueAt s 0 5).cards.all fun c => c.due == due && match depsState s c with | .ok b => b | .error _ => false)
    && (match walk base 0 0x3FFFFFFF with | .leaf _ _ => true | _ => false) && base.walking.isEmpty && base.walked.isEmpty
    && base.dies.all (fun d => clockRuns d.2 && d.2.toPost.isEmpty)
    && ({ base with walking := [⟨0, 0, 0x3FFF, none, []⟩] }.walking.find? fun w : Walking => w.asid == 0 && w.page == 0x3FFFFFFF / 65536).isSome) = true := by
  decide

theorem witness_faultQueueIsServed :
    (let s := onDie (fun d => { d with posted := [{ FRec.zero with seq := 4, work := .copy 0 0 7 }] }) (streamer { copy .fillOc with stopped := true })
    (Tbl.find s.dies 0).any (fun d => d.toPost.isEmpty && d.ftable.isEmpty
      && (d.posted.find? fun y => y.seq == 4).any fun r => !r.acted && r.work == .copy 0 0 7)
    && (queueOf s ⟨false, 0, 0⟩).map (·.kind) == [.fillOc] && (Tbl.find s.teams 0).any fun t => !t.ended) = true := by
  decide

/-- The host's side as `f` says. -/
def hosted (f : HostSt → HostSt) : State := { base with host := f base.host }

theorem witness_hostReachesTheDevice :
    (base.host.boot == .ready && base.dies.all (fun d => d.2.power == .a0) && base.memPz.isEmpty
    && (let s := hosted fun h => { h with pending := [⟨1, 2, 3, 4⟩], hcrsize := 16, hcrhead := 0xFFFFFFFF, hcrtail := 0xFFFFFFF0 }
      !ringFull s.host && s.host.pending.length == 1)
    && tierRange 0 8 && !physPoisoned base 0 8 && !tierRange (2 ^ 42 - 8) 8 && (Tbl.find base.dies (discardDie (2 ^ 42 - 8))).isSome
    && (hosted fun h => { h with boot := .recovery }).host.boot == .recovery) = true := by
  decide

theorem witness_bootAndLifeCycle :
    ([Boot.rom, .recovery, .verify, .ready].all (fun b => (hosted fun h => { h with boot := b }).host.boot == b)
    && [LifeCycle.manufacture, .provisioned, .deployed, .decommissioned].all (fun l => (hosted fun h => { h with lc := l }).host.lc == l)
    && !imageOk base.host [] && (hosted fun h => { h with seed := some 1, leaves := 2 ^ 25 - 1 }).host.leaves < 2 ^ 25) = true := by
  decide

/-- The staged team before its step, with bytes at its first word. -/
def staged (bs : List Byte) : State := stage State.reset bs
/-- The unit that is to issue in it. -/
def stagedUnit (s : State) (p : Ctx → Bool) : Bool :=
  match nextAction s with
  | .issue tid slot uid => (unitAt s tid slot uid).any fun c => mayIssue s c && p c
  | .event _ => false

theorem witness_stepRunsTheNextAction :
    ([([0, 0, 0, 1], true), ([0, 0, 0, 0], false)].all (fun x => stagedUnit (staged x.1) fun c =>
      (match translate (staged x.1) c.team.port (fetchAsid c) (fetchAddr c) .fetch with
        | .ok pa => !codePoisoned (staged x.1) c.core pa 4 && okWith (decodeBytes 3 (physRead (staged x.1) pa 4)) (fun _ => true) == x.2
        | _ => false))
    && stagedUnit { staged [] with memPz := [0x400] } (fun c => codePoisoned { staged [] with memPz := [0x400] } c.core (fetchAddr c) 4)
    && (let s := onTeam (fun t => { t with codeBase := 2 ^ 40 }) (staged [])
      stagedUnit s fun c => (match translate s c.team.port (fetchAsid c) (fetchAddr c) .fetch with | .fail _ => true | _ => false))
    && (let s := { staged [] with memPz := [0] }
      stagedUnit s fun c => (match translate s c.team.port (fetchAsid c) (fetchAddr c) .fetch with | .descErr => true | _ => false))
    && (let s := waiting .barTeam (staged [])
      (match nextAction s with
        | .issue tid slot uid => (unitAt s tid slot uid).any fun c => !mayIssue s c
        | .event _ => false))
    && mayRun { base with agenda := [.event .meridianTick] } .meridianTick
    && !mayRun { base with agenda := [.event .nop] } .nop) = true := by
  decide

theorem witness_decodeOfEncode : ([(1, Instr.nop), (2, .tlbSync), (3, .sowQ h0 126 127)].all fun x => Instr.wf x.1 x.2) = true := by decide

theorem witness_stateStaysCanonical :
    ((staged [0, 0, 0, 1]).canonical && (match step (staged [0, 0, 0, 1]) with | .next _ => true | _ => false)) = true := by
  decide

end Sys2Proof.Tests
end

section
/-! What a cross-thread word does to the state: the writes of each unit, then the end of the word in each. -/

namespace Sys2Proof.Machine
open Sys2Proof.Claims

/-! ### Steps that leave a sheaf but for its registers -/

/-- What a cross-thread word leaves of a sheaf, the registers of `dest` apart. -/
structure SheafStays (dest : RegKey → Prop) (a b : Sheaf) : Prop where
  stack   : b.stack = a.stack
  sys     : b.sys = a.sys
  held    : b.held = a.held
  threads : ∀ p, (Tbl.find b.threads p).isSome = (Tbl.find a.threads p).isSome
  units   : ∀ uid, (Tbl.find b.units uid).isSome = (Tbl.find a.units uid).isSome
  regs    : ∀ k, ¬ dest k → readKey b k = readKey a k

/-- What a cross-thread word leaves of the device and of a sheaf of its team. -/
structure CrossStays (tid slot : Nat) (dest : RegKey → Prop) (s t : State) : Prop where
  mem    : t.mem = s.mem
  host   : t.host = s.host
  shared : (Tbl.find t.teams tid).map (·.shared) = (Tbl.find s.teams tid).map (·.shared)
  sheaf  : ∀ a, sheafAt s tid slot = some a → ∃ b, sheafAt t tid slot = some b ∧ SheafStays dest a b

variable {tid slot : Nat} {dest : RegKey → Prop}

theorem SheafStays.refl (a : Sheaf) : SheafStays dest a a := ⟨rfl, rfl, rfl, fun _ => rfl, fun _ => rfl, fun _ _ => rfl⟩

theorem SheafStays.trans {a b d : Sheaf} (h : SheafStays dest a b) (k : SheafStays dest b d) : SheafStays dest a d :=
  ⟨k.stack.trans h.stack, k.sys.trans h.sys, k.held.trans h.held, fun p => (k.threads p).trans (h.threads p),
    fun u => (k.units u).trans (h.units u), fun j hj => (k.regs j hj).trans (h.regs j hj)⟩

theorem SheafStays.drainHolds {a b : Sheaf} (h : SheafStays dest a b) (k : RegKey) : drainHolds b k = drainHolds a k := by
  simp only [Machine.drainHolds, h.held]

theorem SheafStays.holds {a b : Sheaf} (h : SheafStays dest a b) {v : Word} {k : RegKey} (hk : k.holds a v) : k.holds b v := by
  cases k <;> simp only [RegKey.holds, h.threads] at hk ⊢ <;> exact hk

theorem CrossStays.refl (s : State) : CrossStays tid slot dest s s := ⟨rfl, rfl, rfl, fun a h => ⟨a, h, .refl a⟩⟩

theorem CrossStays.trans {s t r : State} (h : CrossStays tid slot dest s t) (k : CrossStays tid slot dest t r) :
    CrossStays tid slot dest s r where
  mem := k.mem.trans h.mem
  host := k.host.trans h.host
  shared := k.shared.trans h.shared
  sheaf a ha := by
    obtain ⟨b, hb, hab⟩ := h.sheaf a ha
    obtain ⟨d, hd, hbd⟩ := k.sheaf b hb
    exact ⟨d, hd, hab.trans hbd⟩

theorem CrossStays.foldl {α : Type} (f : State → α → State) (l : List α)
    (hf : ∀ s, ∀ x ∈ l, CrossStays tid slot dest s (f s x)) (s : State) : CrossStays tid slot dest s (l.foldl f s) :=
  List.foldlRecOn l f (.refl s) fun _ h x hx => h.trans (hf _ x hx)

theorem sheafAt_modTeam (s : State) (tid' : Nat) (f : Team → Team) :
    sheafAt (modTeam s tid' f) tid slot
      = if tid' = tid then (Tbl.find s.teams tid).bind fun t => Tbl.find (f t).sheaves slot else sheafAt s tid slot := by
  simp only [sheafAt, modTeam_teams, Tbl.find_modify]
  split
  · next h => subst h; cases Tbl.find s.teams tid' <;> rfl
  · rfl

theorem sheafAt_modSheaf (s : State) (slot' : Nat) (f : Sheaf → Sheaf) :
    sheafAt (modSheaf s tid slot' f) tid slot
      = if slot' = slot then (sheafAt s tid slot).map f else sheafAt s tid slot := by
  rw [modSheaf, sheafAt_modTeam, if_pos rfl]
  unfold sheafAt
  cases Tbl.find s.teams tid with
  | none => simp
  | some t =>
    simp only [Option.bind_some, Tbl.find_modify]
    split
    · next h => rw [h]
    · rfl

/-- A change of one sheaf stays within `dest` where its change of that sheaf does. -/
theorem crossStays_modSheaf (s : State) (slot' : Nat) (f : Sheaf → Sheaf) (hf : slot' = slot → ∀ a, SheafStays dest a (f a)) :
    CrossStays tid slot dest s (modSheaf s tid slot' f) where
  mem := rfl
  host := rfl
  shared := by simp only [modSheaf_teams, Tbl.find_modify_self, Option.map_map]; rfl
  sheaf a ha := by
    rw [sheafAt_modSheaf, ha]
    split
    · next h => exact ⟨f a, rfl, hf h a⟩
    · exact ⟨a, rfl, .refl a⟩

/-- A change of the lanes alone. -/
theorem crossStays_lanes (s : State) (l : Tbl Lane) : CrossStays tid slot dest s { s with lanes := l } :=
  ⟨rfl, rfl, rfl, fun a h => ⟨a, h, .refl a⟩⟩

/-- The charge of a word's lane cycles leaves every sheaf. -/
theorem crossStays_chargeCycles (c : Ctx) (s : State) (cyc : Nat) (tags : List Word) :
    CrossStays tid slot dest s (chargeCycles c s cyc tags) := by
  have hs : ∀ t : Team, (tags.foldl (fun t g => charge g 0 1 t) { count 0 cyc t with eligible := none }).sheaves = t.sheaves
      ∧ (tags.foldl (fun t g => charge g 0 1 t) { count 0 cyc t with eligible := none }).shared = t.shared := fun t => by
    obtain ⟨a, ha, -⟩ := charges_eq tags { count 0 cyc t with eligible := none }
    rw [ha]
    exact ⟨rfl, rfl⟩
  refine ⟨rfl, rfl, ?_, fun a ha => ⟨a, ?_, .refl a⟩⟩
  · simp only [chargeCycles, modTeam_teams, Tbl.find_modify]
    split
    · next h => simp only [h, Option.map_map, Function.comp_def, (hs _).2]
    · rfl
  · rw [← ha, chargeCycles, sheafAt_modTeam]
    split
    · simp only [(hs _).1]; rfl
    · rfl

theorem crossStays_alignLanes (s : State) (us : List Ctx) : CrossStays tid slot dest s (alignLanes s us) :=
  .foldl _ _ (fun s _ _ => crossStays_lanes s _) s

/-- The writes of a unit stay within the registers that they name. -/
theorem crossStays_commit (u : Ctx) (hu : u.tid = tid) (s : State) (la : Nat) (ws : List (RegKey × Word))
    (hd : u.slot = slot → ∀ k ∈ ws.map (·.1), dest k) : CrossStays tid slot dest s (commit u s la ws) := by
  subst hu
  refine crossStays_modSheaf s u.slot _ fun hs a => ?_
  have fr := commits_frame u la ws a
  refine ⟨?_, ?_, ?_, fr.hasThread, fun uid => ?_, fun k hk => commits_other u la ws a k fun hm => hk (hd hs k hm)⟩
  · simpa using congrArg Sheaf.stack fr.rest
  · simpa using congrArg Sheaf.sys fr.rest
  · simpa using congrArg Sheaf.held fr.rest
  · by_cases h : uid = u.uid
    · subst h; simpa using congrArg Option.isSome fr.unit
    · rw [fr.units uid h]

theorem crossStays_advance (u : Ctx) (hu : u.tid = tid) (s : State) (pc : Word) :
    CrossStays tid slot dest s (advance u s pc) := by
  subst hu
  refine crossStays_modSheaf s u.slot _ fun _ a => ⟨rfl, rfl, rfl, fun _ => rfl, fun uid => ?_, fun k _ => by cases k <;> rfl⟩
  simp only [Tbl.find_modify]
  split
  · next h => subst h; simp
  · rfl

/-! ### The end of the word -/

/-- The lanes and the counts at the end of a cross-thread word, its units still at it. -/
def chargeParts (s : State) (us : List Ctx) (h : Hdr) : State :=
  (bySheaf us).foldl (fun s g => match oldest g with
    | none => s
    | some u =>
      let tags := g.flatMap fun c => (activeOf c h).map fun p => (threadAt c.sheaf p).tag
      chargeCycles u s (Max.max 1 tags.length) tags) (alignLanes s us)

theorem retireParts_eq (s : State) (us : List Ctx) (h : Hdr) :
    retireParts s us h = us.foldl (fun s u => advance u s (u.unit.pc + 12)) (chargeParts s us h) := rfl

theorem crossStays_chargeParts (s : State) (us : List Ctx) (h : Hdr) : CrossStays tid slot dest s (chargeParts s us h) := by
  refine (crossStays_alignLanes s us).trans (.foldl _ _ (fun s g _ => ?_) _)
  split
  · exact .refl s
  · exact crossStays_chargeCycles ..

theorem crossStays_retireParts (s : State) (us : List Ctx) (h : Hdr) (hus : ∀ u ∈ us, u.tid = tid) :
    CrossStays tid slot dest s (retireParts s us h) :=
  (crossStays_chargeParts s us h).trans (.foldl _ _ (fun s u hu => crossStays_advance u (hus u hu) s _) _)

/-- A unit's name in its team. -/
def Ctx.name (c : Ctx) : Nat × Nat := (c.slot, c.uid)

/-- A unit of a sheaf, by its names. -/
def unitIn (s : State) (tid slot uid : Nat) : Option UnitSt := (sheafAt s tid slot).bind fun sh => Tbl.find sh.units uid

theorem unitAt_of_unitIn {s : State} {uid : Nat} {sh : Sheaf} {u : UnitSt} {m : List Host.Cell}
    (ht : (Tbl.find s.teams tid).map (·.shared) = some m) (hs : sheafAt s tid slot = some sh) (hu : unitIn s tid slot uid = some u) :
    ∃ c, unitAt s tid slot uid = some c ∧ c.team.shared = m ∧ c.sheaf = sh ∧ c.unit = u := by
  obtain ⟨t, ht, hm⟩ := Option.map_eq_some_iff.mp ht
  have hsh : Tbl.find t.sheaves slot = some sh := by simpa [sheafAt, ht] using hs
  have hun : Tbl.find sh.units uid = some u := by simpa [unitIn, hs] using hu
  exact ⟨_, unitAt_of_find ht hsh hun, hm, rfl, rfl⟩

theorem unitIn_of_unitAt {c : Ctx} (h : c.placed) : sheafAt c.st c.tid c.slot = some c.sheaf
    ∧ (Tbl.find c.st.teams c.tid).map (·.shared) = some c.team.shared ∧ unitIn c.st c.tid c.slot c.uid = some c.unit := by
  obtain ⟨ht, hs, hu⟩ := h
  simp [unitIn, sheafAt, ht, hs, hu]

/-- A unit goes on at its own end of the word. -/
theorem unitIn_advance_self (u : Ctx) (s : State) (pc : Word) (hs : (unitIn s u.tid u.slot u.uid).isSome = true) :
    ∃ v, unitIn (advance u s pc) u.tid u.slot u.uid = some v ∧ v.pc = pc ∧ v.wait = .ready := by
  obtain ⟨w, hw⟩ := Option.isSome_iff_exists.mp hs
  obtain ⟨sh, hsh, hf⟩ := Option.bind_eq_some_iff.mp hw
  refine ⟨{ w with pc := pc, wait := .ready, wins := tickWins w.wins, last := laneNow s (laneKey u.team u.sheaf)
                   awaits := tickAwaits w.awaits }, ?_, rfl, rfl⟩
  rw [unitIn, advance, Ctx.modUnit, modUnit, sheafAt_modSheaf, if_pos rfl, hsh]
  simp only [Option.map_some, Option.bind_some, Tbl.find_modify_self, hf]

theorem unitIn_advance_other (u : Ctx) (s : State) (pc : Word) (hu : u.tid = tid) (uid : Nat) (hn : u.name ≠ (slot, uid)) :
    unitIn (advance u s pc) tid slot uid = unitIn s tid slot uid := by
  subst hu
  rw [unitIn, unitIn, advance, Ctx.modUnit, modUnit, sheafAt_modSheaf]
  split
  · next h =>
    have hne : uid ≠ u.uid := by rintro rfl; exact hn (by rw [Ctx.name, h])
    cases sheafAt s u.tid slot with
    | none => rfl
    | some sh => exact Tbl.find_modify_other _ _ hne
  · rfl

theorem CrossStays.unitIn_isSome {s t : State} (h : CrossStays tid slot dest s t) {uid : Nat}
    (hs : (unitIn s tid slot uid).isSome = true) : (unitIn t tid slot uid).isSome = true := by
  obtain ⟨w, hw⟩ := Option.isSome_iff_exists.mp hs
  obtain ⟨a, ha, hf⟩ := Option.bind_eq_some_iff.mp hw
  obtain ⟨b, hb, hab⟩ := h.sheaf a ha
  simp [unitIn, hb, hab.units, hf]

/-- Of two units with distinct names at different places of a list, the names differ. -/
theorem name_ne_of_append {l₁ l₂ : List Ctx} {u : Ctx} (hn : ((l₁ ++ u :: l₂).map Ctx.name).Nodup) {v : Ctx}
    (hv : v ∈ l₁ ∨ v ∈ l₂) : v.name ≠ u.name := by
  simp only [List.map_append, List.map_cons, List.nodup_append, List.nodup_cons] at hn
  obtain ⟨-, ⟨h₂, -⟩, h₁⟩ := hn
  rintro e
  rcases hv with hv | hv
  · exact h₁ _ (List.mem_map_of_mem hv) _ List.mem_cons_self e
  · exact h₂ (e ▸ List.mem_map_of_mem hv)

/-- Of units with distinct names, each goes on at its own place. -/
theorem unitIn_advances (us : List Ctx) (hus : ∀ u ∈ us, u.tid = tid) (hn : (us.map Ctx.name).Nodup)
    (f : Ctx → Word) (s : State) (u : Ctx) (hu : u ∈ us) (hs : (unitIn s tid u.slot u.uid).isSome = true) :
    ∃ v, unitIn (us.foldl (fun s u => advance u s (f u)) s) tid u.slot u.uid = some v ∧ v.pc = f u ∧ v.wait = .ready := by
  obtain ⟨l₁, l₂, rfl⟩ := List.append_of_mem hu
  have htid : u.tid = tid := hus u hu
  rw [List.foldl_append, List.foldl_cons]
  have h₁ : CrossStays tid u.slot (fun _ => False) s (l₁.foldl (fun s u => advance u s (f u)) s) :=
    .foldl _ _ (fun s v hv => crossStays_advance v (hus v (List.mem_append_left _ hv)) s _) s
  obtain ⟨v, hv, hpc, hw⟩ := unitIn_advance_self u (l₁.foldl (fun s u => advance u s (f u)) s) (f u)
    (htid.symm ▸ h₁.unitIn_isSome hs)
  rw [htid] at hv
  refine ⟨v, ?_, hpc, hw⟩
  refine List.foldlRecOn (motive := fun t => unitIn t tid u.slot u.uid = some v) l₂ _ hv fun t ht w hw => ?_
  rw [unitIn_advance_other w t _ (hus w (by simp [hw])) u.uid (name_ne_of_append hn (.inr hw))]
  exact ht

/-! ### The whole of the word -/

theorem next_three (c : Ctx) : c.next 3 = c.unit.pc + 12 := rfl

/-- The state after a cross-thread word that writes `ws` for each of its units. -/
def crossRun (h : Hdr) (s : State) (us : List Ctx) (ws : Ctx → List (RegKey × Word)) : State :=
  retireParts (us.foldl (fun s u => commit u s h.la.toNat (ws u)) s) us h

section
variable {h : Hdr} {s : State} {us : List Ctx} {ws : Ctx → List (RegKey × Word)}
  (hus : ∀ u ∈ us, u.tid = tid)
include hus

theorem crossStays_commits (la : Nat) (hd : ∀ u ∈ us, u.slot = slot → ∀ k ∈ (ws u).map (·.1), dest k) :
    CrossStays tid slot dest s (us.foldl (fun s u => commit u s la (ws u)) s) :=
  .foldl _ _ (fun s u hu => crossStays_commit u (hus u hu) s _ _ (hd u hu)) s

theorem crossStays_crossRun (hd : ∀ u ∈ us, u.slot = slot → ∀ k ∈ (ws u).map (·.1), dest k) :
    CrossStays tid slot dest s (crossRun h s us ws) :=
  (crossStays_commits hus _ hd).trans (crossStays_retireParts _ us h hus)

variable (hn : (us.map Ctx.name).Nodup) {u : Ctx} (hu : u ∈ us)
include hn hu

/-- Each unit stands at the word after it. -/
theorem unitIn_crossRun (hs : (unitIn s tid u.slot u.uid).isSome = true) :
    ∃ v, unitIn (crossRun h s us ws) tid u.slot u.uid = some v ∧ v.pc = u.next 3 ∧ v.wait = .ready := by
  rw [crossRun, retireParts_eq, next_three]
  refine unitIn_advances us hus hn (fun u => u.unit.pc + 12) _ u hu ?_
  exact ((crossStays_commits (dest := fun _ => True) hus _ fun _ _ _ _ _ => trivial).trans
    (crossStays_chargeParts _ us h)).unitIn_isSome hs

/-- A register that one unit alone writes holds that unit's value, or what R95, R247 and R443 leave open. -/
theorem readKey_crossRun {a : Sheaf} (ha : sheafAt s tid u.slot = some a) {kv : RegKey × Word} (hkv : kv ∈ ws u)
    (hnd : ((ws u).map (·.1)).Nodup) (hh : kv.1.holds a kv.2)
    (hk : ∀ v ∈ us, v.slot = u.slot → v ≠ u → kv.1 ∉ (ws v).map (·.1)) :
    ∃ b, sheafAt (crossRun h s us ws) tid u.slot = some b ∧ (readKey b kv.1 = kv.2
      ∨ (MayKeep u kv.1 ∧ readKey b kv.1 = readKey a kv.1) ∨ drainHolds a kv.1 = true) := by
  obtain ⟨l₁, l₂, rfl⟩ := List.append_of_mem hu
  have hne : ∀ v, v ∈ l₁ ∨ v ∈ l₂ → v.slot = u.slot → ∀ k ∈ (ws v).map (·.1), k ≠ kv.1 := by
    rintro v hv hs k hkm rfl
    refine hk v (by rcases hv with hv | hv <;> simp [hv]) hs ?_ hkm
    rintro rfl
    exact name_ne_of_append hn hv rfl
  have htid : u.tid = tid := hus u hu
  have hus₁ : ∀ v ∈ l₁, v.tid = tid := fun v hv => hus v (List.mem_append_left _ hv)
  have hus₂ : ∀ v ∈ l₂, v.tid = tid := fun v hv => hus v (by simp [hv])
  obtain ⟨a₁, ha₁, h₁⟩ := (crossStays_commits (dest := (· ≠ kv.1)) (s := s) (ws := ws) hus₁ h.la.toNat
    fun v hv => hne v (.inl hv)).sheaf a ha
  have ha₂ : sheafAt (commit u (l₁.foldl (fun s u => commit u s h.la.toNat (ws u)) s) h.la.toNat (ws u)) tid u.slot
      = some ((ws u).foldl (commitOne u h.la.toNat) a₁) := by
    rw [commit, Ctx.modSheaf, htid, sheafAt_modSheaf, if_pos rfl, ha₁]
    rfl
  obtain ⟨b, hb, h₂⟩ := ((crossStays_commits (dest := (· ≠ kv.1)) (ws := ws) hus₂ h.la.toNat
    fun v hv => hne v (.inr hv)).trans (crossStays_retireParts _ (l₁ ++ u :: l₂) h hus)).sheaf _ ha₂
  refine ⟨b, ?_, ?_⟩
  · rw [crossRun, List.foldl_append, List.foldl_cons]
    exact hb
  · rw [h₂.regs _ (· rfl), ← h₁.regs _ (· rfl), ← h₁.drainHolds]
    exact commits_self u _ (ws u) a₁ hnd kv hkv (h₁.holds hh)
end

end Sys2Proof.Machine
end

section
/-! The units of a swath, before and after they wait for their tokens. -/

namespace Sys2Proof.Machine
open Sys2Proof.Claims

/-! ### Tables whose keys rise -/

theorem Tbl.find_of_mem {α : Type} {t : Tbl α} (h : Tbl.sorted t = true) {e : Nat × α} (he : e ∈ t) :
    Tbl.find t e.1 = some e.2 := by
  induction t with
  | nil => cases he
  | cons x t ih =>
    obtain ⟨i, w⟩ := x
    rw [Tbl.sorted_cons] at h
    rcases List.mem_cons.mp he with rfl | he
    · exact if_pos rfl
    · have : i ≠ e.1 := Nat.ne_of_lt (h.1 e he)
      rw [Tbl.find, if_neg this]
      exact ih h.2 he

/-- A new value under a key that a rising table has leaves the keys where they stand. -/
theorem Tbl.keys_put {α : Type} {t : Tbl α} (h : Tbl.sorted t = true) {k : Nat} {w : α} (hk : Tbl.find t k = some w) (v : α) :
    (Tbl.put t k v).map (·.1) = t.map (·.1) := by
  induction t with
  | nil => cases hk
  | cons x t ih =>
    obtain ⟨i, y⟩ := x
    rw [Tbl.sorted_cons] at h
    by_cases hi : i = k
    · subst hi
      simp [Tbl.put]
    · rw [Tbl.find, if_neg hi] at hk
      have hlt : i < k := h.1 _ (Tbl.mem_of_find hk)
      simp [Tbl.put, hi, Nat.not_lt_of_lt hlt, ih h.2 hk]

theorem Tbl.keys_modify {α : Type} {t : Tbl α} (h : Tbl.sorted t = true) (k : Nat) (f : α → α) :
    (Tbl.modify t k f).map (·.1) = t.map (·.1) := by
  unfold Tbl.modify
  split
  · next v hv => exact Tbl.keys_put h hv _
  · rfl

/-! ### The units of a swath by their names -/

/-- Every sheaf of a team lists its units under rising names. -/
def unitsRise (s : State) (tid : Nat) : Prop := ∀ slot sh, sheafAt s tid slot = some sh → Tbl.sorted sh.units = true

theorem unitsRise_of_tablesSorted {s : State} (h : s.tablesSorted = true) (tid : Nat) : unitsRise s tid := by
  intro slot sh hs
  obtain ⟨t, ht, hsh⟩ := Option.bind_eq_some_iff.mp hs
  simp only [State.tablesSorted, Team.sorted, Bool.and_eq_true, List.all_eq_true] at h
  exact (h.1.2 _ (Tbl.mem_of_find ht)).2 _ (Tbl.mem_of_find hsh)

/-- The names of the units of a sheaf, where the team has it. -/
def unitNames (s : State) (tid slot : Nat) : Option (List Nat) := (sheafAt s tid slot).map fun sh => sh.units.map (·.1)

theorem names_swathUnits (s : State) (tid slot : Nat) : (swathUnits s tid slot).map Ctx.name
    = (swathSlots slot).flatMap fun sl => ((unitNames s tid sl).getD []).map fun uid => (sl, uid) := by
  unfold swathUnits unitNames sheafAt
  cases Tbl.find s.teams tid with
  | none => simp
  | some t =>
    simp only [Option.bind_some, List.map_flatMap]
    congr 1
    funext sl
    cases Tbl.find t.sheaves sl with
    | none => rfl
    | some sh => simp [Ctx.name, Function.comp_def]

/-- A listed unit stands under its name, where the names of the units rise. -/
theorem unitAt_of_mem_swathUnits {s : State} {tid slot : Nat} (hr : unitsRise s tid) {u : Ctx} (hu : u ∈ swathUnits s tid slot) :
    u.tid = tid ∧ unitAt s tid u.slot u.uid = some u := by
  unfold swathUnits at hu
  cases ht : Tbl.find s.teams tid with
  | none => simp [ht] at hu
  | some t =>
    simp only [ht, List.mem_flatMap] at hu
    obtain ⟨sl, -, hu⟩ := hu
    cases hs : Tbl.find t.sheaves sl with
    | none => simp [hs] at hu
    | some sh =>
      simp only [hs, List.mem_map] at hu
      obtain ⟨x, hx, rfl⟩ := hu
      have hsorted : Tbl.sorted sh.units = true := hr sl sh (by simp [sheafAt, ht, hs])
      exact ⟨rfl, unitAt_of_find ht hs (Tbl.find_of_mem hsorted hx)⟩

/-- A list of units that bears the names of a state's units finds those units in it. -/
theorem filterMap_unitAt {s s' : State} {tid slot slot' : Nat} (hr : unitsRise s tid) (hr' : unitsRise s' tid)
    (hn : (swathUnits s' tid slot').map Ctx.name = (swathUnits s tid slot).map Ctx.name) :
    (swathUnits s tid slot).filterMap (fun u => unitAt s' u.tid u.slot u.uid) = swathUnits s' tid slot' := by
  have key : ∀ {r : State} {sl : Nat}, unitsRise r tid → (swathUnits r tid sl).filterMap (fun u => unitAt s' u.tid u.slot u.uid)
      = ((swathUnits r tid sl).map Ctx.name).filterMap fun n => unitAt s' tid n.1 n.2 := fun h => by
    rw [List.filterMap_map]
    exact List.filterMap_congr fun u hu => by rw [(unitAt_of_mem_swathUnits h hu).1]; rfl
  rw [key hr, ← hn, ← key hr']
  rw [List.filterMap_congr (g := some) fun u hu => by
    obtain ⟨h₁, h₂⟩ := unitAt_of_mem_swathUnits hr' hu
    rw [h₁, h₂], List.filterMap_some]

/-! ### Waiting for tokens -/

/-- What a wait for tokens leaves: memory, the host, and where the names of a team's units rise, those names. -/
structure WaitStays (tid : Nat) (s t : State) : Prop where
  mem   : t.mem = s.mem
  host  : t.host = s.host
  names : unitsRise s tid → unitsRise t tid ∧ ∀ slot, unitNames t tid slot = unitNames s tid slot

variable {tid : Nat}

theorem WaitStays.refl (s : State) : WaitStays tid s s := ⟨rfl, rfl, fun h => ⟨h, fun _ => rfl⟩⟩

theorem WaitStays.trans {s t r : State} (h : WaitStays tid s t) (k : WaitStays tid t r) : WaitStays tid s r where
  mem := k.mem.trans h.mem
  host := k.host.trans h.host
  names hs := by
    obtain ⟨ht, h₁⟩ := h.names hs
    obtain ⟨hr, h₂⟩ := k.names ht
    exact ⟨hr, fun sl => (h₂ sl).trans (h₁ sl)⟩

theorem waitStays_modSheaf (s : State) (slot : Nat) (f : Sheaf → Sheaf)
    (hf : ∀ a, Tbl.sorted a.units = true → Tbl.sorted (f a).units = true ∧ (f a).units.map (·.1) = a.units.map (·.1)) :
    WaitStays tid s (modSheaf s tid slot f) where
  mem := rfl
  host := rfl
  names hs := by
    refine ⟨fun sl sh h => ?_, fun sl => ?_⟩
    · rw [sheafAt_modSheaf] at h
      split at h
      · obtain ⟨a, ha, rfl⟩ := Option.map_eq_some_iff.mp h
        exact (hf a (hs _ _ ha)).1
      · exact hs _ _ h
    · rw [unitNames, unitNames, sheafAt_modSheaf]
      split
      · cases ha : sheafAt s tid sl with
        | none => rfl
        | some a => exact congrArg some (hf a (hs _ _ ha)).2
      · rfl

theorem waitStays_modUnit (s : State) (slot uid : Nat) (f : UnitSt → UnitSt) : WaitStays tid s (modUnit s tid slot uid f) :=
  waitStays_modSheaf s slot _ fun _ h => ⟨Tbl.sorted_modify _ _ _ h, Tbl.keys_modify h _ _⟩

theorem waitStays_dropClean (s : State) (core : Nat) : WaitStays tid s (dropClean s core) := by
  unfold dropClean
  split
  · exact .refl s
  · exact ⟨rfl, rfl, fun h => ⟨h, fun _ => rfl⟩⟩

theorem waitStays_acquired (u : Ctx) (s : State) (m : Nat) : WaitStays u.tid s (acquired u s m) := by
  unfold acquired
  split
  · exact .refl s
  · have heard : WaitStays u.tid s (hearAll u s) := waitStays_modUnit ..
    refine heard.trans (.trans ?_ (waitStays_dropClean _ _))
    exact waitStays_modSheaf _ _ _ fun _ h => ⟨h, rfl⟩

theorem waitStays_waitedFor (u : Ctx) (s : State) (m : Nat) : WaitStays u.tid s (waitedFor u s m) := by
  unfold waitedFor
  split
  · exact .refl s
  · refine (waitStays_acquired u s m).trans ?_
    exact waitStays_modSheaf _ _ _ fun _ h => ⟨h, rfl⟩

theorem waitStays_afterWaits {c : Ctx} (hr : unitsRise c.st c.tid) (h : Hdr) : WaitStays c.tid c.st (afterWaits c h) :=
  List.foldlRecOn (motive := WaitStays c.tid c.st) _ _ (.refl _) fun s hs u hu =>
    hs.trans ((unitAt_of_mem_swathUnits hr hu).1 ▸ waitStays_waitedFor u s h.wait.toNat)

/-- Once the swath has waited, the word finds its units where it found them before. -/
theorem filterMap_afterWaits {c : Ctx} (hr : unitsRise c.st c.tid) (h : Hdr) :
    (swathUnits c.st c.tid c.slot).filterMap (fun u => unitAt (afterWaits c h) u.tid u.slot u.uid)
      = swathUnits (afterWaits c h) c.tid c.slot := by
  obtain ⟨hr', hn⟩ := (waitStays_afterWaits hr h).names hr
  refine filterMap_unitAt hr hr' ?_
  simp only [names_swathUnits, hn]

theorem names_afterWaits {c : Ctx} (hr : unitsRise c.st c.tid) (h : Hdr) :
    (swathUnits (afterWaits c h) c.tid c.slot).map Ctx.name = (swathUnits c.st c.tid c.slot).map Ctx.name := by
  simp only [names_swathUnits, ((waitStays_afterWaits hr h).names hr).2]

end Sys2Proof.Machine
end

section
/-! The values that a cross-thread word writes, from the participants in ascending virtual position. -/

namespace Sys2Proof.Machine
open Sys2Proof.Claims

/-! ### The participants in ascending virtual position -/

theorem insertPart_eq (p : Part) (l : List Part) : insertPart p l = List.orderedInsert (fun a b => a.vp ≤ b.vp) p l := by
  induction l with
  | nil => rfl
  | cons q l ih => simp only [insertPart, List.orderedInsert_cons, ih]

/-- A participant with its virtual position. -/
def toPart (sw : Bool) (x : Ctx × Nat) : Part := ⟨x.1, x.2, vposOf sw x⟩

/-- The participants as the word counts them are in ascending virtual position. -/
theorem partsOf_eq (c : Ctx) (h : Hdr) (sw : Bool) : partsOf h sw (crossUnits c h sw)
    = List.insertionSort (fun a b => a.vp ≤ b.vp) ((partners c h sw).map (toPart sw)) := by
  have hf : insertPart = List.orderedInsert (fun a b : Part => a.vp ≤ b.vp) := funext fun p => funext (insertPart_eq p)
  rw [partsOf, partners, List.insertionSort, List.map_flatMap, hf]
  simp only [List.map_map]
  rfl

theorem partsOf_perm (c : Ctx) (h : Hdr) (sw : Bool) :
    (partsOf h sw (crossUnits c h sw)).Perm ((partners c h sw).map (toPart sw)) := by
  rw [partsOf_eq]
  exact List.perm_insertionSort _ _

theorem partsOf_pairwise (c : Ctx) (h : Hdr) (sw : Bool) :
    (partsOf h sw (crossUnits c h sw)).Pairwise fun a b => a.vp ≤ b.vp := by
  rw [partsOf_eq]
  have : Std.Total fun a b : Part => a.vp ≤ b.vp := ⟨fun a b => Nat.le_total a.vp b.vp⟩
  have : IsTrans Part fun a b => a.vp ≤ b.vp := ⟨fun _ _ _ => Nat.le_trans⟩
  exact List.pairwise_insertionSort _ _

/-- The order by strictly ascending virtual position is the word's own. -/
theorem partsOf_eq_map {c : Ctx} {h : Hdr} {sw : Bool} {l : List (Ctx × Nat)} (hp : l.Perm (partners c h sw))
    (hl : l.Pairwise fun y z => vposOf sw y < vposOf sw z) : partsOf h sw (crossUnits c h sw) = l.map (toPart sw) := by
  have hinj : ∀ y ∈ l, ∀ z ∈ l, vposOf sw y = vposOf sw z → y = z := by
    have hn : (l.map (vposOf sw)).Nodup := List.pairwise_map.mpr (hl.imp Nat.ne_of_lt)
    exact fun y hy z hz e => List.inj_on_of_nodup_map hn hy hz e
  refine ((partsOf_perm c h sw).trans (hp.map _).symm).eq_of_pairwise ?_ (partsOf_pairwise c h sw)
    (List.pairwise_map.mpr (hl.imp Nat.le_of_lt))
  intro a b ha hb hab hba
  rw [(partsOf_perm c h sw).mem_iff, List.mem_map] at ha
  obtain ⟨y, hy, rfl⟩ := ha
  obtain ⟨z, hz, rfl⟩ := List.mem_map.mp hb
  rw [hinj y (hp.mem_iff.mpr hy) z hz (Nat.le_antisymm hab hba)]

section
variable {c : Ctx} {h : Hdr} {sw : Bool}

theorem any_partsOf (f : Part → Bool) :
    (partsOf h sw (crossUnits c h sw)).any f = (partners c h sw).any fun x => f (toPart sw x) := by
  rw [(partsOf_perm c h sw).any_eq, List.any_map]; rfl

theorem all_partsOf (f : Part → Bool) :
    (partsOf h sw (crossUnits c h sw)).all f = (partners c h sw).all fun x => f (toPart sw x) := by
  rw [(partsOf_perm c h sw).all_eq, List.all_map]; rfl

theorem partMask_eq_sum (l : List Part) (f : Part → Bool) : partMask l f = ((l.filter f).map fun p => 2 ^ p.vp).sum := by
  have key : ∀ (l : List Part) (m : Nat), l.foldl (fun m p => if f p then m + 2 ^ p.vp else m) m
      = m + ((l.filter f).map fun p => 2 ^ p.vp).sum := by
    intro l
    induction l with
    | nil => intro m; rfl
    | cons p l ih =>
      intro m
      rw [List.foldl_cons, ih, List.filter_cons]
      split
      · rw [List.map_cons, List.sum_cons, Nat.add_assoc]
      · rfl
  exact (key l 0).trans (Nat.zero_add _)

theorem partMask_partsOf (f : Part → Bool) :
    partMask (partsOf h sw (crossUnits c h sw)) f = voteMask sw (partners c h sw) fun x => f (toPart sw x) := by
  rw [partMask_eq_sum, (((partsOf_perm c h sw).filter f).map _).sum_nat, List.filter_map, List.map_map]
  rfl

theorem partAt_partsOf_onlyAt {n : Nat} {z : Ctx × Nat} (hz : onlyAt sw (partners c h sw) n z) :
    partAt (partsOf h sw (crossUnits c h sw)) n = some (toPart sw z) := by
  obtain ⟨hmem, honly⟩ := hz
  have hfound : ((partsOf h sw (crossUnits c h sw)).find? fun p => p.vp == n).isSome = true := by
    rw [List.find?_isSome]
    refine ⟨toPart sw z, ?_, beq_iff_eq.mpr ((honly z hmem).mpr rfl)⟩
    rw [(partsOf_perm c h sw).mem_iff]
    exact List.mem_map_of_mem hmem
  obtain ⟨p, hp⟩ := Option.isSome_iff_exists.mp hfound
  have hpm := (partsOf_perm c h sw).mem_iff.mp (List.mem_of_find?_eq_some hp)
  obtain ⟨y, hy, rfl⟩ := List.mem_map.mp hpm
  have hv : vposOf sw y = n := by simpa [toPart] using List.find?_some hp
  rw [← (honly y hy).mp hv]
  exact hp

theorem partAt_partsOf_none {n : Nat} (hn : ∀ z ∈ partners c h sw, vposOf sw z ≠ n) :
    partAt (partsOf h sw (crossUnits c h sw)) n = none := by
  rw [partAt, List.find?_eq_none]
  intro p hp
  obtain ⟨y, hy, rfl⟩ := List.mem_map.mp ((partsOf_perm c h sw).mem_iff.mp hp)
  simpa [toPart] using hn y hy

/-- The participant at a position of the scope that one has alone. -/
theorem partIn_partsOf_onlyAt {y : Int} {z : Ctx × Nat} (h0 : 0 ≤ y) (hw : y < scopeWidth sw)
    (hz : onlyAt sw (partners c h sw) y.toNat z) : partIn (partsOf h sw (crossUnits c h sw)) sw y = some (toPart sw z) := by
  rw [partIn, if_pos (by simp [h0, hw])]
  exact partAt_partsOf_onlyAt hz

/-- No participant stands at a position out of the scope, or where none has it. -/
theorem partIn_partsOf_none {y : Int} (hy : y < 0 ∨ (scopeWidth sw : Int) ≤ y ∨ ∀ z ∈ partners c h sw, (vposOf sw z : Int) ≠ y) :
    partIn (partsOf h sw (crossUnits c h sw)) sw y = none := by
  unfold partIn
  split
  · next hin =>
    simp only [Bool.and_eq_true, decide_eq_true_eq] at hin
    refine partAt_partsOf_none fun z hz e => ?_
    rcases hy with hy | hy | hy
    · omega
    · omega
    · exact hy z hz (by omega)
  · rfl

end

/-- No value is combined of no participant. -/
theorem combine_of_nil (op : ScanOp) {va : VReg} (sw : Bool) {l : List (Ctx × Nat)} (hl : l.map (partnerV va) = []) :
    combine op va (l.map (toPart sw)) = none := by
  rw [List.map_eq_nil_iff.mp hl]
  rfl

/-- Values combine in order: one step with each after the first. -/
theorem combine_of_cons (op : ScanOp) {va : VReg} (sw : Bool) {l : List (Ctx × Nat)} {y : Word} {ys : List Word}
    (hl : l.map (partnerV va) = y :: ys) : combine op va (l.map (toPart sw)) = some (ys.foldl (scanStep op) y) := by
  have key : ∀ (l : List (Ctx × Nat)) (v : Word), (l.map (toPart sw)).foldl (fun acc p => some (match acc with
      | none => rdV p.unit p.pos va
      | some x => scanStep op x (rdV p.unit p.pos va))) (some v) = some ((l.map (partnerV va)).foldl (scanStep op) v) := by
    intro l
    induction l with
    | nil => intro v; rfl
    | cons x l ih => intro v; exact ih _
  obtain ⟨x, l', rfl, rfl, rfl⟩ := List.map_eq_cons_iff.mp hl
  exact key l' _

/-! ### What each word computes -/

/-- A function of the participants gives what a cross-thread word writes to each of them. -/
structure Computes (c : Ctx) (i : Instr) (h : Hdr) (sw : Bool) (f : List Part → Part → List (RegKey × Word)) : Prop where
  keys   : ∀ ps p, (f ps p).map (·.1) = crossDest p.pos i
  writes : ∀ x ∈ partners c h sw, ∀ k v, crossWrites c i x k v → (k, v) ∈ f (partsOf h sw (crossUnits c h sw)) (toPart sw x)

theorem crossDest_nodup (p : Nat) (i : Instr) : (crossDest p i).Nodup := by
  have two : ∀ (sw : Bool) (d : Nat), (RegKey.v p d :: (if sw then [.v p (d + 1)] else [])).Nodup := fun sw d => by
    cases sw <;> simp
  unfold crossDest
  split
  case h_5 | h_6 => exact two _ _
  case h_9 => exact List.nodup_nil
  all_goals exact List.nodup_singleton _

end Sys2Proof.Machine
end

section
/-! What each cross-thread word computes: the model's own function of the participants gives what R147 to R151 say. -/

namespace Sys2Proof.Machine
open Sys2Proof.Claims

/-- A word runs as a cross-thread word whose function gives what it writes. -/
def RunsAs (c : Ctx) (i : Instr) (h : Hdr) (sw : Bool) : Prop :=
  ∃ f, (∀ s, exec i s = crossOp i h sw s f) ∧ Computes c i h sw f

section
variable (c : Ctx) (h : Hdr) (sw : Bool)

theorem shflFrom_eq (m : ShMode) (x d : Nat) : shflFrom m x d = shuffleFrom m x d := by cases m <;> rfl

theorem runsAs_shfl (m : ShMode) (d a : VReg) (b : SrcB) : RunsAs c (.shfl h m sw d a b) h sw := by
  refine ⟨?f, fun s => ?runs, fun _ _ => ?keys, ?writes⟩
  case runs =>
    change execShfl h m sw d a b s = _
    rw [execShfl, crossTo]
  case keys => rfl
  case writes =>
    rintro x hx k v ⟨rfl, hv⟩
    rw [List.mem_singleton, Prod.mk.injEq]
    refine ⟨rfl, ?_⟩
    rcases hv with ⟨z, h0, hw, hz, rfl⟩ | ⟨hy, rfl⟩
    · rw [← shflFrom_eq] at h0 hw hz
      rw [toPart, partIn_partsOf_onlyAt h0 hw hz]
      rfl
    · rw [← shflFrom_eq] at hy
      rw [toPart, partIn_partsOf_none hy]
      rfl

/-- The registers that a vote writes are those of its mask. -/
theorem mem_maskRegs {d : VReg} {p : Part} {m : Nat} {k : RegKey} {v : Word} : (k, v) ∈ maskRegs sw d p m ↔
    (k = .v p.pos d.toNat ∧ v = BitVec.ofNat 32 m) ∨ (sw = true ∧ k = .v p.pos (d.toNat + 1) ∧ v = BitVec.ofNat 32 (m / 2 ^ 32)) := by
  cases sw <;> simp [maskRegs]

theorem map_fst_maskRegs (d : VReg) (p : Part) (m : Nat) : (maskRegs sw d p m).map (·.1)
    = .v p.pos d.toNat :: (if sw then [.v p.pos (d.toNat + 1)] else []) := by
  cases sw <;> rfl

theorem runsAs_bal (d : VReg) (neg : Bool) (q : Ix3) : RunsAs c (.bal h sw d neg q) h sw := by
  refine ⟨?f, fun s => ?runs, fun _ _ => ?keys, ?writes⟩
  case runs =>
    change execBal h sw d neg q s = _
    rw [execBal]
  case keys => exact map_fst_maskRegs ..
  case writes =>
    intro x _ k v hv
    rw [mem_maskRegs, partMask_partsOf]
    exact hv

theorem runsAs_meq (d a : VReg) : RunsAs c (.meq h sw d a) h sw := by
  refine ⟨?f, fun s => ?runs, fun _ _ => ?keys, ?writes⟩
  case runs =>
    change execMeq h sw d a s = _
    rw [execMeq]
  case keys => exact map_fst_maskRegs ..
  case writes =>
    intro x _ k v hv
    rw [mem_maskRegs, partMask_partsOf]
    exact hv

theorem runsAs_vany (d : Ix3) (neg : Bool) (q : Ix3) : RunsAs c (.vany h sw d neg q) h sw := by
  refine ⟨?f, fun s => ?runs, fun _ _ => ?keys, ?writes⟩
  case runs =>
    change execVany h sw d neg q s = _
    rw [execVany]
  case keys => rfl
  case writes =>
    rintro x _ k v ⟨-, rfl, rfl⟩
    rw [List.mem_singleton, any_partsOf]
    rfl

theorem runsAs_vall (d : Ix3) (neg : Bool) (q : Ix3) : RunsAs c (.vall h sw d neg q) h sw := by
  refine ⟨?f, fun s => ?runs, fun _ _ => ?keys, ?writes⟩
  case runs =>
    change execVall h sw d neg q s = _
    rw [execVall]
  case keys => rfl
  case writes =>
    rintro x _ k v ⟨-, rfl, rfl⟩
    rw [List.mem_singleton, all_partsOf]
    rfl

/-- The participants that an inclusive or exclusive `scan` combines for one of them. -/
theorem filter_map_toPart (ex : Bool) (x : Ctx × Nat) (l : List (Ctx × Nat)) :
    ((l.map (toPart sw)).filter fun p => decide (p.vp < (toPart sw x).vp) || (!ex && p.vp == (toPart sw x).vp))
      = (l.filter fun y => decide (vposOf sw y < vposOf sw x) || (!ex && vposOf sw y == vposOf sw x)).map (toPart sw) :=
  List.filter_map

theorem runsAs_scan (op : ScanOp) (ex : Bool) (d a : VReg) : RunsAs c (.scan h op ex sw d a) h sw := by
  refine ⟨?f, fun s => ?runs, fun _ _ => ?keys, ?writes⟩
  case runs =>
    change execScan h op ex sw d a s = _
    rw [execScan, crossTo]
  case keys => rfl
  case writes =>
    rintro x _ k v ⟨rfl, l, hp, hl, hv⟩
    rw [List.mem_singleton, Prod.mk.injEq, partsOf_eq_map hp hl, filter_map_toPart]
    refine ⟨rfl, ?_⟩
    split at hv
    · next hnil =>
      rw [combine_of_nil op sw hnil]
      exact hv
    · next y ys hcons =>
      rw [combine_of_cons op sw hcons]
      exact hv

theorem runsAs_red (op : ScanOp) (d a : VReg) : RunsAs c (.red h op sw d a) h sw := by
  refine ⟨?f, fun s => ?runs, fun _ _ => ?keys, ?writes⟩
  case runs =>
    change execRed h op sw d a s = _
    rw [execRed, crossTo]
  case keys => rfl
  case writes =>
    rintro x _ k v ⟨rfl, l, hp, hl, y, ys, hcons, rfl⟩
    rw [List.mem_singleton, partsOf_eq_map hp hl, combine_of_cons op sw hcons]
    rfl

theorem runsAs_cx (ty : CxTy) (d a : VReg) (b : SrcB) (neg : Bool) (q : Ix3) : RunsAs c (.cx h ty sw d a b neg q) h sw := by
  refine ⟨?f, fun s => ?runs, fun _ _ => ?keys, ?writes⟩
  case runs =>
    change execCx h ty sw d a b neg q s = _
    rw [execCx, crossTo]
  case keys => rfl
  case writes =>
    rintro x _ k v ⟨rfl, hv⟩
    rw [List.mem_singleton, Prod.mk.injEq]
    refine ⟨rfl, ?_⟩
    rcases hv with ⟨hn, rfl⟩ | ⟨z, hw, hz, rfl⟩
    · have hnone : partIn (partsOf h sw (crossUnits c h sw)) sw (Nat.xor (vposOf sw x) (rdB x.1 x.2 b).toNat : Nat) = none :=
        partIn_partsOf_none (.inr (hn.imp Int.ofNat_le.mpr fun hz z hm e => hz z hm (Int.ofNat_inj.mp e)))
      simp only [toPart, hnone]
      rfl
    · have hsome : partIn (partsOf h sw (crossUnits c h sw)) sw (Nat.xor (vposOf sw x) (rdB x.1 x.2 b).toNat : Nat)
          = some (toPart sw z) := partIn_partsOf_onlyAt (Int.natCast_nonneg _) (Int.ofNat_lt.mpr hw) hz
      simp only [toPart, hsome]
      by_cases hlt : vposOf sw x < vposOf sw z
      · simp only [hlt, if_true]; rfl
      · simp only [hlt, if_false]; rfl

theorem runsAs_of_crossHead {i : Instr} {h : Hdr} {sw : Bool} (hx : crossHead i = some (h, sw)) (c : Ctx) : RunsAs c i h sw := by
  unfold crossHead at hx
  split at hx
  all_goals simp only [Option.some.injEq, Prod.mk.injEq, reduceCtorEq] at hx
  all_goals obtain ⟨rfl, rfl⟩ := hx
  · exact runsAs_shfl ..
  · exact runsAs_bal ..
  · exact runsAs_meq ..
  · exact runsAs_vany ..
  · exact runsAs_vall ..
  · exact runsAs_scan ..
  · exact runsAs_red ..
  · exact runsAs_cx ..
end

/-- A register that a cross-thread word writes to a thread of the sheaf can hold the value. -/
theorem holds_of_crossWrites {c : Ctx} {i : Instr} {x : Ctx × Nat} {k : RegKey} {v : Word} (hv : crossWrites c i x k v)
    (ht : hasThread x.1 x.2) : k.holds x.1.sheaf v := by
  have pred : ∀ {d : Ix3} {b : Bool}, d ≠ 7 → RegKey.holds x.1.sheaf (ofBool b) (.p x.2 d.toNat) := fun {d b} hd => by
    refine ⟨ht, ?_, b, rfl⟩
    have : d.toNat ≠ 7 := fun e => hd (BitVec.eq_of_toNat_eq e)
    have := d.isLt
    omega
  unfold crossWrites at hv
  split at hv
  · obtain ⟨rfl, -⟩ := hv; exact ht
  · rcases hv with ⟨rfl, -⟩ | ⟨-, rfl, -⟩ <;> exact ht
  · rcases hv with ⟨rfl, -⟩ | ⟨-, rfl, -⟩ <;> exact ht
  · obtain ⟨hd, rfl, rfl⟩ := hv; exact pred hd
  · obtain ⟨hd, rfl, rfl⟩ := hv; exact pred hd
  · obtain ⟨rfl, -⟩ := hv; exact ht
  · obtain ⟨rfl, -⟩ := hv; exact ht
  · obtain ⟨rfl, -⟩ := hv; exact ht
  · exact hv.elim

end Sys2Proof.Machine
end

section
/-! The whole of a cross-thread word, in every state that names each of its units once. -/

namespace Sys2Proof.Machine
open Sys2Proof.Claims

/-! ### The units of a word and what each writes -/

/-- The state in which a cross-thread word takes effect. -/
def crossState (c : Ctx) (h : Hdr) (sw : Bool) : State := if sw then afterWaits c h else c.st

/-- What a cross-thread word writes for one of its units. -/
def unitWrites (h : Hdr) (sw : Bool) (us : List Ctx) (f : List Part → Part → List (RegKey × Word)) (u : Ctx) : List (RegKey × Word) :=
  ((partsOf h sw us).filter fun p => p.unit.slot == u.slot && p.unit.uid == u.uid).flatMap (f (partsOf h sw us))

/-- The thread that a vector register or a predicate is of. -/
def RegKey.pos : RegKey → Option Nat
  | .v t _ | .p t _ => some t
  | _ => none

/-- A destination is a register of its thread. -/
theorem pos_of_mem_crossDest {p : Nat} {i : Instr} {k : RegKey} (hk : k ∈ crossDest p i) : k.pos = some p := by
  unfold crossDest at hk
  split at hk
  case h_1 | h_2 | h_3 | h_4 | h_7 | h_8 => rw [List.mem_singleton.mp hk]; rfl
  case h_5 sw _ _ _ | h_6 sw _ _ =>
    cases sw
    · simp only [Bool.false_eq_true, if_false, List.mem_singleton] at hk
      rw [hk]; rfl
    · simp only [if_true, List.mem_cons, List.not_mem_nil, or_false] at hk
      rcases hk with rfl | rfl <;> rfl
  case h_9 => cases hk

/-- Distinct threads have distinct destinations. -/
theorem crossDests_nodup {ps : List Nat} (hn : ps.Nodup) (i : Instr) : (ps.flatMap fun p => crossDest p i).Nodup := by
  refine List.nodup_flatMap.mpr ⟨fun p _ => crossDest_nodup p i, hn.imp fun {p q} hpq k hp hq => ?_⟩
  exact hpq (Option.some.inj ((pos_of_mem_crossDest hp).symm.trans (pos_of_mem_crossDest hq)))

section
variable {c : Ctx} {h : Hdr} {sw : Bool}

theorem crossUnits_swath (c : Ctx) (h : Hdr) : crossUnits c h true = swathUnits (afterWaits c h) c.tid c.slot := rfl

/-- Every unit of the word stands under its name in the state in which the word takes effect. -/
theorem unitAt_of_mem_crossUnits (hp : c.placed) (hr : unitsRise c.st c.tid) {u : Ctx} (hu : u ∈ crossUnits c h sw) :
    u.tid = c.tid ∧ u.st = crossState c h sw ∧ u.placed := by
  cases sw with
  | false =>
    obtain rfl : u = c := List.mem_singleton.mp hu
    exact ⟨rfl, rfl, hp⟩
  | true =>
    obtain ⟨ht, hat⟩ := unitAt_of_mem_swathUnits ((waitStays_afterWaits hr h).names hr).1 hu
    obtain ⟨hpl, hst, -⟩ := unitAt_eq_some hat
    exact ⟨ht, hst, hpl⟩

theorem names_nodup_crossUnits (hr : unitsRise c.st c.tid) (hm : swathMeets c h sw) :
    ((crossUnits c h sw).map Ctx.name).Nodup := by
  cases sw with
  | false => exact List.nodup_singleton _
  | true =>
    obtain ⟨⟨-, hn, -⟩, -⟩ := hm rfl
    rw [crossUnits_swath, names_afterWaits hr]
    exact hn

/-- A cross-thread word whose units meet takes effect in all of them. -/
theorem crossOp_of_meets {i : Instr} {s : State} (ha : atIssue i s = some c) (hr : unitsRise c.st c.tid) (hm : swathMeets c h sw)
    (f : List Part → Part → List (RegKey × Word)) : crossOp i h sw s f
      = .next (crossRun h (crossState c h sw) (crossUnits c h sw) (unitWrites h sw (crossUnits c h sw) f)) := by
  rw [crossOp, issue_of_atIssue ha]
  cases sw with
  | false => rfl
  | true =>
    obtain ⟨⟨hret, -, hall⟩, htok⟩ := hm rfl
    have hmeet : meetAt c (swathUnits c.st c.tid c.slot) = true := by
      simp only [meetAt, List.all_eq_true, Bool.and_eq_true, beq_iff_eq, List.isEmpty_iff]
      exact fun u hu => ⟨(hall u hu).1, (hall u hu).2.1⟩
    have hyield : ((swathUnits c.st c.tid c.slot).any fun u => yieldsTo c.st (swathUnits c.st c.tid c.slot) u) = false := by
      simpa using fun u hu => (hall u hu).2.2
    have hnone : ((swathUnits c.st c.tid c.slot).any fun u => tokensPending u.sheaf h.wait.toNat) = false := by
      simpa using htok
    simp only [Bool.not_true, Bool.false_eq_true, if_false, collective, hret, hmeet, hyield, hnone, Bool.not_false, Bool.and_self,
      if_true]
    have hus := filterMap_afterWaits hr h
    rw [afterWaits] at hus
    rw [hus]
    rfl

/-- The parts of one unit are its active threads. -/
theorem unitParts_perm (hn : ((crossUnits c h sw).map Ctx.name).Nodup) {u : Ctx} (hu : u ∈ crossUnits c h sw) :
    ((partsOf h sw (crossUnits c h sw)).filter fun p => p.unit.slot == u.slot && p.unit.uid == u.uid).Perm
      ((activeOf u h).map fun p => toPart sw (u, p)) := by
  refine ((partsOf_perm c h sw).filter _).trans (.of_eq ?_)
  rw [partners]
  obtain ⟨l₁, l₂, e⟩ := List.append_of_mem hu
  rw [e] at hn ⊢
  have other : ∀ l : List Ctx, (∀ v ∈ l, v.name ≠ u.name) →
      (((l.flatMap fun v => (activeOf v h).map fun p => (v, p)).map (toPart sw)).filter
        fun p => p.unit.slot == u.slot && p.unit.uid == u.uid) = [] := fun l hl => by
    rw [List.filter_eq_nil_iff]
    intro p hp
    simp only [List.mem_map, List.mem_flatMap] at hp
    obtain ⟨x, ⟨v, hv, q, -, rfl⟩, rfl⟩ := hp
    have := hl v hv
    simpa [Ctx.name, toPart] using this
  rw [List.flatMap_append, List.flatMap_cons, List.map_append, List.map_append, List.filter_append, List.filter_append,
    other l₁ fun v hv => name_ne_of_append hn (.inl hv), other l₂ fun v hv => name_ne_of_append hn (.inr hv),
    List.nil_append, List.append_nil, List.map_map, List.filter_eq_self.mpr]
  · rfl
  · intro p hp
    obtain ⟨q, -, rfl⟩ := List.mem_map.mp hp
    simp [toPart]

variable {i : Instr} {f : List Part → Part → List (RegKey × Word)}

/-- The registers that the word writes for a unit are the destinations of its active threads. -/
theorem keys_unitWrites (hf : Computes c i h sw f) (hn : ((crossUnits c h sw).map Ctx.name).Nodup) {u : Ctx}
    (hu : u ∈ crossUnits c h sw) : ((unitWrites h sw (crossUnits c h sw) f u).map (·.1)).Perm
      ((activeOf u h).flatMap fun p => crossDest p i) := by
  rw [unitWrites, List.map_flatMap]
  simp only [hf.keys]
  refine ((unitParts_perm hn hu).flatMap_right _).trans (.of_eq ?_)
  rw [List.flatMap_map]
  rfl

theorem mem_unitWrites (hf : Computes c i h sw f) (hn : ((crossUnits c h sw).map Ctx.name).Nodup) {u : Ctx}
    (hu : u ∈ crossUnits c h sw) {p : Nat} (hp : p ∈ activeOf u h) {k : RegKey} {v : Word} (hv : crossWrites c i (u, p) k v) :
    (k, v) ∈ unitWrites h sw (crossUnits c h sw) f u := by
  refine List.mem_flatMap.mpr ⟨toPart sw (u, p), ?_, hf.writes _ ?_ k v hv⟩
  · exact (unitParts_perm hn hu).mem_iff.mpr (List.mem_map_of_mem hp)
  · exact List.mem_flatMap.mpr ⟨u, hu, List.mem_map_of_mem hp⟩

end

/-- What O13 says of a cross-thread word at its issue. -/
def CrossCombines (i : Instr) (s : State) (c : Ctx) (h : Hdr) (sw : Bool) : Prop :=
  ∃ t, exec i s = .next t ∧ t.mem = c.st.mem ∧ t.host = c.st.host
    ∧ ∀ u ∈ crossUnits c h sw, ∃ u', unitAt t u.tid u.slot u.uid = some u' ∧ u'.stands (u.next 3)
      ∧ u'.team.shared = u.team.shared ∧ u'.sheaf.stack = u.sheaf.stack ∧ u'.sheaf.sys = u.sheaf.sys
      ∧ (∀ k, (∀ v ∈ crossUnits c h sw, v.slot = u.slot → ∀ p ∈ activeOf v h, k ∉ crossDest p i) →
          readKey u'.sheaf k = readKey u.sheaf k)
      ∧ ∀ p ∈ activeOf u h, hasThread u p →
          (∀ v ∈ crossUnits c h sw, v.slot = u.slot → v ≠ u → p ∉ activeOf v h) →
          ∀ k v, crossWrites c i (u, p) k v → Wrote u u' k v

theorem crossThreadWordsCombine_iff : Obligations.CrossThreadWordsCombine ↔
    ∀ i s c h sw, crossHead i = some (h, sw) → atIssue i s = some c → Instr.wf c.team.ver i = true → swathMeets c h sw →
      CrossCombines i s c h sw := Iff.rfl

section
variable {i : Instr} {c : Ctx} {h : Hdr} {sw : Bool} {f : List Part → Part → List (RegKey × Word)}

/-- The state after a cross-thread word that writes as `f` says. -/
def crossAfter (c : Ctx) (h : Hdr) (sw : Bool) (f : List Part → Part → List (RegKey × Word)) : State :=
  crossRun h (crossState c h sw) (crossUnits c h sw) (unitWrites h sw (crossUnits c h sw) f)

/-- A register of a sheaf is a destination of an active thread of one of the word's units there. -/
def crossWritten (c : Ctx) (h : Hdr) (sw : Bool) (i : Instr) (slot : Nat) (k : RegKey) : Prop :=
  ∃ v ∈ crossUnits c h sw, v.slot = slot ∧ ∃ p ∈ activeOf v h, k ∈ crossDest p i

theorem crossState_keeps (hr : unitsRise c.st c.tid) :
    (crossState c h sw).mem = c.st.mem ∧ (crossState c h sw).host = c.st.host := by
  cases sw with
  | false => exact ⟨rfl, rfl⟩
  | true => exact ⟨(waitStays_afterWaits hr h).mem, (waitStays_afterWaits hr h).host⟩

variable (hf : Computes c i h sw f) (hn : ((crossUnits c h sw).map Ctx.name).Nodup) (htid : ∀ u ∈ crossUnits c h sw, u.tid = c.tid)
include hf hn htid

theorem crossStays_crossAfter (slot : Nat) :
    CrossStays c.tid slot (crossWritten c h sw i slot) (crossState c h sw) (crossAfter c h sw f) :=
  crossStays_crossRun htid fun v hv hvs k hk => by
    rw [(keys_unitWrites hf hn hv).mem_iff, List.mem_flatMap] at hk
    exact ⟨v, hv, hvs, hk⟩

/-- A thread that is active in one unit of its sheaf alone gets the word's values. -/
theorem readKey_crossAfter {u : Ctx} (hu : u ∈ crossUnits c h sw) (hsh : sheafAt (crossState c h sw) c.tid u.slot = some u.sheaf)
    {p : Nat} (hp : p ∈ activeOf u h) (ht : hasThread u p)
    (alone : ∀ v ∈ crossUnits c h sw, v.slot = u.slot → v ≠ u → p ∉ activeOf v h)
    {k : RegKey} {v : Word} (hv : crossWrites c i (u, p) k v) :
    ∃ b, sheafAt (crossAfter c h sw f) c.tid u.slot = some b
      ∧ (readKey b k = v ∨ (MayKeep u k ∧ readKey b k = readKey u.sheaf k) ∨ drainHolds u.sheaf k = true) := by
  have hdest : k ∈ crossDest p i := by
    have := List.mem_map_of_mem (f := Prod.fst) (hf.writes _ (List.mem_flatMap.mpr ⟨u, hu, List.mem_map_of_mem hp⟩) k v hv)
    rwa [hf.keys] at this
  refine readKey_crossRun (h := h) htid hn hu hsh (mem_unitWrites hf hn hu hp hv)
    ((keys_unitWrites hf hn hu).nodup_iff.mpr (crossDests_nodup (activeOf_nodup u h) i)) (holds_of_crossWrites hv ht) ?_
  intro x hx hxs hxu hk
  rw [(keys_unitWrites hf hn hx).mem_iff, List.mem_flatMap] at hk
  obtain ⟨q, hq, hkq⟩ := hk
  have hqp : q = p := Option.some.inj ((pos_of_mem_crossDest hkq).symm.trans (pos_of_mem_crossDest hdest))
  exact alone x hx hxs hxu (hqp ▸ hq)

end

/-- R145 to R151 in every state that names each unit once: there each cross-thread word does what O13 says. -/
theorem crossCombines_of_tablesSorted {i : Instr} {s : State} {c : Ctx} {h : Hdr} {sw : Bool} (hx : crossHead i = some (h, sw))
    (ha : atIssue i s = some c) (hm : swathMeets c h sw) (hs : c.st.tablesSorted = true) : CrossCombines i s c h sw := by
  have hr : unitsRise c.st c.tid := unitsRise_of_tablesSorted hs c.tid
  have hn := names_nodup_crossUnits (h := h) hr hm
  have hus : ∀ u ∈ crossUnits c h sw, u.tid = c.tid ∧ u.st = crossState c h sw ∧ u.placed :=
    fun u hu => unitAt_of_mem_crossUnits (placed_of_atIssue ha) hr hu
  have htid : ∀ u ∈ crossUnits c h sw, u.tid = c.tid := fun u hu => (hus u hu).1
  obtain ⟨f, he, hf⟩ := runsAs_of_crossHead hx c
  have stays := crossStays_crossAfter hf hn htid
  obtain ⟨hmem, hhost⟩ := crossState_keeps (h := h) (sw := sw) hr
  refine ⟨crossAfter c h sw f, (he s).trans (crossOp_of_meets ha hr hm f), (stays c.slot).mem.trans hmem,
    (stays c.slot).host.trans hhost, fun u hu => ?_⟩
  obtain ⟨hut, hust, hup⟩ := hus u hu
  obtain ⟨hsh, hshared, hunit⟩ := unitIn_of_unitAt hup
  rw [hut, hust] at hsh hshared hunit
  obtain ⟨b, hb, hab⟩ := (stays u.slot).sheaf _ hsh
  obtain ⟨w, hw, hstands⟩ := unitIn_crossRun (h := h) (ws := unitWrites h sw (crossUnits c h sw) f) htid hn hu (by rw [hunit]; rfl)
  obtain ⟨u', hu', hshared', rfl, rfl⟩ := unitAt_of_unitIn ((stays u.slot).shared.trans hshared) hb hw
  refine ⟨u', hut ▸ hu', hstands, hshared', hab.stack, hab.sys, fun k hk => hab.regs k ?_, fun p hp ht alone k v hv => ?_⟩
  · rintro ⟨v, hv, hvs, p, hp, hkp⟩
    exact hk v hv hvs p hp hkp
  · obtain ⟨b', hb', hread⟩ := readKey_crossAfter hf hn htid hu hsh hp ht alone hv
    obtain rfl : b' = u'.sheaf := Option.some.inj (hb'.symm.trans hb)
    exact hread

end Sys2Proof.Machine
end

section
/-! O13 where a sheaf's units do not stand under rising names. -/

namespace Sys2Proof.Machine
open Sys2Proof.Claims

namespace UnsortedSwath

/-- A unit at the first word of its code, of the threads of a mask. -/
def member (mask : BitVec 16) : UnitSt := newUnit mask 0 none 0 0

/-- The units of each sheaf of the swath: those of sheaf 1 stand with the later name first. -/
def members : Nat → Tbl UnitSt
  | 0 => [(1, member 1)]
  | 1 => [(4, member 1), (3, member 2)]
  | _ => []

/-- A swath of four sheaves of role M, its first unit about to issue. -/
def start : State :=
  modTeam { stage State.reset [] with cur := some (0, 0, 1) } 0 fun t =>
    { t with hasM := true
             sheaves := t.sheaves.flatMap fun x => (upto 4).map fun n => (n, { x.2 with role := .m, lane := n, units := members n }) }

/-- A header that waits for token 0, which is complete. -/
def waitsForToken0 : Hdr := ⟨0, false, 7, 1⟩

/-- The vote of every thread of the swath. -/
def vote : Instr := .bal waitsForToken0 true 4 false 7

/-- The unit that issues the vote. -/
def issuer : Ctx := (atIssue vote start).get (by decide)

/-- The same unit once the swath has waited. -/
def voter : Ctx := (crossUnits issuer waitsForToken0 true).head (by decide)

/-- What the vote leaves in the register of thread 0 of the first sheaf. -/
def ballot : Option Word :=
  match exec vote start with
  | .next t => (unitAt t voter.tid voter.slot voter.uid).map fun u => readKey u.sheaf (.v 0 4)
  | _ => none

theorem atIssue_vote : atIssue vote start = some issuer := (Option.some_get _).symm

theorem swathMeets_vote : swathMeets issuer waitsForToken0 true := by
  unfold swathMeets swathAt
  decide

/-- The state lacks the form that `State.canonical` asks for: no run from reset is to reach it (O58). -/
theorem tablesSorted_issuer : issuer.st.tablesSorted = false := by decide

/-- The wait puts unit 3 before unit 4, in whose place the old entry stays: the swath's units list it twice. -/
theorem crossUnits_vote :
    (crossUnits issuer waitsForToken0 true).map Ctx.name = [(0, 1), (1, 3), (1, 4), (1, 3)] := by decide

/-- The word counts each of the three threads once. -/
theorem ballot_eq : ballot = some 0x30001 := by decide

/-- A mask over the swath's units counts the thread of unit 3 twice. -/
theorem voteMask_vote :
    voteMask true (partners issuer waitsForToken0 true) (fun z => rdP z.1 z.2 7 != false) = 0x50001 := by decide

/-- Thread 0 of the first sheaf is active, is there, and is of that unit alone. -/
theorem voter_active : 0 ∈ activeOf voter waitsForToken0 := by decide

theorem hasThread_voter : hasThread voter 0 := by
  unfold hasThread
  decide

theorem voter_alone : ∀ v ∈ crossUnits issuer waitsForToken0 true, v.slot = voter.slot → v ≠ voter →
    0 ∉ activeOf v waitsForToken0 := by decide

theorem not_mayKeep_voter (k : RegKey) : ¬ MayKeep voter k := by
  have hw : voter.unit.wins = [] := by decide
  have hr : voter.sheaf.reports = [] := by decide
  simp [MayKeep, hw, hr]

theorem drainHolds_voter (k : RegKey) : drainHolds voter.sheaf k = false := by
  have hh : voter.sheaf.held = [] := by decide
  simp [drainHolds, hh]

end UnsortedSwath

open UnsortedSwath in
/-- Refutes O13: it does not ask that a sheaf's units stand under rising names (`State.tablesSorted`). Where they do not, the wait
of the header leaves a unit twice in the list by which the statement counts participants, and `bal` counts its thread once. With
that hypothesis every cross-thread word does what the statement says (`crossCombines_of_tablesSorted`). -/
theorem not_crossThreadWordsCombine : ¬ Obligations.CrossThreadWordsCombine := by
  rw [crossThreadWordsCombine_iff]
  intro H
  obtain ⟨t, he, -, -, hall⟩ := H vote start issuer waitsForToken0 true rfl atIssue_vote (by decide) swathMeets_vote
  obtain ⟨u', hu', -, -, -, -, -, hwrote⟩ := hall voter (List.head_mem _)
  have hb : readKey u'.sheaf (.v 0 4) = 0x30001 := by
    have := ballot_eq
    simpa only [ballot, he, hu', Option.map_some, Option.some.injEq] using this
  have hw : Wrote voter u' (.v 0 4) (BitVec.ofNat 32 0x50001) :=
    hwrote 0 voter_active hasThread_voter voter_alone (.v 0 4) _ (.inl ⟨rfl, congrArg _ voteMask_vote.symm⟩)
  rcases hw with hv | ⟨hk, -⟩ | hd
  · rw [hb] at hv
    exact absurd hv (by decide)
  · exact not_mayKeep_voter _ hk
  · rw [drainHolds_voter] at hd
    exact absurd hd (by decide)

end Sys2Proof.Machine
end

section
/-! What the engine leaves when it performs the head of its queue: the engine that the command itself leaves, but for the
jobs that note it, and the sheaves that issued it with their tokens complete (R241, R242). -/

namespace Sys2Proof.Machine
open Sys2Proof.Claims

/-! ### The engine of a core -/

theorem coreOf_modCore (s : State) (k : Nat) (f : Core → Core) (k' : Nat) :
    coreOf (modCore s k f) k' = if k = k' then f (coreOf s k) else coreOf s k' := by
  rw [coreOf, modCore_cores, Tbl.get_set]; rfl

@[simp] theorem coreOf_modTeam (s : State) (tid : Nat) (f : Team → Team) (k : Nat) : coreOf (modTeam s tid f) k = coreOf s k := rfl
@[simp] theorem coreOf_modSheaf (s : State) (tid slot : Nat) (f : Sheaf → Sheaf) (k : Nat) :
    coreOf (modSheaf s tid slot f) k = coreOf s k := rfl

/-- The engine of a core is changed: the shape that every matrix command's effect has in the model. -/
def modEngine (s : State) (k : Nat) (f : Engine → Engine) : State := modCore s k fun c => { c with engine := f c.engine }

@[simp] theorem engine_modEngine_self (s : State) (k : Nat) (f : Engine → Engine) :
    (coreOf (modEngine s k f) k).engine = f (coreOf s k).engine := by
  rw [modEngine, coreOf_modCore, if_pos rfl]

@[simp] theorem cache_modEngine (s : State) (k : Nat) (f : Engine → Engine) (k' : Nat) :
    (coreOf (modEngine s k f) k').cache = (coreOf s k').cache := by
  rw [modEngine, coreOf_modCore]
  split
  · next h => rw [h]
  · rfl

@[simp] theorem modEngine_teams (s : State) (k : Nat) (f : Engine → Engine) : (modEngine s k f).teams = s.teams := rfl

/-! ### What only the jobs note -/

/-- Two engines differ in their checkpoint slots alone. -/
structure Engine.SameButJobs (e e' : Engine) : Prop where
  holder : e'.holder = e.holder
  active : e'.active = e.active
  shadow : e'.shadow = e.shadow
  tiles  : e'.tiles = e.tiles
  bounds : e'.bounds = e.bounds
  aBuf   : e'.aBuf = e.aBuf
  wBuf   : e'.wBuf = e.wBuf
  queue  : e'.queue = e.queue
  redone : e'.redone = e.redone

namespace Engine.SameButJobs
variable {e e' e'' : Engine}

theorem refl (e : Engine) : e.SameButJobs e := ⟨rfl, rfl, rfl, rfl, rfl, rfl, rfl, rfl, rfl⟩

theorem trans (h : e.SameButJobs e') (h' : e'.SameButJobs e'') : e.SameButJobs e'' where
  holder := h'.holder.trans h.holder
  active := h'.active.trans h.active
  shadow := h'.shadow.trans h.shadow
  tiles := h'.tiles.trans h.tiles
  bounds := h'.bounds.trans h.bounds
  aBuf := h'.aBuf.trans h.aBuf
  wBuf := h'.wBuf.trans h.wBuf
  queue := h'.queue.trans h.queue
  redone := h'.redone.trans h.redone

/-- Words and bound rows are read alike. -/
theorem tileRow (h : e.SameButJobs e') (i r : Nat) : tileRow e' i r = tileRow e i r := by
  simp only [Machine.tileRow, h.tiles]
theorem boundRow (h : e.SameButJobs e') (i r : Nat) : boundRow e' i r = boundRow e i r := by
  simp only [Machine.boundRow, h.bounds]

theorem foldl {α : Type} (f : Engine → α → Engine) (hf : ∀ (e : Engine) x, e.SameButJobs (f e x)) (l : List α) (e : Engine) :
    e.SameButJobs (l.foldl f e) :=
  List.foldlRecOn l f (refl e) fun _ h _ _ => h.trans (hf _ _)

end Engine.SameButJobs

theorem sameButJobs_setJob (e : Engine) (n : Nat) (j : Job) : e.SameButJobs (setJob e n j) := by
  unfold setJob; split <;> exact ⟨rfl, rfl, rfl, rfl, rfl, rfl, rfl, rfl, rfl⟩

theorem sameButJobs_logCmd (cmd : MxCmd) (e : Engine) (n : Nat) : e.SameButJobs (logCmd cmd e n) := by
  unfold logCmd
  dsimp only
  split
  · exact sameButJobs_setJob ..
  · exact .refl e

theorem sameButJobs_markInts (ints : Bool) (tile : Nat) (rows : BitVec 64) (e : Engine) :
    e.SameButJobs (markInts ints tile rows e) :=
  .foldl _ (fun e n => by
    split
    · exact sameButJobs_setJob ..
    · exact .refl e) _ e

/-- The jobs of a core note a command, each in its log where it belongs there (R271). -/
def noted (cmd : MxCmd) (e : Engine) : Engine := logCmd cmd (logCmd cmd e 0) 1

theorem sameButJobs_noted (cmd : MxCmd) (e : Engine) : e.SameButJobs (noted cmd e) :=
  (sameButJobs_logCmd cmd e 0).trans (sameButJobs_logCmd cmd _ 1)

/-- Abandoned jobs leave every engine's work as it was. -/
theorem sameButJobs_abandonJobs (s : State) (tid k : Nat) :
    (coreOf s k).engine.SameButJobs (coreOf (abandonJobs s tid) k).engine := by
  unfold abandonJobs
  split
  · exact .refl _
  · split
    · exact .refl _
    · rw [coreOf_modCore]
      split
      · next hk =>
        subst hk
        refine List.foldlRecOn (motive := fun c : Core => Engine.SameButJobs _ c.engine) _ _ (.refl _) fun c h n _ => ?_
        extract_lets j0 j
        split
        · exact h
        · split <;> exact h.trans (sameButJobs_setJob ..)
      · exact .refl _

theorem abandonJobs_teams (s : State) (tid : Nat) : (abandonJobs s tid).teams = s.teams := by
  unfold abandonJobs
  split
  · rfl
  · split <;> rfl

/-! ### A team that runs -/

/-- A team is there and has not ended. -/
def Running (s : State) (tid : Nat) : Prop := ∃ t, Tbl.find s.teams tid = some t ∧ t.ended = false

theorem Running.modTeam {s : State} {tid : Nat} (h : Running s tid) (tid' : Nat) (f : Team → Team)
    (hf : ∀ t, (f t).ended = t.ended) : Running (modTeam s tid' f) tid := by
  obtain ⟨t, ht, he⟩ := h
  simp only [Running, modTeam_teams, Tbl.find_modify]
  split
  · next hk => subst hk; exact ⟨f t, by rw [ht]; rfl, (hf t).trans he⟩
  · exact ⟨t, ht, he⟩

theorem Running.modSheaf {s : State} {tid : Nat} (h : Running s tid) (tid' slot : Nat) (f : Sheaf → Sheaf) :
    Running (modSheaf s tid' slot f) tid := h.modTeam tid' _ fun _ => rfl

theorem Running.modEngine {s : State} {tid : Nat} (h : Running s tid) (k : Nat) (f : Engine → Engine) :
    Running (modEngine s k f) tid := h

theorem reapTeam_of_running {s : State} {tid : Nat} (h : Running s tid) : reapTeam s tid = s := by
  obtain ⟨t, ht, he⟩ := h
  simp [reapTeam, ht, he]

/-! ### The end of a command in the sheaves that issued it (R241, R242) -/

/-- What the end of a command does to a sheaf that issued it. -/
def Sheaf.finish (cmd : MxCmd) (sh : Sheaf) : Sheaf :=
  let sh1 := { sh with spoilt := sh.spoilt.filter fun h => h.cmd != cmd.id }
  match cmd.tk with
  | some tk => if sh.retired then sh1 else setTok sh1 tk ⟨false, 0⟩
  | none => sh1

/-- The end of a command in one of its sheaves, as `performHead` makes it. -/
def finishSheaf (cmd : MxCmd) (s : State) (sl : Nat) : State :=
  let s1 := modSheaf s cmd.tid sl fun sh => { sh with spoilt := sh.spoilt.filter fun h => h.cmd != cmd.id }
  match cmd.tk with
  | some tk => completeTok s1 cmd.tid sl tk 0
  | none => s1

theorem Sheaf.retired_finish (cmd : MxCmd) (sh : Sheaf) : (sh.finish cmd).retired = sh.retired := by
  unfold Sheaf.finish
  cases cmd.tk with
  | none => rfl
  | some tk => dsimp only; split <;> rfl

theorem Sheaf.readKey_finish (cmd : MxCmd) (sh : Sheaf) (key : RegKey) : readKey (sh.finish cmd) key = readKey sh key := by
  unfold Sheaf.finish
  cases cmd.tk with
  | none => cases key <;> rfl
  | some tk => dsimp only; split <;> cases key <;> rfl

theorem Sheaf.tokAt_finish {cmd : MxCmd} {tk : Nat} (h : cmd.tk = some tk) (sh : Sheaf) (hr : sh.retired = false) :
    tokAt (sh.finish cmd) tk = ⟨false, 0⟩ := by
  simp [Sheaf.finish, h, hr, tokAt, setTok]

theorem sheafAt_finishSheaf (cmd : MxCmd) (s : State) (sl sl' : Nat) :
    sheafAt (finishSheaf cmd s sl') cmd.tid sl
      = if sl' = sl then (sheafAt s cmd.tid sl).map (Sheaf.finish cmd) else sheafAt s cmd.tid sl := by
  unfold finishSheaf Sheaf.finish
  cases cmd.tk with
  | none => exact sheafAt_modSheaf ..
  | some tk =>
    dsimp only
    rw [completeTok, sheafAt_modTeam, if_pos rfl, modSheaf_teams, Tbl.find_modify_self]
    unfold sheafAt
    cases Tbl.find s.teams cmd.tid with
    | none => simp
    | some t =>
      simp only [Option.map_some, Option.bind_some, Tbl.find_modify_self]
      cases hsl : Tbl.find t.sheaves sl' with
      | none =>
        simp only [Option.map_none, Tbl.find_modify]
        split
        · next h => subst h; simp [hsl]
        · rfl
      | some sh =>
        simp only [Option.map_some]
        split
        · next hr =>
          simp only [Tbl.find_modify]
          split
          · next h => subst h; simp [hsl, hr]
          · rfl
        · next hr =>
          simp only [Tbl.find_modify, if_true]
          split
          · next h => subst h; simp [hsl, hr]
          · rfl

theorem sheafAt_finishSheaves (cmd : MxCmd) (sl : Nat) (l : List Nat) (s : State) :
    sheafAt (l.foldl (finishSheaf cmd) s) cmd.tid sl = (sheafAt s cmd.tid sl).map (Sheaf.finish cmd)^[l.count sl] := by
  induction l generalizing s with
  | nil => simp
  | cons a l ih =>
    rw [List.foldl_cons, ih, sheafAt_finishSheaf, List.count_cons]
    by_cases h : a = sl
    · simp [h, Function.iterate_succ, Function.comp_def]
    · simp [h]

theorem coreOf_finishSheaves (cmd : MxCmd) (l : List Nat) (s : State) (k : Nat) :
    coreOf (l.foldl (finishSheaf cmd) s) k = coreOf s k :=
  List.foldlRecOn (motive := fun s' => coreOf s' k = coreOf s k) l _ rfl fun s' h sl _ => by
    rw [← h, finishSheaf]; split <;> rfl

theorem Running.finishSheaves {s : State} (cmd : MxCmd) (h : Running s cmd.tid) (l : List Nat) :
    Running (l.foldl (finishSheaf cmd) s) cmd.tid :=
  List.foldlRecOn (motive := fun s' => Running s' cmd.tid) l _ h fun s' h sl _ => by
    unfold finishSheaf
    have h1 := h.modSheaf cmd.tid sl fun sh => { sh with spoilt := sh.spoilt.filter fun x => x.cmd != cmd.id }
    split
    · refine h1.modTeam cmd.tid _ fun t => ?_
      split
      · split <;> rfl
      · rfl
    · exact h1

theorem Sheaf.readKey_finishes (cmd : MxCmd) (n : Nat) (sh : Sheaf) (key : RegKey) :
    readKey ((Sheaf.finish cmd)^[n] sh) key = readKey sh key := by
  induction n with
  | zero => rfl
  | succ n ih => rw [Function.iterate_succ_apply', Sheaf.readKey_finish, ih]

theorem Sheaf.retired_finishes (cmd : MxCmd) (n : Nat) (sh : Sheaf) :
    ((Sheaf.finish cmd)^[n] sh).retired = sh.retired := by
  induction n with
  | zero => rfl
  | succ n ih => rw [Function.iterate_succ_apply', Sheaf.retired_finish, ih]

/-! ### The head of the queue -/

/-- The engine has a command at its head that waits for no re-run, of a team that runs. -/
structure HeadDue (s : State) (k : Nat) (cmd : MxCmd) (rest : List MxCmd) (t : Team) : Prop where
  queue : (coreOf s k).engine.queue = cmd :: rest
  free  : behindReRun (coreOf s k).engine cmd.id = false
  team  : Tbl.find s.teams cmd.tid = some t
  runs  : t.ended = false
  reads : readsError s t (cmdReads (coreOf s k).engine cmd) = none

/-- The state in which the command at the head takes effect: the jobs have noted it. -/
def headNoted (s : State) (k : Nat) (cmd : MxCmd) : State := modEngine s k (noted cmd)

section
variable {s : State} {k : Nat} {cmd : MxCmd} {rest : List MxCmd} {t : Team} (h : HeadDue s k cmd rest t)
include h

theorem HeadDue.running : Running (headNoted s k cmd) cmd.tid := ⟨t, h.team, h.runs⟩

theorem HeadDue.performHead_eq :
    performHead s k = reapTeam (abandonJobs (cmd.slots.foldl (finishSheaf cmd)
      (modEngine (doCmd (headNoted s k cmd) k t cmd) k fun e => { e with queue := rest })) cmd.tid) cmd.tid := by
  obtain ⟨hq, hb, ht, -, hr⟩ := h
  simp only [performHead, hq, hb, ht, hr, Bool.false_eq_true, if_false]
  rfl

variable (hrun : Running (doCmd (headNoted s k cmd) k t cmd) cmd.tid)
include hrun

theorem HeadDue.performHead_running :
    performHead s k = abandonJobs (cmd.slots.foldl (finishSheaf cmd)
      (modEngine (doCmd (headNoted s k cmd) k t cmd) k fun e => { e with queue := rest })) cmd.tid := by
  rw [h.performHead_eq]
  refine reapTeam_of_running ?_
  obtain ⟨t', ht', he⟩ := (hrun.modEngine k fun e => { e with queue := rest }).finishSheaves cmd cmd.slots
  exact ⟨t', by rw [abandonJobs_teams]; exact ht', he⟩

/-- The engine goes on to the next command, with what this one left it. -/
theorem HeadDue.engine_performHead :
    Engine.SameButJobs { (coreOf (doCmd (headNoted s k cmd) k t cmd) k).engine with queue := rest }
      (coreOf (performHead s k) k).engine := by
  rw [h.performHead_running hrun]
  refine .trans ?_ (sameButJobs_abandonJobs _ _ _)
  rw [coreOf_finishSheaves, engine_modEngine_self]
  exact .refl _

/-- A sheaf of the command's team is as the command left it, but for the end of the command. -/
theorem HeadDue.sheafAt_performHead (sl : Nat) :
    sheafAt (performHead s k) cmd.tid sl
      = (sheafAt (doCmd (headNoted s k cmd) k t cmd) cmd.tid sl).map (Sheaf.finish cmd)^[cmd.slots.count sl] := by
  rw [h.performHead_running hrun]
  have hs : ∀ s' tid, sheafAt (abandonJobs s' tid) cmd.tid sl = sheafAt s' cmd.tid sl := fun s' tid => by
    simp only [sheafAt, abandonJobs_teams]
  rw [hs, sheafAt_finishSheaves]
  rfl

/-- The command's token is complete in each sheaf that issued it and is there. -/
theorem HeadDue.tokenDone_performHead {sl tk : Nat} (htk : cmd.tk = some tk) (hsl : sl ∈ cmd.slots) {sh : Sheaf}
    (hsh : sheafAt (doCmd (headNoted s k cmd) k t cmd) cmd.tid sl = some sh) (hr : sh.retired = false) :
    tokenDone (performHead s k) cmd.tid sl tk 0 := by
  obtain ⟨n, hn⟩ := Nat.exists_eq_succ_of_ne_zero (List.count_pos_iff.mpr hsl).ne'
  refine ⟨_, by rw [h.sheafAt_performHead hrun, hsh]; rfl, ?_⟩
  rw [hn, Function.iterate_succ_apply']
  exact Sheaf.tokAt_finish htk _ (by rw [Sheaf.retired_finishes, hr])

/-- The registers of a sheaf are as the command left them. -/
theorem HeadDue.readKey_performHead {sl : Nat} {sh : Sheaf} (hsh : sheafAt (doCmd (headNoted s k cmd) k t cmd) cmd.tid sl = some sh) :
    ∃ sh', sheafAt (performHead s k) cmd.tid sl = some sh' ∧ ∀ key, readKey sh' key = readKey sh key :=
  ⟨_, by rw [h.sheafAt_performHead hrun, hsh]; rfl, fun key => Sheaf.readKey_finishes cmd _ sh key⟩
end

end Sys2Proof.Machine
end

section
/-! The rows of a tile: what writing one leaves of the others, and a command that works on its rows one after another. -/

namespace Sys2Proof.Machine

/-! ### Writing one row -/

/-- A row's words and bound are written. -/
def setRow (e : Engine) (i row : Nat) (x : List Word × BitVec 16) : Engine := setBound (setTileRow e i row x.1) i row x.2

/-- Words written one after another from an address. -/
def setWords (t : Tbl Word) (a : Nat) (ws : List Word) : Tbl Word :=
  (ws.mapIdx fun j w => (j, w)).foldl (fun t jw => Tbl.set 0 t (a + jw.1) jw.2) t

theorem get_setWords (t : Tbl Word) (a : Nat) (ws : List Word) (k : Nat) :
    Tbl.get 0 (setWords t a ws) k = if a ≤ k ∧ k < a + ws.length then ws.getD (k - a) 0 else Tbl.get 0 t k := by
  unfold setWords
  induction ws using List.reverseRecOn with
  | nil => rw [if_neg (by simp)]; rfl
  | append_singleton ws w ih =>
    rw [List.mapIdx_concat, List.foldl_append, List.foldl_cons, List.foldl_nil, Tbl.get_set, ih, List.length_append,
      List.length_singleton]
    by_cases hk : a + ws.length = k
    · subst hk; simp
    · rw [if_neg hk]
      refine if_ctx_congr (by omega) (fun h => ?_) fun _ => rfl
      rw [List.getD_append _ _ _ _ (by omega)]

theorem tiles_setRow (e : Engine) (i row : Nat) (x : List Word × BitVec 16) :
    (setRow e i row x).tiles = setWords e.tiles (i * 4096 + row * 64) x.1 := rfl

/-- A row of 64 words stays within its row. -/
theorem get_setRow_other (e : Engine) (i row : Nat) {x : List Word × BitVec 16} (hx : x.1.length ≤ 64) {k : Nat}
    (hk : k / 64 ≠ i * 64 + row) : Tbl.get 0 (setRow e i row x).tiles k = Tbl.get 0 e.tiles k := by
  rw [tiles_setRow, get_setWords, if_neg (by omega)]

theorem tileRow_setRow_self (e : Engine) (i row : Nat) {x : List Word × BitVec 16} (hx : x.1.length = 64) :
    tileRow (setRow e i row x) i row = x.1 := by
  refine List.ext_getElem (by simp [tileRow, upto, hx]) fun j hj hj' => ?_
  have hj64 : j < 64 := hx ▸ hj'
  simp only [tileRow, upto, List.getElem_map, List.getElem_range]
  rw [tiles_setRow, get_setWords, if_pos (by omega), Nat.add_sub_cancel_left, List.getD_eq_getElem _ _ hj']

theorem tileRow_setRow_other (e : Engine) (i : Nat) {row r : Nat} {x : List Word × BitVec 16} (hx : x.1.length ≤ 64)
    (hr : r ≠ row) : tileRow (setRow e i row x) i r = tileRow e i r := by
  refine List.map_congr_left fun j hj => ?_
  rw [mem_upto] at hj
  exact get_setRow_other e i row hx (by omega)

theorem get_bounds_setRow (e : Engine) (i row : Nat) (x : List Word × BitVec 16) (k : Nat) :
    Tbl.get 0 (setRow e i row x).bounds k = if i * 64 + row = k then x.2 else Tbl.get 0 e.bounds k :=
  Tbl.get_set ..

theorem boundRow_setRow_self (e : Engine) (i row : Nat) (x : List Word × BitVec 16) :
    boundRow (setRow e i row x) i row = x.2 := by
  rw [boundRow, get_bounds_setRow, if_pos rfl]

theorem boundRow_setRow_other (e : Engine) (i : Nat) {row r : Nat} (x : List Word × BitVec 16) (hr : r ≠ row) :
    boundRow (setRow e i row x) i r = boundRow e i r := by
  rw [boundRow, get_bounds_setRow, if_neg (by omega)]; rfl

/-! ### The participating rows -/

theorem mem_rowList (m : BitVec 64) (r : Nat) : r ∈ rowList m ↔ r < 64 ∧ m.getLsbD r = true := by
  simp only [rowList, maskList, List.mem_filter, List.mem_range, bitOf, BitVec.getLsbD, Nat.testBit_eq_decide_div_mod_eq,
    beq_iff_eq, decide_eq_true_eq]

theorem nodup_rowList (m : BitVec 64) : (rowList m).Nodup := List.nodup_range.filter _

/-! ### One row after another -/

/-- What a command makes of a row, from the A-buffer and the row's words and bound. -/
abbrev RowWork := Tbl (BitVec 16) → Nat → List Word → BitVec 16 → List Word × BitVec 16

/-- The command's work on one row. -/
def workRow (i : Nat) (g : RowWork) (e : Engine) (row : Nat) : Engine :=
  setRow e i row (g e.aBuf row (tileRow e i row) (boundRow e i row))

/-- Each of the rows was worked on from what stood in it, and everything else stands as it did. -/
structure RowsWorked (i : Nat) (l : List Nat) (g : RowWork) (e e' : Engine) : Prop where
  rows   : ∀ r ∈ l, (tileRow e' i r, boundRow e' i r) = g e.aBuf r (tileRow e i r) (boundRow e i r)
  tiles  : ∀ k, (∀ r ∈ l, k / 64 ≠ i * 64 + r) → Tbl.get 0 e'.tiles k = Tbl.get 0 e.tiles k
  bounds : ∀ k, (∀ r ∈ l, k ≠ i * 64 + r) → Tbl.get 0 e'.bounds k = Tbl.get 0 e.bounds k
  active : e'.active = e.active
  shadow : e'.shadow = e.shadow
  aBuf   : e'.aBuf = e.aBuf

theorem length_tileRow (e : Engine) (i r : Nat) : (tileRow e i r).length = 64 := by simp [tileRow, upto]

theorem rowsWorked_foldl (i : Nat) (g : RowWork) (l : List Nat) (hl : l.Nodup)
    (hg : ∀ aBuf, ∀ r ∈ l, ∀ ws b, ws.length = 64 → (g aBuf r ws b).1.length = 64) (e : Engine) :
    RowsWorked i l g e (l.foldl (workRow i g) e) := by
  induction l generalizing e with
  | nil => exact ⟨by simp, fun _ _ => rfl, fun _ _ => rfl, rfl, rfl, rfl⟩
  | cons a l ih =>
    rw [List.nodup_cons] at hl
    have hlen : (g e.aBuf a (tileRow e i a) (boundRow e i a)).1.length = 64 :=
      hg _ a List.mem_cons_self _ _ (length_tileRow e i a)
    have h := ih hl.2 (fun aBuf r hr => hg aBuf r (List.mem_cons_of_mem _ hr)) (workRow i g e a)
    rw [List.foldl_cons]
    refine ⟨fun r hr => ?_, fun k hk => ?_, fun k hk => ?_, h.active, h.shadow, h.aBuf⟩
    · rcases List.mem_cons.mp hr with rfl | hr
      · have htiles : tileRow (l.foldl (workRow i g) (workRow i g e r)) i r = tileRow (workRow i g e r) i r :=
          List.map_congr_left fun j hj => by
            rw [mem_upto] at hj
            exact h.tiles _ fun r' hr' => by
              have : r' ≠ r := fun e => hl.1 (e ▸ hr')
              omega
        have hbound : boundRow (l.foldl (workRow i g) (workRow i g e r)) i r = boundRow (workRow i g e r) i r :=
          h.bounds _ fun r' hr' => by
            have : r' ≠ r := fun e => hl.1 (e ▸ hr')
            omega
        rw [htiles, hbound, workRow, tileRow_setRow_self e i r hlen, boundRow_setRow_self]
      · have hne : r ≠ a := fun e => hl.1 (e ▸ hr)
        rw [h.rows r hr, workRow, tileRow_setRow_other e i hlen.le hne, boundRow_setRow_other e i _ hne]
        rfl
    · rw [h.tiles k fun r hr => hk r (List.mem_cons_of_mem _ hr)]
      exact get_setRow_other e i a hlen.le (hk a List.mem_cons_self)
    · rw [h.bounds k fun r hr => hk r (List.mem_cons_of_mem _ hr)]
      exact (get_bounds_setRow ..).trans (if_neg (hk a List.mem_cons_self).symm)

section
variable {i : Nat} {l : List Nat} {g : RowWork} {e e' : Engine} (h : RowsWorked i l g e e')
include h

/-- What the jobs note makes no difference, before the work or after it. -/
theorem RowsWorked.before {e₀ : Engine} (h₀ : e₀.SameButJobs e) : RowsWorked i l g e₀ e' where
  rows r hr := by rw [h.rows r hr, h₀.aBuf, h₀.tileRow, h₀.boundRow]
  tiles k hk := by rw [h.tiles k hk, h₀.tiles]
  bounds k hk := by rw [h.bounds k hk, h₀.bounds]
  active := h.active.trans h₀.active
  shadow := h.shadow.trans h₀.shadow
  aBuf := h.aBuf.trans h₀.aBuf

theorem RowsWorked.after {e₁ : Engine} (h₁ : e'.SameButJobs e₁) : RowsWorked i l g e e₁ where
  rows r hr := by rw [← h.rows r hr, h₁.tileRow, h₁.boundRow]
  tiles k hk := by rw [← h.tiles k hk, h₁.tiles]
  bounds k hk := by rw [← h.bounds k hk, h₁.bounds]
  active := h₁.active.trans h.active
  shadow := h₁.shadow.trans h.shadow
  aBuf := h₁.aBuf.trans h.aBuf

/-- A word of a row that was worked on. -/
theorem RowsWorked.word {r : Nat} (hr : r ∈ l) {j : Nat} (hj : j < 64) :
    Tbl.get 0 e'.tiles (i * 4096 + r * 64 + j) = (g e.aBuf r (tileRow e i r) (boundRow e i r)).1.getD j 0 := by
  rw [← h.rows r hr]
  simp [tileRow, upto, List.getD, hj]

/-- The bound of a row that was worked on. -/
theorem RowsWorked.bound {r : Nat} (hr : r ∈ l) : boundRow e' i r = (g e.aBuf r (tileRow e i r) (boundRow e i r)).2 :=
  congrArg Prod.snd (h.rows r hr)
end

section
variable {i : Nat} {m : BitVec 64} {g : RowWork} {e e' : Engine} (h : RowsWorked i (rowList m) g e e') {k : Nat}
include h

/-- A word of no participating row stands as it did. -/
theorem RowsWorked.tiles_mask (hk : ∀ r, r < 64 → m.getLsbD r = true → k / 64 ≠ i * 64 + r) :
    Tbl.get 0 e'.tiles k = Tbl.get 0 e.tiles k :=
  h.tiles k fun r hr => let ⟨hr, hm⟩ := (mem_rowList m r).mp hr; hk r hr hm

/-- The bound of no participating row stands as it did. -/
theorem RowsWorked.bounds_mask (hk : ∀ r, r < 64 → m.getLsbD r = true → k ≠ i * 64 + r) :
    Tbl.get 0 e'.bounds k = Tbl.get 0 e.bounds k :=
  h.bounds k fun r hr => let ⟨hr, hm⟩ := (mem_rowList m r).mp hr; hk r hr hm
end

end Sys2Proof.Machine
end

section
/-! What a pass adds to a word where plane and rows hold integers without scales: the exact sum of the products (R74). -/

namespace Sys2Proof.Machine
open Sys2Proof.Claims

/-! ### Values that are integers -/

/-- A value is the integer `n`, at the exponent 0. -/
def FVal.IsInt (x : FVal) (n : Int) : Prop := ∃ neg m, x = .fin neg m 0 ∧ alignInt neg m 0 0 = n

theorem alignInt_zero (neg : Bool) (m : Nat) : alignInt neg m 0 0 = if neg then -(m : Int) else m := by
  simp [alignInt]

theorem isInt_ofIntVal (n : Int) : (ofIntVal n).IsInt n :=
  ⟨_, _, rfl, by rw [alignInt_zero]; simp only [decide_eq_true_eq]; omega⟩

theorem isInt_one : (FVal.fin false 1 0).IsInt 1 := ⟨_, _, rfl, by simp [alignInt_zero]⟩

theorem isInt_fz : fz.IsInt 0 := ⟨_, _, rfl, by simp [alignInt_zero]⟩

theorem FVal.IsInt.mul {x y : FVal} {a b : Int} (hx : x.IsInt a) (hy : y.IsInt b) : (x.mul y).IsInt (a * b) := by
  obtain ⟨s, m, rfl, rfl⟩ := hx
  obtain ⟨s', m', rfl, rfl⟩ := hy
  refine ⟨s != s', m * m', rfl, ?_⟩
  simp only [alignInt_zero]
  cases s <;> cases s' <;> simp

theorem FVal.IsInt.add {x y : FVal} {a b : Int} (hx : x.IsInt a) (hy : y.IsInt b) : (FVal.add .ne x y).IsInt (a + b) := by
  obtain ⟨s, m, rfl, rfl⟩ := hx
  obtain ⟨s', m', rfl, rfl⟩ := hy
  simp only [FVal.add, min_self]
  split
  · next h => exact ⟨_, _, rfl, by rw [h, alignInt_zero]; simp⟩
  · exact ⟨_, _, rfl, by rw [alignInt_zero]; simp only [decide_eq_true_eq]; omega⟩

/-- The exact sum of integers is their sum (R73). -/
theorem isInt_sumExact {l : List FVal} {ns : List Int} (h : List.Forall₂ FVal.IsInt l ns) : (sumExact l).IsInt ns.sum := by
  have hf : ∀ a n, FVal.IsInt a n → (l.foldl (FVal.add .ne) a).IsInt (n + ns.sum) := by
    induction h with
    | nil => intro a n ha; simpa using ha
    | cons hx _ ih =>
      intro a n ha
      rw [List.foldl_cons, List.sum_cons, ← add_assoc]
      exact ih _ _ (ha.add hx)
  obtain ⟨s, m, hs, hn⟩ := hf fz 0 isInt_fz
  rw [zero_add] at hn
  unfold sumExact
  rw [hs]
  dsimp only
  split
  · next hm => exact ⟨_, _, rfl, by rw [← hn, hm]; simp [alignInt_zero]⟩
  · exact ⟨_, _, rfl, hn⟩

/-- An integer pass adds the sum of its products to the word, modulo 2^32 (R74). -/
theorem word_passCol_ints {x : RowIn} (hb : x.bf16 = false) (hi : x.ints = true) {l : List FVal} {ns : List Int}
    (h : List.Forall₂ FVal.IsInt l ns) (acc : Word) : (passCol x l acc).word = acc + BitVec.ofInt 32 ns.sum := by
  obtain ⟨s, m, hs, hn⟩ := isInt_sumExact h
  simp only [passCol, hb, hi, hs, hn, Bool.false_eq_true, if_false, if_true, wrap]
  rw [BitVec.ofInt_add, BitVec.ofInt_toInt, BitVec.add_comm]

/-! ### The elements of an INT8 plane and of an INT8 row -/

theorem elemCodes_int8_cons (b : Byte) (bs : List Byte) : elemCodes 12 (b :: bs) = b.toNat :: elemCodes 12 bs := by
  delta elemCodes
  exact (if_neg (by decide)).trans (if_neg (by decide))

theorem elemCodes_int8 (bs : List Byte) : elemCodes 12 bs = bs.map (·.toNat) := by
  induction bs with
  | nil => rfl
  | cons b bs ih => rw [elemCodes_int8_cons, ih, List.map_cons]

/-- An INT8 element without scales is its byte, sign-extended. -/
theorem isInt_elem (c : Nat) (lblk : Nat) (scales : List Nat) (k : Nat) :
    (FVal.mul (elemVal 12 c) (blockScale 2 lblk scales k)).IsInt (sext c 8) := by
  simpa [elemVal, blockScale] using (isInt_ofIntVal (sext c 8)).mul isInt_one

/-- A row of INT8 elements without scales. -/
theorem forall₂_scaledRow (lblk : Nat) (codes scales : List Nat) :
    List.Forall₂ FVal.IsInt (scaledRow 12 2 lblk codes scales) (codes.map fun c => sext c 8) := by
  rw [List.forall₂_iff_get]
  refine ⟨by simp [scaledRow], fun k h h' => ?_⟩
  simp only [scaledRow, List.get_eq_getElem, List.getElem_mapIdx, List.getElem_map]
  exact isInt_elem ..

/-- The element of a plane at row `k` and column `j`, as a signed byte. -/
def planeInt (p : Plane) (k j : Nat) : Int := sext (p.tile.getD (64 * k + j) 0).toNat 8

theorem length_planeCols (p : Plane) : (planeCols p).length = 64 := by simp [planeCols, upto]

/-- A column of an INT8 plane without scales. -/
theorem forall₂_planeCols {p : Plane} (hf : p.fmt = 12) (hk : p.kind = 2) {j : Nat} (hj : j < 64) :
    List.Forall₂ FVal.IsInt ((planeCols p).getD j []) ((upto 128).map fun k => planeInt p k j) := by
  have hcol : (planeCols p).getD j [] = scaledRow 12 2 p.lblk ((upto 128).map fun k => (p.tile.getD (64 * k + j) 0).toNat)
      ((p.scales.drop (kOf 12 / 2 ^ p.lblk * j)).take (kOf 12 / 2 ^ p.lblk)) := by
    simp only [planeCols, List.getD, upto, hf, hk, List.getElem?_map, List.getElem?_range hj, Option.map_some, Option.getD_some,
      elemCodes_int8, List.map_map]
    congr 1
    refine List.map_congr_left fun k _ => ?_
    simp only [Function.comp_apply, List.getElem?_take, hj, if_true, List.getElem?_drop, List.getElem?_map]
    cases p.tile[64 * k + j]? <;> rfl
  rw [hcol]
  simpa [Function.comp_def, planeInt] using forall₂_scaledRow p.lblk ((upto 128).map fun k => (p.tile.getD (64 * k + j) 0).toNat)
    ((p.scales.drop (kOf 12 / 2 ^ p.lblk * j)).take (kOf 12 / 2 ^ p.lblk))

theorem isInt_planeCols {p : Plane} (hf : p.fmt = 12) (hk : p.kind = 2) {j k : Nat} (hj : j < 64) (hk' : k < 128) :
    (((planeCols p).getD j []).getD k fz).IsInt (planeInt p k j) := by
  have h := forall₂_planeCols hf hk hj
  have hlen : k < ((planeCols p).getD j []).length := by rw [h.length_eq]; simpa [upto] using hk'
  rw [List.getD_eq_getElem _ _ hlen]
  simpa [upto] using h.get hlen (by simpa [upto] using hk')

/-- The products of a row of integers and a column of integers. -/
theorem forall₂_products {a c : List FVal} {as cs : List Int} (ha : List.Forall₂ FVal.IsInt a as) (hc : List.Forall₂ FVal.IsInt c cs) :
    List.Forall₂ FVal.IsInt ((a.zip c).map fun x => FVal.mul x.1 x.2) ((as.zip cs).map fun x => x.1 * x.2) := by
  induction ha generalizing c cs with
  | nil => simp
  | cons hx _ ih =>
    cases hc with
    | nil => simp
    | cons hy hc => exact .cons (hx.mul hy) (ih hc)

end Sys2Proof.Machine
end

section
/-! A pass of `mx.run` or `mx.cmat`: the rows that it works on, and the sums that it adds in integers (R250, R251, R262). -/

namespace Sys2Proof.Machine
open Sys2Proof.Claims

/-! ### The columns of a row's pass -/

theorem length_scaledRow (f kind lblk : Nat) (codes scales : List Nat) :
    (scaledRow f kind lblk codes scales).length = codes.length := by simp [scaledRow]

theorem sixtyFour_le_kOf (f : Nat) : 64 ≤ kOf f := by
  unfold kOf; split
  · exact le_rfl
  · split <;> decide

theorem length_planeCol (p : Plane) {j : Nat} (hj : j < 64) : ((planeCols p).getD j []).length = kOf p.fmt := by
  simp [planeCols, List.getD, upto, hj, length_scaledRow]

/-- A row's pass brings the products of 64 columns. -/
theorem length_rowPass_prods (s : State) (t : Team) (cmd : MxCmd) (p : Plane) (aBuf : Tbl (BitVec 16)) {row : Nat} (hr : row < 64) :
    (rowPass s t cmd p (planeCols p) aBuf row).1.prods.length = 64 := by
  have hstream : ∀ f kind lblk codes scales eA,
      (streamRow p (planeCols p) f kind lblk codes scales eA).1.prods.length = 64 := fun f kind lblk codes scales eA => by
    simp [streamRow, length_planeCols]
  have hconst : ∀ kind x, (constRow p (planeCols p) kind row x).1.prods.length = 64 := fun kind x => by
    have h64 := sixtyFour_le_kOf p.fmt
    unfold constRow
    simp only [List.length_map]
    split
    · simp [length_planeCols]
    · rw [List.length_map, List.length_take, length_planeCol p hr]; omega
    · simp [length_planeCols]
    · exact length_planeCols p
  unfold rowPass
  dsimp only
  split
  · exact hstream ..
  · exact hstream ..
  all_goals exact hconst ..

/-- A pass on a row of 64 words leaves 64 words. -/
theorem length_passRow {x : RowIn} (hx : x.prods.length = 64) (b : RowBound) {acc : List Word} (ha : acc.length = 64)
    (bound : BitVec 16) : (passRow x b acc bound).1.length = 64 := by
  simp [passRow, hx, ha]

/-- A word of a row after a pass. -/
theorem getD_passRow (x : RowIn) (b : RowBound) {acc : List Word} (bound : BitVec 16) {j : Nat} (hx : j < x.prods.length)
    (ha : j < acc.length) : (passRow x b acc bound).1.getD j 0 = (passCol x (x.prods.getD j []) (acc.getD j 0)).word := by
  simp [passRow, List.getD, hx, ha]

/-! ### What the engine's own state has to do with it: nothing -/

theorem coreSees_modEngine (s : State) (k : Nat) (f : Engine → Engine) (k' a : Nat) :
    coreSees (modEngine s k f) k' a = coreSees s k' a := by
  simp only [coreSees, cache_modEngine]; rfl

theorem operandBytes_modEngine (s : State) (k : Nat) (f : Engine → Engine) (t : Team) (cmd : MxCmd) (a : Word) (n : Nat) :
    operandBytes (modEngine s k f) t cmd a n = operandBytes s t cmd a n := by
  have h : onchipBytes (modEngine s k f) t a n = onchipBytes s t a n := by
    simp only [onchipBytes, coreSees_modEngine]; rfl
  simp only [operandBytes, h]; rfl

theorem rowPass_modEngine (s : State) (k : Nat) (f : Engine → Engine) (t : Team) (cmd : MxCmd) (p : Plane)
    (cols : List (List FVal)) (aBuf : Tbl (BitVec 16)) (row : Nat) :
    rowPass (modEngine s k f) t cmd p cols aBuf row = rowPass s t cmd p cols aBuf row := by
  simp only [rowPass, operandBytes_modEngine]; rfl

/-! ### A pass row after row -/

/-- A command's pass against a plane, as work on its rows. -/
def passWork (s : State) (t : Team) (cmd : MxCmd) (p : Plane) : RowWork := fun aBuf row ws b =>
  passRow (rowPass s t cmd p (planeCols p) aBuf row).1 (rowPass s t cmd p (planeCols p) aBuf row).2 ws b

theorem doPass_eq (s : State) (t : Team) (cmd : MxCmd) {e : Engine} {p : Plane} (hp : e.active = some p) (i : Nat) :
    doPass s t cmd e i = (rowList cmd.rows).foldl (workRow i (passWork s t cmd p)) e := by
  simp only [doPass, hp]; rfl

/-- A pass works on the command's rows, and on nothing else. -/
theorem rowsWorked_doPass (s : State) (t : Team) (cmd : MxCmd) {e : Engine} {p : Plane} (hp : e.active = some p) (i : Nat) :
    RowsWorked i (rowList cmd.rows) (passWork s t cmd p) e (doPass s t cmd e i) := by
  rw [doPass_eq s t cmd hp]
  refine rowsWorked_foldl i _ _ (nodup_rowList _) (fun aBuf r hr ws b hws => ?_) e
  exact length_passRow (length_rowPass_prods s t cmd p aBuf ((mem_rowList _ _).mp hr).1) _ hws b

/-! ### What `mx.cmat` and `mx.run` add in integers -/

theorem ocOff_add_row {a : Word} (hs : ocSpace a = some .sh) (hb : ocOff a + 8192 ≤ 2 ^ 30) {r : Nat} (hr : r < 64) :
    ocSpace (a + BitVec.ofNat 32 (128 * r)) = some .sh ∧ ocOff (a + BitVec.ofNat 32 (128 * r)) = ocOff a + 128 * r := by
  have ha : bits a.toNat 31 30 = 0 := by
    unfold ocSpace at hs
    split at hs
    · assumption
    · split at hs <;> simp at hs
  simp only [bits, ocOff] at ha hb
  have hlt : a.toNat < 2 ^ 32 := a.isLt
  have hadd : (a + BitVec.ofNat 32 (128 * r)).toNat = a.toNat + 128 * r := by
    rw [BitVec.toNat_add, BitVec.toNat_ofNat]; omega
  refine ⟨?_, ?_⟩
  · rw [ocSpace, if_pos]; simp only [bits, hadd]; omega
  · simp only [ocOff, bits, hadd]; omega

/-- Without unfenced writes, an operand in team memory is the bytes that stand there (R246). -/
theorem operandBytes_shared (s : State) (t : Team) {cmd : MxCmd} (hl : cmd.looseB = []) {a : Word} (hs : ocSpace a = some .sh)
    (n : Nat) : operandBytes s t cmd a n = readBytes t.shared (ocOff a) n := by
  simp [operandBytes, hl, onchipBytes, hs]

/-- The row of A that a `mx.run` streams in integers: its pass is exact and brings the products of the row and each column. -/
theorem rowPass_run_ints (s : State) (t : Team) {cmd : MxCmd} {p : Plane} (hf : p.fmt = 12) (hk : p.kind = 2) (aBuf : Tbl (BitVec 16))
    {i : Nat} {a d sc : Word} (hop : cmd.op = .run i a d sc) (hd : dFmt d = 12) (hdk : dKind d = 2) (hl : cmd.looseB = [])
    (hs : ocSpace a = some .sh) (hb : ocOff a + 8192 ≤ 2 ^ 30) {r j : Nat} (hr : r < 64) (hj : j < 64) :
    List.Forall₂ FVal.IsInt ((rowPass s t cmd p (planeCols p) aBuf r).1.prods.getD j [])
      ((upto 128).map fun k => sext (byteAt t.shared (ocOff a + 128 * r + k)).toNat 8 * planeInt p k j) := by
  obtain ⟨hs', ho⟩ := ocOff_add_row hs hb hr
  have ha := forall₂_scaledRow (dLblk d) ((readBytes t.shared (ocOff a + 128 * r) 128).map (·.toNat)) []
  have hc := forall₂_planeCols hf hk hj
  simpa [rowPass, hop, streamRow, hd, hdk, operandBytes_shared s t hl hs', ho, elemCodes_int8, List.getD, hj, length_planeCols,
    readBytes, List.zip_map', Function.comp_def] using forall₂_products ha hc

/-- The products that a constant row brings to a column of a plane whose elements are not BF16 (R251). -/
theorem constRow_prods {p : Plane} (hf : p.fmt ≠ 1) {r j : Nat} (hr : r < 64) (hj : j < 64) :
    (constRow p (planeCols p) 0 r 0).1.prods.getD j [] = [((planeCols p).getD j []).getD r fz]
    ∧ (constRow p (planeCols p) 1 r 0).1.prods.getD j [] = [((planeCols p).getD r []).getD j fz]
    ∧ (constRow p (planeCols p) 3 r 0).1.prods.getD j [] = (planeCols p).getD j [] := by
  have hc : j < (planeCols p).length := by rw [length_planeCols]; exact hj
  have hr' : j < ((planeCols p).getD r []).length := by
    have := sixtyFour_le_kOf p.fmt
    rw [length_planeCol p hr]; omega
  refine ⟨?_, ?_, ?_⟩
  · simp [constRow, hf, List.getD, hc]
  · simp only [constRow, hf, decide_false, Bool.and_false, Bool.false_eq_true, if_false, List.map_map, Function.comp_def]
    simp only [List.getD_eq_getElem?_getD, List.getElem?_map, List.getElem?_take, hj, if_true] at hr' ⊢
    simp [List.getElem?_eq_getElem hr']
  · simp [constRow, hf]

/-- What a command adds in integers to a column: its row's products are integers whose sum is `intColumn` (R74, R250, R251). -/
theorem rowPass_ints (s : State) (t : Team) {cmd : MxCmd} {p : Plane} (hf : p.fmt = 12) (hk : p.kind = 2) (aBuf : Tbl (BitVec 16))
    {r j : Nat} (hr : r < 64) (hj : j < 64) {n : Int} (hn : intColumn t cmd p.tile r j = some n) :
    (rowPass s t cmd p (planeCols p) aBuf r).1.bf16 = false ∧ (rowPass s t cmd p (planeCols p) aBuf r).1.ints = true
      ∧ ∃ ns, List.Forall₂ FVal.IsInt ((rowPass s t cmd p (planeCols p) aBuf r).1.prods.getD j []) ns ∧ ns.sum = n := by
  have hf1 : p.fmt ≠ 1 := by rw [hf]; decide
  obtain ⟨hid, htr, hsum⟩ := constRow_prods hf1 hr hj
  unfold intColumn at hn
  split at hn
  case h_1 i a d sc hop =>
    split at hn
    case isFalse => cases hn
    case isTrue hc =>
      obtain ⟨hd, hdk, hl, hs, hb⟩ := hc
      refine ⟨by simp [rowPass, hop, streamRow, hf], ?_, _, rowPass_run_ints s t hf hk aBuf hop hd hdk hl hs hb hr hj, ?_⟩
      · have hdk' : dKind d = 2 := hdk
        simp [rowPass, hop, streamRow, hf, hk, hdk']
      · exact Option.some.inj hn
  case h_2 i hop =>
    have hrow : rowPass s t cmd p (planeCols p) aBuf r = constRow p (planeCols p) 0 r 0 := by simp only [rowPass, hop]
    rw [hrow, hid]
    refine ⟨by simp [constRow, hf], by simp [constRow, hf, hk], [_], .cons (isInt_planeCols hf hk hj (by omega)) .nil, ?_⟩
    simpa [planeInt] using hn
  case h_3 i hop =>
    have hrow : rowPass s t cmd p (planeCols p) aBuf r = constRow p (planeCols p) 1 r 0 := by simp only [rowPass, hop]
    rw [hrow, htr]
    refine ⟨by simp [constRow, hf], by simp [constRow, hf, hk], [_], .cons (isInt_planeCols hf hk hr (by omega)) .nil, ?_⟩
    simpa [planeInt] using hn
  case h_4 i hop =>
    have hrow : rowPass s t cmd p (planeCols p) aBuf r = constRow p (planeCols p) 3 r 0 := by simp only [rowPass, hop]
    rw [hrow, hsum]
    exact ⟨by simp [constRow, hf], by simp [constRow, hf, hk], _, forall₂_planeCols hf hk hj, Option.some.inj hn⟩
  case h_5 => cases hn

/-- A word of a row after an integer pass is its sum with what the pass adds, modulo 2^32 (R74). -/
theorem word_passWork_ints (s : State) (t : Team) {cmd : MxCmd} {p : Plane} (hf : p.fmt = 12) (hk : p.kind = 2) (aBuf : Tbl (BitVec 16))
    {r j : Nat} (hr : r < 64) (hj : j < 64) {n : Int} (hn : intColumn t cmd p.tile r j = some n) {ws : List Word}
    (hws : ws.length = 64) (b : BitVec 16) :
    (passWork s t cmd p aBuf r ws b).1.getD j 0 = ws.getD j 0 + BitVec.ofInt 32 n := by
  obtain ⟨hb, hi, ns, hns, rfl⟩ := rowPass_ints s t hf hk aBuf hr hj hn
  rw [passWork, getD_passRow _ _ _ (by rw [length_rowPass_prods s t cmd p aBuf hr]; exact hj) (by omega)]
  exact word_passCol_ints hb hi hns _

/-! ### The commands that pass -/

/-- Whether a pass reads its rows' words as integers (R74). -/
def passInts (op : MxOp) (e : Engine) : Bool :=
  match op with
  | .run _ _ d _ | .runV _ _ d _ => dFmt d == 12 && dKind d == 2 && planeNone e
  | _ => planeNone e && (e.active.map fun p => p.fmt == 12).getD false

/-- The team counter of a pass (R312). -/
def passCounter : MxOp → Nat
  | .run .. | .runV .. => 14
  | _ => 15

/-- A pass's command changes its engine by the pass, notes how open jobs read its rows, and counts for its team. -/
theorem doCmd_pass (s : State) (k : Nat) (t : Team) {cmd : MxCmd} {i : Nat} (hop : passTile cmd.op = some i) :
    doCmd s k t cmd
      = modTeam (modEngine s k fun e => markInts (passInts cmd.op e) i cmd.rows (doPass s t cmd e i)) cmd.tid fun t =>
          charge cmd.tag 2 1 (count (passCounter cmd.op) 1 (count 18 64 t)) := by
  obtain ⟨id, op, tid, slots, base, rows, tk, tag, loose, looseB⟩ := cmd
  cases op <;> cases hop <;> rfl

theorem charge_ended (tag : Word) (ix n : Nat) (t : Team) : (charge tag ix n t).ended = t.ended := by
  unfold charge; split <;> rfl

end Sys2Proof.Machine
end

section
/-! A drain: the converted words of each participating row, in the registers of the thread that owns it (R252). -/

namespace Sys2Proof.Machine
open Sys2Proof.Claims

/-! ### What a register holds of a row -/

/-- A drained register of the statement is the model's, over its elements. -/
theorem drained_eq (f : Fmt) (sat : Bool) (rm : Rm) (w : Nat → Word) :
    drained f sat rm w = drainReg f sat rm ((upto (drainElems f)).map w) := by
  have hword : ∀ x : Word, BitVec.ofNat 32 (x.toNat + 0 * 2 ^ (32 / 1)) = x := fun x => by simp
  rcases f with (_ | _ | _ | _ | _) | (_ | _ | _ | _ | _ | _)
  case flt.f32 =>
    change (if isNan32 (w 0) then 0x7FC00000 else w 0)
      = BitVec.ofNat 32 ((if isNan32 (w 0) then nan32.toNat else (w 0).toNat) + 0 * 2 ^ (32 / 1))
    split
    · rfl
    · exact (hword _).symm
  case int.i32 => exact (hword (w 0)).symm
  all_goals rfl

/-- The elements of a register, among those of its row that are drained. -/
theorem drain_elements (e : Engine) (i r : Nat) {c0 n el m : Nat} (hm : m < n) (hc : c0 + n * el ≤ 64) :
    ((((tileRow e i r).drop c0).take (n * el)).drop (m * el)).take el
      = (upto el).map fun h => Tbl.get 0 e.tiles (i * 4096 + r * 64 + c0 + m * el + h) := by
  have hle : m * el + el ≤ n * el := by rw [← Nat.succ_mul]; exact Nat.mul_le_mul_right _ hm
  refine List.ext_getElem (by simp [tileRow, upto]; omega) fun h hh hh' => ?_
  simp only [tileRow, upto, List.getElem_take, List.getElem_drop, List.getElem_map, List.getElem_range]
  exact congrArg (Tbl.get 0 e.tiles) (by omega)

/-! ### One row -/

/-- One register of a drain, numbered from `vx` in its thread: unspecified where a lane word has spoilt it (R247). -/
def drainPut (s : State) (cmd : MxCmd) (slot pos vx : Nat) (v : Nat → Word) (sh : Sheaf) (m : Nat) : Sheaf :=
  writeKey sh (.v pos (vx + m)) (if sh.spoilt.any fun h => h.cmd == cmd.id && h.key == .v pos (vx + m) then
    (freeAt s (2 ^ 30 + slot * 2 ^ 14 + keyCode (.v pos (vx + m)))).setWidth 32 else v m)

/-- A drain's registers of one thread. -/
def drainInto (s : State) (cmd : MxCmd) (slot pos vx n : Nat) (v : Nat → Word) (sh : Sheaf) : Sheaf :=
  (upto n).foldl (drainPut s cmd slot pos vx v) sh

/-- The words of a row that a drain converts. -/
def drainWords (e : Engine) (i row c0 n : Nat) : List Word := ((tileRow e i row).drop c0).take n

/-- A drain of one row: its bound, and the registers of its thread. -/
def drainRow (cmd : MxCmd) (k i : Nat) (f : Fmt) (sat : Bool) (rm : Rm) (vx vy c0 : Nat) (s : State) (row : Nat) : State :=
  let ws := drainWords (coreOf s k).engine i row c0 ((vy - vx + 1) * drainElems f)
  modSheaf (modEngine s k fun e => setBound e i row (drainBound f sat rm ws (boundRow (coreOf s k).engine i row)))
    cmd.tid (rowOwner cmd row).1 (drainInto s cmd (rowOwner cmd row).1 (rowOwner cmd row).2 vx (vy - vx + 1) fun m =>
      drainReg f sat rm ((ws.drop (m * drainElems f)).take (drainElems f)))

theorem doDrain_eq (s : State) (cmd : MxCmd) (k i : Nat) (f : Fmt) (sat : Bool) (rm : Rm) (vx vy c0 : Nat) :
    doDrain s cmd k i f sat rm vx vy c0 = (rowList cmd.rows).foldl (drainRow cmd k i f sat rm vx vy c0) s := rfl

/-- What a drain of other rows keeps of a thread. -/
structure DrainKeeps (pos : Nat) (a b : Sheaf) : Prop where
  spoilt : b.spoilt = a.spoilt
  thread : (Tbl.find b.threads pos).isSome = (Tbl.find a.threads pos).isSome
  regs   : ∀ x, readKey b (.v pos x) = readKey a (.v pos x)

theorem DrainKeeps.refl (pos : Nat) (a : Sheaf) : DrainKeeps pos a a := ⟨rfl, rfl, fun _ => rfl⟩

theorem DrainKeeps.trans {pos : Nat} {a b d : Sheaf} (h : DrainKeeps pos a b) (h' : DrainKeeps pos b d) : DrainKeeps pos a d :=
  ⟨h'.spoilt.trans h.spoilt, h'.thread.trans h.thread, fun x => (h'.regs x).trans (h.regs x)⟩

theorem isSome_thread_writeKey (sh : Sheaf) (k : RegKey) (w : Word) (p : Nat) :
    (Tbl.find (writeKey sh k w).threads p).isSome = (Tbl.find sh.threads p).isSome := by
  simpa using congrArg Option.isSome (find_threads_writeKey sh k w p)

section
variable (s : State) (cmd : MxCmd) (slot pos vx n : Nat) (v : Nat → Word)

/-- Registers of another thread are kept. -/
theorem drainKeeps_drainInto {pos' : Nat} (h : pos ≠ pos') (sh : Sheaf) : DrainKeeps pos' sh (drainInto s cmd slot pos vx n v sh) :=
  List.foldlRecOn (motive := DrainKeeps pos' sh) _ _ (.refl _ sh) fun _ hb _ _ => hb.trans
    ⟨rfl, isSome_thread_writeKey .., fun _ => readKey_writeKey_other _ _ _ _ fun e => h (RegKey.v.inj e).1.symm⟩

theorem drainInto_succ (sh : Sheaf) :
    drainInto s cmd slot pos vx (n + 1) v sh = drainPut s cmd slot pos vx v (drainInto s cmd slot pos vx n v sh) n := by
  rw [drainInto, upto, List.range_succ, List.foldl_append]; rfl

theorem drainInto_keeps (sh : Sheaf) : (drainInto s cmd slot pos vx n v sh).spoilt = sh.spoilt
    ∧ (Tbl.find (drainInto s cmd slot pos vx n v sh).threads pos).isSome = (Tbl.find sh.threads pos).isSome :=
  List.foldlRecOn (motive := fun b : Sheaf => b.spoilt = sh.spoilt ∧ (Tbl.find b.threads pos).isSome = (Tbl.find sh.threads pos).isSome)
    _ _ ⟨rfl, rfl⟩ fun _ h _ _ => ⟨h.1, (isSome_thread_writeKey ..).trans h.2⟩

/-- Each register of a thread that is there holds its value, unless a lane word has spoilt it. -/
theorem readKey_drainInto {sh : Sheaf} (hs : ∀ h ∈ sh.spoilt, h.cmd ≠ cmd.id) (ht : (Tbl.find sh.threads pos).isSome = true)
    {m : Nat} (hm : m < n) : readKey (drainInto s cmd slot pos vx n v sh) (.v pos (vx + m)) = v m := by
  have hfree : ∀ key, (sh.spoilt.any fun h => h.cmd == cmd.id && h.key == key) = false := fun key => by
    simp only [List.any_eq_false, Bool.and_eq_true, beq_iff_eq, not_and]
    exact fun h hh e => absurd e (hs h hh)
  induction n with
  | zero => omega
  | succ n ih =>
    obtain ⟨hsp, hth⟩ := drainInto_keeps s cmd slot pos vx n v sh
    rw [drainInto_succ, drainPut, hsp, hfree]
    by_cases h : m = n
    · subst h
      exact readKey_writeKey_self _ _ _ (hth.trans ht)
    · rw [readKey_writeKey_other _ _ _ _ fun e => h (by have := (RegKey.v.inj e).2; omega)]
      exact ih (by omega)
end

/-! ### Row after row -/

theorem Running.drainRows {cmd : MxCmd} {k i : Nat} {f : Fmt} {sat : Bool} {rm : Rm} {vx vy c0 : Nat} {s : State}
    (h : Running s cmd.tid) (l : List Nat) : Running (l.foldl (drainRow cmd k i f sat rm vx vy c0) s) cmd.tid :=
  List.foldlRecOn (motive := fun s' => Running s' cmd.tid) l _ h fun _ h _ _ => (h.modEngine k _).modSheaf _ _ _

section
variable (cmd : MxCmd) (k i : Nat) (f : Fmt) (sat : Bool) (rm : Rm) (vx vy c0 : Nat)

theorem sheafAt_drainRow (s : State) (row sl : Nat) :
    sheafAt (drainRow cmd k i f sat rm vx vy c0 s row) cmd.tid sl
      = if (rowOwner cmd row).1 = sl then (sheafAt s cmd.tid sl).map
          (drainInto s cmd (rowOwner cmd row).1 (rowOwner cmd row).2 vx (vy - vx + 1) fun m => drainReg f sat rm
            (((drainWords (coreOf s k).engine i row c0 ((vy - vx + 1) * drainElems f)).drop (m * drainElems f)).take (drainElems f)))
        else sheafAt s cmd.tid sl := by
  unfold drainRow
  dsimp only
  exact sheafAt_modSheaf ..

/-- A drain leaves the planes and the words. -/
theorem engine_drainRows (l : List Nat) (s : State) :
    let e' := (coreOf (l.foldl (drainRow cmd k i f sat rm vx vy c0) s) k).engine
    e'.tiles = (coreOf s k).engine.tiles ∧ e'.active = (coreOf s k).engine.active ∧ e'.shadow = (coreOf s k).engine.shadow :=
  List.foldlRecOn (motive := fun s' : State => (coreOf s' k).engine.tiles = (coreOf s k).engine.tiles
      ∧ (coreOf s' k).engine.active = (coreOf s k).engine.active ∧ (coreOf s' k).engine.shadow = (coreOf s k).engine.shadow)
    l _ ⟨rfl, rfl, rfl⟩ fun s' h row _ => by
    unfold drainRow
    dsimp only
    rw [coreOf_modSheaf, engine_modEngine_self]
    exact h

/-- Rows of other threads leave a thread's registers. -/
theorem drainRows_other {sl pos : Nat} (l : List Nat) (hl : ∀ r ∈ l, rowOwner cmd r ≠ (sl, pos)) (s : State) {sh : Sheaf}
    (hsh : sheafAt s cmd.tid sl = some sh) : ∃ sh', sheafAt (l.foldl (drainRow cmd k i f sat rm vx vy c0) s) cmd.tid sl = some sh'
      ∧ DrainKeeps pos sh sh' :=
  List.foldlRecOn (motive := fun s' : State => ∃ sh', sheafAt s' cmd.tid sl = some sh' ∧ DrainKeeps pos sh sh') l _
    ⟨sh, hsh, .refl _ sh⟩ fun s' h r hr => by
    obtain ⟨b, hb, hk⟩ := h
    rw [sheafAt_drainRow, hb]
    split
    · next hs => exact ⟨_, rfl, hk.trans (drainKeeps_drainInto _ _ _ _ _ _ _ (fun hp => hl r hr (Prod.ext hs hp)) b)⟩
    · exact ⟨b, rfl, hk⟩

/-- A thread's register after a drain of its row, and of rows of other threads. -/
theorem readKey_drainRows (s : State) {l : List Nat} (hl : l.Nodup) {r sl pos : Nat} (hr : r ∈ l) (how : rowOwner cmd r = (sl, pos))
    (hne : ∀ r' ∈ l, r' ≠ r → rowOwner cmd r' ≠ (sl, pos)) {sh : Sheaf} (hsh : sheafAt s cmd.tid sl = some sh)
    (hs : ∀ h ∈ sh.spoilt, h.cmd ≠ cmd.id) (ht : (Tbl.find sh.threads pos).isSome = true) {m : Nat} (hm : m < vy - vx + 1)
    (hc : c0 + (vy - vx + 1) * drainElems f ≤ 64) :
    ∃ sh', sheafAt (l.foldl (drainRow cmd k i f sat rm vx vy c0) s) cmd.tid sl = some sh'
      ∧ readKey sh' (.v pos (vx + m)) = drained f sat rm fun h =>
          Tbl.get 0 (coreOf s k).engine.tiles (i * 4096 + r * 64 + c0 + m * drainElems f + h) := by
  obtain ⟨l₁, l₂, rfl⟩ := List.append_of_mem hr
  simp only [List.nodup_append, List.nodup_cons] at hl
  obtain ⟨-, ⟨hr₂, -⟩, hr₁⟩ := hl
  have h₁ : ∀ r' ∈ l₁, rowOwner cmd r' ≠ (sl, pos) := fun r' h => hne r' (by simp [h]) (hr₁ r' h r (by simp))
  have h₂ : ∀ r' ∈ l₂, rowOwner cmd r' ≠ (sl, pos) := fun r' h => hne r' (by simp [h]) fun e => hr₂ (e ▸ h)
  rw [List.foldl_append, List.foldl_cons]
  obtain ⟨a, ha, hka⟩ := drainRows_other cmd k i f sat rm vx vy c0 l₁ h₁ s hsh
  obtain ⟨htiles, -, -⟩ := engine_drainRows cmd k i f sat rm vx vy c0 l₁ s
  generalize l₁.foldl (drainRow cmd k i f sat rm vx vy c0) s = s₁ at ha htiles ⊢
  have hb := sheafAt_drainRow cmd k i f sat rm vx vy c0 s₁ r sl
  rw [how, if_pos rfl, ha, Option.map_some] at hb
  obtain ⟨d, hd, hkd⟩ := drainRows_other cmd k i f sat rm vx vy c0 l₂ h₂ _ hb
  refine ⟨d, hd, ?_⟩
  rw [hkd.regs, readKey_drainInto _ _ _ _ _ _ _ (by rw [hka.spoilt]; exact hs) (hka.thread.trans ht) hm, drainWords,
    drain_elements _ _ _ hm hc, drained_eq, htiles]
end

/-- Of the rows that a command's sheaves hold, each has an owner of its own (R241). -/
theorem rowOwner_inj {cmd : MxCmd} (hb : cmd.base % 16 = 0) (hn : cmd.slots.Nodup) {r r' : Nat}
    (hr : cmd.base ≤ r ∧ (r - cmd.base) / 16 < cmd.slots.length) (hr' : cmd.base ≤ r' ∧ (r' - cmd.base) / 16 < cmd.slots.length)
    (h : rowOwner cmd r' = rowOwner cmd r) : r' = r := by
  simp only [rowOwner, Prod.mk.injEq] at h
  obtain ⟨hs, hp⟩ := h
  rw [List.getD_eq_getElem _ _ hr.2, List.getD_eq_getElem _ _ hr'.2] at hs
  have := (hn.getElem_inj_iff).mp hs
  omega

theorem doCmd_drain (s : State) (k : Nat) (t : Team) {cmd : MxCmd} {i : Nat} {f : Fmt} {sat : Bool} {rm : Rm} {vx vy c0 : Nat}
    (hop : cmd.op = .drain i f sat rm vx vy c0) :
    doCmd s k t cmd = modTeam ((rowList cmd.rows).foldl (drainRow cmd k i f sat rm vx vy c0) s) cmd.tid (count 17 1) := by
  rw [← doDrain_eq]
  simp only [doCmd, hop]

end Sys2Proof.Machine
end

section
/-! The re-run of a tripped job: it works on rows held wide, writes the words of its own tile, and frees its slot (R272, R273). -/

namespace Sys2Proof.Machine
open Sys2Proof.Claims

/-! ### Rows held wide -/

/-- Rows of a tile, none of more than 64 words. -/
def RowsFit (rows : Tbl WideRow) : Prop := ∀ x ∈ rows, x.1 < 64 ∧ x.2.hl.length ≤ 64

theorem RowsFit.put {rows : Tbl WideRow} (h : RowsFit rows) {r : Nat} (hr : r < 64) {w : WideRow} (hw : w.hl.length ≤ 64) :
    RowsFit (Tbl.put rows r w) := fun x hx => by
  rcases Tbl.mem_put hx with rfl | hx
  · exact ⟨hr, hw⟩
  · exact h x hx

theorem length_widen (ints : Bool) (ws : List Word) : (widen ints ws).hl.length = ws.length := by simp [widen]
theorem length_wideWords (r : WideRow) : (wideWords r).length = r.hl.length := by simp [wideWords]

theorem length_passRowWide (x : RowIn) (b : RowBound) (hl : List (FVal × FVal)) (bound : BitVec 16) :
    (passRowWide x b hl bound).1.length ≤ hl.length := by
  unfold passRowWide
  split <;> simp

/-! ### The logged commands -/

/-- A re-run so far: the engine differs in its planes alone, and the rows held wide fit the tile. -/
structure RedoFits (e : Engine) (st : Engine × Tbl WideRow × Tbl (BitVec 16)) : Prop where
  engine : { st.1 with active := e.active, shadow := e.shadow } = e
  rows   : RowsFit st.2.1

/-- Clearing rows keeps them within the tile. -/
theorem rowsFit_clear (p : Nat → Bool) {l : List Nat} (hl : ∀ r ∈ l, r < 64) (rows : Tbl WideRow) (bounds : Tbl (BitVec 16))
    (h : RowsFit rows) : RowsFit (l.foldl (fun (st : Tbl WideRow × Tbl (BitVec 16)) row => if p row then
      (Tbl.put st.1 row (widen false (List.replicate 64 0)), Tbl.put st.2 row 0) else st) (rows, bounds)).1 :=
  List.foldlRecOn (motive := fun st : Tbl WideRow × Tbl (BitVec 16) => RowsFit st.1) l _ h fun st hst row hrow => by
    split
    · exact hst.put (hl row hrow) (by rw [length_widen, List.length_replicate])
    · exact hst

/-- The row that a widened pass starts from: the one held, read anew where the pass is of the other kind (R74, R273). -/
def wideStart (rows : Tbl WideRow) (row : Nat) (x : RowIn) : WideRow :=
  let r := (Tbl.find rows row).getD (widen x.ints (List.replicate 64 0))
  if r.ints = x.ints then r else widen x.ints (wideWords r)

theorem RowsFit.start {rows : Tbl WideRow} (h : RowsFit rows) (row : Nat) (x : RowIn) : (wideStart rows row x).hl.length ≤ 64 := by
  have hold : ((Tbl.find rows row).getD (widen x.ints (List.replicate 64 0))).hl.length ≤ 64 := by
    cases hf : Tbl.find rows row with
    | none => rw [Option.getD_none, length_widen, List.length_replicate]
    | some w => exact (h _ (Tbl.mem_of_find hf)).2
  unfold wideStart
  dsimp only
  split
  · exact hold
  · rw [length_widen, length_wideWords]; exact hold

/-- Widened passes keep the rows within the tile. -/
theorem rowsFit_passes (g : Nat → RowIn × RowBound) {l : List Nat} (hl : ∀ r ∈ l, r < 64) (rows : Tbl WideRow)
    (bounds : Tbl (BitVec 16)) (h : RowsFit rows) :
    RowsFit (l.foldl (fun (st : Tbl WideRow × Tbl (BitVec 16)) row =>
      let out := passRowWide (g row).1 (g row).2 (wideStart st.1 row (g row).1).hl (Tbl.get 0 st.2 row)
      (Tbl.put st.1 row ⟨(g row).1.ints, out.1⟩, Tbl.put st.2 row out.2)) (rows, bounds)).1 :=
  List.foldlRecOn (motive := fun st : Tbl WideRow × Tbl (BitVec 16) => RowsFit st.1) l _ h fun _ hst row hrow =>
    RowsFit.put hst (hl row hrow) ((length_passRowWide ..).trans (hst.start row (g row).1))

theorem redoFits_redoOne (s : State) (t : Team) {e : Engine} {st : Engine × Tbl WideRow × Tbl (BitVec 16)} (h : RedoFits e st)
    (l : LogEntry) : RedoFits e (redoOne s t st l) := by
  obtain ⟨e1, rows, bounds⟩ := st
  obtain ⟨⟨id, op, tid, slots, base, mask, tk, tag, loose, looseB⟩, aBuf⟩ := l
  cases op
  case ldw => exact ⟨h.engine, h.rows⟩
  case flip => exact ⟨h.engine, h.rows⟩
  case zero => exact ⟨h.engine, rowsFit_clear _ (fun r hr => ((mem_rowList _ r).mp hr).1) rows bounds h.rows⟩
  all_goals
    unfold redoOne
    cases hp : e1.active with
    | none => simpa only [hp] using h
    | some p =>
      simp only [hp]
      exact ⟨h.engine, rowsFit_passes (rowPass s t _ p (planeCols p) aBuf) (fun r hr => ((mem_rowList mask r).mp hr).1) rows bounds h.rows⟩

/-! ### The whole re-run -/

/-- Only the words and bounds of one tile, and the planes, differ. -/
structure TileOnly (i : Nat) (e e' : Engine) : Prop where
  tiles  : ∀ k, k / 4096 ≠ i → Tbl.get 0 e'.tiles k = Tbl.get 0 e.tiles k
  queue  : e'.queue = e.queue
  holder : e'.holder = e.holder
  job0   : e'.job0 = e.job0
  job1   : e'.job1 = e.job1

theorem TileOnly.setRow {i : Nat} {e e' : Engine} (h : TileOnly i e e') {r : Nat} (hr : r < 64) {x : List Word × BitVec 16}
    (hx : x.1.length ≤ 64) : TileOnly i e (setRow e' i r x) where
  tiles k hk := (get_setRow_other e' i r hx (by omega)).trans (h.tiles k hk)
  queue := h.queue
  holder := h.holder
  job0 := h.job0
  job1 := h.job1

theorem tileOnly_reRun (s : State) (t : Team) (e : Engine) (n : Nat) : TileOnly (jobOf e n).tile e (reRun s t e n) := by
  unfold reRun
  extract_lets j rows bounds
  have hstart : RedoFits e ({ e with active := j.active, shadow := j.shadow }, rows, bounds) := by
    refine ⟨rfl, fun x hx => ?_⟩
    obtain ⟨r, hr, rfl⟩ := List.mem_map.mp hx
    exact ⟨((mem_rowList _ _).mp hr).1, by simp [length_widen, upto]⟩
  obtain ⟨he, hrows⟩ := List.foldlRecOn (motive := RedoFits e) (j.log.map (LogEntry.afresh s)) (redoOne s t) hstart
    fun _ h l _ => redoFits_redoOne s t h l
  generalize (j.log.map (LogEntry.afresh s)).foldl (redoOne s t) _ = st at he hrows
  obtain ⟨e1, ws, bs⟩ := st
  refine List.foldlRecOn (motive := TileOnly j.tile e) ws _ ?_ fun e' h rw hrw => ?_
  · rw [← he]; exact ⟨fun _ _ => rfl, rfl, rfl, rfl, rfl⟩
  · obtain ⟨hr, hl⟩ := hrows rw hrw
    exact h.setRow (x := (wideWords rw.2, _)) hr (by rw [length_wideWords]; exact hl)

/-! ### The event -/

theorem coreOf_setFT (s : State) (tid : Nat) (slots : List Nat) (tile k : Nat) : coreOf (setFT s tid slots tile) k = coreOf s k :=
  List.foldlRecOn (motive := fun s' => coreOf s' k = coreOf s k) slots _ rfl fun _ h _ _ => h

theorem setFT_mem (s : State) (tid : Nat) (slots : List Nat) (tile : Nat) : (setFT s tid slots tile).mem = s.mem :=
  List.foldlRecOn (motive := fun s' : State => s'.mem = s.mem) slots _ rfl fun _ h _ _ => h

theorem jobOf_setJob_self (e : Engine) (n : Nat) (j : Job) : jobOf (setJob e n j) n = j := by
  unfold jobOf setJob; split <;> simp_all

/-- A re-run that is due and reads no error is performed whole: the slot is free, and the job's tile is all that changes. -/
theorem execJobReRun_due {s : State} {die core slot tid : Nat} {t : Team} (hslot : slot < 2)
    (hh : (coreOf s (coreKey die core)).engine.holder = some tid) (ht : Tbl.find s.teams tid = some t)
    (hdue : reRunDue (coreOf s (coreKey die core)).engine slot = true)
    (hr : readsError s t (jobReads (jobOf (coreOf s (coreKey die core)).engine slot)) = none) :
    ∃ s', execJobReRun die core slot s = .next s' ∧ s'.mem = s.mem
      ∧ (coreOf s' (coreKey die core)).engine = setJob (reRun s t (coreOf s (coreKey die core)).engine slot) slot Job.zero := by
  have hn : slot % 2 = slot := Nat.mod_eq_of_lt hslot
  unfold execJobReRun
  simp only [hn, hh, ht, hdue, hr, Option.bind_some, Option.map_some, Bool.not_true, Bool.false_eq_true, if_false]
  refine ⟨_, rfl, ?_, ?_⟩
  · split
    · rfl
    · exact setFT_mem ..
  · split
    · simp only [coreOf_modTeam, coreOf_modCore, if_true]
    · simp only [coreOf_setFT, coreOf_modTeam, coreOf_modCore, if_true]

/-- The engine after such a re-run. -/
theorem execJobReRun_frame {s : State} {die core slot tid : Nat} {t : Team} (hslot : slot < 2)
    (hh : (coreOf s (coreKey die core)).engine.holder = some tid) (ht : Tbl.find s.teams tid = some t)
    (hdue : reRunDue (coreOf s (coreKey die core)).engine slot = true)
    (hr : readsError s t (jobReads (jobOf (coreOf s (coreKey die core)).engine slot)) = none) :
    ∃ s', execJobReRun die core slot s = .next s' ∧ s'.mem = s.mem
      ∧ jobOf (coreOf s' (coreKey die core)).engine slot = Job.zero
      ∧ jobOf (coreOf s' (coreKey die core)).engine (1 - slot) = jobOf (coreOf s (coreKey die core)).engine (1 - slot)
      ∧ (coreOf s' (coreKey die core)).engine.queue = (coreOf s (coreKey die core)).engine.queue
      ∧ (coreOf s' (coreKey die core)).engine.holder = (coreOf s (coreKey die core)).engine.holder
      ∧ ∀ k, k / 4096 ≠ (jobOf (coreOf s (coreKey die core)).engine slot).tile →
          Tbl.get 0 (coreOf s' (coreKey die core)).engine.tiles k = Tbl.get 0 (coreOf s (coreKey die core)).engine.tiles k := by
  obtain ⟨s', hs', hmem, he⟩ := execJobReRun_due hslot hh ht hdue hr
  have h := tileOnly_reRun s t (coreOf s (coreKey die core)).engine slot
  have hset := sameButJobs_setJob (reRun s t (coreOf s (coreKey die core)).engine slot) slot Job.zero
  refine ⟨s', hs', hmem, ?_⟩
  rw [he]
  refine ⟨jobOf_setJob_self .., ?_, hset.queue.trans h.queue, hset.holder.trans h.holder,
    fun k hk => by rw [hset.tiles]; exact h.tiles k hk⟩
  interval_cases slot
  · exact h.job1
  · exact h.job0

end Sys2Proof.Machine
end

section
/-! The engine's events, command by command, and O43. -/

namespace Sys2Proof.Machine
open Sys2Proof.Claims

/-! ### What each operation changes -/

/-- `mx.zero` as work on its rows (R253). -/
def zeroWork : RowWork := fun _ _ _ _ => (List.replicate 64 0, 0)

section
variable (s : State) (k : Nat) (t : Team) {cmd : MxCmd}

theorem doCmd_zero {i : Nat} (hop : cmd.op = .zero i) :
    doCmd s k t cmd = modEngine s k fun e => (rowList cmd.rows).foldl (workRow i zeroWork) e := by
  simp only [doCmd, hop]; rfl

theorem doCmd_flip (hop : cmd.op = .flip) :
    doCmd s k t cmd = modEngine s k fun e => { e with active := e.shadow, shadow := e.active } := by
  simp only [doCmd, hop]; rfl

theorem doCmd_ldw {a d sc : Word} (hop : cmd.op = .ldw a d sc) :
    doCmd s k t cmd = modTeam (modEngine s k fun e => { e with shadow := some (loadPlane s t e cmd a d sc) }) cmd.tid fun t =>
      count 16 1 (count 18 32 t) := by
  simp only [doCmd, hop]; rfl
end

theorem cmdReads_eq (e : Engine) {cmd : MxCmd} (h : ∀ i n, cmd.op ≠ .redo i n) : cmdReads e cmd = opReads cmd.op := by
  unfold cmdReads
  split
  · next i n hop => exact absurd hop (h i n)
  · rfl

/-! ### The head of the queue, by operation -/

section
variable {s : State} {k : Nat} {cmd : MxCmd} {rest : List MxCmd} {t : Team} (h : HeadDue s k cmd rest t)
include h

/-- A command whose work is rows of a tile leaves them so, and the engine goes on. -/
theorem HeadDue.rowsWorked (hrun : Running (doCmd (headNoted s k cmd) k t cmd) cmd.tid) {i : Nat} {l : List Nat} {g : RowWork}
    (hw : RowsWorked i l g (noted cmd (coreOf s k).engine) (coreOf (doCmd (headNoted s k cmd) k t cmd) k).engine) :
    RowsWorked i l g (coreOf s k).engine (coreOf (performHead s k) k).engine
      ∧ (coreOf (performHead s k) k).engine.queue = rest := by
  have he := h.engine_performHead hrun
  refine ⟨?_, he.queue⟩
  have hq : RowsWorked i l g (coreOf s k).engine { (coreOf (doCmd (headNoted s k cmd) k t cmd) k).engine with queue := rest } :=
    let hb := hw.before (sameButJobs_noted cmd _)
    ⟨hb.rows, hb.tiles, hb.bounds, hb.active, hb.shadow, hb.aBuf⟩
  exact hq.after he

/-- `mx.zero` (R253). -/
theorem HeadDue.zero {i : Nat} (hop : cmd.op = .zero i) :
    RowsWorked i (rowList cmd.rows) zeroWork (coreOf s k).engine (coreOf (performHead s k) k).engine
      ∧ (coreOf (performHead s k) k).engine.queue = rest := by
  refine h.rowsWorked (by rw [doCmd_zero _ _ _ hop]; exact h.running.modEngine _ _) ?_
  rw [doCmd_zero _ _ _ hop, engine_modEngine_self, headNoted, engine_modEngine_self]
  exact rowsWorked_foldl i zeroWork _ (nodup_rowList _) (fun _ _ _ _ _ _ => List.length_replicate) _

/-- The token of `mx.zero` completes in each sheaf. -/
theorem HeadDue.zero_tokenDone {i : Nat} (hop : cmd.op = .zero i) {tk sl : Nat} (htk : cmd.tk = some tk) (hsl : sl ∈ cmd.slots)
    {sh : Sheaf} (hsh : sheafAt s cmd.tid sl = some sh) (hr : sh.retired = false) : tokenDone (performHead s k) cmd.tid sl tk 0 :=
  h.tokenDone_performHead (by rw [doCmd_zero _ _ _ hop]; exact h.running.modEngine _ _) htk hsl
    (by rw [doCmd_zero _ _ _ hop]; exact hsh) hr

/-- `mx.flip`: each plane takes the other's place, and keeps its contents (R249). -/
theorem HeadDue.flip (hop : cmd.op = .flip) :
    Engine.SameButJobs { (coreOf s k).engine with
        active := (coreOf s k).engine.shadow, shadow := (coreOf s k).engine.active, queue := rest }
      (coreOf (performHead s k) k).engine := by
  have he := h.engine_performHead (by rw [doCmd_flip _ _ _ hop]; exact h.running.modEngine _ _)
  rw [doCmd_flip _ _ _ hop, engine_modEngine_self, headNoted, engine_modEngine_self] at he
  have hn := sameButJobs_noted cmd (coreOf s k).engine
  refine .trans ?_ he
  exact ⟨hn.holder, hn.shadow, hn.active, hn.tiles, hn.bounds, hn.aBuf, hn.wBuf, rfl, hn.redone⟩

/-- `mx.ldw`: the shadow plane is the tile as it stands (R248). -/
theorem HeadDue.ldw {a d sc : Word} (hop : cmd.op = .ldw a d sc) : ∃ e, Engine.SameButJobs
    { (coreOf s k).engine with shadow := some (loadPlane (headNoted s k cmd) t e cmd a d sc), queue := rest }
      (coreOf (performHead s k) k).engine := by
  have he := h.engine_performHead (by rw [doCmd_ldw _ _ _ hop]; exact (h.running.modEngine _ _).modTeam _ _ fun _ => rfl)
  rw [doCmd_ldw _ _ _ hop, coreOf_modTeam, engine_modEngine_self, headNoted, engine_modEngine_self] at he
  have hn := sameButJobs_noted cmd (coreOf s k).engine
  refine ⟨noted cmd (coreOf s k).engine, .trans ?_ he⟩
  exact ⟨hn.holder, hn.active, rfl, hn.tiles, hn.bounds, hn.aBuf, hn.wBuf, rfl, hn.redone⟩

/-- A pass (R250, R251, R262). -/
theorem HeadDue.pass {i : Nat} {p : Plane} (hop : passTile cmd.op = some i) (hp : (coreOf s k).engine.active = some p) :
    RowsWorked i (rowList cmd.rows) (passWork s t cmd p) (coreOf s k).engine (coreOf (performHead s k) k).engine
      ∧ (coreOf (performHead s k) k).engine.queue = rest := by
  have hwork : passWork (headNoted s k cmd) t cmd p = passWork s t cmd p := by
    funext aBuf row ws b
    rw [passWork, headNoted, rowPass_modEngine]
    rfl
  refine h.rowsWorked ?_ ?_
  · rw [doCmd_pass _ _ _ hop]
    exact (h.running.modEngine _ _).modTeam _ _ fun t => charge_ended ..
  · rw [doCmd_pass _ _ _ hop, coreOf_modTeam, engine_modEngine_self, ← hwork]
    have he : (coreOf (headNoted s k cmd) k).engine = noted cmd (coreOf s k).engine := engine_modEngine_self ..
    rw [he]
    exact (rowsWorked_doPass _ t cmd ((sameButJobs_noted cmd _).active.trans hp) i).after (sameButJobs_markInts ..)

section
variable {i : Nat} {f : Fmt} {sat : Bool} {rm : Rm} {vx vy c0 : Nat} (hop : cmd.op = .drain i f sat rm vx vy c0)
include hop

theorem HeadDue.drain_running : Running (doCmd (headNoted s k cmd) k t cmd) cmd.tid := by
  rw [doCmd_drain _ _ _ hop]
  exact (h.running.drainRows _).modTeam _ _ fun _ => rfl

/-- A drain leaves planes and words, and the engine goes on (R252). -/
theorem HeadDue.drain : (coreOf (performHead s k) k).engine.queue = rest
    ∧ (coreOf (performHead s k) k).engine.active = (coreOf s k).engine.active
    ∧ (coreOf (performHead s k) k).engine.shadow = (coreOf s k).engine.shadow
    ∧ (coreOf (performHead s k) k).engine.tiles = (coreOf s k).engine.tiles := by
  have he := h.engine_performHead (h.drain_running hop)
  rw [doCmd_drain _ _ _ hop, coreOf_modTeam] at he
  obtain ⟨ht, ha, hsh⟩ := engine_drainRows cmd k i f sat rm vx vy c0 (rowList cmd.rows) (headNoted s k cmd)
  have hn := sameButJobs_noted cmd (coreOf s k).engine
  have hh : (coreOf (headNoted s k cmd) k).engine = noted cmd (coreOf s k).engine := engine_modEngine_self ..
  rw [hh] at ht ha hsh
  exact ⟨he.queue, he.active.trans (ha.trans hn.active), he.shadow.trans (hsh.trans hn.shadow), he.tiles.trans (ht.trans hn.tiles)⟩

/-- A drain writes the converted words of each row to the registers of the thread that owns it (R252). -/
theorem HeadDue.drain_register (hb : cmd.base % 16 = 0) (hn : cmd.slots.Nodup)
    (hc : c0 + (vy - vx + 1) * drainElems f ≤ 64)
    (hrows : ∀ r, r < 64 → cmd.rows.getLsbD r = true → cmd.base ≤ r ∧ (r - cmd.base) / 16 < cmd.slots.length)
    {r sl m : Nat} {sh : Sheaf} (hr : r < 64) (hm : cmd.rows.getLsbD r = true) (hsl : cmd.slots[(r - cmd.base) / 16]? = some sl)
    (hmn : m ≤ vy - vx) (hsh : sheafAt s cmd.tid sl = some sh) (ht : (Tbl.find sh.threads (r % 16)).isSome = true)
    (hs : ∀ h ∈ sh.spoilt, h.cmd ≠ cmd.id) :
    ∃ sh', sheafAt (performHead s k) cmd.tid sl = some sh' ∧ readKey sh' (.v (r % 16) (vx + m)) = drained f sat rm fun h =>
      Tbl.get 0 (coreOf s k).engine.tiles (i * 4096 + r * 64 + c0 + m * drainElems f + h) := by
  have how : rowOwner cmd r = (sl, r % 16) := by simp [rowOwner, List.getD, hsl]
  have hown : ∀ r' ∈ rowList cmd.rows, cmd.base ≤ r' ∧ (r' - cmd.base) / 16 < cmd.slots.length := fun r' hr' =>
    hrows r' ((mem_rowList _ _).mp hr').1 ((mem_rowList _ _).mp hr').2
  have hmem : r ∈ rowList cmd.rows := (mem_rowList _ _).mpr ⟨hr, hm⟩
  obtain ⟨b, hb', hv⟩ := readKey_drainRows cmd k i f sat rm vx vy c0 (headNoted s k cmd) (nodup_rowList cmd.rows) hmem how
    (fun r' hr' hne e => hne (rowOwner_inj hb hn (hown r hmem) (hown r' hr') (e.trans how.symm))) hsh hs ht (Nat.lt_succ_of_le hmn) hc
  have hd : sheafAt (doCmd (headNoted s k cmd) k t cmd) cmd.tid sl = some b := by
    rw [doCmd_drain _ _ _ hop, sheafAt_modTeam, if_pos rfl]
    exact hb'
  obtain ⟨sh', hsh', hk⟩ := h.readKey_performHead (h.drain_running hop) hd
  refine ⟨sh', hsh', ?_⟩
  rw [hk, hv, headNoted, engine_modEngine_self, (sameButJobs_noted cmd _).tiles]
end
end

/-! ### O43 -/

/-- What `mx.ldw` captures from team memory, no write being unfenced: the tile's bytes, its format, its scales (R248). -/
theorem loadPlane_shared (s : State) (t : Team) (e : Engine) {cmd : MxCmd} {a d sc : Word} (hl : cmd.looseB = [])
    (ha : ocSpace a = some .sh) (hsc : ocSpace sc = some .sh) :
    (loadPlane s t e cmd a d sc).tile = readBytes t.shared (ocOff a) 8192
    ∧ (loadPlane s t e cmd a d sc).scales = if bits d.toNat 23 16 = 0 then [leNat (readBytes t.shared (ocOff sc) 4)]
        else (readBytes t.shared (ocOff sc) (scaleBytes d true)).map (·.toNat) := by
  refine ⟨operandBytes_shared s t hl ha _, ?_⟩
  simp only [loadPlane, operandBytes_shared s t hl hsc]
  change (if dKind d = 0 then _ else _) = if dKind d = 0 then _ else _
  split
  · next hk => rw [scaleBytes, if_pos hk]; rfl
  · rfl

/-- Settles O43: the head of the queue leaves what its operation leaves, the jobs, the token and the end of the command apart; a re-run
leaves what it leaves of its own tile. -/
theorem engineEventsPerformTheirCommands : Obligations.EngineEventsPerformTheirCommands := by
  unfold Obligations.EngineEventsPerformTheirCommands
  refine ⟨by rfl, by rfl, by rfl, ?_⟩
  rintro s die core e rfl
  refine ⟨fun cmd rest t hq hb ht he => ?_, fun slot tid t j hslot hh ht hj hdue hr => ?_⟩
  · have hdue : (∀ i n, cmd.op ≠ .redo i n) → readsError s t (opReads cmd.op) = none → HeadDue s (coreKey die core) cmd rest t :=
      fun hop hr => ⟨hq, hb, ht, he, by rw [cmdReads_eq _ hop]; exact hr⟩
    refine ⟨fun i hop => ?_, fun hop => ?_, fun a d sc hop hl ha hsc hr => ?_, fun i p hop hp hr => ?_,
      fun i f sat rm vx vy c0 hop hbase hn _ hc hrows => ?_⟩
    · -- `mx.zero` (R253)
      have h := hdue (by simp [hop]) (by rw [hop]; rfl)
      obtain ⟨hw, hrest⟩ := h.zero hop
      refine ⟨_, _, rfl, rfl, hrest, hw.active, hw.shadow, fun r j hr hj hm => ?_, fun k hk => ?_,
        fun tk sl htk hsl sh hsh hret => h.zero_tokenDone hop htk hsl hsh hret⟩
      · have hmem : r ∈ rowList cmd.rows := (mem_rowList _ _).mpr ⟨hr, hm⟩
        refine ⟨?_, hw.bound hmem⟩
        rw [hw.word hmem hj, zeroWork, List.getD_replicate _ hj]
      · exact hw.tiles_mask fun r hr hm hkr => hk ⟨r, k % 64, hr, by omega, hm, by omega⟩
    · -- `mx.flip` (R249)
      have h := (hdue (by simp [hop]) (by rw [hop]; rfl)).flip hop
      exact ⟨_, _, rfl, rfl, h.queue, h.active, h.shadow, h.tiles, h.bounds⟩
    · -- `mx.ldw` (R248)
      obtain ⟨e, h⟩ := (hdue (by simp [hop]) (by rw [hop]; exact hr)).ldw hop
      obtain ⟨htile, hscales⟩ := loadPlane_shared (headNoted s (coreKey die core) cmd) t e (cmd := cmd) (d := d) hl ha hsc
      exact ⟨_, _, _, rfl, rfl, h.queue, h.active, h.shadow, h.tiles, h.bounds, rfl, rfl, rfl, htile, hscales⟩
    · -- a pass (R250, R251)
      have hredo : ∀ i n, cmd.op ≠ .redo i n := fun i n e => by rw [e] at hop; cases hop
      obtain ⟨hw, hrest⟩ := (hdue hredo hr).pass hop hp
      refine ⟨_, _, rfl, rfl, hrest, hw.active, hw.shadow, fun r hr hm => hw.rows r ((mem_rowList _ _).mpr ⟨hr, hm⟩),
        fun r j n hr hj hm hf hk hn => ?_, fun k hk => hw.tiles_mask hk, fun k hk => hw.bounds_mask hk⟩
      rw [hw.word ((mem_rowList _ _).mpr ⟨hr, hm⟩) hj, word_passWork_ints s t hf hk _ hr hj hn (length_tileRow ..)]
      simp [tileRow, upto, List.getD, hj]
    · -- a drain (R252)
      have h := hdue (by simp [hop]) (by rw [hop]; rfl)
      obtain ⟨hrest, hact, hsh, htiles⟩ := h.drain hop
      exact ⟨_, _, rfl, rfl, hrest, hact, hsh, htiles, fun r sl sh m hr hm hsl hmn hsh ht hs =>
        h.drain_register hop hbase hn hc hrows hr hm hsl hmn hsh ht hs⟩
  · -- the re-run of a job (R272, R273)
    subst hj
    obtain ⟨s', hs', hmem, hfree, hother, hqueue, hholder, htiles⟩ := execJobReRun_frame hslot hh ht hdue hr
    exact ⟨s', _, hs', rfl, hfree, hother, hqueue, hholder, htiles, hmem⟩

end Sys2Proof.Machine
end

section
/-! No post of a record writes FQTAIL, whatever else it resets or wakes: the supervisor alone consumes records (R382). -/

namespace Sys2Proof.Machine

/-- FQTAIL of each die that is there. -/
def fqtailAt (s : State) (die : Nat) : Option Word := (Tbl.find s.dies die).map (·.fqtail)

/-! ### The two ways in which dies change -/

theorem fqtailAt_of_dies {s t : State} (h : t.dies = s.dies) : fqtailAt t = fqtailAt s := by
  funext die; rw [fqtailAt, fqtailAt, h]

theorem fqtailAt_modDie (s : State) (k : Nat) {f : Die → Die} (hf : ∀ d, (f d).fqtail = d.fqtail) :
    fqtailAt (modDie s k f) = fqtailAt s := by
  funext die
  simp only [fqtailAt, modDie_dies, Tbl.find_modify]
  split
  · next h => rw [← h]; cases Tbl.find s.dies k <;> simp [hf]
  · rfl

theorem fqtailAt_modDie_trans {s t : State} (k : Nat) {f : Die → Die} (hf : ∀ d, (f d).fqtail = d.fqtail)
    (h : fqtailAt s = fqtailAt t) : fqtailAt (modDie s k f) = fqtailAt t := (fqtailAt_modDie s k hf).trans h

theorem Tbl.find_mapEntries {α β : Type} (t : Tbl α) (g : Nat × α → β) (k : Nat) :
    Tbl.find (t.map fun e => (e.1, g e) : Tbl β) k = (Tbl.find t k).map fun v => g (k, v) := by
  induction t with
  | nil => rfl
  | cons e t ih =>
    obtain ⟨i, w⟩ := e
    simp only [List.map_cons, Tbl.find]
    split
    · next h => subst h; rfl
    · exact ih

theorem fqtailAt_mapDies {s t : State} {g : Nat × Die → Die} (h : t.dies = s.dies.map fun e => (e.1, g e))
    (hg : ∀ e, (g e).fqtail = e.2.fqtail) : fqtailAt t = fqtailAt s := by
  funext die
  rw [fqtailAt, h, Tbl.find_mapEntries, Option.map_map]
  exact congrArg (Option.map · _) (funext fun d => hg (die, d))

theorem fqtailAt_foldl {α : Type} {f : State → α → State} (hf : ∀ s x, fqtailAt (f s x) = fqtailAt s) (l : List α) (s : State) :
    fqtailAt (l.foldl f s) = fqtailAt s :=
  List.foldlRecOn (motive := fun t => fqtailAt t = fqtailAt s) l f rfl fun t h x _ => (hf t x).trans h

@[simp] theorem fqtailAt_modTeam (s : State) (tid : Nat) (f : Team → Team) : fqtailAt (modTeam s tid f) = fqtailAt s := rfl

/-! ### Writes of main memory -/

@[simp] theorem fqtailAt_countDiscard (s : State) (a : Nat) : fqtailAt (countDiscard s a) = fqtailAt s :=
  fqtailAt_modDie s _ fun _ => rfl

@[simp] theorem fqtailAt_physLine (s : State) (a : Nat) (bs : List Byte) : fqtailAt (physLine s a bs) = fqtailAt s := by
  unfold physLine
  dsimp only
  split
  · exact fqtailAt_countDiscard s a
  · split
    · split
      · rfl
      · exact fqtailAt_countDiscard s a
    · rfl

theorem fqtailAt_physWriteN (n : Nat) (s : State) (a : Nat) (bs : List Byte) : fqtailAt (physWriteN n s a bs) = fqtailAt s := by
  induction n generalizing s a bs with
  | zero => rfl
  | succ n ih =>
    unfold physWriteN
    split
    · rfl
    · exact (ih ..).trans (fqtailAt_physLine ..)

@[simp] theorem fqtailAt_physWrite (s : State) (a : Nat) (bs : List Byte) : fqtailAt (physWrite s a bs) = fqtailAt s :=
  fqtailAt_physWriteN ..

@[simp] theorem fqtailAt_setDesc (s : State) (asid off v : Nat) : fqtailAt (setDesc s asid off v) = fqtailAt s :=
  fqtailAt_physWrite ..

/-! ### The update of a counter -/

theorem wake_dies (s : State) (r : EvReq) : (wake s r).dies = s.dies := by
  unfold wake
  split
  · rfl
  · split
    · rfl
    · unfold dropClean
      dsimp only
      split <;> split <;> rfl

@[simp] theorem fqtailAt_modHeads (s : State) (p : Die → Bool) (f : Card → Card) : fqtailAt (modHeads s p f) = fqtailAt s :=
  fqtailAt_mapDies rfl fun e => by split <;> rfl

@[simp] theorem fqtailAt_latchHeads (s : State) : fqtailAt (latchHeads s) = fqtailAt s := fqtailAt_modHeads ..
@[simp] theorem fqtailAt_headsNaming (s : State) (ctr : Nat) : fqtailAt (headsNaming s ctr) = fqtailAt s := fqtailAt_modHeads ..

@[simp] theorem fqtailAt_ctrUpdate (s : State) (ctr : Nat) (f : Word → Word) : fqtailAt (ctrUpdate s ctr f) = fqtailAt s := by
  unfold ctrUpdate
  dsimp only
  rw [fqtailAt_latchHeads, fqtailAt_headsNaming, fqtailAt_foldl fun s r => fqtailAt_of_dies (wake_dies s r)]
  exact fqtailAt_modDie s _ fun _ => rfl

/-! ### The reset of a context -/

@[simp] theorem fqtailAt_hostRecord (s : State) (card kind code reason : Nat) :
    fqtailAt (hostRecord s card kind code reason) = fqtailAt s := rfl

@[simp] theorem fqtailAt_childGone (s : State) (p : Option Nat) : fqtailAt (childGone s p) = fqtailAt s := by
  cases p with
  | none => rfl
  | some p => exact fqtailAt_modDie s _ fun _ => rfl

@[simp] theorem fqtailAt_tellLauncher (s : State) (addr code reason : Nat) (l : LaunchFrom) :
    fqtailAt (tellLauncher s addr code reason l) = fqtailAt s := by
  cases l <;> rfl

@[simp] theorem fqtailAt_cancelCard (s : State) (c : Card) : fqtailAt (cancelCard s c) = fqtailAt s := by
  rw [cancelCard, fqtailAt_childGone, fqtailAt_tellLauncher]

@[simp] theorem fqtailAt_cancelReq (s : State) (r : CardReq) : fqtailAt (cancelReq s r) = fqtailAt s := by
  rw [cancelReq, fqtailAt_childGone, fqtailAt_tellLauncher]
  exact fqtailAt_modDie s _ fun _ => rfl

@[simp] theorem fqtailAt_resetLaunch (s : State) (asid : Nat) : fqtailAt (resetLaunch s asid) = fqtailAt s := by
  unfold resetLaunch
  dsimp only
  rw [fqtailAt_foldl, fqtailAt_foldl fqtailAt_cancelReq]
  · rfl
  · intro s d
    exact fqtailAt_modDie_trans _ (fun _ => rfl) (fqtailAt_foldl fqtailAt_cancelCard _ s)

@[simp] theorem fqtailAt_resetTeams (s : State) (asid : Nat) : fqtailAt (resetTeams s asid) = fqtailAt s :=
  fqtailAt_mapDies rfl fun _ => rfl

@[simp] theorem fqtailAt_tlbDropAsid (s : State) (asid : Nat) : fqtailAt (tlbDropAsid s asid) = fqtailAt s := rfl

@[simp] theorem fqtailAt_clearRes (s : State) (asid : Nat) : fqtailAt (clearRes s asid) = fqtailAt s :=
  fqtailAt_foldl (fun s _ => fqtailAt_setDesc s ..) _ s

@[simp] theorem fqtailAt_stopContext (s : State) (asid cstate : Nat) : fqtailAt (stopContext s asid cstate) = fqtailAt s :=
  (fqtailAt_setDesc ..).trans (fqtailAt_foldl (fun s _ => fqtailAt_setDesc s ..) _ s)

section
variable {p : State → Nat → FRec → State} (hp : ∀ s die r, fqtailAt (p s die r) = fqtailAt s)
include hp

theorem fqtailAt_resetWith (s : State) (asid reason : Nat) : fqtailAt (resetWith p s asid reason) = fqtailAt s := by
  rw [resetWith, hp, fqtailAt_stopContext]
  exact (fqtailAt_setDesc ..).trans (by simp)

theorem fqtailAt_resetEvery (s : State) (reason : Nat) : fqtailAt (resetEvery p s reason) = fqtailAt s := by
  rw [resetEvery, fqtailAt_hostRecord, fqtailAt_foldl fun s a => fqtailAt_resetWith hp s a reason]
end

/-! ### Posts -/

@[simp] theorem fqtailAt_recordAt (s : State) (die pa : Nat) (r : FRec) : fqtailAt (recordAt s die pa r) = fqtailAt s :=
  fqtailAt_modDie_trans _ (fun _ => rfl) (fqtailAt_physWrite ..)

theorem fqtailAt_postWith {f : State → Nat → State} (hf : ∀ s die, fqtailAt (f s die) = fqtailAt s) (s : State) (die : Nat)
    (r : FRec) :
    fqtailAt (postWith f s die r) = fqtailAt s := by
  unfold postWith
  split
  · rw [hf, fqtailAt_recordAt]
  · split <;> exact fqtailAt_modDie s _ fun _ => rfl

/-- Every context is reset after a post that no event follows (R479). -/
@[simp] theorem fqtailAt_resetEvery_postWith (s : State) (reason : Nat) :
    fqtailAt (resetEvery (postWith fun s _ => s) s reason) = fqtailAt s :=
  fqtailAt_resetEvery (fqtailAt_postWith fun _ _ => rfl) s reason

@[simp] theorem fqtailAt_postEvent (s : State) (die : Nat) : fqtailAt (postEvent s die) = fqtailAt s := by
  unfold postEvent
  dsimp only
  split
  · rfl
  · split
    · exact fqtailAt_resetEvery_postWith s 2
    · split
      · rfl
      · rw [fqtailAt_ctrUpdate]
        split
        · rfl
        · exact fqtailAt_modDie s _ fun _ => rfl

@[simp] theorem fqtailAt_post (s : State) (die : Nat) (r : FRec) : fqtailAt (post s die r) = fqtailAt s := by
  have hw := fqtailAt_postWith fqtailAt_postEvent s die r
  unfold post
  dsimp only
  split
  · exact (fqtailAt_resetEvery_postWith ..).trans hw
  · exact hw

@[simp] theorem fqtailAt_attach (s : State) (die : Nat) (e : FEntry) (w : Stalled) : fqtailAt (attach s die e w) = fqtailAt s := by
  have hd : ∀ f : FEntry → FEntry, fqtailAt (modDie s die fun d => { d with ftable := d.ftable.map f }) = fqtailAt s :=
    fun _ => fqtailAt_modDie s _ fun _ => rfl
  unfold attach
  dsimp only
  split
  · exact hd _
  · split
    · exact hd _
    · split
      · exact (fqtailAt_physWrite ..).trans (hd _)
      · exact (fqtailAt_resetEvery_postWith ..).trans (hd _)
      · exact hd _

@[simp] theorem fqtailAt_postFault (s : State) (die : Nat) (r : FRec) : fqtailAt (postFault s die r) = fqtailAt s := by
  unfold postFault
  dsimp only
  split
  · exact fqtailAt_attach ..
  · split
    · exact fqtailAt_modDie s _ fun _ => rfl
    · exact (fqtailAt_post ..).trans (fqtailAt_modDie s _ fun _ => rfl)

@[simp] theorem fqtailAt_retryPosts (p : PostWait → Bool) (s : State) (die : Nat) : fqtailAt (retryPosts p s die) = fqtailAt s := by
  unfold retryPosts
  refine (fqtailAt_foldl (fun s r => ?_) _ _).trans (fqtailAt_modDie s _ fun _ => rfl)
  split
  · exact fqtailAt_postFault ..
  · exact fqtailAt_post ..

theorem fqtail_of_fqtailAt {s : State} {die : Nat} {w : Word} (h : fqtailAt s die = some w) : (dieOf s die).fqtail = w := by
  obtain ⟨d, hd, rfl⟩ := Option.map_eq_some_iff.mp h
  rw [dieOf, hd]; rfl

end Sys2Proof.Machine
end

section
/-! A write of a fault queue register where no source waits to post: the register alone changes (R367). -/

namespace Sys2Proof.Machine
open Sys2Proof.Claims

section
variable {s : State} {die : Nat} {d : Die} (hd : Tbl.find s.dies die = some d)
include hd

theorem dieOf_of_find : dieOf s die = d := by rw [dieOf, hd]; rfl

theorem find_modDie_self (f : Die → Die) : Tbl.find (modDie s die f).dies die = some (f d) := by
  rw [modDie_dies, Tbl.find_modify_self, hd]; rfl

theorem modDie_congr {f g : Die → Die} (h : f d = g d) : modDie s die f = modDie s die g := by
  simp only [modDie, Tbl.modify, hd, h]

/-- Nothing waits, and the die is left as it is. -/
theorem retryPosts_idle (hp : d.toPost = []) (p : PostWait → Bool) : retryPosts p s die = modDie s die id := by
  rw [retryPosts, dieOf_of_find hd, hp]
  exact modDie_congr hd (by rw [hp, List.filter_nil, id, ← hp])

theorem onlyDie_retryPosts {f : Die → Die} (hp : (f d).toPost = []) (p : PostWait → Bool) :
    onlyDie s (retryPosts p (modDie s die f) die) die (f d) := by
  have hf := find_modDie_self hd f
  rw [retryPosts_idle hf hp]
  refine ⟨find_modDie_self hf id, fun k hk => ?_, rfl⟩
  rw [modDie_dies, modDie_dies, Tbl.find_modify_other _ _ hk, Tbl.find_modify_other _ _ hk]
end

/-- The two spellings of a legal ring size: 0, or a power of two from 16 to 65,536 (R367). -/
theorem ringLegal_eq (v : Word) :
    (v.toNat == 0 || (decide (16 ≤ v.toNat) && decide (v.toNat ≤ 65536) && v.toNat == 2 ^ Nat.log2 v.toNat)) = ringLegal v := by
  rw [Bool.eq_iff_iff]
  simp only [ringLegal, Bool.or_eq_true, beq_iff_eq, Bool.and_eq_true, decide_eq_true_eq, List.any_eq_true, mem_upto]
  refine or_congr ⟨fun h => BitVec.eq_of_toNat_eq h, fun h => by rw [h]; rfl⟩ ⟨?_, ?_⟩
  · rintro ⟨⟨hlo, hhi⟩, hpow⟩
    have h4 : 4 ≤ Nat.log2 v.toNat := (Nat.le_log2 (by omega)).mpr hlo
    have h16 : Nat.log2 v.toNat ≤ 16 := (Nat.pow_le_pow_iff_right (a := 2) (by omega)).mp (by omega)
    exact ⟨Nat.log2 v.toNat - 4, by omega, by rwa [Nat.sub_add_cancel h4]⟩
  · rintro ⟨n, hn, hv⟩
    have hlo : 2 ^ 4 ≤ 2 ^ (n + 4) := Nat.pow_le_pow_right (by omega) (by omega)
    have hhi : 2 ^ (n + 4) ≤ 2 ^ 16 := Nat.pow_le_pow_right (by omega) (by omega)
    rw [hv, Nat.log2_two_pow]
    exact ⟨⟨hlo, hhi⟩, rfl⟩

/-- A value of FQTAIL as the device stores it (R382). -/
theorem fqtail_setFqtail {s : State} {die : Nat} {d : Die} (hd : Tbl.find s.dies die = some d) (v : Word) :
    (dieOf (setFqtail s die v) die).fqtail = if d.fqsize.toNat < (d.fqhead - v).toNat then d.fqtail else v :=
  fqtail_of_fqtailAt (by rw [setFqtail, fqtailAt_retryPosts, fqtailAt, find_modDie_self hd]; rfl)

end Sys2Proof.Machine
end

section
/-! The resume and the end action on the record of a stopped copy (R383), and O52. -/

namespace Sys2Proof.Machine
open Sys2Proof.Claims

/-! ### The action on a record -/

/-- The record of a sequence number has left the ones to be acted on. -/
def Die.answered (seq : Nat) (d : Die) : Die := { d with posted := d.posted.filter fun y => y.seq != seq }

section
variable {s : State} {die seq : Nat} {d : Die} {r : FRec} (hd : Tbl.find s.dies die = some d) (hp : d.toPost = [])
  (hf : d.ftable = []) (hr : d.posted.find? (fun y => y.seq == seq) = some r) (ha : r.acted = false)
  {f : State → Stalled → State} (hdies : (f (modDie s die (Die.answered seq)) r.work).dies = (modDie s die (Die.answered seq)).dies)
include hd hp hf hr ha hdies

/-- Where the fault table is empty and no source waits, the action reaches the record's own work alone. -/
theorem actOn_single : actOn s die seq f = modDie (f (modDie s die (Die.answered seq)) r.work) die id := by
  have hgone : modDie s die (fun d => { d with
      posted := d.posted.filter fun x => x.seq != seq
      ftable := d.ftable.filter fun e => !(e.seq == seq && e.work.contains r.work) }) = modDie s die (Die.answered seq) :=
    modDie_congr hd (by simp only [Die.answered, hf, List.filter_nil])
  have hfind : Tbl.find (f (modDie s die (Die.answered seq)) r.work).dies die = some (Die.answered seq d) := by
    rw [hdies]; exact find_modDie_self hd _
  simp only [actOn, dieOf_of_find hd, hr, ha, hgone, hf, List.filter_nil, List.flatMap_nil, List.foldl_cons, List.foldl_nil]
  exact retryPosts_idle hfind hp _

/-- The record is answered once. -/
theorem posted_actOn_single : ∀ y ∈ (dieOf (actOn s die seq f) die).posted, y.seq ≠ seq := by
  have hfind : Tbl.find (f (modDie s die (Die.answered seq)) r.work).dies die = some (Die.answered seq d) := by
    rw [hdies]; exact find_modDie_self hd _
  rw [actOn_single hd hp hf hr ha hdies, dieOf_of_find (find_modDie_self hfind id)]
  exact fun y hy => by simpa using (List.mem_filter.mp hy).2
end

/-! ### The queue of a core's streamer -/

theorem queueOf_modQueue_streamer (s : State) (die core : Nat) (f : List CopyCmd → List CopyCmd) :
    queueOf (modQueue s ⟨false, die, core⟩ f) ⟨false, die, core⟩ = f (queueOf s ⟨false, die, core⟩) := by
  simp [queueOf, modQueue, coreOf_modCore]

theorem onCopy_head {s : State} {k : EngineKey} {x : CopyCmd} {rest : List CopyCmd} (hq : queueOf s k = x :: rest)
    (f : CopyCmd → State) : onCopy s k x.id f = f x := by
  simp [onCopy, hq]

/-- A stopped fill resumes: it goes on from its chunk, and its team counts it (R230, R235). -/
theorem resumeCopy_fillOc {s : State} {k : EngineKey} {x : CopyCmd} {rest : List CopyCmd} (hq : queueOf s k = x :: rest)
    (hk : x.kind = .fillOc) :
    resumeCopy s k x.id = modTeam (putCmd s k { x with stopped := false }) x.tid (count 12 1) := by
  rw [resumeCopy, onCopy_head hq, hk]

theorem endCopy_fillOc {s : State} {k : EngineKey} {x : CopyCmd} {rest : List CopyCmd} (hq : queueOf s k = x :: rest)
    (hk : x.kind = .fillOc) : endCopy s k x.id = finishCopy s k x 5 := by
  rw [endCopy, onCopy_head hq, hk]

section
variable {s : State} {die core : Nat} {x : CopyCmd} {rest : List CopyCmd} (hq : queueOf s ⟨false, die, core⟩ = x :: rest)
  (hid : ∀ y ∈ rest, y.id ≠ x.id)
include hq hid

theorem queueOf_putCmd_head {y : CopyCmd} (hy : y.id = x.id) :
    queueOf (putCmd s ⟨false, die, core⟩ y) ⟨false, die, core⟩ = y :: rest := by
  rw [putCmd, queueOf_modQueue_streamer, hq, List.map_cons, if_pos hy.symm]
  have hrest : rest.map (fun z => if z.id = y.id then y else z) = rest.map id :=
    List.map_congr_left fun z hz => if_neg fun h => hid z hz (h.trans hy)
  rw [hrest, List.map_id]

theorem queueOf_filter_head :
    queueOf (modQueue s ⟨false, die, core⟩ fun l => l.filter fun y => y.id != x.id) ⟨false, die, core⟩ = rest := by
  rw [queueOf_modQueue_streamer, hq, List.filter_cons_of_neg (by simp), List.filter_eq_self]
  exact fun y hy => by simpa using hid y hy
end

/-! ### The end of a copy (R224, R227, R235) -/

/-- What the end of a copy does to its team, its token apart: the count and the ring slot. -/
def CopyCmd.tally (c : CopyCmd) (status : Nat) (t : Team) : Team :=
  let t1 := if status = 0 then t else count 13 1 t
  match c.ring with
  | none => t1
  | some r => setRing t1 r (turnRing { ringAt t1 r with oc := (ringAt t1 r).oc - 1 })

theorem CopyCmd.tally_sheaves (c : CopyCmd) (status : Nat) (t : Team) : (c.tally status t).sheaves = t.sheaves := by
  unfold CopyCmd.tally
  cases c.ring with
  | none => dsimp only; split <;> rfl
  | some r => dsimp only [setRing]; split <;> rfl

theorem CopyCmd.tally_ended (c : CopyCmd) (status : Nat) (t : Team) : (c.tally status t).ended = t.ended := by
  unfold CopyCmd.tally
  cases c.ring with
  | none => dsimp only; split <;> rfl
  | some r => dsimp only [setRing]; split <;> rfl

/-- The ring slot is lowered, and turned where the slot is sealed and this was its last command. -/
theorem CopyCmd.ringAt_tally {c : CopyCmd} {r : Nat} (hr : c.ring = some r) (status : Nat) (t : Team) (hoc : 0 < (ringAt t r).oc) :
    ringAt (c.tally status t) r = if (ringAt t r).se = true ∧ (ringAt t r).oc = 1 then ⟨!(ringAt t r).ph, false, 0⟩
      else { ringAt t r with oc := (ringAt t r).oc - 1 } := by
  have hcount : ringAt (if status = 0 then t else count 13 1 t) r = ringAt t r := by split <;> rfl
  have hset : ∀ (t : Team) (v : RingSt), ringAt (setRing t r v) r = v := fun _ _ => Tbl.get_set_self ..
  simp only [CopyCmd.tally, hr, hset, hcount, turnRing]
  generalize ringAt t r = slot at hoc ⊢
  obtain ⟨ph, se, oc⟩ := slot
  cases se with
  | false => simp
  | true =>
    by_cases h1 : oc = 1
    · simp [h1]
    · have hpos : 0 < oc := hoc
      simp [h1, show oc - 1 ≠ 0 by omega]

/-- What the completion of a token does to the team of its sheaf (`completeTok`). -/
def Team.tokenCompleted (slot tk status : Nat) (t : Team) : Team :=
  match Tbl.find t.sheaves slot with
  | some sh => if sh.retired then t else { t with
      sheaves := Tbl.modify t.sheaves slot fun sh => setTok sh tk ⟨false, status⟩
      returning := t.returning || (t.out && tokenWaited sh tk) }
  | none => t

theorem completeTok_eq (s : State) (tid slot tk status : Nat) :
    completeTok s tid slot tk status = modTeam s tid (Team.tokenCompleted slot tk status) := rfl

theorem Team.tokenCompleted_ended (slot tk status : Nat) (t : Team) : (t.tokenCompleted slot tk status).ended = t.ended := by
  unfold Team.tokenCompleted
  split
  · split <;> rfl
  · rfl

theorem Team.tokenCompleted_rings (slot tk status : Nat) (t : Team) : (t.tokenCompleted slot tk status).rings = t.rings := by
  unfold Team.tokenCompleted
  split
  · split <;> rfl
  · rfl

theorem Team.find_tokenCompleted {slot : Nat} {t : Team} {sh : Sheaf} (h : Tbl.find t.sheaves slot = some sh) (hr : sh.retired = false)
    (tk status : Nat) : Tbl.find (t.tokenCompleted slot tk status).sheaves slot = some (setTok sh tk ⟨false, status⟩) := by
  simp [Team.tokenCompleted, h, hr]

/-- All that the end of a copy does to its team. -/
def CopyCmd.ends (c : CopyCmd) (status : Nat) (t : Team) : Team := c.tally status (t.tokenCompleted c.slot c.tk status)

section
variable {s : State} {die core : Nat} {x : CopyCmd} {rest : List CopyCmd} {tm : Team} (ht : Tbl.find s.teams x.tid = some tm)
  (he : tm.ended = false)
include ht he

/-- A team that runs is not reaped with its copy. -/
theorem finishCopy_of_running (status : Nat) : finishCopy s ⟨false, die, core⟩ x status
    = modTeam (completeTok (modQueue s ⟨false, die, core⟩ fun l => l.filter fun y => y.id != x.id) x.tid x.slot x.tk status)
        x.tid (x.tally status) := by
  have hrun : Running (modQueue s ⟨false, die, core⟩ fun l => l.filter fun y => y.id != x.id) x.tid := ⟨tm, ht, he⟩
  exact reapTeam_of_running ((hrun.modTeam x.tid _ (Team.tokenCompleted_ended x.slot x.tk status)).modTeam x.tid _
    (x.tally_ended status))

theorem finishCopy_dies (status : Nat) : (finishCopy s ⟨false, die, core⟩ x status).dies = s.dies := by
  rw [finishCopy_of_running ht he]; rfl

theorem find_finishCopy (status : Nat) :
    Tbl.find (finishCopy s ⟨false, die, core⟩ x status).teams x.tid = some (x.ends status tm) := by
  rw [finishCopy_of_running ht he, completeTok_eq, modTeam_teams, Tbl.find_modify_self, modTeam_teams, Tbl.find_modify_self]
  exact congrArg (Option.map _ ∘ Option.map _) ht

theorem commandDone_finishCopy (hq : queueOf s ⟨false, die, core⟩ = x :: rest) (hid : ∀ y ∈ rest, y.id ≠ x.id) (status : Nat) :
    commandDone s (finishCopy s ⟨false, die, core⟩ x status) ⟨false, die, core⟩ x rest status := by
  have hfind := find_finishCopy (die := die) (core := core) ht he status
  refine ⟨?_, fun sh hsh hr => ⟨setTok sh x.tk ⟨false, status⟩, ?_, ?_⟩, ?_, fun r tm₀ tm' hring h₀ htm' hoc => ?_⟩
  · rw [finishCopy_of_running ht he]
    exact queueOf_filter_head hq hid
  · rw [sheafAt, ht] at hsh
    rw [sheafAt, hfind, Option.bind_some, CopyCmd.ends, CopyCmd.tally_sheaves]
    exact Team.find_tokenCompleted hsh hr x.tk status
  · rw [tokAt, setTok, Tbl.get_set_self]
  · rw [finishCopy_of_running ht he]; rfl
  · obtain rfl : tm = tm₀ := Option.some.inj (ht.symm.trans h₀)
    obtain rfl : x.ends status tm = tm' := Option.some.inj (hfind.symm.trans htm')
    have hsame : ringAt (tm.tokenCompleted x.slot x.tk status) r = ringAt tm r := by
      rw [ringAt, ringAt, Team.tokenCompleted_rings]
    rw [CopyCmd.ends, CopyCmd.ringAt_tally hring status _ (by rwa [hsame]), hsame]
end

/-! ### O52 -/

/-- Settles O52: no post writes FQTAIL, so that what the write stores stands whatever the waiting sources then do; where none waits the
register alone changes, and an action on a record reaches its own copy. -/
theorem faultQueueIsServed : Obligations.FaultQueueIsServed := by
  unfold Obligations.FaultQueueIsServed
  refine ⟨fun s die d v hd => ⟨_, rfl, fqtail_setFqtail hd v⟩, fun s die d hd hp => ⟨fun v => ⟨_, rfl, ?_⟩, fun v => ⟨_, rfl, ?_⟩,
    fun v => ⟨_, rfl, ?_⟩, fun seq r core x rest tm hr ha hw hq hid hk hf ht he => ⟨?_, ?_⟩⟩⟩
  · -- FQSIZE
    rw [← ringLegal_eq]
    exact onlyDie_retryPosts hd hp _
  · -- FQBASE
    exact onlyDie_retryPosts hd hp _
  · -- FQTAIL
    exact onlyDie_retryPosts hd hp _
  · -- resume
    have hact : resumeWork (modDie s die (Die.answered seq)) r.work
        = modTeam (putCmd (modDie s die (Die.answered seq)) ⟨false, die, core⟩ { x with stopped := false }) x.tid (count 12 1) := by
      rw [hw]; exact resumeCopy_fillOc hq hk
    have hdies : (resumeWork (modDie s die (Die.answered seq)) r.work).dies = (modDie s die (Die.answered seq)).dies := by
      rw [hact]; rfl
    refine ⟨_, rfl, ?_, posted_actOn_single hd hp hf hr ha hdies, ?_⟩
    · rw [actOn_single hd hp hf hr ha hdies, hact]
      exact queueOf_putCmd_head (s := modDie s die (Die.answered seq)) hq hid rfl
    · rw [actOn_single hd hp hf hr ha hdies, hact]; rfl
  · -- end
    have hact : endWork (modDie s die (Die.answered seq)) r.work
        = finishCopy (modDie s die (Die.answered seq)) ⟨false, die, core⟩ x 5 := by
      rw [hw]; exact endCopy_fillOc hq hk
    have hdies : (endWork (modDie s die (Die.answered seq)) r.work).dies = (modDie s die (Die.answered seq)).dies := by
      rw [hact]; exact finishCopy_dies (s := modDie s die (Die.answered seq)) ht he 5
    refine ⟨_, rfl, ?_, posted_actOn_single hd hp hf hr ha hdies⟩
    rw [actOn_single hd hp hf hr ha hdies, hact]
    exact commandDone_finishCopy (s := modDie s die (Die.answered seq)) ht he hq hid 5

end Sys2Proof.Machine
end
